-- ==== Sys2Proof/Word.lean ====
section
/-! DEFINITION. The word types of PPU-PR (spec/00_scope.md rule R10): a byte is a depth value, an
indexed pixel or a VRAM cell; a half is a packed colour or a tile reference; a word is one word of a
command packet. -/

namespace Sys2Proof

abbrev Byte := BitVec 8

abbrev Half := BitVec 16

abbrev Word := BitVec 32

end Sys2Proof
end

