-- ==== Sys2Proof/Config.lean ====
section
/-! DEFINITION. The parameter record of spec/00_scope.md rule R9, and the free values: values the
spec leaves unspecified, on which no proof can lean. -/

namespace Sys2Proof

/-- `PIXFMT`: the bit layout of a packed colour (rules R9, R140). -/
inductive PixFmt where
  | rgb555
  | rgb565
  deriving DecidableEq, Repr

/-- The four Mode-7 repeat policies (rules R125, R234). -/
inductive M7Policy where
  | transparent
  | edge
  | wrap
  | fixedTile
  deriving DecidableEq, Repr

/-- `M7_POLICY`: the policy each value of `CTX.M7REPEAT` selects (rules R9, R125). -/
structure M7PolicyMap where
  p0 : M7Policy
  p1 : M7Policy
  p2 : M7Policy
  p3 : M7Policy
  deriving DecidableEq, Repr

/-- `Convert`, the pluggable bit-depth converter (rules R9, R196): the default planar layout, or
another function, one of a family without a body (assumption 3). -/
inductive Converter where
  | planar
  | plugged (id : Nat)
  deriving DecidableEq, Repr

/-- The parameter record of rule R9. `none` in a capacity is `unbounded`. `mapBit` is the lowest of the
three map bits of a tile reference, whose position rule R120 makes a parameter too (assumption 23). -/
structure Params where
  pixfmt : PixFmt
  bufsz : Nat
  lines : Nat
  milestones : List Nat
  capTiles : Option Nat
  capPals : Option Nat
  capRefs : Option Nat
  sdSelectBit : Nat
  hflipBit : Nat
  vflipBit : Nat
  mapBit : Nat
  m7Policy : M7PolicyMap
  m7Bg1Zofs : Byte
  convert : Converter
  deriving DecidableEq, Repr

/-- The default column of rule R9, and the default position of the map bits (rule R120). -/
def Params.standard : Params where
  pixfmt := .rgb565
  bufsz := 245760
  lines := 240
  milestones := [1, 10, 100, 1000]
  capTiles := none
  capPals := none
  capRefs := none
  sdSelectBit := 5
  hflipBit := 14
  vflipBit := 15
  mapBit := 10
  m7Policy := ⟨.transparent, .edge, .wrap, .fixedTile⟩
  m7Bg1Zofs := 7
  convert := .planar

/-- A capacity of rule R9: positive, or unbounded. -/
def Params.capOk : Option Nat → Bool
  | none => true
  | some n => decide (0 < n)

/-- Strictly increasing. -/
def Params.increasing : List Nat → Bool
  | [] => true
  | [_] => true
  | a :: b :: t => decide (a < b) && Params.increasing (b :: t)

/-- The legal-values column of rule R9, and map bits above the tile index (assumption 23). -/
def Params.wf (P : Params) : Bool :=
  decide (0 < P.bufsz) && decide (0 < P.lines)
    && P.milestones.all (fun m => decide (0 < m)) && Params.increasing P.milestones
    && Params.capOk P.capTiles && Params.capOk P.capPals && Params.capOk P.capRefs
    && decide (P.sdSelectBit < 8)
    && decide (10 ≤ P.hflipBit ∧ P.hflipBit ≤ 15) && decide (10 ≤ P.vflipBit ∧ P.vflipBit ≤ 15)
    && decide (P.hflipBit ≠ P.vflipBit) && decide (10 ≤ P.mapBit ∧ P.mapBit ≤ 13)

namespace Config

/-- DESIGN CHOICE (assumption 6). FREE VALUE: the unspecified contents of a screen cell (rules R176
and R305), drawn afresh with a counter. It has no body, so nothing can be proved of its value. -/
opaque freeHalf : Nat → Half

/-- DESIGN CHOICE (assumption 7). FREE VALUE: the unspecified contents of a depth cell after
`F_BUF_RANGE` (rule R305). -/
opaque freeByte : Nat → Byte

/-- DESIGN CHOICE (assumption 5). FREE VALUE: the unspecified contents of the `w`-bit cell at `index`
of a memory that a hardware reset has scrambled, `draw` telling the resets and the memories apart (rule
R75). -/
opaque freeCell (w draw index : Nat) : BitVec w

/-- DESIGN CHOICE (assumption 3). FREE VALUE: byte `k` of `Convert(bpp, VRAM, addr)` for the converter
`id` that is not the default: any total function of the bit depth, the 65,536 cells of `VRAM` and the
address (rule R9). -/
opaque pluggedPixel (id bpp : Nat) (vram : Nat → Byte) (addr k : Nat) : Byte

end Config

end Sys2Proof
end

