-- ==== Sys2Proof/Syntax.lean ====
section
/-! DEFINITION. The 41 commands of PPU-PR as syntax (spec/30_encoding.md rule R113), the enumerants
their operands use, and the packet that carries one command (rule R110). -/

namespace Sys2Proof

/-- The nine math modes, numbered 0 to 8 in this order (rule R122). -/
inductive MathMode where
  | none
  | add
  | addf
  | adds
  | sub
  | subf
  | subs
  | addb
  | addbs
  deriving DecidableEq, Repr

/-- The five addressing modes, numbered 0 to 4 in this order (rule R123). -/
inductive AddrMode where
  | n1x1
  | n2x1
  | int
  | hires
  | hiresint
  deriving DecidableEq, Repr

/-- The shape enumerant, which names the TR command that made a reference (rule R124). -/
inductive Shape where
  | tile
  | clip
  | mospix
  | backdrop
  | m7bg1
  | m7bg2
  | m7mbg1
  | m7mbg2
  deriving DecidableEq, Repr

/-- The 34 context registers, numbers 0x00 to 0x21 in this order (rule R40). -/
inductive CtxReg where
  | status
  | target
  | clip
  | fixedcol
  | rsel
  | tileaddr
  | namesel
  | bpp
  | palshift
  | palmask
  | startpal
  | direct
  | iline
  | z1
  | z2
  | starty
  | endy
  | fbd
  | m7repeat
  | hmosaic
  | vmosaic
  | mosaicstart
  | origin
  | ppl
  | rppl
  | capen
  | frame
  | shotid
  | ntiles
  | npals
  | nrefs
  | scsel
  | tcsel
  | decodecnt
  deriving DecidableEq, Repr

/-- One command packet: eight 32-bit words, `w0` the header (rule R110). -/
structure Packet where
  w0 : Word
  w1 : Word
  w2 : Word
  w3 : Word
  w4 : Word
  w5 : Word
  w6 : Word
  w7 : Word
  deriving DecidableEq, Repr

/-- One constructor per row of spec/opcode_table.json, its operands at the widths of rule R114. -/
inductive Instr where
  | sysNop
  | sysRst
  | sysCtxwr (reg : CtxReg) (value : Word)
  | sysCtxrd (reg : CtxReg)
  | sysFramestart
  | rdSelect (math : MathMode) (addr : AddrMode)
  | cmAdd (c1 c2 : Half)
  | cmAddh (c1 c2 : Half)
  | cmSub (c1 c2 : Half)
  | cmSubh (c1 c2 : Half)
  | cmAddb (c1 c2 : Half)
  | cmAddbh (c1 c2 : Half)
  | blendNone (main sub : Half) (sd : Byte)
  | blendAdd (main sub : Half) (sd : Byte)
  | blendAddf (main sub : Half) (sd : Byte)
  | blendAdds (main sub : Half) (sd : Byte)
  | blendSub (main sub : Half) (sd : Byte)
  | blendSubf (main sub : Half) (sd : Byte)
  | blendSubs (main sub : Half) (sd : Byte)
  | blendAddb (main sub : Half) (sd : Byte)
  | blendAddbs (main sub : Half) (sd : Byte)
  | plotN1x1 (n m offset oil : Word) (pix z1 z2 : Byte)
  | plotN2x1 (n m offset oil : Word) (pix z1 z2 : Byte)
  | plotInt (n m offset oil : Word) (pix z1 z2 : Byte)
  | plotHires (n m offset oil : Word) (pix z1 z2 : Byte)
  | plotHiresint (n m offset oil : Word) (pix z1 z2 : Byte)
  | tcResolve (tileRef : Half)
  | tcSelpal (tileRef : Half)
  | trTile (tile : Half) (offset : Word) (startLine : BitVec 6) (lineCount : BitVec 4)
  | trClip (tile : Half) (offset : Word) (startPixel : BitVec 3) (width : BitVec 4)
      (startLine : BitVec 6) (lineCount : BitVec 4)
  | trMospix (tile : Half) (offset : Word) (startLine : BitVec 6) (startPixel : BitVec 3)
      (width lineCount : Half)
  | trBackdrop (offset : Word) (left right : Half)
  | trM7bg1 (left right : Half) (d : Byte)
  | trM7bg2 (left right : Half) (d : Byte)
  | trM7mbg1 (left right : Half) (d : Byte)
  | trM7mbg2 (left right : Half) (d : Byte)
  | csReset
  | csAck
  | csRdtile (id : Word)
  | csRdpal (id : Word)
  | csRdref (id : Word)
  deriving DecidableEq, Repr

end Sys2Proof
end

