-- ==== Sys2Proof/WellFormed.lean ====
section
/-! DEFINITION. Which terms of `Instr` a packet can carry: the operand ranges of
spec/30_encoding.md rule R114 that the operand's type does not already give. -/

namespace Sys2Proof

/-- `StartLine` is one of 0, 8, ..., 56 (rule R114). -/
def startLineOk (sl : BitVec 6) : Bool := decide (sl.toNat % 8 = 0)

/-- `LineCount` and the `Width` of TR.CLIP are 0 to 8 (rule R114). -/
def upTo8 (v : BitVec 4) : Bool := decide (v.toNat ≤ 8)

def Instr.wf : Instr → Bool
  | .sysNop => true
  | .sysRst => true
  | .sysCtxwr _ _ => true
  | .sysCtxrd _ => true
  | .sysFramestart => true
  | .rdSelect _ _ => true
  | .cmAdd _ _ => true
  | .cmAddh _ _ => true
  | .cmSub _ _ => true
  | .cmSubh _ _ => true
  | .cmAddb _ _ => true
  | .cmAddbh _ _ => true
  | .blendNone _ _ _ => true
  | .blendAdd _ _ _ => true
  | .blendAddf _ _ _ => true
  | .blendAdds _ _ _ => true
  | .blendSub _ _ _ => true
  | .blendSubf _ _ _ => true
  | .blendSubs _ _ _ => true
  | .blendAddb _ _ _ => true
  | .blendAddbs _ _ _ => true
  | .plotN1x1 _ _ _ _ _ _ _ => true
  | .plotN2x1 _ _ _ _ _ _ _ => true
  | .plotInt _ _ _ _ _ _ _ => true
  | .plotHires _ _ _ _ _ _ _ => true
  | .plotHiresint _ _ _ _ _ _ _ => true
  | .tcResolve _ => true
  | .tcSelpal _ => true
  | .trTile _ _ sl lc => startLineOk sl && upTo8 lc
  | .trClip _ _ _ w sl lc => upTo8 w && startLineOk sl && upTo8 lc
  | .trMospix _ _ sl _ _ _ => startLineOk sl
  | .trBackdrop _ _ _ => true
  | .trM7bg1 _ _ _ => true
  | .trM7bg2 _ _ _ => true
  | .trM7mbg1 _ _ _ => true
  | .trM7mbg2 _ _ _ => true
  | .csReset => true
  | .csAck => true
  | .csRdtile _ => true
  | .csRdpal _ => true
  | .csRdref _ => true

end Sys2Proof
end

