-- ==== Sys2Proof/Decode.lean ====
section
/-! DEFINITION. The decoder (spec/30_encoding.md rules R110 to R116), total on every packet and
rejecting by name, and after it the encoder, written from the same tables. -/

namespace Sys2Proof

/-! ## Enumerant numbers -/

/-- Rule R122. -/
def MathMode.num : MathMode → Nat
  | .none => 0
  | .add => 1
  | .addf => 2
  | .adds => 3
  | .sub => 4
  | .subf => 5
  | .subs => 6
  | .addb => 7
  | .addbs => 8

/-- Rules R115 and R122: 9 to 15 are no math mode. -/
def mathModeOf (n : Nat) : Option MathMode :=
  match n with
  | 0 => some .none
  | 1 => some .add
  | 2 => some .addf
  | 3 => some .adds
  | 4 => some .sub
  | 5 => some .subf
  | 6 => some .subs
  | 7 => some .addb
  | 8 => some .addbs
  | _ => none

/-- Rule R123. -/
def AddrMode.num : AddrMode → Nat
  | .n1x1 => 0
  | .n2x1 => 1
  | .int => 2
  | .hires => 3
  | .hiresint => 4

/-- Rules R115 and R123: 5 to 7 are no addressing mode. -/
def addrModeOf (n : Nat) : Option AddrMode :=
  match n with
  | 0 => some .n1x1
  | 1 => some .n2x1
  | 2 => some .int
  | 3 => some .hires
  | 4 => some .hiresint
  | _ => none

/-- Rule R124: the shape of a TR command is the low digit of its opcode. -/
def Shape.num : Shape → Nat
  | .tile => 0
  | .clip => 1
  | .mospix => 2
  | .backdrop => 3
  | .m7bg1 => 4
  | .m7bg2 => 5
  | .m7mbg1 => 6
  | .m7mbg2 => 7

/-- The context registers in the order of their numbers, 0x00 to 0x21 (rule R40). -/
def ctxRegTable : List CtxReg :=
  [.status, .target, .clip, .fixedcol, .rsel, .tileaddr, .namesel, .bpp]
    ++ [.palshift, .palmask, .startpal, .direct, .iline, .z1, .z2, .starty]
    ++ [.endy, .fbd, .m7repeat, .hmosaic, .vmosaic, .mosaicstart, .origin, .ppl]
    ++ [.rppl, .capen, .frame, .shotid, .ntiles, .npals, .nrefs, .scsel]
    ++ [.tcsel, .decodecnt]

/-- Rule R115: a number above 0x21 names no register. -/
def ctxRegOf (n : Nat) : Option CtxReg := ctxRegTable[n]?

def CtxReg.num (r : CtxReg) : Nat := ctxRegTable.idxOf r

/-! ## The decoder -/

/-- Why a packet is refused at decode (rule R111, steps 2 and 3). -/
inductive DecodeError where
  | illegalOpcode
  | illegalOperand
  deriving DecidableEq, Repr

/-- `W[0][31:24]` (rule R110). -/
def Packet.opc (p : Packet) : BitVec 8 := p.w0.extractLsb' 24 8

/-- `W[0][23:8]`, which must be 0 (rule R110). -/
def Packet.rsvd (p : Packet) : BitVec 16 := p.w0.extractLsb' 8 16

/-- `W[0][7:0]` (rule R110). -/
def Packet.imm (p : Packet) : BitVec 8 := p.w0.extractLsb' 0 8

/-- A word is the unsigned value of an `n`-bit operand when it is below `2^n` (rule R114). -/
def fits (n : Nat) (w : Word) : Bool := decide (w.toNat < 2 ^ n)

/-- Rule R111 step 3: the command `i` when its operand words are legal, else `F_ILLEGAL_OPERAND`. -/
def operandsOk (ok : Bool) (i : Instr) : Except DecodeError Instr :=
  if ok then .ok i else .error .illegalOperand

/-- Format Z (rule R112): no immediate, no operand word. -/
def decodeZ (p : Packet) (i : Instr) : Except DecodeError Instr :=
  if p.imm = 0 then
    operandsOk (p.w1 == 0 && p.w2 == 0 && p.w3 == 0 && p.w4 == 0 && p.w5 == 0 && p.w6 == 0
      && p.w7 == 0) i
  else .error .illegalOpcode

/-- SYS.CTXWR, format R: `REG` in the immediate, `value` in `W[1]`. Whether the register takes the
value is the command's own check (rule R253). -/
def decodeCtxwr (p : Packet) : Except DecodeError Instr :=
  match ctxRegOf p.imm.toNat with
  | some r =>
    operandsOk (p.w2 == 0 && p.w3 == 0 && p.w4 == 0 && p.w5 == 0 && p.w6 == 0 && p.w7 == 0)
      (.sysCtxwr r p.w1)
  | none => .error .illegalOperand

/-- SYS.CTXRD, format R: `REG` in the immediate. -/
def decodeCtxrd (p : Packet) : Except DecodeError Instr :=
  match ctxRegOf p.imm.toNat with
  | some r =>
    operandsOk (p.w1 == 0 && p.w2 == 0 && p.w3 == 0 && p.w4 == 0 && p.w5 == 0 && p.w6 == 0
      && p.w7 == 0) (.sysCtxrd r)
  | none => .error .illegalOperand

/-- RD.SELECT, format S: `MATH` in `IMM[3:0]`, `ADDR` in `IMM[6:4]`, `IMM[7]` = 0 (rules R112,
R115, R250). -/
def decodeSelect (p : Packet) : Except DecodeError Instr :=
  if p.imm.toNat < 128 then
    match mathModeOf (p.imm.toNat % 16), addrModeOf (p.imm.toNat / 16) with
    | some m, some a =>
      operandsOk (p.w1 == 0 && p.w2 == 0 && p.w3 == 0 && p.w4 == 0 && p.w5 == 0 && p.w6 == 0
        && p.w7 == 0) (.rdSelect m a)
    | _, _ => .error .illegalOperand
  else .error .illegalOpcode

/-- Format C: two colours (rules R112, R114). -/
def decodeC (p : Packet) (mk : Half → Half → Instr) : Except DecodeError Instr :=
  if p.imm = 0 then
    operandsOk (fits 16 p.w1 && fits 16 p.w2 && p.w3 == 0 && p.w4 == 0 && p.w5 == 0 && p.w6 == 0
      && p.w7 == 0) (mk (p.w1.setWidth 16) (p.w2.setWidth 16))
  else .error .illegalOpcode

/-- The BLEND command of a math mode (rule R113). -/
def blendInstr (m : MathMode) (main sub : Half) (sd : Byte) : Instr :=
  match m with
  | .none => .blendNone main sub sd
  | .add => .blendAdd main sub sd
  | .addf => .blendAddf main sub sd
  | .adds => .blendAdds main sub sd
  | .sub => .blendSub main sub sd
  | .subf => .blendSubf main sub sd
  | .subs => .blendSubs main sub sd
  | .addb => .blendAddb main sub sd
  | .addbs => .blendAddbs main sub sd

/-- Format B: `MATH` in the immediate selects the command; 9 and above select none, so they are an
opcode fault (rules R112, R115, R116). -/
def decodeB (p : Packet) : Except DecodeError Instr :=
  match mathModeOf p.imm.toNat with
  | some m =>
    operandsOk (fits 16 p.w1 && fits 16 p.w2 && fits 8 p.w3 && p.w4 == 0 && p.w5 == 0
      && p.w6 == 0 && p.w7 == 0)
      (blendInstr m (p.w1.setWidth 16) (p.w2.setWidth 16) (p.w3.setWidth 8))
  | none => .error .illegalOpcode

/-- Format P: the seven operands of `Draw` (rules R112, R114). -/
def decodeP (p : Packet) (mk : Word → Word → Word → Word → Byte → Byte → Byte → Instr) :
    Except DecodeError Instr :=
  if p.imm = 0 then
    operandsOk (fits 8 p.w5 && fits 8 p.w6 && fits 8 p.w7)
      (mk p.w1 p.w2 p.w3 p.w4 (p.w5.setWidth 8) (p.w6.setWidth 8) (p.w7.setWidth 8))
  else .error .illegalOpcode

/-- Format T1: a tile reference (rules R112, R114). -/
def decodeT1 (p : Packet) (mk : Half → Instr) : Except DecodeError Instr :=
  if p.imm = 0 then
    operandsOk (fits 16 p.w1 && p.w2 == 0 && p.w3 == 0 && p.w4 == 0 && p.w5 == 0 && p.w6 == 0
      && p.w7 == 0) (mk (p.w1.setWidth 16))
  else .error .illegalOpcode

/-- A `StartLine` word: one of 0, 8, ..., 56 (rule R114). -/
def startLineWord (w : Word) : Bool := decide (w.toNat ≤ 56 ∧ w.toNat % 8 = 0)

/-- A word in 0..8 (rule R114). -/
def upTo8Word (w : Word) : Bool := decide (w.toNat ≤ 8)

/-- TR.TILE, format T4 (rules R112, R114). -/
def decodeTile (p : Packet) : Except DecodeError Instr :=
  if p.imm = 0 then
    operandsOk (fits 16 p.w1 && startLineWord p.w3 && upTo8Word p.w4 && p.w5 == 0 && p.w6 == 0
      && p.w7 == 0)
      (.trTile (p.w1.setWidth 16) p.w2 (p.w3.setWidth 6) (p.w4.setWidth 4))
  else .error .illegalOpcode

/-- TR.CLIP, format T6 (rules R112, R114). -/
def decodeClip (p : Packet) : Except DecodeError Instr :=
  if p.imm = 0 then
    operandsOk (fits 16 p.w1 && fits 3 p.w3 && upTo8Word p.w4 && startLineWord p.w5
      && upTo8Word p.w6 && p.w7 == 0)
      (.trClip (p.w1.setWidth 16) p.w2 (p.w3.setWidth 3) (p.w4.setWidth 4) (p.w5.setWidth 6)
        (p.w6.setWidth 4))
  else .error .illegalOpcode

/-- TR.MOSPIX, format T6 (rules R112, R114). -/
def decodeMospix (p : Packet) : Except DecodeError Instr :=
  if p.imm = 0 then
    operandsOk (fits 16 p.w1 && startLineWord p.w3 && fits 3 p.w4 && fits 16 p.w5 && fits 16 p.w6
      && p.w7 == 0)
      (.trMospix (p.w1.setWidth 16) p.w2 (p.w3.setWidth 6) (p.w4.setWidth 3) (p.w5.setWidth 16)
        (p.w6.setWidth 16))
  else .error .illegalOpcode

/-- TR.BACKDROP, format T3 (rules R112, R114). -/
def decodeBackdrop (p : Packet) : Except DecodeError Instr :=
  if p.imm = 0 then
    operandsOk (fits 16 p.w2 && fits 16 p.w3 && p.w4 == 0 && p.w5 == 0 && p.w6 == 0 && p.w7 == 0)
      (.trBackdrop p.w1 (p.w2.setWidth 16) (p.w3.setWidth 16))
  else .error .illegalOpcode

/-- The four Mode-7 commands, format T3 (rules R112, R114). -/
def decodeM7 (p : Packet) (mk : Half → Half → Byte → Instr) : Except DecodeError Instr :=
  if p.imm = 0 then
    operandsOk (fits 16 p.w1 && fits 16 p.w2 && fits 8 p.w3 && p.w4 == 0 && p.w5 == 0
      && p.w6 == 0 && p.w7 == 0) (mk (p.w1.setWidth 16) (p.w2.setWidth 16) (p.w3.setWidth 8))
  else .error .illegalOpcode

/-- Format Q: a record id (rules R112, R114). -/
def decodeQ (p : Packet) (mk : Word → Instr) : Except DecodeError Instr :=
  if p.imm = 0 then
    operandsOk (p.w2 == 0 && p.w3 == 0 && p.w4 == 0 && p.w5 == 0 && p.w6 == 0 && p.w7 == 0)
      (mk p.w1)
  else .error .illegalOpcode

/-- The opcode map of rule R113; every opcode it does not list is reserved (rule R116). -/
def decodeOpc (opc : Nat) (p : Packet) : Except DecodeError Instr :=
  match opc with
  | 0x00 => decodeZ p .sysNop
  | 0x01 => decodeZ p .sysRst
  | 0x02 => decodeCtxwr p
  | 0x03 => decodeCtxrd p
  | 0x04 => decodeZ p .sysFramestart
  | 0x05 => decodeSelect p
  | 0x10 => decodeC p .cmAdd
  | 0x11 => decodeC p .cmAddh
  | 0x12 => decodeC p .cmSub
  | 0x13 => decodeC p .cmSubh
  | 0x14 => decodeC p .cmAddb
  | 0x15 => decodeC p .cmAddbh
  | 0x16 => decodeB p
  | 0x20 => decodeP p .plotN1x1
  | 0x21 => decodeP p .plotN2x1
  | 0x22 => decodeP p .plotInt
  | 0x23 => decodeP p .plotHires
  | 0x24 => decodeP p .plotHiresint
  | 0x30 => decodeT1 p .tcResolve
  | 0x31 => decodeT1 p .tcSelpal
  | 0x40 => decodeTile p
  | 0x41 => decodeClip p
  | 0x42 => decodeMospix p
  | 0x43 => decodeBackdrop p
  | 0x44 => decodeM7 p .trM7bg1
  | 0x45 => decodeM7 p .trM7bg2
  | 0x46 => decodeM7 p .trM7mbg1
  | 0x47 => decodeM7 p .trM7mbg2
  | 0x50 => decodeZ p .csReset
  | 0x51 => decodeZ p .csAck
  | 0x52 => decodeQ p .csRdtile
  | 0x53 => decodeQ p .csRdpal
  | 0x54 => decodeQ p .csRdref
  | _ => .error .illegalOpcode

/-- Rule R111, steps 2 and 3. -/
def decode (p : Packet) : Except DecodeError Instr :=
  if p.rsvd = 0 then decodeOpc p.opc.toNat p else .error .illegalOpcode

/-! ## The encoder -/

/-- `W[0]` of a command: opcode, the reserved zero field, immediate (rule R110). -/
def header (opc imm : BitVec 8) : Word := opc ++ (0 : BitVec 16) ++ imm

/-- Formats Z and C to Q as packets: the words not used are 0 (rule R112). -/
def packet0 (w0 : Word) : Packet := ⟨w0, 0, 0, 0, 0, 0, 0, 0⟩

def packet1 (w0 w1 : Word) : Packet := ⟨w0, w1, 0, 0, 0, 0, 0, 0⟩

def packetC (opc : BitVec 8) (c1 c2 : Half) : Packet :=
  ⟨header opc 0, c1.setWidth 32, c2.setWidth 32, 0, 0, 0, 0, 0⟩

def packetB (m : BitVec 8) (main sub : Half) (sd : Byte) : Packet :=
  ⟨header 0x16 m, main.setWidth 32, sub.setWidth 32, sd.setWidth 32, 0, 0, 0, 0⟩

def packetP (opc : BitVec 8) (n m offset oil : Word) (pix z1 z2 : Byte) : Packet :=
  ⟨header opc 0, n, m, offset, oil, pix.setWidth 32, z1.setWidth 32, z2.setWidth 32⟩

def packetM7 (opc : BitVec 8) (left right : Half) (d : Byte) : Packet :=
  ⟨header opc 0, left.setWidth 32, right.setWidth 32, d.setWidth 32, 0, 0, 0, 0⟩

/-- The packet of a command (rules R112 to R114). -/
def encode : Instr → Packet
  | .sysNop => packet0 (header 0x00 0)
  | .sysRst => packet0 (header 0x01 0)
  | .sysCtxwr r v => packet1 (header 0x02 (BitVec.ofNat 8 r.num)) v
  | .sysCtxrd r => packet0 (header 0x03 (BitVec.ofNat 8 r.num))
  | .sysFramestart => packet0 (header 0x04 0)
  | .rdSelect m a => packet0 (header 0x05 (BitVec.ofNat 8 (a.num * 16 + m.num)))
  | .cmAdd c1 c2 => packetC 0x10 c1 c2
  | .cmAddh c1 c2 => packetC 0x11 c1 c2
  | .cmSub c1 c2 => packetC 0x12 c1 c2
  | .cmSubh c1 c2 => packetC 0x13 c1 c2
  | .cmAddb c1 c2 => packetC 0x14 c1 c2
  | .cmAddbh c1 c2 => packetC 0x15 c1 c2
  | .blendNone main sub sd => packetB 0 main sub sd
  | .blendAdd main sub sd => packetB 1 main sub sd
  | .blendAddf main sub sd => packetB 2 main sub sd
  | .blendAdds main sub sd => packetB 3 main sub sd
  | .blendSub main sub sd => packetB 4 main sub sd
  | .blendSubf main sub sd => packetB 5 main sub sd
  | .blendSubs main sub sd => packetB 6 main sub sd
  | .blendAddb main sub sd => packetB 7 main sub sd
  | .blendAddbs main sub sd => packetB 8 main sub sd
  | .plotN1x1 n m offset oil pix z1 z2 => packetP 0x20 n m offset oil pix z1 z2
  | .plotN2x1 n m offset oil pix z1 z2 => packetP 0x21 n m offset oil pix z1 z2
  | .plotInt n m offset oil pix z1 z2 => packetP 0x22 n m offset oil pix z1 z2
  | .plotHires n m offset oil pix z1 z2 => packetP 0x23 n m offset oil pix z1 z2
  | .plotHiresint n m offset oil pix z1 z2 => packetP 0x24 n m offset oil pix z1 z2
  | .tcResolve t => packet1 (header 0x30 0) (t.setWidth 32)
  | .tcSelpal t => packet1 (header 0x31 0) (t.setWidth 32)
  | .trTile t offset sl lc =>
    ⟨header 0x40 0, t.setWidth 32, offset, sl.setWidth 32, lc.setWidth 32, 0, 0, 0⟩
  | .trClip t offset sp w sl lc =>
    ⟨header 0x41 0, t.setWidth 32, offset, sp.setWidth 32, w.setWidth 32, sl.setWidth 32,
      lc.setWidth 32, 0⟩
  | .trMospix t offset sl sp w lc =>
    ⟨header 0x42 0, t.setWidth 32, offset, sl.setWidth 32, sp.setWidth 32, w.setWidth 32,
      lc.setWidth 32, 0⟩
  | .trBackdrop offset left right =>
    ⟨header 0x43 0, offset, left.setWidth 32, right.setWidth 32, 0, 0, 0, 0⟩
  | .trM7bg1 left right d => packetM7 0x44 left right d
  | .trM7bg2 left right d => packetM7 0x45 left right d
  | .trM7mbg1 left right d => packetM7 0x46 left right d
  | .trM7mbg2 left right d => packetM7 0x47 left right d
  | .csReset => packet0 (header 0x50 0)
  | .csAck => packet0 (header 0x51 0)
  | .csRdtile id => packet1 (header 0x52 0) id
  | .csRdpal id => packet1 (header 0x53 0) id
  | .csRdref id => packet1 (header 0x54 0) id

/-! ## The table's numbering of a command's bits -/

/-- Word `i` of a packet whose bits are the low `nbits` bits of `w`, bit 0 of the first word lowest;
every bit above `nbits` is 0. -/
def tableWord (nbits w i : Nat) : Word := BitVec.ofNat 32 (w % 2 ^ nbits / 2 ^ (32 * i))

def tablePacket (nbits w : Nat) : Packet :=
  ⟨tableWord nbits w 0, tableWord nbits w 1, tableWord nbits w 2, tableWord nbits w 3,
    tableWord nbits w 4, tableWord nbits w 5, tableWord nbits w 6, tableWord nbits w 7⟩

/-- What the decoder reads from a command whose bits, numbered as spec/opcode_table.json numbers
them, are `w`. -/
def decodeTableWord (nbits w : Nat) : Option Instr :=
  match decode (tablePacket nbits w) with
  | .ok i => some i
  | .error _ => none

end Sys2Proof
end

