-- ==== Sys2Proof/Machine/State.lean ====
section
/-! DEFINITION. The state of PPU-PR as plain data (spec/10_state.md), the host's moves that are
still to come (spec/70_reset_and_hazards.md rule R335), the output ports (spec/60_exceptions.md rule
R312), and the state after reset (rule R75). -/

namespace Sys2Proof.Machine

/-! ## Memories -/

/-- What a cell that a memory does not list holds: 0, or the free value of a draw, which a hardware
reset makes for each memory it leaves unspecified (rule R75; assumption 5). -/
inductive Fill where
  | zero
  | free (draw : Nat)
  deriving DecidableEq, Repr

/-- One memory of `w`-bit cells: the listed (index, cell) pairs, indexes rising, over its fill. Over
the fill `zero` no cell of value 0 is listed (assumption 5). -/
structure Memory (w : Nat) where
  fill : Fill
  cells : List (Nat × BitVec w)
  deriving DecidableEq, Repr

/-- Every cell is 0. -/
def Memory.zeros {w : Nat} : Memory w := ⟨.zero, []⟩

/-- Every cell holds an unspecified value. -/
def Memory.drawn {w : Nat} (draw : Nat) : Memory w := ⟨.free draw, []⟩

/-- The memories the host reaches through the memory port (rule R80). -/
inductive Space where
  | vram
  | pal
  | dcm
  | lmd
  | bcap
  | sMain
  | zMain
  | sSub
  | zSub
  deriving DecidableEq, Repr

/-! ## Context registers -/

/-- The fault codes, 1 to 6 (rule R300). -/
inductive FaultCode where
  | illegalOpcode
  | illegalOperand
  | bufRange
  | tileRange
  | lineRange
  | csFull
  deriving DecidableEq, Repr

/-- `STATUS` (rule R41): bit 0, bit 1, bits 15 to 8; its other bits read 0. -/
structure Status where
  halt : Bool
  capreq : Bool
  faultCode : Byte
  deriving DecidableEq, Repr

/-- `TARGET`: the destination pair of a plot (rule R42). -/
inductive Target where
  | main
  | sub
  deriving DecidableEq, Repr

/-- `BPP`: 2, 4 or 8 bits per pixel, and the tile-cache bank (rules R40, R190). -/
inductive Bpp where
  | bpp2
  | bpp4
  | bpp8
  deriving DecidableEq, Repr

/-- `RSEL`: the selected renderer (rule R43). -/
structure Rsel where
  math : MathMode
  addr : AddrMode
  deriving DecidableEq, Repr

/-- `FBD`: the forced-backdrop-colour override (rule R40). -/
structure Fbd where
  en : Bool
  color : Half
  deriving DecidableEq, Repr

/-- `SCSEL.KIND` (rule R52). -/
inductive PalKind where
  | pal
  | direct
  | forced
  deriving DecidableEq, Repr

/-- `SCSEL`, the selected-palette latch (rule R52). -/
structure Scsel where
  kind : PalKind
  black : Bool
  base : Byte
  map : BitVec 3
  deriving DecidableEq, Repr

/-- `TCSEL`, the resolved-slot latch (rule R53). -/
structure Tcsel where
  valid : Bool
  bank : Bpp
  flip : Bool
  tn : BitVec 12
  deriving DecidableEq, Repr

/-- The 34 context registers (rule R40), in the order of their numbers. -/
structure Ctx where
  status : Status
  target : Target
  clip : Bool
  fixedcol : Half
  rsel : Rsel
  tileaddr : Half
  namesel : Half
  bpp : Bpp
  palshift : BitVec 5
  palmask : Byte
  startpal : Byte
  direct : Bool
  iline : Bool
  z1 : Byte
  z2 : Byte
  starty : Half
  endy : Half
  fbd : Fbd
  m7repeat : BitVec 2
  hmosaic : BitVec 5
  vmosaic : BitVec 5
  mosaicstart : BitVec 4
  origin : Word
  ppl : Word
  rppl : Word
  capen : Bool
  frame : Word
  shotid : Word
  ntiles : Word
  npals : Word
  nrefs : Word
  scsel : Scsel
  tcsel : Tcsel
  decodecnt : Word
  deriving DecidableEq, Repr

/-- The reset column of rule R40. -/
def Ctx.reset : Ctx where
  status := ⟨false, false, 0⟩
  target := .main
  clip := false
  fixedcol := 0
  rsel := ⟨.none, .n1x1⟩
  tileaddr := 0
  namesel := 0
  bpp := .bpp2
  palshift := 0
  palmask := 0
  startpal := 0
  direct := false
  iline := false
  z1 := 0
  z2 := 0
  starty := 0
  endy := 0
  fbd := ⟨false, 0⟩
  m7repeat := 0
  hmosaic := 1
  vmosaic := 1
  mosaicstart := 0
  origin := 0
  ppl := 512
  rppl := 512
  capen := false
  frame := 0
  shotid := 0
  ntiles := 0
  npals := 0
  nrefs := 0
  scsel := ⟨.pal, false, 0, 0⟩
  tcsel := ⟨false, .bpp2, false, 0⟩
  decodecnt := 0

/-! ## The catalog -/

/-- One entry for each orientation of a tile (rule R278). -/
structure PerOrient (α : Type) where
  plain : α
  hflip : α
  vflip : α
  both : α
  deriving DecidableEq, Repr

/-- A TileRecord (rule R60); `usage` lists (palette id, count) in increasing palette id. -/
structure TileRecord where
  id : Word
  pixels : List Byte
  palsize : Nat
  usage : List (Nat × Word)
  lastSeenFrame : Word
  sightings : Word
  mileRef : List (Option Word)
  orientSeen : PerOrient Bool
  orientRef : PerOrient (Option Word)
  deriving DecidableEq, Repr

/-- A PaletteRecord (rule R61). -/
structure PalRecord where
  id : Word
  colors : List Half
  size : Nat
  frequency : Word
  deriving DecidableEq, Repr

/-- A ReferenceRecord (rule R62). -/
structure RefRecord where
  id : Word
  tileId : Word
  shotId : Word
  frame : Word
  x : Word
  y : Word
  shape : Shape
  addr : AddrMode
  math : MathMode
  palId : Word
  deriving DecidableEq, Repr

/-! ## Ports -/

/-- The three 5-bit channels of a colour (rule R140). -/
structure Rgb where
  r : Nat
  g : Nat
  b : Nat
  deriving DecidableEq, Repr

/-- What CS.RDPAL returns (rule R287). -/
structure PalView where
  id : Word
  size : Nat
  colors : List Half
  rgb : List Rgb
  frequency : Word
  key : List Byte
  deriving DecidableEq, Repr

/-- What CS.RDREF returns: the record, its three mode identifiers as the numbers rule R279 stores,
and their descriptor strings (rule R288). -/
structure RefView where
  record : RefRecord
  shapeNum : Nat
  addrNum : Nat
  mathNum : Nat
  shapeName : String
  addrName : String
  mathName : String
  deriving DecidableEq, Repr

/-- The value of a response (rule R118). -/
inductive RespValue where
  | word (v : Word)
  | tile (v : TileRecord)
  | pal (v : PalView)
  | ref (v : RefView)
  | absent
  deriving DecidableEq, Repr

/-- A response: its status and value (rule R118). -/
inductive Response where
  | ok (v : RespValue)
  | fault (code : FaultCode)
  deriving DecidableEq, Repr

/-- One move of the host (rule R335): a packet, one cell of a memory written or read, the hardware
reset. -/
inductive HostMove where
  | packet (p : Packet)
  | write (sp : Space) (i : Nat) (v : Half)
  | read (sp : Space) (i : Nat)
  | hardReset
  deriving DecidableEq, Repr

/-! ## The machine -/

/-- The state. `cfg` is the parameter record of rule R9, carried here so that statements hold for
every record, and written by no step (assumption 4); `moves` are the host's moves still to come,
oldest first (assumption 1); `response` and `memOut` are what the response port and the memory port
last showed (assumption 13); `freeCount` counts the free values drawn (assumption 15). -/
structure State where
  cfg : Params
  ctx : Ctx
  vram : Memory 8
  pal : Memory 16
  dcm : Memory 16
  lmd : Memory 16
  bcap : Memory 5
  sMain : Memory 16
  zMain : Memory 8
  sSub : Memory 16
  zSub : Memory 8
  tcbuf : Memory 8
  tcflag : Memory 2
  tiles : List TileRecord
  pals : List PalRecord
  refs : List RefRecord
  moves : List HostMove
  response : Option Response
  memOut : Option Half
  freeCount : Nat
  deriving DecidableEq, Repr

/-- Why a step stops without a next state. -/
inductive Fault where
  /-- Raised by a host access through the memory port to an index outside the memory (rule R80 gives
  the ranges and no behaviour outside them). Safe: the model stops and gives no value. No command
  raises it. -/
  | noSuchCell
  deriving DecidableEq, Repr

/-- Why a step has no meaning. -/
inductive Refusal where
  /-- Raised by `exec` for a command that has no meaning yet; no arm raises it. Safe. -/
  | notModelled (mnemonic : String)
  deriving DecidableEq, Repr

/-- `BCAP[s] = min(s, 31)` for `s` in 0..62 (rule R34); entry 0 is 0 and so is not listed. -/
def bcapReset : Memory 5 :=
  ⟨.zero, (List.range 62).map fun i => (i + 1, BitVec.ofNat 5 (min (i + 1) 31))⟩

/-- The machine as a hardware reset leaves it (rules R75, R320), `n` free values having been drawn
before: each of the nine memories rule R75 leaves unspecified holds a draw of its own (assumption
5). -/
def State.poweredOn (P : Params) (moves : List HostMove) (n : Nat) : State where
  cfg := P
  ctx := .reset
  vram := .drawn n
  pal := .drawn (n + 1)
  dcm := .drawn (n + 2)
  lmd := .drawn (n + 3)
  bcap := bcapReset
  sMain := .drawn (n + 4)
  zMain := .drawn (n + 5)
  sSub := .drawn (n + 6)
  zSub := .drawn (n + 7)
  tcbuf := .drawn (n + 8)
  tcflag := .zeros
  tiles := []
  pals := []
  refs := []
  moves := moves
  response := none
  memOut := none
  freeCount := n + 9

/-- The machine right after hardware reset, with the default parameters and no move of the host
pending. -/
def State.reset : State := State.poweredOn .standard [] 0

end Sys2Proof.Machine
end

