-- ==== Sys2Proof/Machine/Ops.lean ====
section
/-! DEFINITION. The named operations over memories, registers and ports: cell reads and writes
(spec/20_memory.md), taking a fault and the reset that ends the halt (spec/60_exceptions.md rules
R302, R303; spec/70_reset_and_hazards.md rules R320, R321), the response, the host's memory port, the
host's next move, and the free values. -/

namespace Sys2Proof.Machine

/-! ## Cells of a memory -/

/-- The cell a fill gives an index that is not listed (assumption 5). -/
def Fill.cell (w : Nat) : Fill → Nat → BitVec w
  | .zero, _ => 0
  | .free draw, a => Config.freeCell w draw a

/-- The value listed at index `a`. -/
def listedAt {w : Nat} : List (Nat × BitVec w) → Nat → Option (BitVec w)
  | [], _ => none
  | (k, v) :: t, a => if k = a then some v else listedAt t a

/-- The cell at index `a`. -/
def Memory.read {w : Nat} (m : Memory w) (a : Nat) : BitVec w :=
  match listedAt m.cells a with
  | some v => v
  | none => m.fill.cell w a

/-- List `v` at index `a`, in place. -/
def insertCell {w : Nat} : List (Nat × BitVec w) → Nat → BitVec w → List (Nat × BitVec w)
  | [], a, v => [(a, v)]
  | (k, u) :: t, a, v =>
    if a < k then (a, v) :: (k, u) :: t
    else if a = k then (a, v) :: t
    else (k, u) :: insertCell t a v

/-- A cell that the fill already holds is not listed. Whether a free value is `v` is not known, so over
a draw every cell written is listed (assumption 5). -/
def Fill.hides {w : Nat} (f : Fill) (v : BitVec w) : Bool :=
  match f with
  | .zero => decide (v = 0)
  | .free _ => false

/-- Store `v` at index `a`. -/
def Memory.write {w : Nat} (m : Memory w) (a : Nat) (v : BitVec w) : Memory w :=
  { m with
    cells := if m.fill.hides v then m.cells.filter (fun c => decide (c.1 ≠ a))
      else insertCell m.cells a v }

/-- Store the cells `vs` at `a`, `a + 1`, .... -/
def Memory.writeMany {w : Nat} : Memory w → Nat → List (BitVec w) → Memory w
  | m, _, [] => m
  | m, a, v :: vs => Memory.writeMany (Memory.write m a v) (a + 1) vs

/-- Indexes strictly rising. -/
def indexesRise {w : Nat} : List (Nat × BitVec w) → Bool
  | [] => true
  | [_] => true
  | a :: b :: t => decide (a.1 < b.1) && indexesRise (b :: t)

/-- The canonical form: indexes strictly rising, no cell listed that the fill hides. -/
def Memory.wf {w : Nat} (m : Memory w) : Bool :=
  indexesRise m.cells && m.cells.all (fun c => !m.fill.hides c.2)

/-- Every listed index is below `n`. -/
def Memory.below {w : Nat} (n : Nat) (m : Memory w) : Bool :=
  m.cells.all (fun c => decide (c.1 < n))

/-! ## Responses and faults -/

/-- The codes of rule R300. -/
def FaultCode.num : FaultCode → Byte
  | .illegalOpcode => 1
  | .illegalOperand => 2
  | .bufRange => 3
  | .tileRange => 4
  | .lineRange => 5
  | .csFull => 6

/-- A command ends without a fault: the response is (`OK`, `v`) (rule R118). -/
def State.done (v : RespValue) (s : State) : State :=
  { s with response := some (.ok v) }

/-- The fault of a packet refused at decode (rule R111). -/
def decodeFault : DecodeError → FaultCode
  | .illegalOpcode => .illegalOpcode
  | .illegalOperand => .illegalOperand

/-- Fault entry (rule R302): `FAULTCODE` and `HALT` are set, `CAPREQ` is kept, the response is
(`FAULT`, code), and nothing else is saved. -/
def State.raise (c : FaultCode) (s : State) : State :=
  { s with
    ctx := { s.ctx with status := { s.ctx.status with halt := true, faultCode := c.num } }
    response := some (.fault c) }

/-- The hardware reset, the only way out of the halt (rules R303, R320, R321). The parameter record
and the host's further moves are not the block's to reset, and the unspecified memories are drawn
anew. -/
def State.hardReset (s : State) : State := State.poweredOn s.cfg s.moves s.freeCount

/-- The soft reset of SYS.RST (rules R252, R320): registers, latches, decoded flags, `BCAP` and the
catalog take their reset values; the other memories keep their contents. -/
def State.softReset (s : State) : State :=
  { s with
    ctx := Ctx.reset
    bcap := bcapReset
    tcflag := .zeros
    tiles := []
    pals := []
    refs := [] }

/-! ## Screen and depth memories (rule R88) -/

/-- `Phys(a)` when it is inside the memory, `none` when the access is out of range. -/
def State.phys (s : State) (a : Int) : Option Nat :=
  let p := (s.ctx.origin.toNat : Int) + a
  if 0 ≤ p ∧ p < (s.cfg.bufsz : Int) then some p.toNat else none

/-- A cell of the target screen `TS`. -/
def State.readTS (s : State) (i : Nat) : Half :=
  match s.ctx.target with
  | .main => Memory.read s.sMain i
  | .sub => Memory.read s.sSub i

/-- A cell of the target depth `TZ`. -/
def State.readTZ (s : State) (i : Nat) : Byte :=
  match s.ctx.target with
  | .main => Memory.read s.zMain i
  | .sub => Memory.read s.zSub i

/-- Write a cell of the target screen `TS`. -/
def State.writeTS (i : Nat) (v : Half) (s : State) : State :=
  match s.ctx.target with
  | .main => { s with sMain := Memory.write s.sMain i v }
  | .sub => { s with sSub := Memory.write s.sSub i v }

/-- Write a cell of the target depth `TZ`. -/
def State.writeTZ (i : Nat) (v : Byte) (s : State) : State :=
  match s.ctx.target with
  | .main => { s with zMain := Memory.write s.zMain i v }
  | .sub => { s with zSub := Memory.write s.zSub i v }

/-! ## Free values -/

/-- A target screen cell takes an unspecified value (rules R176, R305). -/
def State.freeTS (i : Nat) (s : State) : State :=
  { State.writeTS i (Config.freeHalf s.freeCount) s with freeCount := s.freeCount + 1 }

/-- A target depth cell takes an unspecified value (rule R305). -/
def State.freeTZ (i : Nat) (s : State) : State :=
  { State.writeTZ i (Config.freeByte s.freeCount) s with freeCount := s.freeCount + 1 }

def State.freeScreen : List Nat → State → State
  | [], s => s
  | i :: is, s => State.freeScreen is (State.freeTS i s)

def State.freeDepth : List Nat → State → State
  | [], s => s
  | i :: is, s => State.freeDepth is (State.freeTZ i s)

/-! ## The host's memory port -/

/-- How many cells a memory has (rule R80); a record of `LMD` is eight cells, a map of `DCM` 256. -/
def Space.size (P : Params) : Space → Nat
  | .vram => 65536
  | .pal => 256
  | .dcm => 2048
  | .lmd => 8 * P.lines
  | .bcap => 63
  | .sMain => P.bufsz
  | .zMain => P.bufsz
  | .sSub => P.bufsz
  | .zSub => P.bufsz

/-- The cell the host reads, zero-extended. -/
def State.hostCell (sp : Space) (i : Nat) (s : State) : Half :=
  match sp with
  | .vram => (Memory.read s.vram i).setWidth 16
  | .pal => Memory.read s.pal i
  | .dcm => Memory.read s.dcm i
  | .lmd => Memory.read s.lmd i
  | .bcap => (Memory.read s.bcap i).setWidth 16
  | .sMain => Memory.read s.sMain i
  | .zMain => (Memory.read s.zMain i).setWidth 16
  | .sSub => Memory.read s.sSub i
  | .zSub => (Memory.read s.zSub i).setWidth 16

/-- The host reads one cell; the memory itself does not change (rule R90). -/
def State.hostRead (sp : Space) (i : Nat) (s : State) : State :=
  { s with memOut := some (s.hostCell sp i) }

/-- The host writes one cell, which keeps the low bits of the value (assumption 12). -/
def State.hostWrite (sp : Space) (i : Nat) (v : Half) (s : State) : State :=
  match sp with
  | .vram => { s with vram := Memory.write s.vram i (v.setWidth 8) }
  | .pal => { s with pal := Memory.write s.pal i v }
  | .dcm => { s with dcm := Memory.write s.dcm i v }
  | .lmd => { s with lmd := Memory.write s.lmd i v }
  | .bcap => { s with bcap := Memory.write s.bcap i (v.setWidth 5) }
  | .sMain => { s with sMain := Memory.write s.sMain i v }
  | .zMain => { s with zMain := Memory.write s.zMain i (v.setWidth 8) }
  | .sSub => { s with sSub := Memory.write s.sSub i v }
  | .zSub => { s with zSub := Memory.write s.zSub i (v.setWidth 8) }

/-! ## The host's next move -/

def HostMove.isPacket : HostMove → Bool
  | .packet _ => true
  | .write _ _ _ => false
  | .read _ _ => false
  | .hardReset => false

/-- The first move the block takes, and the moves left. A halted block does not consume a packet
(rule R303): it stays where it is, and the host's first move of another kind is taken
(assumption 2). -/
def firstEnabled (halted : Bool) : List HostMove → Option (HostMove × List HostMove)
  | [] => none
  | m :: ms =>
    if halted && m.isPacket then (firstEnabled halted ms).map fun x => (x.1, m :: x.2)
    else some (m, ms)

def State.nextMove (s : State) : Option (HostMove × List HostMove) :=
  firstEnabled s.ctx.status.halt s.moves

end Sys2Proof.Machine
end

