-- ==== Sys2Proof/Machine/Operands.lean ====
section
/-! DEFINITION. Operand forms: the context registers as words, with the values they accept
(spec/10_state.md rules R40 to R49, R52, R53), the fields of a tile reference (spec/30_encoding.md
rule R120), the palette an index goes through (rule R52), and signed and wrapped integers
(spec/00_scope.md rule R11). -/

namespace Sys2Proof.Machine

/-! ## Registers as words -/

/-- A one-bit field. -/
def bit (b : Bool) : Nat := if b then 1 else 0

def Target.num : Target → Nat
  | .main => 0
  | .sub => 1

def Bpp.num : Bpp → Nat
  | .bpp2 => 0
  | .bpp4 => 1
  | .bpp8 => 2

def PalKind.num : PalKind → Nat
  | .pal => 0
  | .direct => 1
  | .forced => 2

/-- `STATUS`: [0] HALT, [1] CAPREQ, [15:8] FAULTCODE (rule R41). -/
def Status.word (t : Status) : Word :=
  BitVec.ofNat 32 (bit t.halt + 2 * bit t.capreq + 256 * t.faultCode.toNat)

/-- `RSEL`: [3:0] MATH, [6:4] ADDR (rule R40). -/
def Rsel.word (r : Rsel) : Word := BitVec.ofNat 32 (r.math.num + 16 * r.addr.num)

/-- `FBD`: [16] EN, [15:0] COLOR (rule R40). -/
def Fbd.word (f : Fbd) : Word := BitVec.ofNat 32 (f.color.toNat + 65536 * bit f.en)

/-- `SCSEL`: [1:0] KIND, [2] BLACK, [10:3] BASE, [13:11] MAP (rule R40). -/
def Scsel.word (c : Scsel) : Word :=
  BitVec.ofNat 32 (c.kind.num + 4 * bit c.black + 8 * c.base.toNat + 2048 * c.map.toNat)

/-- `TCSEL`: [0] VALID, [2:1] BANK, [3] FLIP, [15:4] TN (rule R40). -/
def Tcsel.word (t : Tcsel) : Word :=
  BitVec.ofNat 32 (bit t.valid + 2 * t.bank.num + 8 * bit t.flip + 16 * t.tn.toNat)

/-- A context register, zero-extended (rules R40, R254). -/
def Ctx.readReg (c : Ctx) : CtxReg → Word
  | .status => c.status.word
  | .target => BitVec.ofNat 32 c.target.num
  | .clip => BitVec.ofNat 32 (bit c.clip)
  | .fixedcol => c.fixedcol.setWidth 32
  | .rsel => c.rsel.word
  | .tileaddr => c.tileaddr.setWidth 32
  | .namesel => c.namesel.setWidth 32
  | .bpp => BitVec.ofNat 32 c.bpp.num
  | .palshift => c.palshift.setWidth 32
  | .palmask => c.palmask.setWidth 32
  | .startpal => c.startpal.setWidth 32
  | .direct => BitVec.ofNat 32 (bit c.direct)
  | .iline => BitVec.ofNat 32 (bit c.iline)
  | .z1 => c.z1.setWidth 32
  | .z2 => c.z2.setWidth 32
  | .starty => c.starty.setWidth 32
  | .endy => c.endy.setWidth 32
  | .fbd => c.fbd.word
  | .m7repeat => c.m7repeat.setWidth 32
  | .hmosaic => c.hmosaic.setWidth 32
  | .vmosaic => c.vmosaic.setWidth 32
  | .mosaicstart => c.mosaicstart.setWidth 32
  | .origin => c.origin
  | .ppl => c.ppl
  | .rppl => c.rppl
  | .capen => BitVec.ofNat 32 (bit c.capen)
  | .frame => c.frame
  | .shotid => c.shotid
  | .ntiles => c.ntiles
  | .npals => c.npals
  | .nrefs => c.nrefs
  | .scsel => c.scsel.word
  | .tcsel => c.tcsel.word
  | .decodecnt => c.decodecnt

/-- What SYS.CTXWR accepts: the register is RW and the value lies in its field and in its legal
column (rules R40, R253). -/
def regAccepts (r : CtxReg) (v : Word) : Bool :=
  match r with
  | .status => false
  | .target => decide (v.toNat < 2)
  | .clip => decide (v.toNat < 2)
  | .fixedcol => decide (v.toNat < 65536)
  | .rsel => false
  | .tileaddr => decide (v.toNat < 65536)
  | .namesel => decide (v.toNat < 65536)
  | .bpp => decide (v.toNat < 3)
  | .palshift => decide (v.toNat < 32)
  | .palmask => decide (v.toNat < 256)
  | .startpal => decide (v.toNat < 256)
  | .direct => decide (v.toNat < 2)
  | .iline => decide (v.toNat < 2)
  | .z1 => decide (v.toNat < 256)
  | .z2 => decide (v.toNat < 256)
  | .starty => decide (v.toNat < 65536)
  | .endy => decide (v.toNat < 65536)
  | .fbd => decide (v.toNat < 131072)
  | .m7repeat => decide (v.toNat < 4)
  | .hmosaic => decide (1 ≤ v.toNat ∧ v.toNat ≤ 16)
  | .vmosaic => decide (1 ≤ v.toNat ∧ v.toNat ≤ 16)
  | .mosaicstart => decide (v.toNat < 16)
  | .origin => true
  | .ppl => decide (1 ≤ v.toNat ∧ v.toNat ≤ 2147483647)
  | .rppl => decide (1 ≤ v.toNat ∧ v.toNat ≤ 2147483647)
  | .capen => decide (v.toNat < 2)
  | .frame => true
  | .shotid => false
  | .ntiles => false
  | .npals => false
  | .nrefs => false
  | .scsel => false
  | .tcsel => false
  | .decodecnt => true

/-- The bit depth a value of `BPP` names (rule R126). -/
def bppOf (n : Nat) : Bpp :=
  match n with
  | 0 => .bpp2
  | 1 => .bpp4
  | _ => .bpp8

/-- `CTX[REG] <- value` for an accepted value (rule R253); an RO register keeps its value. -/
def Ctx.writeReg (c : Ctx) (r : CtxReg) (v : Word) : Ctx :=
  match r with
  | .status => c
  | .target => { c with target := if v = 0 then .main else .sub }
  | .clip => { c with clip := decide (v ≠ 0) }
  | .fixedcol => { c with fixedcol := v.setWidth 16 }
  | .rsel => c
  | .tileaddr => { c with tileaddr := v.setWidth 16 }
  | .namesel => { c with namesel := v.setWidth 16 }
  | .bpp => { c with bpp := bppOf v.toNat }
  | .palshift => { c with palshift := v.setWidth 5 }
  | .palmask => { c with palmask := v.setWidth 8 }
  | .startpal => { c with startpal := v.setWidth 8 }
  | .direct => { c with direct := decide (v ≠ 0) }
  | .iline => { c with iline := decide (v ≠ 0) }
  | .z1 => { c with z1 := v.setWidth 8 }
  | .z2 => { c with z2 := v.setWidth 8 }
  | .starty => { c with starty := v.setWidth 16 }
  | .endy => { c with endy := v.setWidth 16 }
  | .fbd => { c with fbd := ⟨decide (65536 ≤ v.toNat), v.setWidth 16⟩ }
  | .m7repeat => { c with m7repeat := v.setWidth 2 }
  | .hmosaic => { c with hmosaic := v.setWidth 5 }
  | .vmosaic => { c with vmosaic := v.setWidth 5 }
  | .mosaicstart => { c with mosaicstart := v.setWidth 4 }
  | .origin => { c with origin := v }
  | .ppl => { c with ppl := v }
  | .rppl => { c with rppl := v }
  | .capen => { c with capen := decide (v ≠ 0) }
  | .frame => { c with frame := v }
  | .shotid => c
  | .ntiles => c
  | .npals => c
  | .nrefs => c
  | .scsel => c
  | .tcsel => c
  | .decodecnt => { c with decodecnt := v }

/-- The status output: the 32 bits of `STATUS`, shown without a command (rule R304). -/
def State.statusOut (s : State) : Word := s.ctx.status.word

/-! ## The tile reference (rule R120) -/

/-- Bits 9 to 0. -/
def tileIndex (t : Half) : Nat := t.toNat % 1024

/-- Bit 8 triggers the name-select offset. -/
def nameSelect (t : Half) : Bool := t.getLsbD 8

/-- The direct-colour map: three bits from the parameter `mapBit` up, by default bits 12 to 10 (assumption
23). -/
def State.tileMap (s : State) (t : Half) : BitVec 3 := t.extractLsb' s.cfg.mapBit 3

/-- The bit at the parameter `HFLIP_BIT`. -/
def State.hflip (s : State) (t : Half) : Bool := t.getLsbD s.cfg.hflipBit

/-- The bit at the parameter `VFLIP_BIT`. -/
def State.vflip (s : State) (t : Half) : Bool := t.getLsbD s.cfg.vflipBit

/-! ## The palette (rule R52) -/

/-- `RealColor(p)`, the real variant. -/
def State.realColor (s : State) (p : Byte) : Half :=
  match s.ctx.scsel.kind with
  | .pal => Memory.read s.pal ((s.ctx.scsel.base.toNat + p.toNat) % 256)
  | .direct => Memory.read s.dcm (256 * s.ctx.scsel.map.toNat + p.toNat)
  | .forced => s.ctx.fbd.color

/-- `ScreenColor(p)`, the active variant. -/
def State.screenColor (s : State) (p : Byte) : Half :=
  if s.ctx.scsel.black then 0 else s.realColor p

/-! ## Integers (rule R11) -/

/-- `n & ~63`. -/
def andNot63 (n : Int) : Int := n - n % 64

/-- `n >> 8`. -/
def shr8 (n : Int) : Int := n / 256

/-- `sext_13` of a 16-bit cell. -/
def sext13 (v : Half) : Int := (v.setWidth 13).toInt

/-- `sext_16` of a 16-bit cell. -/
def sext16 (v : Half) : Int := v.toInt

/-- `CLIP_10_BIT_SIGNED` (rule R231). -/
def clip10 (x : Int) : Int := if x % 1024 < 512 then x % 1024 else x % 1024 - 1024

/-- `Offset mod CTX.RPPL`, the line position a TR command computes once (rules R172, R210). -/
def State.lineOffset (s : State) (offset : Word) : Nat := offset.toNat % s.ctx.rppl.toNat

end Sys2Proof.Machine
end

