-- ==== Sys2Proof/Machine/Flags.lean ====
section
/-! DEFINITION. The flags of spec/10_state.md rule R50 that commands set and clear: the per-slot
`TCFLAG` (rules R36, R192, R255), `STATUS.CAPREQ` (rules R280, R285), and the orientation-seen flags
of a TileRecord (rule R278). -/

namespace Sys2Proof.Machine

/-! ## `TCFLAG` -/

/-- Every bank, flip half and tile number has a slot of its own; a bank has at most 4,096 tile
numbers (rule R36). -/
def slotKey (bank : Bpp) (flip : Bool) (tn : BitVec 12) : Nat :=
  8192 * bank.num + 4096 * bit flip + tn.toNat

/-- `TCFLAG[bank][f][t]`: 0 not decoded, 1 decoded, 2 decoded and blank (rule R36). -/
def State.slotFlag (s : State) (bank : Bpp) (flip : Bool) (tn : BitVec 12) : BitVec 2 :=
  Memory.read s.tcflag (slotKey bank flip tn)

/-- The flag a decode gives: 2 when every pixel is 0, else 1 (rule R192). -/
def flagOf (px : List Byte) : BitVec 2 := if px.all (fun b => b == 0) then 2 else 1

/-- SYS.FRAMESTART clears every flag (rule R255). -/
def State.clearSlotFlags (s : State) : State := { s with tcflag := .zeros }

/-! ## `STATUS.CAPREQ` -/

/-- `RaiseCapture` and its consumption (rules R280, R284, R285). -/
def State.setCapreq (b : Bool) (s : State) : State :=
  { s with ctx := { s.ctx with status := { s.ctx.status with capreq := b } } }

/-! ## Orientation flags -/

/-- The orientation of a draw, o = hflip + 2 × vflip (rule R278). -/
inductive Orient where
  | plain
  | hflip
  | vflip
  | both
  deriving DecidableEq, Repr

def orientOf (h v : Bool) : Orient :=
  match h, v with
  | false, false => .plain
  | true, false => .hflip
  | false, true => .vflip
  | true, true => .both

def PerOrient.get {α : Type} (p : PerOrient α) : Orient → α
  | .plain => p.plain
  | .hflip => p.hflip
  | .vflip => p.vflip
  | .both => p.both

def PerOrient.set {α : Type} (p : PerOrient α) (o : Orient) (x : α) : PerOrient α :=
  match o with
  | .plain => { p with plain := x }
  | .hflip => { p with hflip := x }
  | .vflip => { p with vflip := x }
  | .both => { p with both := x }

end Sys2Proof.Machine
end

