-- ==== Sys2Proof/Machine/ColorMath.lean ====
section
/-! DEFINITION. ColorMath (spec/40_colormath.md): packed colours, the six operators and their
commands CM.*. -/

namespace Sys2Proof.Machine

/-! ## Packed colours (rules R140, R141) -/

/-- `chan(c)`, the three 5-bit channels. -/
def chan (fmt : PixFmt) (c : Half) : Rgb :=
  match fmt with
  | .rgb555 => ⟨c.toNat / 1024 % 32, c.toNat / 32 % 32, c.toNat % 32⟩
  | .rgb565 => ⟨c.toNat / 2048 % 32, c.toNat / 64 % 32, c.toNat % 32⟩

/-- `pack(r, g, b)`; in RGB565 the high green bit is copied into bit 5. -/
def pack (fmt : PixFmt) (x : Rgb) : Half :=
  match fmt with
  | .rgb555 => BitVec.ofNat 16 (x.r * 1024 + x.g * 32 + x.b)
  | .rgb565 => BitVec.ofNat 16 (x.r * 2048 + x.g * 64 + x.g / 16 % 2 * 32 + x.b)

/-- `fields(c)`, the bit fields at their full widths. -/
def fields (fmt : PixFmt) (c : Half) : Rgb :=
  match fmt with
  | .rgb555 => ⟨c.toNat / 1024 % 32, c.toNat / 32 % 32, c.toNat % 32⟩
  | .rgb565 => ⟨c.toNat / 2048 % 32, c.toNat / 32 % 64, c.toNat % 32⟩

/-- `packf(fr, fg, fb)`. -/
def packf (fmt : PixFmt) (x : Rgb) : Half :=
  match fmt with
  | .rgb555 => BitVec.ofNat 16 (x.r * 1024 + x.g * 32 + x.b)
  | .rgb565 => BitVec.ofNat 16 (x.r * 2048 + x.g * 32 + x.b)

/-- A lane-by-lane operation (rule R161). -/
def lanes (f : Nat → Nat → Nat) (x y : Rgb) : Rgb := ⟨f x.r y.r, f x.g y.g, f x.b y.b⟩

/-! ## The six operators -/

/-- `Add` (rule R142). -/
def colorAdd (fmt : PixFmt) (c1 c2 : Half) : Half :=
  pack fmt (lanes (fun x y => min 31 (x + y)) (chan fmt c1) (chan fmt c2))

/-- `AddH` (rule R143). -/
def colorAddH (fmt : PixFmt) (c1 c2 : Half) : Half :=
  packf fmt (lanes (fun x y => (x + y) / 2) (fields fmt c1) (fields fmt c2))

/-- `Sub`; natural subtraction is clamped at 0 (rule R144). -/
def colorSub (fmt : PixFmt) (c1 c2 : Half) : Half :=
  pack fmt (lanes (fun x y => x - y) (chan fmt c1) (chan fmt c2))

/-- `SubH`; natural subtraction is clamped at 0 (rule R145). -/
def colorSubH (fmt : PixFmt) (c1 c2 : Half) : Half :=
  packf fmt (lanes (fun x y => x / 2 - y / 2) (fields fmt c1) (fields fmt c2))

/-- `AddB`, through the table `BCAP` (rule R146). -/
def colorAddB (fmt : PixFmt) (bcap : Memory 5) (c1 c2 : Half) : Half :=
  pack fmt (lanes (fun x y => (Memory.read bcap (x + y)).toNat) (chan fmt c1) (chan fmt c2))

/-- `AddBH` is the additive half form (rule R148). -/
def colorAddBH (fmt : PixFmt) (c1 c2 : Half) : Half := colorAddH fmt c1 c2

/-! ## The commands CM.* -/

/-- A colour result goes to the response port, zero-extended; no state changes (rule R118). -/
def State.respondColor (c : Half) (s : State) : State := s.done (.word (c.setWidth 32))

/-- CM.ADD (rule R142). -/
def execCmAdd (c1 c2 : Half) (s : State) : Host.Outcome State Fault Refusal :=
  .next (s.respondColor (colorAdd s.cfg.pixfmt c1 c2))

/-- CM.ADDH (rule R143). -/
def execCmAddh (c1 c2 : Half) (s : State) : Host.Outcome State Fault Refusal :=
  .next (s.respondColor (colorAddH s.cfg.pixfmt c1 c2))

/-- CM.SUB (rule R144). -/
def execCmSub (c1 c2 : Half) (s : State) : Host.Outcome State Fault Refusal :=
  .next (s.respondColor (colorSub s.cfg.pixfmt c1 c2))

/-- CM.SUBH (rule R145). -/
def execCmSubh (c1 c2 : Half) (s : State) : Host.Outcome State Fault Refusal :=
  .next (s.respondColor (colorSubH s.cfg.pixfmt c1 c2))

/-- CM.ADDB (rule R146). -/
def execCmAddb (c1 c2 : Half) (s : State) : Host.Outcome State Fault Refusal :=
  .next (s.respondColor (colorAddB s.cfg.pixfmt s.bcap c1 c2))

/-- CM.ADDBH (rule R148). -/
def execCmAddbh (c1 c2 : Half) (s : State) : Host.Outcome State Fault Refusal :=
  .next (s.respondColor (colorAddBH s.cfg.pixfmt c1 c2))

end Sys2Proof.Machine
end

