-- ==== Sys2Proof/Machine/Blend.lean ====
section
/-! DEFINITION. The nine blend modes (spec/40_colormath.md rules R150 to R159) and their commands
BLEND.*. -/

namespace Sys2Proof.Machine

/-- `sel`: the bit of the SD byte that selects the peer pixel (rule R150). -/
def State.sdSelect (s : State) (sd : Byte) : Bool := sd.getLsbD s.cfg.sdSelectBit

/-- `Op2(sub, sd)` (rule R150). -/
def State.op2 (s : State) (sub : Half) (sd : Byte) : Half :=
  if s.sdSelect sd then sub else s.ctx.fixedcol

/-- Mode 0 (rule R151). -/
def blendNone (main : Half) : Half := main

/-- Mode 1 (rule R152). -/
def State.blendAdd (s : State) (main sub : Half) (sd : Byte) : Half :=
  colorAdd s.cfg.pixfmt main (s.op2 sub sd)

/-- Mode 2 (rule R153). -/
def State.blendAddf (s : State) (main : Half) : Half :=
  if s.ctx.clip then colorAdd s.cfg.pixfmt main s.ctx.fixedcol
  else colorAddH s.cfg.pixfmt main s.ctx.fixedcol

/-- Mode 3 (rule R154). -/
def State.blendAdds (s : State) (main sub : Half) (sd : Byte) : Half :=
  if s.ctx.clip then colorAdd s.cfg.pixfmt main (s.op2 sub sd)
  else if s.sdSelect sd then colorAddH s.cfg.pixfmt main sub
  else colorAdd s.cfg.pixfmt main s.ctx.fixedcol

/-- Mode 4 (rule R155). -/
def State.blendSub (s : State) (main sub : Half) (sd : Byte) : Half :=
  colorSub s.cfg.pixfmt main (s.op2 sub sd)

/-- Mode 5 (rule R156). -/
def State.blendSubf (s : State) (main : Half) : Half :=
  if s.ctx.clip then colorSub s.cfg.pixfmt main s.ctx.fixedcol
  else colorSubH s.cfg.pixfmt main s.ctx.fixedcol

/-- Mode 6 (rule R157). -/
def State.blendSubs (s : State) (main sub : Half) (sd : Byte) : Half :=
  if s.ctx.clip then colorSub s.cfg.pixfmt main (s.op2 sub sd)
  else if s.sdSelect sd then colorSubH s.cfg.pixfmt main sub
  else colorSub s.cfg.pixfmt main s.ctx.fixedcol

/-- Mode 7 (rule R158). -/
def State.blendAddb (s : State) (main sub : Half) (sd : Byte) : Half :=
  colorAddB s.cfg.pixfmt s.bcap main (s.op2 sub sd)

/-- Mode 8 (rule R159). -/
def State.blendAddbs (s : State) (main sub : Half) (sd : Byte) : Half :=
  if s.ctx.clip then colorAddB s.cfg.pixfmt s.bcap main (s.op2 sub sd)
  else if s.sdSelect sd then colorAddBH s.cfg.pixfmt main sub
  else colorAddB s.cfg.pixfmt s.bcap main s.ctx.fixedcol

/-- `Calc(m, main, sub, sd)` (rule R150). -/
def State.calc (s : State) (m : MathMode) (main sub : Half) (sd : Byte) : Half :=
  match m with
  | .none => Sys2Proof.Machine.blendNone main
  | .add => s.blendAdd main sub sd
  | .addf => s.blendAddf main
  | .adds => s.blendAdds main sub sd
  | .sub => s.blendSub main sub sd
  | .subf => s.blendSubf main
  | .subs => s.blendSubs main sub sd
  | .addb => s.blendAddb main sub sd
  | .addbs => s.blendAddbs main sub sd

/-- BLEND.NONE (rule R151). -/
def execBlendNone (main sub : Half) (sd : Byte) (s : State) : Host.Outcome State Fault Refusal :=
  .next (s.respondColor (s.calc .none main sub sd))

/-- BLEND.ADD (rule R152). -/
def execBlendAdd (main sub : Half) (sd : Byte) (s : State) : Host.Outcome State Fault Refusal :=
  .next (s.respondColor (s.calc .add main sub sd))

/-- BLEND.ADDF (rule R153). -/
def execBlendAddf (main sub : Half) (sd : Byte) (s : State) : Host.Outcome State Fault Refusal :=
  .next (s.respondColor (s.calc .addf main sub sd))

/-- BLEND.ADDS (rule R154). -/
def execBlendAdds (main sub : Half) (sd : Byte) (s : State) : Host.Outcome State Fault Refusal :=
  .next (s.respondColor (s.calc .adds main sub sd))

/-- BLEND.SUB (rule R155). -/
def execBlendSub (main sub : Half) (sd : Byte) (s : State) : Host.Outcome State Fault Refusal :=
  .next (s.respondColor (s.calc .sub main sub sd))

/-- BLEND.SUBF (rule R156). -/
def execBlendSubf (main sub : Half) (sd : Byte) (s : State) : Host.Outcome State Fault Refusal :=
  .next (s.respondColor (s.calc .subf main sub sd))

/-- BLEND.SUBS (rule R157). -/
def execBlendSubs (main sub : Half) (sd : Byte) (s : State) : Host.Outcome State Fault Refusal :=
  .next (s.respondColor (s.calc .subs main sub sd))

/-- BLEND.ADDB (rule R158). -/
def execBlendAddb (main sub : Half) (sd : Byte) (s : State) : Host.Outcome State Fault Refusal :=
  .next (s.respondColor (s.calc .addb main sub sd))

/-- BLEND.ADDBS (rule R159). -/
def execBlendAddbs (main sub : Half) (sd : Byte) (s : State) : Host.Outcome State Fault Refusal :=
  .next (s.respondColor (s.calc .addbs main sub sd))

end Sys2Proof.Machine
end

