-- ==== Sys2Proof/Machine/Plot.lean ====
section
/-! DEFINITION. PixelPlotter (spec/41_pixelplotter.md): one plot in each of the five addressing
variants, a sequence of plots, what `F_BUF_RANGE` leaves behind (spec/60_exceptions.md rule R305),
and the commands PLOT.*. -/

namespace Sys2Proof.Machine

/-- The arguments of `Plot` (rules R170, R179); `flag` says that `M` is not zero, the only thing `M`
is used for (rule R170). -/
structure PlotCall where
  n : Int
  flag : Bool
  offset : Int
  oil : Int
  pix : Byte
  z1 : Byte
  z2 : Byte
  deriving DecidableEq, Repr

/-- What one plot does: it ends, drawn or gated; or a base address is out of range and nothing was
accessed; or the combined column of a hi-res plot is out of range when it is accessed (rules R172,
R176). -/
inductive PlotResult where
  | ended (s : State)
  | outAtBase
  | outAtCombined
  deriving DecidableEq, Repr

/-! ## Addresses -/

/-- The base address of a 1×1 plot (rule R173). -/
def PlotCall.base1 (p : PlotCall) : Int := p.offset + p.n

/-- The base address of the other variants (rules R174, R176). -/
def PlotCall.base2 (p : PlotCall) : Int := p.offset + 2 * p.n

/-- The position of a hi-res pixel in its line (rule R176). -/
def PlotCall.linePos (p : PlotCall) : Int := p.oil + 2 * p.n

/-- A hi-res pixel draws a combined column unless it is the last of its line (rule R176). -/
def PlotCall.combines (p : PlotCall) : Bool := decide (p.linePos ≠ 510)

/-- The hi-res pixel whose column `a` is left unspecified (rule R176). -/
def PlotCall.firstOfLine (p : PlotCall) (s : State) : Bool :=
  decide (p.linePos % (s.ctx.rppl.toNat : Int) = 0)

/-- Both addresses, when both are in range. -/
def State.phys2 (s : State) (a b : Int) : Option (Nat × Nat) :=
  match s.phys a, s.phys b with
  | some i, some j => some (i, j)
  | _, _ => none

/-! ## One plot -/

/-- The gate: not transparent, and the test depth above the stored depth (rules R91, R170). -/
def State.passes (s : State) (p : PlotCall) (i : Nat) : Bool :=
  p.flag && decide ((s.readTZ i).toNat < p.z1.toNat)

/-- `Blend(a, p)` at a physical index: the peer is always the sub-screen pair (rule R171). -/
def State.blendAt (s : State) (i : Nat) (pix : Byte) : Half :=
  s.calc s.ctx.rsel.math (s.screenColor pix) (Memory.read s.sSub i) (Memory.read s.zSub i)

/-- The pixel of a 1×1 plot that passes the gate (rule R173). -/
def State.draw1 (s : State) (p : PlotCall) (i : Nat) : State :=
  State.writeTZ i p.z2 (State.writeTS i (s.blendAt i p.pix) s)

/-- The two columns of a 2×1 plot that passes the gate: one blend, from the peer at `a` (rule
R174). -/
def State.draw2 (s : State) (p : PlotCall) (i j : Nat) : State :=
  let v := s.blendAt i p.pix
  State.writeTZ j p.z2 (State.writeTZ i p.z2 (State.writeTS j v (State.writeTS i v s)))

/-- The main column of a hi-res plot that passes the gate (rule R176). -/
def State.drawMain (s : State) (p : PlotCall) (i j : Nat) : State :=
  State.writeTS j (s.blendAt i p.pix) s

/-- The combined column `k`: the sub-screen sample is the first operand and the real colour the
second, under the SD byte of this pixel (rule R176). -/
def State.drawCombined (s : State) (p : PlotCall) (sd : Byte) (k : Nat) : State :=
  let s2 : Half := if s.ctx.clip then 0 else Memory.read s.sSub k
  State.writeTS k (s.calc s.ctx.rsel.math s2 (s.realColor p.pix) sd) s

/-- The last steps of a hi-res plot: column `a` of the first pixel of a line takes an unspecified
value, and the two depths are stored (rule R176). -/
def State.finishHires (s : State) (p : PlotCall) (i j : Nat) : State :=
  let t := if p.firstOfLine s then State.freeTS i s else s
  State.writeTZ j p.z2 (State.writeTZ i p.z2 t)

/-- `Plot_N1X1` (rule R173). -/
def plotN1x1 (p : PlotCall) (s : State) : PlotResult :=
  match s.phys p.base1 with
  | none => .outAtBase
  | some i => .ended (if s.passes p i then s.draw1 p i else s)

/-- `Plot_N2X1` (rule R174). -/
def plotN2x1 (p : PlotCall) (s : State) : PlotResult :=
  match s.phys2 p.base2 (p.base2 + 1) with
  | none => .outAtBase
  | some (i, j) => .ended (if s.passes p i then s.draw2 p i j else s)

/-- `Plot_INT` (rule R175). -/
def plotInt (p : PlotCall) (s : State) : PlotResult := plotN2x1 p s

/-- `Plot_HIRES` (rule R176). -/
def plotHires (p : PlotCall) (s : State) : PlotResult :=
  match s.phys2 p.base2 (p.base2 + 1) with
  | none => .outAtBase
  | some (i, j) =>
    if s.passes p i then
      let t := s.drawMain p i j
      if p.combines then
        match s.phys (p.base2 + 2) with
        | none => .outAtCombined
        | some k => .ended ((t.drawCombined p (Memory.read s.zSub i) k).finishHires p i j)
      else .ended (t.finishHires p i j)
    else .ended s

/-- `Plot_HIRESINT` (rule R177). -/
def plotHiresint (p : PlotCall) (s : State) : PlotResult := plotHires p s

/-- The variant of an addressing mode (rule R179). -/
def plotVariant (v : AddrMode) (p : PlotCall) (s : State) : PlotResult :=
  match v with
  | .n1x1 => plotN1x1 p s
  | .n2x1 => plotN2x1 p s
  | .int => plotInt p s
  | .hires => plotHires p s
  | .hiresint => plotHiresint p s

/-- `Plot`, the variant `CTX.RSEL.ADDR` selects (rule R179). -/
def plot (p : PlotCall) (s : State) : PlotResult := plotVariant s.ctx.rsel.addr p s

/-! ## What `F_BUF_RANGE` leaves behind (rule R305) -/

/-- The screen addresses a plot of a variant can write. -/
def PlotCall.screenAddrs (v : AddrMode) (p : PlotCall) (s : State) : List Int :=
  match v with
  | .n1x1 => [p.base1]
  | .n2x1 => [p.base2, p.base2 + 1]
  | .int => [p.base2, p.base2 + 1]
  | .hires =>
    (if p.firstOfLine s then [p.base2] else []) ++ [p.base2 + 1]
      ++ (if p.combines then [p.base2 + 2] else [])
  | .hiresint =>
    (if p.firstOfLine s then [p.base2] else []) ++ [p.base2 + 1]
      ++ (if p.combines then [p.base2 + 2] else [])

/-- The depth addresses a plot of a variant can write. -/
def PlotCall.depthAddrs (v : AddrMode) (p : PlotCall) : List Int :=
  match v with
  | .n1x1 => [p.base1]
  | .n2x1 => [p.base2, p.base2 + 1]
  | .int => [p.base2, p.base2 + 1]
  | .hires => [p.base2, p.base2 + 1]
  | .hiresint => [p.base2, p.base2 + 1]

/-- The screen cells a sequence of plots reaches, as physical indexes in range. -/
def screenFootprint (v : AddrMode) (ps : List PlotCall) (s : State) : List Nat :=
  (ps.flatMap fun p => p.screenAddrs v s).filterMap s.phys

/-- The depth cells it reaches. -/
def depthFootprint (v : AddrMode) (ps : List PlotCall) (s : State) : List Nat :=
  (ps.flatMap fun p => p.depthAddrs v).filterMap s.phys

/-- The address whose depth the gate tests (rule R170). -/
def PlotCall.base (v : AddrMode) (p : PlotCall) : Int :=
  match v with
  | .n1x1 => p.base1
  | .n2x1 => p.base2
  | .int => p.base2
  | .hires => p.base2
  | .hiresint => p.base2

/-- A plot could write: it passes the gate, or would for some depth where its base is out of range. -/
def State.couldWrite (v : AddrMode) (p : PlotCall) (s : State) : Bool :=
  match s.phys (p.base v) with
  | some i => s.passes p i
  | none => p.flag && decide (0 < p.z1.toNat)

/-- The depths a plot stores in its cells in range, which are all that later gates read of it. -/
def State.storeDepths (v : AddrMode) (p : PlotCall) (s : State) : State :=
  ((p.depthAddrs v).filterMap s.phys).foldl (fun t i => State.writeTZ i p.z2 t) s

/-- The plots of a sequence that would write, were the sequence run to its end past every address out of
range (rule R305; assumption 8). -/
def writers (v : AddrMode) : List PlotCall → State → List PlotCall
  | [], _ => []
  | p :: ps, s =>
    if s.couldWrite v p then p :: writers v ps (s.storeDepths v p) else writers v ps s

/-- Every footprint cell of the target pair takes an unspecified value; a cell that only transparent,
masked or gated plots reach is outside the footprint (rules R180, R305). -/
def State.scramble (v : AddrMode) (ps : List PlotCall) (s : State) : State :=
  let ws := writers v ps s
  State.freeDepth (depthFootprint v ws s) (State.freeScreen (screenFootprint v ws s) s)

/-! ## A sequence of plots -/

/-- The plots of a TR command in order; `none` when one is out of range. -/
def plotAll : List PlotCall → State → Option State
  | [], s => some s
  | p :: ps, s =>
    match plot p s with
    | .ended t => plotAll ps t
    | .outAtBase => none
    | .outAtCombined => none

/-- The pixel loop of a TR command: it completes, or `F_BUF_RANGE` stops it and the footprint is
unspecified (rules R14, R305). -/
def State.runPlots (ps : List PlotCall) (s : State) : State :=
  match plotAll ps s with
  | some t => t.done (.word 0)
  | none => (s.scramble s.ctx.rsel.addr ps).raise .bufRange

/-! ## The commands PLOT.* -/

/-- The operands of a PLOT command as the arguments of `Plot` (rule R114). -/
def plotArgs (n m offset oil : Word) (pix z1 z2 : Byte) : PlotCall where
  n := n.toInt
  flag := decide (m ≠ 0)
  offset := offset.toNat
  oil := oil.toNat
  pix := pix
  z1 := z1
  z2 := z2

/-- A PLOT command of a variant: a base address out of range accesses nothing (rule R172); a combined
column out of range leaves the footprint of this plot unspecified (rule R305). -/
def State.plotCommand (v : AddrMode) (p : PlotCall) (s : State) : State :=
  match plotVariant v p s with
  | .ended t => t.done (.word 0)
  | .outAtBase => s.raise .bufRange
  | .outAtCombined => (s.scramble v [p]).raise .bufRange

/-- PLOT.N1X1 (rule R173). -/
def execPlotN1x1 (n m offset oil : Word) (pix z1 z2 : Byte) (s : State) :
    Host.Outcome State Fault Refusal :=
  .next (s.plotCommand .n1x1 (plotArgs n m offset oil pix z1 z2))

/-- PLOT.N2X1 (rule R174). -/
def execPlotN2x1 (n m offset oil : Word) (pix z1 z2 : Byte) (s : State) :
    Host.Outcome State Fault Refusal :=
  .next (s.plotCommand .n2x1 (plotArgs n m offset oil pix z1 z2))

/-- PLOT.INT (rule R175). -/
def execPlotInt (n m offset oil : Word) (pix z1 z2 : Byte) (s : State) :
    Host.Outcome State Fault Refusal :=
  .next (s.plotCommand .int (plotArgs n m offset oil pix z1 z2))

/-- PLOT.HIRES (rule R176). -/
def execPlotHires (n m offset oil : Word) (pix z1 z2 : Byte) (s : State) :
    Host.Outcome State Fault Refusal :=
  .next (s.plotCommand .hires (plotArgs n m offset oil pix z1 z2))

/-- PLOT.HIRESINT (rule R177). -/
def execPlotHiresint (n m offset oil : Word) (pix z1 z2 : Byte) (s : State) :
    Host.Outcome State Fault Refusal :=
  .next (s.plotCommand .hiresint (plotArgs n m offset oil pix z1 z2))

end Sys2Proof.Machine
end

