-- ==== Sys2Proof/Machine/TileCache.lean ====
section
/-! DEFINITION. TileCache (spec/42_tilecache.md): `Resolve`, `Decode`, the converter,
`SelectPalette`, and the commands TC.*. -/

namespace Sys2Proof.Machine

/-! ## The converter (rule R196) -/

/-- `tileShift` (rule R190). -/
def tileShift (b : Bpp) : Nat := 4 + b.num

/-- Bits per pixel of a bank, `2 << bank` (rule R192). -/
def bppOfBank (b : Bpp) : Nat := 2 * 2 ^ b.num

/-- `PlaneByte(addr, p, y)`. -/
def State.planeByte (s : State) (addr p y : Nat) : Byte :=
  Memory.read s.vram ((addr + 2 * y + p % 2 + 16 * (p / 2)) % 65536)

/-- One pixel of the default converter: bit 7 of a plane byte is the leftmost column. -/
def State.convertPixel (s : State) (bpp addr y x : Nat) : Byte :=
  BitVec.ofNat 8
    (((List.range bpp).map fun p => bit ((s.planeByte addr p y).getLsbD (7 - x)) * 2 ^ p).sum)

/-- Byte `k` of `Convert(bpp, addr)`, by the converter the parameter record names (rules R9, R196). -/
def State.convertByte (s : State) (bpp addr k : Nat) : Byte :=
  match s.cfg.convert with
  | .planar => s.convertPixel bpp addr (k / 8) (k % 8)
  | .plugged id =>
    Config.pluggedPixel id bpp (fun a => Memory.read s.vram (a % 65536)) addr k

/-- `Convert(bpp, addr)`, 64 bytes, row by row. -/
def State.convert (s : State) (bpp addr : Nat) : List Byte :=
  (List.range 64).map fun k => s.convertByte bpp addr k

/-- `MirrorH` (rule R192). -/
def mirrorH (px : List Byte) : List Byte :=
  (List.range 64).map fun k => px.getD (8 * (k / 8) + (7 - k % 8)) 0

/-! ## `Resolve` -/

/-- The VRAM address of a tile reference (rule R191). -/
def State.tileAddr (s : State) (t : Half) : Nat :=
  (s.ctx.tileaddr.toNat + tileIndex t * 2 ^ tileShift s.ctx.bpp
    + (if nameSelect t then s.ctx.namesel.toNat else 0)) % 65536

/-- The tile number (rule R191). -/
def State.tileNumber (s : State) (t : Half) : BitVec 12 :=
  BitVec.ofNat 12 (s.tileAddr t / 2 ^ tileShift s.ctx.bpp)

/-- The pixels a decode of a slot gives (rule R192). -/
def State.decodedPixels (s : State) (bank : Bpp) (flip : Bool) (addr : Nat) : List Byte :=
  let px := s.convert (bppOfBank bank) addr
  if flip then mirrorH px else px

/-- `Decode(bank, f, tn, addr)` (rule R192). -/
def State.decodeSlot (bank : Bpp) (flip : Bool) (tn : BitVec 12) (addr : Nat) (s : State) : State :=
  let px := s.decodedPixels bank flip addr
  { s with
    tcbuf := Memory.writeMany s.tcbuf (64 * slotKey bank flip tn) px
    tcflag := Memory.write s.tcflag (slotKey bank flip tn) (flagOf px)
    ctx := { s.ctx with decodecnt := s.ctx.decodecnt + 1 } }

/-- `TCSEL` for a tile reference (rule R191). -/
def State.resolved (s : State) (t : Half) : Tcsel :=
  ⟨true, s.ctx.bpp, s.hflip t, s.tileNumber t⟩

/-- The decode `Resolve` makes when the slot is not yet decoded this frame (rule R191). -/
def State.fillSlot (t : Half) (s : State) : State :=
  if s.slotFlag s.ctx.bpp (s.hflip t) (s.tileNumber t) = 0 then
    State.decodeSlot s.ctx.bpp (s.hflip t) (s.tileNumber t) (s.tileAddr t) s
  else s

/-- `Resolve(tileRef)` (rule R191). -/
def State.resolve (t : Half) (s : State) : State :=
  let s1 := State.fillSlot t s
  { s1 with ctx := { s1.ctx with tcsel := s.resolved t } }

/-- Byte `k` of the slot `TCSEL` names (rule R211). -/
def State.slotByte (s : State) (k : Nat) : Byte :=
  Memory.read s.tcbuf (64 * slotKey s.ctx.tcsel.bank s.ctx.tcsel.flip s.ctx.tcsel.tn + k)

/-- The flag of the slot `TCSEL` names. -/
def State.selectedFlag (s : State) : BitVec 2 :=
  s.slotFlag s.ctx.tcsel.bank s.ctx.tcsel.flip s.ctx.tcsel.tn

/-! ## `SelectPalette` (rule R194) -/

/-- The slice start. -/
def State.paletteBase (s : State) (t : Half) : Byte :=
  BitVec.ofNat 8 ((t.toNat / 2 ^ s.ctx.palshift.toNat &&& s.ctx.palmask.toNat)
    + s.ctx.startpal.toNat)

/-- `SCSEL` for a tile reference. -/
def State.selected (s : State) (t : Half) : Scsel :=
  if s.ctx.direct then ⟨.direct, s.ctx.clip, 0, s.tileMap t⟩
  else ⟨.pal, s.ctx.clip, s.paletteBase t, 0⟩

/-- Set the latch `SCSEL`. -/
def State.setScsel (c : Scsel) (s : State) : State :=
  { s with ctx := { s.ctx with scsel := c } }

/-- `SelectPalette(tileRef)`. -/
def State.selectPalette (t : Half) (s : State) : State := State.setScsel (s.selected t) s

/-! ## The commands TC.* -/

/-- TC.RESOLVE (rule R193). -/
def execTcResolve (t : Half) (s : State) : Host.Outcome State Fault Refusal :=
  .next (State.done (.word (s.resolved t).word) (State.resolve t s))

/-- TC.SELPAL (rule R195). -/
def execTcSelpal (t : Half) (s : State) : Host.Outcome State Fault Refusal :=
  .next (State.done (.word (s.selected t).word) (State.selectPalette t s))

end Sys2Proof.Machine
end

