-- ==== Sys2Proof/Machine/Capture.lean ====
section
/-! DEFINITION. CaptureStore (spec/46_capturestore.md): the keys, the capture procedure in its two
phases, and the commands CS.*. -/

namespace Sys2Proof.Machine

/-! ## Keys (rule R271) -/

/-- `TileKey`: the 64 pixels of the selected slot, unmirrored. -/
def State.tileKey (s : State) : List Byte :=
  (List.range 64).map fun k =>
    s.slotByte (8 * (k / 8) + (if s.ctx.tcsel.flip then 7 - k % 8 else k % 8))

/-- `PalSize`: 4, 16 or 256 colours. -/
def State.palSize (s : State) : Nat :=
  if s.ctx.scsel.kind = .direct then 256 else 2 ^ bppOfBank s.ctx.tcsel.bank

/-- `PalColors`: the real variant, even while clipping. -/
def State.palColors (s : State) : List Half :=
  (List.range s.palSize).map fun i => s.realColor (BitVec.ofNat 8 i)

/-- A palette key: two bytes for each colour, low byte first (rule R83). -/
def palKey (colors : List Half) : List Byte :=
  colors.flatMap fun c => [c.setWidth 8, c.extractLsb' 8 8]

/-! ## Phase 1: decide (rule R273) -/

/-- What an observed draw will do to the catalog: the records it finds (`none`: a new one), whether
it is a new sighting and the count it establishes, and the milestone and the first orientation it
reaches. -/
structure CapturePlan where
  palAt : Option Nat
  tileAt : Option Nat
  newSight : Bool
  sightings : Word
  mile : Option Nat
  orient : Option Orient
  deriving DecidableEq, Repr

/-- The TileRecord a plan finds. -/
def State.tileFound (s : State) (at_ : Option Nat) : Option TileRecord :=
  at_.bind fun i => s.tiles[i]?

/-- The per-frame debounce: a new record, or a `lastSeenFrame` other than the current frame (rule
R276). -/
def State.isNewSight (s : State) : Option TileRecord → Bool
  | none => true
  | some r => decide (r.lastSeenFrame ≠ s.ctx.frame)

/-- The sighting count the call establishes. -/
def sightingsAfter (newSight : Bool) : Option TileRecord → Word
  | none => 1
  | some r => if newSight then r.sightings + 1 else r.sightings

/-- The milestone the count reaches, by its index in `MILESTONES` (rule R277). -/
def State.milestoneOf (s : State) (newSight : Bool) (n : Word) : Option Nat :=
  if newSight then s.cfg.milestones.findIdx? (fun m => m == n.toNat) else none

/-- The orientation the call sees first (rule R278). -/
def firstOrient (o : Orient) : Option TileRecord → Option Orient
  | none => some o
  | some r => if r.orientSeen.get o then none else some o

def State.capturePlan (t : Half) (s : State) : CapturePlan :=
  let palAt := s.pals.findIdx? fun r => palKey r.colors == palKey s.palColors
  let tileAt := s.tiles.findIdx? fun r => r.pixels == s.tileKey
  let old := s.tileFound tileAt
  let newSight := s.isNewSight old
  let n := sightingsAfter newSight old
  { palAt := palAt
    tileAt := tileAt
    newSight := newSight
    sightings := n
    mile := s.milestoneOf newSight n
    orient := firstOrient (orientOf (s.hflip t) (s.vflip t)) old }

/-- The call makes a reference. -/
def CapturePlan.needsRef (p : CapturePlan) : Bool := p.mile.isSome || p.orient.isSome

/-- A store is at its capacity (rule R281). -/
def atCap : Option Nat → Word → Bool
  | none, _ => false
  | some c, n => decide (c ≤ n.toNat)

/-- A store that needs a record is full (rules R273, R281). -/
def State.captureFull (s : State) (p : CapturePlan) : Bool :=
  (p.palAt.isNone && atCap s.cfg.capPals s.ctx.npals)
    || (p.tileAt.isNone && atCap s.cfg.capTiles s.ctx.ntiles)
    || (p.needsRef && atCap s.cfg.capRefs s.ctx.nrefs)

/-! ## Phase 2: commit (rule R273) -/

/-- `usage[id] + 1`; an absent id counts as 0 (rule R275). -/
def bumpUsage : List (Nat × Word) → Nat → List (Nat × Word)
  | [], a => [(a, 1)]
  | (k, n) :: t, a =>
    if a < k then (a, 1) :: (k, n) :: t
    else if a = k then (k, n + 1) :: t
    else (k, n) :: bumpUsage t a

/-- The id of the palette the call uses (rule R274). -/
def State.capturePalId (s : State) (p : CapturePlan) : Word :=
  match p.palAt.bind fun i => s.pals[i]? with
  | some r => r.id
  | none => s.ctx.npals

/-- PaletteRecord: found, `frequency` + 1; not found, a new record (rule R274). -/
def State.capturePals (s : State) (p : CapturePlan) : List PalRecord :=
  match p.palAt with
  | some i => s.pals.modify i fun r => { r with frequency := r.frequency + 1 }
  | none => s.pals ++ [⟨s.ctx.npals, s.palColors, s.palSize, 1⟩]

/-- The TileRecord as the call finds it, or a new one with no usage and no reference (rule R275). -/
def State.captureBase (s : State) (p : CapturePlan) : TileRecord :=
  match s.tileFound p.tileAt with
  | some r => r
  | none =>
    { id := s.ctx.ntiles
      pixels := s.tileKey
      palsize := s.palSize
      usage := []
      lastSeenFrame := s.ctx.frame
      sightings := 1
      mileRef := s.cfg.milestones.map fun _ => none
      orientSeen := ⟨false, false, false, false⟩
      orientRef := ⟨none, none, none, none⟩ }

/-- The usage count and the debounced sighting (rules R275, R276). -/
def State.captureSeen (s : State) (p : CapturePlan) : TileRecord :=
  let r := s.captureBase p
  { r with
    usage := bumpUsage r.usage (s.capturePalId p).toNat
    lastSeenFrame := s.ctx.frame
    sightings := p.sightings }

/-- The reference ids stored in the TileRecord: one reference serves a milestone and an orientation
(rules R277 to R279). -/
def State.captureTile (s : State) (p : CapturePlan) : TileRecord :=
  let r := s.captureSeen p
  { r with
    mileRef := match p.mile with
      | some i => r.mileRef.set i (some s.ctx.nrefs)
      | none => r.mileRef
    orientSeen := match p.orient with
      | some o => r.orientSeen.set o true
      | none => r.orientSeen
    orientRef := match p.orient with
      | some o => r.orientRef.set o (some s.ctx.nrefs)
      | none => r.orientRef }

/-- The reference `MakeReference` appends (rule R279). -/
def State.captureRef (s : State) (p : CapturePlan) (shape : Shape) (offset : Word) : RefRecord where
  id := s.ctx.nrefs
  tileId := (s.captureBase p).id
  shotId := s.ctx.shotid
  frame := s.ctx.frame
  x := BitVec.ofNat 32 (offset.toNat % s.ctx.rppl.toNat)
  y := BitVec.ofNat 32 (offset.toNat / s.ctx.rppl.toNat)
  shape := shape
  addr := s.ctx.rsel.addr
  math := s.ctx.rsel.math
  palId := s.capturePalId p

/-- The three stores and the three counts after the call. -/
def State.captureStores (s : State) (p : CapturePlan) (shape : Shape) (offset : Word) : State :=
  { s with
    pals := s.capturePals p
    tiles := match p.tileAt with
      | some i => s.tiles.set i (s.captureTile p)
      | none => s.tiles ++ [s.captureTile p]
    refs := if p.needsRef then s.refs ++ [s.captureRef p shape offset] else s.refs
    ctx := { s.ctx with
      npals := if p.palAt.isNone then s.ctx.npals + 1 else s.ctx.npals
      ntiles := if p.tileAt.isNone then s.ctx.ntiles + 1 else s.ctx.ntiles
      nrefs := if p.needsRef then s.ctx.nrefs + 1 else s.ctx.nrefs } }

/-- `MakeReference` ends by raising the capture request (rules R279, R280). -/
def State.captureCommit (s : State) (p : CapturePlan) (shape : Shape) (offset : Word) : State :=
  if p.needsRef then State.setCapreq true (s.captureStores p shape offset)
  else s.captureStores p shape offset

/-- `CaptureObserve`; `none` is `F_CS_FULL`, raised before any change (rules R273, R281). -/
def State.captureObserve (t : Half) (shape : Shape) (offset : Word) (s : State) : Option State :=
  let p := State.capturePlan t s
  if s.captureFull p then none else some (s.captureCommit p shape offset)

/-! ## The commands CS.* -/

/-- The name table of rule R289: shapes (rule R124). -/
def shapeName : Shape → String
  | .tile => "TILE"
  | .clip => "CLIP"
  | .mospix => "MOSPIX"
  | .backdrop => "BACKDROP"
  | .m7bg1 => "M7BG1"
  | .m7bg2 => "M7BG2"
  | .m7mbg1 => "M7MBG1"
  | .m7mbg2 => "M7MBG2"

/-- The name table of rule R289: addressing modes (rule R123). -/
def addrName : AddrMode → String
  | .n1x1 => "N1X1"
  | .n2x1 => "N2X1"
  | .int => "INTERLACE"
  | .hires => "HIRES"
  | .hiresint => "HIRESINT"

/-- The name table of rule R289: math modes (rule R122). -/
def mathName : MathMode → String
  | .none => "NONE"
  | .add => "ADD"
  | .addf => "ADDF1_2"
  | .adds => "ADDS1_2"
  | .sub => "SUB"
  | .subf => "SUBF1_2"
  | .subs => "SUBS1_2"
  | .addb => "ADDB"
  | .addbs => "ADDBS1_2"

/-- The value of a catalog read: the record of that id, or `ABSENT` (rules R286 to R288). -/
def recordOr {α : Type} (found : Option α) (mk : α → RespValue) : RespValue :=
  match found with
  | some r => mk r
  | none => .absent

/-- The record of an id below a store's count. -/
def lookupId {α : Type} (count id : Word) (idOf : α → Word) (l : List α) : Option α :=
  if id.toNat < count.toNat then l.find? fun r => idOf r == id else none

/-- What CS.RDPAL shows of a record (rule R287). -/
def PalRecord.view (fmt : PixFmt) (r : PalRecord) : PalView where
  id := r.id
  size := r.size
  colors := r.colors
  rgb := r.colors.map (chan fmt)
  frequency := r.frequency
  key := palKey r.colors

/-- What CS.RDREF shows of a record (rule R288). -/
def RefRecord.view (r : RefRecord) : RefView where
  record := r
  shapeNum := r.shape.num
  addrNum := r.addr.num
  mathNum := r.math.num
  shapeName := Sys2Proof.Machine.shapeName r.shape
  addrName := Sys2Proof.Machine.addrName r.addr
  mathName := Sys2Proof.Machine.mathName r.math

/-- Session reset: the three stores as a unit, their counts and the request (rule R284). -/
def State.sessionReset (s : State) : State :=
  { s with
    tiles := []
    pals := []
    refs := []
    ctx := { s.ctx with
      ntiles := 0
      npals := 0
      nrefs := 0
      status := { s.ctx.status with capreq := false } } }

/-- The collaborator consumes the request (rule R285). -/
def State.acknowledge (s : State) : State :=
  if s.ctx.status.capreq then
    { s with
      ctx := { s.ctx with
        status := { s.ctx.status with capreq := false }
        shotid := s.ctx.shotid + 1 } }
  else s

/-- CS.RESET (rule R284). -/
def execCsReset (s : State) : Host.Outcome State Fault Refusal :=
  .next (State.done (.word 0) s.sessionReset)

/-- CS.ACK (rule R285). -/
def execCsAck (s : State) : Host.Outcome State Fault Refusal :=
  .next (State.done (.word 0) s.acknowledge)

/-- CS.RDTILE (rule R286). -/
def execCsRdtile (id : Word) (s : State) : Host.Outcome State Fault Refusal :=
  .next (s.done (recordOr (lookupId s.ctx.ntiles id TileRecord.id s.tiles) .tile))

/-- CS.RDPAL (rule R287). -/
def execCsRdpal (id : Word) (s : State) : Host.Outcome State Fault Refusal :=
  .next (s.done (recordOr (lookupId s.ctx.npals id PalRecord.id s.pals)
    fun r => .pal (r.view s.cfg.pixfmt)))

/-- CS.RDREF (rule R288). -/
def execCsRdref (id : Word) (s : State) : Host.Outcome State Fault Refusal :=
  .next (s.done (recordOr (lookupId s.ctx.nrefs id RefRecord.id s.refs) fun r => .ref r.view))

end Sys2Proof.Machine
end

