-- ==== Sys2Proof/Machine/TileRender.lean ====
section
/-! DEFINITION. TileRenderer, the tile and backdrop strategies (spec/43_tilerenderer.md): TR.TILE,
TR.CLIP, TR.MOSPIX, TR.BACKDROP. -/

namespace Sys2Proof.Machine

/-! ## Source rows (rules R178, R215) -/

/-- The interlaced modes, INT and HIRESINT (rule R178). -/
def interlaced : AddrMode → Bool
  | .n1x1 => false
  | .n2x1 => false
  | .int => true
  | .hires => false
  | .hiresint => true

/-- `BpStart(StartLine)` (rule R178). -/
def State.bpStart (s : State) (sl : BitVec 6) : Int :=
  if interlaced s.ctx.rsel.addr then 2 * (sl.toNat : Int) + 8 * (bit s.ctx.iline : Int)
  else (sl.toNat : Int)

/-- `SrcPitch()` (rule R178). -/
def State.srcPitch (s : State) : Int := if interlaced s.ctx.rsel.addr then 2 else 1

/-- `SrcOfs(k)`, the byte offset of the row drawn on destination line `k` (rule R215). -/
def State.srcOfs (s : State) (t : Half) (sl : BitVec 6) (k : Nat) : Int :=
  if s.vflip t then 56 - s.bpStart sl - 8 * s.srcPitch * (k : Int)
  else s.bpStart sl + 8 * s.srcPitch * (k : Int)

/-- One of 0, 8, ..., 56 (rule R215). -/
def rowOk (o : Int) : Bool := decide (0 ≤ o ∧ o ≤ 56 ∧ o % 8 = 0)

/-- Every line the command draws has a source row (rules R212, R213). -/
def State.rowsOk (s : State) (t : Half) (sl : BitVec 6) (lines : Nat) : Bool :=
  (List.range lines).all fun k => rowOk (s.srcOfs t sl k)

/-- The pixel of tile column `c` on destination line `k` (rule R215). -/
def State.tilePixel (s : State) (t : Half) (sl : BitVec 6) (k c : Nat) : Byte :=
  s.slotByte ((s.srcOfs t sl k).toNat + c)

/-! ## The tile prologue (rule R211) -/

/-- TR.TILE and TR.CLIP forward to CaptureStore (rule R272). -/
def observed : Shape → Bool
  | .tile => true
  | .clip => true
  | .mospix => false
  | .backdrop => false
  | .m7bg1 => false
  | .m7bg2 => false
  | .m7mbg1 => false
  | .m7mbg2 => false

/-- How the prologue ends: the tile is blank, or its slot is ready, or the catalog is full. -/
inductive Prologue where
  | blank (s : State)
  | ready (s : State)
  | full (s : State)
  deriving DecidableEq, Repr

/-- `TilePrologue(Tile, shape, Offset)`. -/
def State.tilePrologue (t : Half) (shape : Shape) (offset : Word) (s : State) : Prologue :=
  let s1 := State.resolve t s
  if s1.selectedFlag = 2 then .blank s1
  else
    let s2 := State.selectPalette t s1
    if s.ctx.capen && observed shape then
      match State.captureObserve t shape offset s2 with
      | some s3 => .ready s3
      | none => .full s2
    else .ready s2

/-- A tile command after its row check: blank, it ends; full, it faults; ready, it runs its plots
(rules R211 to R214). -/
def State.tileCommand (t : Half) (shape : Shape) (offset : Word) (plots : State → List PlotCall)
    (s : State) : State :=
  match State.tilePrologue t shape offset s with
  | .blank s1 => s1.done (.word 0)
  | .full s1 => s1.raise .csFull
  | .ready s1 => s1.runPlots (plots s1)

/-! ## The plots of a command -/

/-- The destination address of line `k`: `Offset + k * PPL` (rule R210). -/
def State.lineAddr (s : State) (offset : Word) (k : Nat) : Int :=
  (offset.toNat : Int) + (k : Int) * (s.ctx.ppl.toNat : Int)

/-- The plot of tile column `c` on line `k` (rules R212, R213). -/
def State.tilePlot (s : State) (t : Half) (offset : Word) (sl : BitVec 6) (k c : Nat) : PlotCall :=
  let pix := s.tilePixel t sl k c
  { n := c
    flag := decide (pix ≠ 0)
    offset := s.lineAddr offset k
    oil := s.lineOffset offset
    pix := pix
    z1 := s.ctx.z1
    z2 := s.ctx.z2 }

/-- Lines top to bottom, the columns `cols` in their order (rules R212, R213). -/
def State.tilePlots (t : Half) (offset : Word) (sl : BitVec 6) (lines : Nat) (cols : List Nat)
    (s : State) : List PlotCall :=
  (List.range lines).flatMap fun k => cols.map fun c => s.tilePlot t offset sl k c

/-- The columns of TR.CLIP, `StartPixel` to `min(7, StartPixel + Width - 1)` (rule R213). -/
def clipColumns (sp : BitVec 3) (w : BitVec 4) : List Nat :=
  (List.range (min w.toNat (8 - sp.toNat))).map fun i => sp.toNat + i

/-- The block of TR.MOSPIX: one sample on every line, columns right to left; none when the sample is
transparent (rule R214). -/
def State.mospixPlots (t : Half) (offset : Word) (sl : BitVec 6) (sp : BitVec 3)
    (w lines : Nat) (s : State) : List PlotCall :=
  let pix := s.tilePixel t sl 0 sp.toNat
  if pix = 0 then []
  else
    (List.range lines).flatMap fun k => (List.range w).reverse.map fun (c : Nat) =>
      { n := c
        flag := true
        offset := s.lineAddr offset k
        oil := s.lineOffset offset
        pix := pix
        z1 := s.ctx.z1
        z2 := s.ctx.z2 }

/-- The number of lines of `STARTY..ENDY`, 0 when it is empty (rules R216, R238). -/
def State.lineCount (s : State) : Nat := s.ctx.endy.toNat + 1 - s.ctx.starty.toNat

/-- The columns of `[Left, Right)` (rules R216, R238). -/
def columns (left right : Half) : List Nat :=
  (List.range (right.toNat - left.toNat)).map fun i => left.toNat + i

/-- The rectangle of TR.BACKDROP: flag 1, index 0, depths 1 (rule R216). -/
def State.backdropPlots (offset : Word) (left right : Half) (s : State) : List PlotCall :=
  (List.range s.lineCount).flatMap fun k => (columns left right).map fun (x : Nat) =>
    { n := x
      flag := true
      offset := s.lineAddr offset k
      oil := s.lineOffset offset
      pix := 0
      z1 := 1
      z2 := 1 }

/-- The palette TR.BACKDROP selects (rule R216). -/
def State.backdropScsel (s : State) : Scsel :=
  if s.ctx.fbd.en then ⟨.forced, s.ctx.clip, 0, 0⟩ else ⟨.pal, s.ctx.clip, 0, 0⟩

/-! ## The commands -/

/-- TR.TILE (rule R212). -/
def execTrTile (t : Half) (offset : Word) (sl : BitVec 6) (lc : BitVec 4) (s : State) :
    Host.Outcome State Fault Refusal :=
  .next (if s.rowsOk t sl lc.toNat then
      State.tileCommand t .tile offset (State.tilePlots t offset sl lc.toNat (List.range 8)) s
    else s.raise .tileRange)

/-- TR.CLIP (rule R213). -/
def execTrClip (t : Half) (offset : Word) (sp : BitVec 3) (w : BitVec 4) (sl : BitVec 6)
    (lc : BitVec 4) (s : State) : Host.Outcome State Fault Refusal :=
  .next (if s.rowsOk t sl lc.toNat then
      State.tileCommand t .clip offset
        (State.tilePlots t offset sl lc.toNat (clipColumns sp w)) s
    else s.raise .tileRange)

/-- TR.MOSPIX: only `SrcOfs(0)` is checked (rule R214). -/
def execTrMospix (t : Half) (offset : Word) (sl : BitVec 6) (sp : BitVec 3) (w lc : Half)
    (s : State) : Host.Outcome State Fault Refusal :=
  .next (if rowOk (s.srcOfs t sl 0) then
      State.tileCommand t .mospix offset
        (State.mospixPlots t offset sl sp w.toNat lc.toNat) s
    else s.raise .tileRange)

/-- TR.BACKDROP (rule R216). -/
def execTrBackdrop (offset : Word) (left right : Half) (s : State) :
    Host.Outcome State Fault Refusal :=
  let s1 := State.setScsel s.backdropScsel s
  .next (s1.runPlots (State.backdropPlots offset left right s1))

end Sys2Proof.Machine
end

