-- ==== Sys2Proof/Machine/Mode7.lean ====
section
/-! DEFINITION. TileRenderer, the Mode-7 strategies (spec/44_mode7.md): TR.M7BG1, TR.M7BG2,
TR.M7MBG1, TR.M7MBG2. -/

namespace Sys2Proof.Machine

/-- The two parameterisations (rule R235). -/
inductive Bg where
  | bg1
  | bg2
  deriving DecidableEq, Repr

/-! ## The transform (rules R230, R232) -/

/-- The fields of an `LMD` record, in the order of its eight cells (rule R33). -/
structure LineRecord where
  a : Int
  b : Int
  c : Int
  d : Int
  cx : Int
  cy : Int
  hofs : Int
  vofs : Int
  deriving DecidableEq, Repr

/-- `LMD[Line]`: matrix cells read as `sext_16`, offsets and centre as `sext_13` (rules R33, R230). -/
def State.lineRecord (s : State) (line : Nat) : LineRecord where
  a := sext16 (Memory.read s.lmd (8 * line))
  b := sext16 (Memory.read s.lmd (8 * line + 1))
  c := sext16 (Memory.read s.lmd (8 * line + 2))
  d := sext16 (Memory.read s.lmd (8 * line + 3))
  cx := sext13 (Memory.read s.lmd (8 * line + 4))
  cy := sext13 (Memory.read s.lmd (8 * line + 5))
  hofs := sext13 (Memory.read s.lmd (8 * line + 6))
  vofs := sext13 (Memory.read s.lmd (8 * line + 7))

def LineRecord.yy (l : LineRecord) : Int := clip10 (l.vofs - l.cy)

def LineRecord.xx (l : LineRecord) : Int := clip10 (l.hofs - l.cx)

/-- `BB` of `LineSetup` (rule R232). -/
def LineRecord.bb (l : LineRecord) (line : Nat) : Int :=
  andNot63 (l.b * ((line : Int) + 1)) + andNot63 (l.b * l.yy) + l.cx * 256

/-- `DD` of `LineSetup` (rule R232). -/
def LineRecord.dd (l : LineRecord) (line : Nat) : Int :=
  andNot63 (l.d * ((line : Int) + 1)) + andNot63 (l.d * l.yy) + l.cy * 256

/-- `SrcX` (rule R232). -/
def LineRecord.srcX (l : LineRecord) (line : Nat) (x : Nat) : Int :=
  shr8 (l.a * (x : Int) + andNot63 (l.a * l.xx) + l.bb line)

/-- `SrcY` (rule R232). -/
def LineRecord.srcY (l : LineRecord) (line : Nat) (x : Nat) : Int :=
  shr8 (l.c * (x : Int) + andNot63 (l.c * l.xx) + l.dd line)

/-! ## The fetch (rules R233, R234) -/

/-- `M7Fetch(X, Y)` for coordinates in 0..1023. -/
def State.m7Fetch (s : State) (x y : Nat) : Byte :=
  let tile := Memory.read s.vram (2 * (128 * (y / 8) + x / 8))
  Memory.read s.vram (2 * (64 * tile.toNat + 8 * (y % 8) + x % 8) + 1)

/-- `M7FetchTile0(X, Y)` for any integers. -/
def State.m7FetchTile0 (s : State) (x y : Int) : Byte :=
  Memory.read s.vram (1 + 16 * (y % 8).toNat + 2 * (x % 8).toNat)

/-- A coordinate in the 10-bit range (rule R234). -/
def inMap (x : Int) : Bool := decide (0 ≤ x ∧ x ≤ 1023)

/-- A coordinate clamped to the 10-bit range (rule R234, EDGE). -/
def clampMap (x : Int) : Nat := (min 1023 (max 0 x)).toNat

/-- The policy `CTX.M7REPEAT` selects (rules R125, R234). -/
def State.repeatPolicy (s : State) : M7Policy :=
  match s.ctx.m7repeat.toNat with
  | 0 => s.cfg.m7Policy.p0
  | 1 => s.cfg.m7Policy.p1
  | 2 => s.cfg.m7Policy.p2
  | _ => s.cfg.m7Policy.p3

/-- `M7Sample(X, Y)`; `none` is SKIP. -/
def State.m7Sample (s : State) (x y : Int) : Option Byte :=
  if inMap x && inMap y then some (s.m7Fetch x.toNat y.toNat)
  else
    match s.repeatPolicy with
    | .transparent => none
    | .edge => some (s.m7Fetch (clampMap x) (clampMap y))
    | .wrap => some (s.m7Fetch (x % 1024).toNat (y % 1024).toNat)
    | .fixedTile => some (s.m7FetchTile0 x y)

/-! ## The two parameterisations (rule R235) -/

/-- `M7SelectPalette(bg)`. -/
def State.m7Scsel (s : State) : Bg → Scsel
  | .bg1 => if s.ctx.direct then ⟨.direct, s.ctx.clip, 0, 0⟩ else ⟨.pal, s.ctx.clip, 0, 0⟩
  | .bg2 => ⟨.pal, s.ctx.clip, 0, 0⟩

/-- `M7Pix(bg, b)`. -/
def m7Pix (bg : Bg) (b : Byte) : Byte :=
  match bg with
  | .bg1 => b
  | .bg2 => b &&& 0x7F

/-- `M7Z(bg, b, D)`; byte addition is mod 256. -/
def State.m7Z (s : State) (bg : Bg) (b d : Byte) : Byte :=
  match bg with
  | .bg1 => d + s.cfg.m7Bg1Zofs
  | .bg2 => d + (if b.getLsbD 7 then 11 else 3)

/-- `ENDY` is a line of `LMD`, or the line range is empty (rules R238, R243). -/
def State.linesOk (s : State) : Bool :=
  decide (s.ctx.endy.toNat < s.ctx.starty.toNat ∨ s.ctx.endy.toNat < s.cfg.lines)

/-! ## Mode-7 row (rule R238) -/

/-- The plot of column `x` of line `line`, `none` when the sample is skipped. -/
def State.m7Plot (s : State) (bg : Bg) (d : Byte) (oil : Int) (line x : Nat) : Option PlotCall :=
  let l := s.lineRecord line
  (s.m7Sample (l.srcX line x) (l.srcY line x)).map fun b =>
    { n := x
      flag := decide (m7Pix bg b ≠ 0)
      offset := (line : Int) * (s.ctx.ppl.toNat : Int)
      oil := oil
      pix := m7Pix bg b
      z1 := s.m7Z bg b d
      z2 := s.m7Z bg b d }

def State.m7RowPlots (bg : Bg) (left right : Half) (d : Byte) (s : State) : List PlotCall :=
  let oil : Nat := s.ctx.starty.toNat * s.ctx.ppl.toNat % s.ctx.rppl.toNat
  (List.range s.lineCount).flatMap fun k =>
    (columns left right).filterMap fun x => s.m7Plot bg d oil (s.ctx.starty.toNat + k) x

/-- `M7Row`. -/
def State.m7Row (bg : Bg) (left right : Half) (d : Byte) (s : State) : State :=
  if s.linesOk then
    let s1 := State.setScsel (s.m7Scsel bg) s
    s1.runPlots (State.m7RowPlots bg left right d s1)
  else s.raise .lineRange

/-! ## Mode-7 mosaic row (rules R240, R243) -/

/-- `MLeft`. -/
def mosaicLeft (left h : Nat) : Nat := left - left % h

/-- `MRight`. -/
def mosaicRight (right h : Nat) : Nat := right + h - 1 - (right + h - 1) % h

/-- `MLeft`, `MLeft + H`, ... while below `MRight`. -/
def mosaicColumns (left right h : Nat) : List Nat :=
  (List.range ((mosaicRight right h - mosaicLeft left h) / h)).map fun i => mosaicLeft left h + h * i

/-- `Line0`. -/
def State.mosaicLine0 (s : State) : Nat := s.ctx.starty.toNat - s.ctx.mosaicstart.toNat

/-- The number of blocks: tops `Line0`, `Line0 + V`, ... while at most `ENDY`. -/
def State.mosaicBlocks (s : State) : Nat :=
  (s.ctx.endy.toNat + 1 - s.mosaicLine0 + s.ctx.vmosaic.toNat - 1) / s.ctx.vmosaic.toNat

/-- The rows `ms..vb-1` of a block: `ms` is `MOSAICSTART` for the first block and 0 for a later
one, `vb` is the block's height (rule R240). -/
def State.mosaicRows (s : State) (j top : Nat) : List Nat :=
  let ms := if j = 0 then s.ctx.mosaicstart.toNat else 0
  let vb := min s.ctx.vmosaic.toNat (s.ctx.endy.toNat + 1 - top)
  (List.range (vb - ms)).map fun i => ms + i

/-- The cells of one block, top row first, right to left; a cell outside `[Left, Right)` has truth
flag 0 (rule R243). -/
def State.mosaicCells (s : State) (left right : Half) (oil : Int) (top x : Nat) (rows : List Nat)
    (pix z : Byte) : List PlotCall :=
  rows.flatMap fun r => (List.range s.ctx.hmosaic.toNat).reverse.map fun i =>
    { n := ((x + i : Nat) : Int)
      flag := decide (left.toNat ≤ x + i ∧ x + i < right.toNat)
      offset := ((top + r : Nat) : Int) * (s.ctx.ppl.toNat : Int)
      oil := oil
      pix := pix
      z1 := z
      z2 := z }

/-- The plots of the block with its top-left corner at (`x`, `top`): none when its one sample is
skipped or transparent. -/
def State.mosaicBlock (s : State) (bg : Bg) (left right : Half) (d : Byte) (oil : Int) (j top x : Nat) :
    List PlotCall :=
  let l := s.lineRecord top
  match s.m7Sample (l.srcX top x) (l.srcY top x) with
  | none => []
  | some b =>
    if m7Pix bg b = 0 then []
    else s.mosaicCells left right oil top x (s.mosaicRows j top) (m7Pix bg b) (s.m7Z bg b d)

/-- The plots of a mosaic command, block by block: blocks top to bottom, left to right (rule R243). -/
def State.m7MosaicPlots (bg : Bg) (left right : Half) (d : Byte) (s : State) : List PlotCall :=
  let oil : Nat := s.mosaicLine0 * s.ctx.ppl.toNat % s.ctx.rppl.toNat
  (List.range s.mosaicBlocks).flatMap fun j =>
    let top := s.mosaicLine0 + s.ctx.vmosaic.toNat * j
    (mosaicColumns left.toNat right.toNat s.ctx.hmosaic.toNat).flatMap fun x =>
      s.mosaicBlock bg left right d oil j top x

/-- The lines of a mosaic command are in `LMD`: `ENDY` as for a row, and the top line of the first
block, whose record is read even where `STARTY` is above `ENDY` and no row is drawn (rules R230,
R243). The top of a later block lies in `STARTY..ENDY`. -/
def State.mosaicLinesOk (s : State) : Bool :=
  s.linesOk && decide (s.ctx.endy.toNat < s.mosaicLine0 ∨ s.mosaicLine0 < s.cfg.lines)

/-- `M7MosaicRow`; a line fault comes before any state change (rule R305; assumption 10). -/
def State.m7MosaicRow (bg : Bg) (left right : Half) (d : Byte) (s : State) : State :=
  if s.ctx.vmosaic.toNat ≤ s.ctx.mosaicstart.toNat then s.raise .illegalOperand
  else if s.ctx.starty.toNat < s.ctx.mosaicstart.toNat then s.raise .lineRange
  else if s.mosaicLinesOk then
    let s1 := State.setScsel (s.m7Scsel bg) s
    s1.runPlots (State.m7MosaicPlots bg left right d s1)
  else s.raise .lineRange

/-! ## The commands -/

/-- TR.M7BG1 (rule R236). -/
def execTrM7bg1 (left right : Half) (d : Byte) (s : State) : Host.Outcome State Fault Refusal :=
  .next (State.m7Row .bg1 left right d s)

/-- TR.M7BG2 (rule R237). -/
def execTrM7bg2 (left right : Half) (d : Byte) (s : State) : Host.Outcome State Fault Refusal :=
  .next (State.m7Row .bg2 left right d s)

/-- TR.M7MBG1 (rule R241). -/
def execTrM7mbg1 (left right : Half) (d : Byte) (s : State) : Host.Outcome State Fault Refusal :=
  .next (State.m7MosaicRow .bg1 left right d s)

/-- TR.M7MBG2 (rule R242). -/
def execTrM7mbg2 (left right : Half) (d : Byte) (s : State) : Host.Outcome State Fault Refusal :=
  .next (State.m7MosaicRow .bg2 left right d s)

end Sys2Proof.Machine
end

