-- ==== Sys2Proof/Machine/System.lean ====
section
/-! DEFINITION. RendererDispatch and the system commands (spec/45_dispatch_system.md): RD.SELECT,
SYS.*. -/

namespace Sys2Proof.Machine

/-- `CTX.RSEL <- (MATH, ADDR)` (rule R250). -/
def State.setRsel (m : MathMode) (a : AddrMode) (s : State) : State :=
  { s with ctx := { s.ctx with rsel := ⟨m, a⟩ } }

/-- `CTX[REG] <- value` (rule R253). -/
def State.writeReg (r : CtxReg) (v : Word) (s : State) : State :=
  { s with ctx := s.ctx.writeReg r v }

/-- The refresh-start boundary: flags and `TCSEL.VALID` cleared, `FRAME` + 1 mod 2^32 (rule R255). -/
def State.frameStart (s : State) : State :=
  { s.clearSlotFlags with
    ctx := { s.ctx with
      tcsel := { s.ctx.tcsel with valid := false }
      frame := s.ctx.frame + 1 } }

/-- SYS.NOP (rule R251). -/
def execSysNop (s : State) : Host.Outcome State Fault Refusal := .next (s.done (.word 0))

/-- SYS.RST (rule R252). -/
def execSysRst (s : State) : Host.Outcome State Fault Refusal :=
  .next (State.done (.word 0) s.softReset)

/-- SYS.CTXWR (rule R253). -/
def execSysCtxwr (r : CtxReg) (v : Word) (s : State) : Host.Outcome State Fault Refusal :=
  .next (if regAccepts r v then State.done (.word 0) (s.writeReg r v) else s.raise .illegalOperand)

/-- SYS.CTXRD (rule R254). -/
def execSysCtxrd (r : CtxReg) (s : State) : Host.Outcome State Fault Refusal :=
  .next (s.done (.word (s.ctx.readReg r)))

/-- SYS.FRAMESTART (rule R255). -/
def execSysFramestart (s : State) : Host.Outcome State Fault Refusal :=
  .next (State.done (.word 0) s.frameStart)

/-- RD.SELECT (rule R250). -/
def execRdSelect (m : MathMode) (a : AddrMode) (s : State) : Host.Outcome State Fault Refusal :=
  .next (State.done (.word 0) (State.setRsel m a s))

end Sys2Proof.Machine
end

