-- ==== Sys2Proof/Machine/Dispatch.lean ====
section
/-! DEFINITION. The dispatch: one arm per command, each one direct call of its meaning. -/

namespace Sys2Proof.Machine

def exec (i : Instr) (s : State) : Host.Outcome State Fault Refusal :=
  match i with
  | .sysNop => Sys2Proof.Machine.execSysNop s
  | .sysRst => Sys2Proof.Machine.execSysRst s
  | .sysCtxwr r v => Sys2Proof.Machine.execSysCtxwr r v s
  | .sysCtxrd r => Sys2Proof.Machine.execSysCtxrd r s
  | .sysFramestart => Sys2Proof.Machine.execSysFramestart s
  | .rdSelect m a => Sys2Proof.Machine.execRdSelect m a s
  | .cmAdd c1 c2 => Sys2Proof.Machine.execCmAdd c1 c2 s
  | .cmAddh c1 c2 => Sys2Proof.Machine.execCmAddh c1 c2 s
  | .cmSub c1 c2 => Sys2Proof.Machine.execCmSub c1 c2 s
  | .cmSubh c1 c2 => Sys2Proof.Machine.execCmSubh c1 c2 s
  | .cmAddb c1 c2 => Sys2Proof.Machine.execCmAddb c1 c2 s
  | .cmAddbh c1 c2 => Sys2Proof.Machine.execCmAddbh c1 c2 s
  | .blendNone main sub sd => Sys2Proof.Machine.execBlendNone main sub sd s
  | .blendAdd main sub sd => Sys2Proof.Machine.execBlendAdd main sub sd s
  | .blendAddf main sub sd => Sys2Proof.Machine.execBlendAddf main sub sd s
  | .blendAdds main sub sd => Sys2Proof.Machine.execBlendAdds main sub sd s
  | .blendSub main sub sd => Sys2Proof.Machine.execBlendSub main sub sd s
  | .blendSubf main sub sd => Sys2Proof.Machine.execBlendSubf main sub sd s
  | .blendSubs main sub sd => Sys2Proof.Machine.execBlendSubs main sub sd s
  | .blendAddb main sub sd => Sys2Proof.Machine.execBlendAddb main sub sd s
  | .blendAddbs main sub sd => Sys2Proof.Machine.execBlendAddbs main sub sd s
  | .plotN1x1 n m offset oil pix z1 z2 => Sys2Proof.Machine.execPlotN1x1 n m offset oil pix z1 z2 s
  | .plotN2x1 n m offset oil pix z1 z2 => Sys2Proof.Machine.execPlotN2x1 n m offset oil pix z1 z2 s
  | .plotInt n m offset oil pix z1 z2 => Sys2Proof.Machine.execPlotInt n m offset oil pix z1 z2 s
  | .plotHires n m offset oil pix z1 z2 => Sys2Proof.Machine.execPlotHires n m offset oil pix z1 z2 s
  | .plotHiresint n m offset oil pix z1 z2 => Sys2Proof.Machine.execPlotHiresint n m offset oil pix z1 z2 s
  | .tcResolve t => Sys2Proof.Machine.execTcResolve t s
  | .tcSelpal t => Sys2Proof.Machine.execTcSelpal t s
  | .trTile t offset sl lc => Sys2Proof.Machine.execTrTile t offset sl lc s
  | .trClip t offset sp w sl lc => Sys2Proof.Machine.execTrClip t offset sp w sl lc s
  | .trMospix t offset sl sp w lc => Sys2Proof.Machine.execTrMospix t offset sl sp w lc s
  | .trBackdrop offset left right => Sys2Proof.Machine.execTrBackdrop offset left right s
  | .trM7bg1 left right d => Sys2Proof.Machine.execTrM7bg1 left right d s
  | .trM7bg2 left right d => Sys2Proof.Machine.execTrM7bg2 left right d s
  | .trM7mbg1 left right d => Sys2Proof.Machine.execTrM7mbg1 left right d s
  | .trM7mbg2 left right d => Sys2Proof.Machine.execTrM7mbg2 left right d s
  | .csReset => Sys2Proof.Machine.execCsReset s
  | .csAck => Sys2Proof.Machine.execCsAck s
  | .csRdtile id => Sys2Proof.Machine.execCsRdtile id s
  | .csRdpal id => Sys2Proof.Machine.execCsRdpal id s
  | .csRdref id => Sys2Proof.Machine.execCsRdref id s

end Sys2Proof.Machine
end

