-- ==== Sys2Proof/Machine/Port.lean ====
section
/-! DEFINITION. What one host move does (spec/70_reset_and_hazards.md rule R335): a packet on the
command port (spec/30_encoding.md rule R111), an access through the memory port, the hardware
reset. -/

namespace Sys2Proof.Machine

/-- A packet that an unhalted block accepts: a refused packet faults before any state change, another
runs its command (rule R111). -/
def runPacket (p : Packet) (s : State) : Host.Outcome State Fault Refusal :=
  match decode p with
  | .ok i => exec i s
  | .error e => .next (s.raise (decodeFault e))

/-- One move of the host. -/
def runMove (m : HostMove) (s : State) : Host.Outcome State Fault Refusal :=
  match m with
  | .packet p => runPacket p s
  | .write sp i v => if i < sp.size s.cfg then .next (s.hostWrite sp i v) else .fault .noSuchCell
  | .read sp i => if i < sp.size s.cfg then .next (s.hostRead sp i) else .fault .noSuchCell
  | .hardReset => .next s.hardReset

/-- One step: the block takes the host's next move; with none to take, nothing changes (rules R303,
R335). -/
def stepOnce (s : State) : Host.Outcome State Fault Refusal :=
  match s.nextMove with
  | none => .next s
  | some (m, rest) => runMove m { s with moves := rest }

/-- The block ready to accept a packet: a halted one is taken out of the halt, `FAULTCODE` with it
(rule R41). -/
def State.ready (s : State) : State :=
  if s.ctx.status.halt then
    { s with ctx := { s.ctx with status := { s.ctx.status with halt := false, faultCode := 0 } } }
  else s

/-- The packet on the command port, before the host's other moves (assumption 1). -/
def State.present (p : Packet) (s : State) : State :=
  { s.ready with moves := .packet p :: s.moves }

end Sys2Proof.Machine
end

