-- ==== Sys2Proof/Machine/Step.lean ====
section
/-! DEFINITION. The step, and the state in which a given command is the one the next step runs. -/

namespace Sys2Proof.Machine

/-- One step of the machine (spec/70_reset_and_hazards.md rule R335). -/
def step (s : State) : Host.Outcome State Fault Refusal := stepOnce s

/-- `s` with the command whose bits are `w` presented on the command port. -/
def State.withFetchWord (s : State) (nbits w : Nat) : State := s.present (tablePacket nbits w)

end Sys2Proof.Machine
end

