-- ==== Sys2Proof/Safety.lean ====
section
/-! DEFINITION. What the claims speak of: the invariants of the machine, the cells a plot reaches, and
the parts of the state a command may change. -/

namespace Sys2Proof.Machine

/-! ## Invariants -/

/-- Every memory is in canonical form and lists no index outside its range (rules R30 to R36, R80). -/
def State.memoriesOk (s : State) : Prop :=
  (s.vram.wf = true ∧ s.vram.below 65536 = true)
    ∧ (s.pal.wf = true ∧ s.pal.below 256 = true)
    ∧ (s.dcm.wf = true ∧ s.dcm.below 2048 = true)
    ∧ (s.lmd.wf = true ∧ s.lmd.below (8 * s.cfg.lines) = true)
    ∧ (s.bcap.wf = true ∧ s.bcap.below 63 = true)
    ∧ (s.sMain.wf = true ∧ s.sMain.below s.cfg.bufsz = true)
    ∧ (s.zMain.wf = true ∧ s.zMain.below s.cfg.bufsz = true)
    ∧ (s.sSub.wf = true ∧ s.sSub.below s.cfg.bufsz = true)
    ∧ (s.zSub.wf = true ∧ s.zSub.below s.cfg.bufsz = true)
    ∧ (s.tcbuf.wf = true ∧ s.tcbuf.below 1572864 = true)
    ∧ (s.tcflag.wf = true ∧ s.tcflag.below 24576 = true)

/-- The registers whose legal column of rule R40 is narrower than their field hold a legal value. -/
def State.registersLegal (s : State) : Prop :=
  (1 ≤ s.ctx.hmosaic.toNat ∧ s.ctx.hmosaic.toNat ≤ 16)
    ∧ (1 ≤ s.ctx.vmosaic.toNat ∧ s.ctx.vmosaic.toNat ≤ 16)
    ∧ (1 ≤ s.ctx.ppl.toNat ∧ s.ctx.ppl.toNat ≤ 2147483647)
    ∧ (1 ≤ s.ctx.rppl.toNat ∧ s.ctx.rppl.toNat ≤ 2147483647)

/-- `FAULTCODE` is 0 when the block is not halted, and a code of rule R300 when it is (rule R41). -/
def State.statusConsistent (s : State) : Prop :=
  if s.ctx.status.halt then 1 ≤ s.ctx.status.faultCode.toNat ∧ s.ctx.status.faultCode.toNat ≤ 6
  else s.ctx.status.faultCode = 0

/-- Byte `k` of a slot of the tile cache (rule R36). -/
def State.cacheByte (s : State) (bank : Bpp) (flip : Bool) (tn : BitVec 12) (k : Nat) : Byte :=
  Memory.read s.tcbuf (64 * slotKey bank flip tn + k)

/-- A flag is 0, or 1 with a nonzero byte in the slot, or 2 with 64 zero bytes, and a decoded slot has
a tile number of its bank (rules R36, R190, R192). -/
def State.slotsConsistent (s : State) : Prop :=
  ∀ (bank : Bpp) (flip : Bool) (tn : BitVec 12),
    s.slotFlag bank flip tn = 0
      ∨ (tn.toNat < 65536 / 2 ^ tileShift bank
        ∧ ((s.slotFlag bank flip tn = 1 ∧ ∃ k < 64, s.cacheByte bank flip tn k ≠ 0)
          ∨ (s.slotFlag bank flip tn = 2 ∧ ∀ k < 64, s.cacheByte bank flip tn k = 0)))

/-- The counts equal the sizes of the stores, and ids are 0, 1, 2, ... (rule R282a; 32 bits). -/
def State.idsOk (s : State) : Prop :=
  (s.ctx.ntiles = BitVec.ofNat 32 s.tiles.length
      ∧ ∀ i r, s.tiles[i]? = some r → r.id = BitVec.ofNat 32 i)
    ∧ (s.ctx.npals = BitVec.ofNat 32 s.pals.length
      ∧ ∀ i r, s.pals[i]? = some r → r.id = BitVec.ofNat 32 i)
    ∧ (s.ctx.nrefs = BitVec.ofNat 32 s.refs.length
      ∧ ∀ i r, s.refs[i]? = some r → r.id = BitVec.ofNat 32 i)

/-- Keys are distinct within a store (rule R282b). -/
def State.keysDistinct (s : State) : Prop :=
  (s.tiles.map TileRecord.pixels).Nodup ∧ (s.pals.map fun r => palKey r.colors).Nodup

/-- A reference id names an existing record, or there is none. -/
def State.refExists (s : State) (x : Option Word) : Prop :=
  ∀ id, x = some id → ∃ r ∈ s.refs, r.id = id

/-- What a catalog names exists (rule R282c). -/
def State.namesExist (s : State) : Prop :=
  (∀ r ∈ s.refs, (∃ t ∈ s.tiles, t.id = r.tileId) ∧ ∃ p ∈ s.pals, p.id = r.palId)
    ∧ ∀ t ∈ s.tiles, (∀ u ∈ t.usage, ∃ p ∈ s.pals, p.id.toNat = u.1)
      ∧ (∀ x ∈ t.mileRef, s.refExists x) ∧ ∀ o, s.refExists (t.orientRef.get o)

/-- An orientation is seen exactly when it has a reference (rule R282d). -/
def State.orientationsOk (s : State) : Prop :=
  ∀ t ∈ s.tiles, ∀ o, t.orientSeen.get o = (t.orientRef.get o).isSome

/-- A usage map lists each palette once, in rising palette id (rules R60, R286). -/
def TileRecord.usageRises (r : TileRecord) : Prop := (r.usage.map Prod.fst).Pairwise (· < ·)

/-- How often a tile was drawn with palette `q`; an absent id counts as 0 (rule R273). -/
def TileRecord.usageOf (r : TileRecord) (q : Nat) : Word :=
  ((r.usage.find? fun u => u.1 == q).map Prod.snd).getD 0

/-- The shapes of the records: 64 pixels, one milestone entry for each milestone, a usage map, a palette
of 4, 16 or 256 colours (rules R60, R61). -/
def State.recordsShaped (s : State) : Prop :=
  (∀ t ∈ s.tiles, t.pixels.length = 64 ∧ t.mileRef.length = s.cfg.milestones.length ∧ t.usageRises)
    ∧ ∀ p ∈ s.pals, p.colors.length = p.size ∧ (p.size = 4 ∨ p.size = 16 ∨ p.size = 256)

/-- The sum of the usage counts of a tile, mod 2^32. -/
def TileRecord.usageSum (r : TileRecord) : Word := (r.usage.map Prod.snd).sum

/-- The sum of all `frequency` equals the sum of all usage counts, mod 2^32 (rule R282e). -/
def State.countsBalance (s : State) : Prop :=
  (s.pals.map PalRecord.frequency).sum = (s.tiles.map TileRecord.usageSum).sum

/-- The invariants of the catalog (rule R282). -/
def State.catalogConsistent (s : State) : Prop :=
  s.idsOk ∧ s.keysDistinct ∧ s.namesExist ∧ s.orientationsOk ∧ s.recordsShaped ∧ s.countsBalance

/-! ## Cells a plot reaches -/

/-- The relative address `a` is inside the screen and depth memories (rule R88). -/
def State.inRange (s : State) (a : Int) : Prop :=
  0 ≤ (s.ctx.origin.toNat : Int) + a ∧ (s.ctx.origin.toNat : Int) + a < (s.cfg.bufsz : Int)

/-- The physical index of a relative address in range (rule R88). -/
def State.index (s : State) (a : Int) : Nat := ((s.ctx.origin.toNat : Int) + a).toNat

/-- Every address the variant `v` can access for a plot is in range (rules R172 to R177). -/
def PlotCall.reachable (v : AddrMode) (p : PlotCall) (s : State) : Prop :=
  match v with
  | .n1x1 => s.inRange p.base1
  | .n2x1 => s.inRange p.base2 ∧ s.inRange (p.base2 + 1)
  | .int => s.inRange p.base2 ∧ s.inRange (p.base2 + 1)
  | .hires =>
    s.inRange p.base2 ∧ s.inRange (p.base2 + 1) ∧ (p.linePos ≠ 510 → s.inRange (p.base2 + 2))
  | .hiresint =>
    s.inRange p.base2 ∧ s.inRange (p.base2 + 1) ∧ (p.linePos ≠ 510 → s.inRange (p.base2 + 2))

/-- The plot of column `n` of a line that starts at `base`, for its addresses only. -/
def cellCall (base oil n : Int) : PlotCall := ⟨n, true, base, oil, 0, 0, 0⟩

/-- The plot of column `n` of a line is in range under the selected addressing mode. -/
def State.canPlot (s : State) (base oil n : Int) : Prop :=
  (cellCall base oil n).reachable s.ctx.rsel.addr s

/-- Physical index `i` is a screen cell the plot of column `n` of a line can write. -/
def State.screenCell (s : State) (base oil n : Int) (i : Nat) : Prop :=
  ∃ a ∈ (cellCall base oil n).screenAddrs s.ctx.rsel.addr s, s.phys a = some i

/-- Physical index `i` is a depth cell the plot of column `n` of a line can write. -/
def State.depthCell (s : State) (base oil n : Int) (i : Nat) : Prop :=
  ∃ a ∈ (cellCall base oil n).depthAddrs s.ctx.rsel.addr, s.phys a = some i

/-! ## What a command leaves unchanged -/

/-- `t` is `s` but for the target pair, the response and the count of free values drawn. -/
def State.onlyTarget (s t : State) : Prop :=
  match s.ctx.target with
  | .main =>
    t = { s with
      sMain := t.sMain
      zMain := t.zMain
      response := t.response
      freeCount := t.freeCount }
  | .sub =>
    t = { s with
      sSub := t.sSub
      zSub := t.zSub
      response := t.response
      freeCount := t.freeCount }

/-- The memories no command writes, the parameter record, the host's moves and the memory output are
the same (rules R30 to R33, R80). -/
def State.sameInputs (s t : State) : Prop :=
  t.cfg = s.cfg ∧ t.vram = s.vram ∧ t.pal = s.pal ∧ t.dcm = s.dcm ∧ t.lmd = s.lmd
    ∧ t.moves = s.moves ∧ t.memOut = s.memOut

/-- The catalog and its registers are the same. -/
def State.sameCatalog (s t : State) : Prop :=
  t.tiles = s.tiles ∧ t.pals = s.pals ∧ t.refs = s.refs ∧ t.ctx.ntiles = s.ctx.ntiles
    ∧ t.ctx.npals = s.ctx.npals ∧ t.ctx.nrefs = s.ctx.nrefs ∧ t.ctx.shotid = s.ctx.shotid
    ∧ t.ctx.status.capreq = s.ctx.status.capreq

/-- The pair that is not the target is the same. -/
def State.samePeer (s t : State) : Prop :=
  match s.ctx.target with
  | .main => t.sSub = s.sSub ∧ t.zSub = s.zSub
  | .sub => t.sMain = s.sMain ∧ t.zMain = s.zMain

/-- The registers a drawing command never writes are the same: all but `STATUS`, the counts of the
catalog, the two latches and `DECODECNT`. -/
def State.sameDrawContext (s t : State) : Prop :=
  t.ctx = { s.ctx with
    status := t.ctx.status
    ntiles := t.ctx.ntiles
    npals := t.ctx.npals
    nrefs := t.ctx.nrefs
    scsel := t.ctx.scsel
    tcsel := t.ctx.tcsel
    decodecnt := t.ctx.decodecnt }

/-- `s` with the catalog of `c`: the three stores, their counts, `SHOTID` and `CAPREQ`. -/
def State.withCatalogOf (s c : State) : State :=
  { s with
    tiles := c.tiles
    pals := c.pals
    refs := c.refs
    ctx := { s.ctx with
      ntiles := c.ctx.ntiles
      npals := c.ctx.npals
      nrefs := c.ctx.nrefs
      shotid := c.ctx.shotid
      status := { s.ctx.status with capreq := c.ctx.status.capreq } } }

/-- A command that draws: PLOT.* and TR.*. -/
def draws : Instr → Bool
  | .sysNop => false
  | .sysRst => false
  | .sysCtxwr _ _ => false
  | .sysCtxrd _ => false
  | .sysFramestart => false
  | .rdSelect _ _ => false
  | .cmAdd _ _ => false
  | .cmAddh _ _ => false
  | .cmSub _ _ => false
  | .cmSubh _ _ => false
  | .cmAddb _ _ => false
  | .cmAddbh _ _ => false
  | .blendNone _ _ _ => false
  | .blendAdd _ _ _ => false
  | .blendAddf _ _ _ => false
  | .blendAdds _ _ _ => false
  | .blendSub _ _ _ => false
  | .blendSubf _ _ _ => false
  | .blendSubs _ _ _ => false
  | .blendAddb _ _ _ => false
  | .blendAddbs _ _ _ => false
  | .plotN1x1 _ _ _ _ _ _ _ => true
  | .plotN2x1 _ _ _ _ _ _ _ => true
  | .plotInt _ _ _ _ _ _ _ => true
  | .plotHires _ _ _ _ _ _ _ => true
  | .plotHiresint _ _ _ _ _ _ _ => true
  | .tcResolve _ => false
  | .tcSelpal _ => false
  | .trTile _ _ _ _ => true
  | .trClip _ _ _ _ _ _ => true
  | .trMospix _ _ _ _ _ _ => true
  | .trBackdrop _ _ _ => true
  | .trM7bg1 _ _ _ => true
  | .trM7bg2 _ _ _ => true
  | .trM7mbg1 _ _ _ => true
  | .trM7mbg2 _ _ _ => true
  | .csReset => false
  | .csAck => false
  | .csRdtile _ => false
  | .csRdpal _ => false
  | .csRdref _ => false

/-! ## The tables of the spec -/

/-- The `match` and `mask` columns of rule R113. -/
def headerRow : Instr → Word × Word
  | .sysNop => (0x00000000, 0xFFFFFFFF)
  | .sysRst => (0x01000000, 0xFFFFFFFF)
  | .sysCtxwr _ _ => (0x02000000, 0xFFFFFF00)
  | .sysCtxrd _ => (0x03000000, 0xFFFFFF00)
  | .sysFramestart => (0x04000000, 0xFFFFFFFF)
  | .rdSelect _ _ => (0x05000000, 0xFFFFFF80)
  | .cmAdd _ _ => (0x10000000, 0xFFFFFFFF)
  | .cmAddh _ _ => (0x11000000, 0xFFFFFFFF)
  | .cmSub _ _ => (0x12000000, 0xFFFFFFFF)
  | .cmSubh _ _ => (0x13000000, 0xFFFFFFFF)
  | .cmAddb _ _ => (0x14000000, 0xFFFFFFFF)
  | .cmAddbh _ _ => (0x15000000, 0xFFFFFFFF)
  | .blendNone _ _ _ => (0x16000000, 0xFFFFFFFF)
  | .blendAdd _ _ _ => (0x16000001, 0xFFFFFFFF)
  | .blendAddf _ _ _ => (0x16000002, 0xFFFFFFFF)
  | .blendAdds _ _ _ => (0x16000003, 0xFFFFFFFF)
  | .blendSub _ _ _ => (0x16000004, 0xFFFFFFFF)
  | .blendSubf _ _ _ => (0x16000005, 0xFFFFFFFF)
  | .blendSubs _ _ _ => (0x16000006, 0xFFFFFFFF)
  | .blendAddb _ _ _ => (0x16000007, 0xFFFFFFFF)
  | .blendAddbs _ _ _ => (0x16000008, 0xFFFFFFFF)
  | .plotN1x1 _ _ _ _ _ _ _ => (0x20000000, 0xFFFFFFFF)
  | .plotN2x1 _ _ _ _ _ _ _ => (0x21000000, 0xFFFFFFFF)
  | .plotInt _ _ _ _ _ _ _ => (0x22000000, 0xFFFFFFFF)
  | .plotHires _ _ _ _ _ _ _ => (0x23000000, 0xFFFFFFFF)
  | .plotHiresint _ _ _ _ _ _ _ => (0x24000000, 0xFFFFFFFF)
  | .tcResolve _ => (0x30000000, 0xFFFFFFFF)
  | .tcSelpal _ => (0x31000000, 0xFFFFFFFF)
  | .trTile _ _ _ _ => (0x40000000, 0xFFFFFFFF)
  | .trClip _ _ _ _ _ _ => (0x41000000, 0xFFFFFFFF)
  | .trMospix _ _ _ _ _ _ => (0x42000000, 0xFFFFFFFF)
  | .trBackdrop _ _ _ => (0x43000000, 0xFFFFFFFF)
  | .trM7bg1 _ _ _ => (0x44000000, 0xFFFFFFFF)
  | .trM7bg2 _ _ _ => (0x45000000, 0xFFFFFFFF)
  | .trM7mbg1 _ _ _ => (0x46000000, 0xFFFFFFFF)
  | .trM7mbg2 _ _ _ => (0x47000000, 0xFFFFFFFF)
  | .csReset => (0x50000000, 0xFFFFFFFF)
  | .csAck => (0x51000000, 0xFFFFFFFF)
  | .csRdtile _ => (0x52000000, 0xFFFFFFFF)
  | .csRdpal _ => (0x53000000, 0xFFFFFFFF)
  | .csRdref _ => (0x54000000, 0xFFFFFFFF)

/-- The header of a packet selects a row of the opcode map (rule R113). -/
def headerSelects (w0 : Word) (i : Instr) : Prop := w0 &&& (headerRow i).2 = (headerRow i).1

/-- A register is RW and a value lies in its field and in its legal column (rule R40). -/
def ctxLegal (r : CtxReg) (v : Nat) : Prop :=
  match r with
  | .status | .rsel | .shotid | .ntiles | .npals | .nrefs | .scsel | .tcsel => False
  | .target | .clip | .direct | .iline | .capen => v ≤ 1
  | .bpp => v ≤ 2
  | .m7repeat => v ≤ 3
  | .mosaicstart => v ≤ 15
  | .palshift => v ≤ 31
  | .palmask | .startpal | .z1 | .z2 => v ≤ 0xFF
  | .fixedcol | .tileaddr | .namesel | .starty | .endy => v ≤ 0xFFFF
  | .fbd => v ≤ 0x1FFFF
  | .hmosaic | .vmosaic => 1 ≤ v ∧ v ≤ 16
  | .ppl | .rppl => 1 ≤ v ∧ v ≤ 0x7FFFFFFF
  | .origin | .frame | .decodecnt => True

/-- The reset column of rule R40. -/
def resetWord (r : CtxReg) : Word :=
  match r with
  | .hmosaic | .vmosaic => 1
  | .ppl | .rppl => 512
  | _ => 0

/-- The registers, latches, flags, `BCAP` and catalog are as rule R75 leaves them. -/
def State.afterReset (s : State) : Prop :=
  (∀ r, s.ctx.readReg r = resetWord r)
    ∧ (∀ bank flip tn, s.slotFlag bank flip tn = 0)
    ∧ (∀ k < 63, (Memory.read s.bcap k).toNat = min k 31)
    ∧ s.tiles = [] ∧ s.pals = [] ∧ s.refs = []

/-- The cell width of a memory (rule R80). -/
def Space.width : Space → Nat
  | .vram | .zMain | .zSub => 8
  | .bcap => 5
  | .pal | .dcm | .lmd | .sMain | .sSub => 16

/-! ## Colours and pixels as the rules name them -/

/-- `LOW`, the low bit of each field (rules R143, R147). -/
def lowBits : PixFmt → Nat
  | .rgb555 => 0x0421
  | .rgb565 => 0x0821

/-- The real colour a tile reference gives palette index `p`: the map of the reference in direct-colour
mode, else the slice `((tileRef >> PALSHIFT) & PALMASK) + STARTPAL` of `PAL` (rules R52, R120, R194). -/
def State.tileRealColor (s : State) (t : Half) (p : Byte) : Half :=
  if s.ctx.direct then Memory.read s.dcm (256 * (t.extractLsb' s.cfg.mapBit 3).toNat + p.toNat)
  else
    Memory.read s.pal
      (((t >>> s.ctx.palshift.toNat).setWidth 8 &&& s.ctx.palmask) + s.ctx.startpal + p).toNat

/-- The colour a tile command draws for palette index `p`: black while clipping (rule R52). -/
def State.tileColor (s : State) (t : Half) (p : Byte) : Half :=
  if s.ctx.clip then 0 else s.tileRealColor t p

/-- Pixel (`row`, `col`) of the unflipped decode of a tile reference (rules R191, R196, R215). -/
def State.sourcePixel (s : State) (t : Half) (row col : Nat) : Byte :=
  (s.convert (bppOfBank s.ctx.bpp) (s.tileAddr t)).getD (8 * row + col) 0

/-- The pixel of destination column `c`: mirrored under H-flip (rule R215). -/
def State.flippedColumn (s : State) (t : Half) (c : Nat) : Nat := if s.hflip t then 7 - c else c

/-- Cell `i` of the target pair after a 1×1 plot of colour `v` that tests depth `z1` and stores `z2`,
drawn when `on` (rules R170, R171, R173). -/
def State.cellDrawn (s t : State) (on : Prop) (v : Half) (z1 z2 : Byte) (i : Nat) : Prop :=
  (on ∧ (s.readTZ i).toNat < z1.toNat →
      t.readTS i = s.calc s.ctx.rsel.math v (Memory.read s.sSub i) (Memory.read s.zSub i)
        ∧ t.readTZ i = z2)
    ∧ (¬(on ∧ (s.readTZ i).toNat < z1.toNat) → t.readTS i = s.readTS i ∧ t.readTZ i = s.readTZ i)

/-- Cells `i` and `j` of the target pair after a two-column plot: one gate and one blend at `i`, both
columns written (rules R170, R171, R174). -/
def State.pairDrawn (s t : State) (on : Prop) (v : Half) (z1 z2 : Byte) (i j : Nat) : Prop :=
  (on ∧ (s.readTZ i).toNat < z1.toNat →
      t.readTS i = s.calc s.ctx.rsel.math v (Memory.read s.sSub i) (Memory.read s.zSub i)
        ∧ t.readTS j = t.readTS i ∧ t.readTZ i = z2 ∧ t.readTZ j = z2)
    ∧ (¬(on ∧ (s.readTZ i).toNat < z1.toNat) →
      t.readTS i = s.readTS i ∧ t.readTS j = s.readTS j
        ∧ t.readTZ i = s.readTZ i ∧ t.readTZ j = s.readTZ j)

/-- The selected addressing mode is not a hi-res one: N1X1, N2X1 or INT. -/
def State.lowRes (s : State) : Prop := s.ctx.rsel.addr ≠ .hires ∧ s.ctx.rsel.addr ≠ .hiresint

/-- The cells of a logical pixel: 1 under N1X1, 2 under N2X1 and INT (rules R173 to R175). -/
def State.pixelWidth (s : State) : Nat := if s.ctx.rsel.addr = .n1x1 then 1 else 2

/-- Every cell of logical pixel `n` of the line at `base` is in range. -/
def State.pixelInRange (s : State) (base n : Nat) : Prop :=
  ∀ k < s.pixelWidth, s.inRange ((base + s.pixelWidth * n + k : Nat) : Int)

/-- Logical pixel `n` of the line at `base` after a plot of colour `v` that tests depth `z1` and stores
`z2`, drawn when `on`, under N1X1, N2X1 or INT. -/
def State.pixelDrawn (s t : State) (on : Prop) (v : Half) (z1 z2 : Byte) (base n : Nat) : Prop :=
  if s.ctx.rsel.addr = .n1x1 then s.cellDrawn t on v z1 z2 (s.index ((base + n : Nat) : Int))
  else
    s.pairDrawn t on v z1 z2 (s.index ((base + 2 * n : Nat) : Int))
      (s.index ((base + 2 * n + 1 : Nat) : Int))

/-! ## Plots as commands -/

/-- The PLOT command of an addressing mode. -/
def plotInstr (v : AddrMode) (n m offset oil : Word) (pix z1 z2 : Byte) : Instr :=
  match v with
  | .n1x1 => .plotN1x1 n m offset oil pix z1 z2
  | .n2x1 => .plotN2x1 n m offset oil pix z1 z2
  | .int => .plotInt n m offset oil pix z1 z2
  | .hires => .plotHires n m offset oil pix z1 z2
  | .hiresint => .plotHiresint n m offset oil pix z1 z2

/-- The PLOT command for logical pixel `n` of the line at `base`. -/
def State.plotAt (s : State) (base oil n : Nat) (on : Bool) (pix z1 z2 : Byte) : Instr :=
  plotInstr s.ctx.rsel.addr (BitVec.ofNat 32 n) (if on then 1 else 0) (BitVec.ofNat 32 base)
    (BitVec.ofNat 32 oil) pix z1 z2

/-- Commands run one after another, each ending without a fault. -/
def runAll : List Instr → State → Option State
  | [], s => some s
  | i :: is, s =>
    match exec i s with
    | .next t =>
      match t.response with
      | some (.ok _) => runAll is t
      | _ => none
    | _ => none

/-! ## What a command answers -/

/-- The decoding of a format C packet with opcode word `w0`: both colours are 16 bits. -/
def decodesColours (w0 : Word) (mk : Half → Half → Instr) : Prop :=
  ∀ w1 w2 : Word,
    decode ⟨w0, w1, w2, 0, 0, 0, 0, 0⟩
      = if w1.toNat ≤ 0xFFFF ∧ w2.toNat ≤ 0xFFFF then .ok (mk (w1.setWidth 16) (w2.setWidth 16))
        else .error .illegalOperand

/-- `t` is `s` with the colour `c` as the response (rule R118). -/
def respondsColour (i : Instr) (s : State) (c : Half) : Prop :=
  exec i s = .next { s with response := some (.ok (.word (c.setWidth 32))) }

/-- The decoding of a format B packet of math mode `m`. -/
def decodesBlend (m : Word) (mk : Half → Half → Byte → Instr) : Prop :=
  ∀ w1 w2 w3 : Word,
    decode ⟨0x16000000 + m, w1, w2, w3, 0, 0, 0, 0⟩
      = if w1.toNat ≤ 0xFFFF ∧ w2.toNat ≤ 0xFFFF ∧ w3.toNat ≤ 0xFF then
          .ok (mk (w1.setWidth 16) (w2.setWidth 16) (w3.setWidth 8))
        else .error .illegalOperand

/-- The decoding of a format P packet with opcode word `w0`. -/
def decodesPlot (w0 : Word)
    (mk : Word → Word → Word → Word → Byte → Byte → Byte → Instr) : Prop :=
  ∀ n m offset oil w5 w6 w7 : Word,
    decode ⟨w0, n, m, offset, oil, w5, w6, w7⟩
      = if w5.toNat ≤ 0xFF ∧ w6.toNat ≤ 0xFF ∧ w7.toNat ≤ 0xFF then
          .ok (mk n m offset oil (w5.setWidth 8) (w6.setWidth 8) (w7.setWidth 8))
        else .error .illegalOperand

/-- The state before a command plus `STATUS` and the response: a precise fault (rules R302, R305). -/
def faultState (c : FaultCode) (s : State) : State :=
  { s with
    ctx := { s.ctx with
      status := { halt := true, capreq := s.ctx.status.capreq, faultCode := c.num } }
    response := some (.fault c) }

/-- What a 2×1 plot does, the same for PLOT.N2X1 and PLOT.INT (rule R174). -/
def plotsTwoColumns
    (mk : Word → Word → Word → Word → Byte → Byte → Byte → Instr) : Prop :=
  ∀ (s : State) (n m offset oil : Word) (pix z1 z2 : Byte),
    let a : Int := offset.toNat + 2 * n.toInt
    let i := s.index a
    let j := s.index (a + 1)
    (¬(s.inRange a ∧ s.inRange (a + 1)) →
        exec (mk n m offset oil pix z1 z2) s = .next (faultState .bufRange s))
    ∧ (s.inRange a → s.inRange (a + 1) → ¬(m ≠ 0 ∧ (s.readTZ i).toNat < z1.toNat) →
        exec (mk n m offset oil pix z1 z2) s
          = .next { s with response := some (.ok (.word 0)) })
    ∧ (s.inRange a → s.inRange (a + 1) → m ≠ 0 → (s.readTZ i).toNat < z1.toNat →
        ∃ t, exec (mk n m offset oil pix z1 z2) s = .next t
          ∧ t.readTS i = s.calc s.ctx.rsel.math (s.screenColor pix)
              (Memory.read s.sSub i) (Memory.read s.zSub i)
          ∧ t.readTS j = t.readTS i
          ∧ t.readTZ i = z2 ∧ t.readTZ j = z2
          ∧ (∀ k, k ≠ i → k ≠ j → t.readTS k = s.readTS k ∧ t.readTZ k = s.readTZ k)
          ∧ s.onlyTarget t ∧ t.freeCount = s.freeCount ∧ t.response = some (.ok (.word 0)))

/-- What a hi-res plot does, the same for PLOT.HIRES and PLOT.HIRESINT (rule R176). Where the pixel is at
line position 0 nothing is said of column `a`. -/
def plotsHires
    (mk : Word → Word → Word → Word → Byte → Byte → Byte → Instr) : Prop :=
  ∀ (s : State) (n m offset oil : Word) (pix z1 z2 : Byte),
    let a : Int := offset.toNat + 2 * n.toInt
    let pos : Int := oil.toNat + 2 * n.toInt
    let i := s.index a
    let j := s.index (a + 1)
    let k := s.index (a + 2)
    let mode := s.ctx.rsel.math
    let sd := Memory.read s.zSub i
    (¬(s.inRange a ∧ s.inRange (a + 1)) →
        exec (mk n m offset oil pix z1 z2) s = .next (faultState .bufRange s))
    ∧ (s.inRange a → s.inRange (a + 1) → ¬(m ≠ 0 ∧ (s.readTZ i).toNat < z1.toNat) →
        exec (mk n m offset oil pix z1 z2) s
          = .next { s with response := some (.ok (.word 0)) })
    ∧ (s.inRange a → s.inRange (a + 1) → m ≠ 0 → (s.readTZ i).toNat < z1.toNat → pos ≠ 510 →
        ¬ s.inRange (a + 2) →
        ∃ t, exec (mk n m offset oil pix z1 z2) s = .next t
          ∧ t.response = some (.fault .bufRange) ∧ t.ctx = (faultState .bufRange s).ctx
          ∧ (∀ l, l ≠ i → l ≠ j → t.readTS l = s.readTS l ∧ t.readTZ l = s.readTZ l)
          ∧ s.samePeer t ∧ s.sameInputs t ∧ s.sameCatalog t ∧ t.bcap = s.bcap
          ∧ t.tcbuf = s.tcbuf ∧ t.tcflag = s.tcflag)
    ∧ (s.inRange a → s.inRange (a + 1) → m ≠ 0 → (s.readTZ i).toNat < z1.toNat →
        (pos ≠ 510 → s.inRange (a + 2)) →
        ∃ t, exec (mk n m offset oil pix z1 z2) s = .next t
          ∧ t.readTS j = s.calc mode (s.screenColor pix) (Memory.read s.sSub i) sd
          ∧ (pos ≠ 510 →
              t.readTS k = s.calc mode (if s.ctx.clip then 0 else Memory.read s.sSub k)
                (s.realColor pix) sd)
          ∧ (pos = 510 → t.readTS k = s.readTS k)
          ∧ (pos % (s.ctx.rppl.toNat : Int) ≠ 0 → t.readTS i = s.readTS i)
          ∧ t.readTZ i = z2 ∧ t.readTZ j = z2
          ∧ (∀ l, l ≠ i → l ≠ j → l ≠ k → t.readTS l = s.readTS l)
          ∧ (∀ l, l ≠ i → l ≠ j → t.readTZ l = s.readTZ l)
          ∧ s.onlyTarget t ∧ t.response = some (.ok (.word 0)))

/-- The decoding of a format T1 packet with opcode word `w0`. -/
def decodesTileRef (w0 : Word) (mk : Half → Instr) : Prop :=
  ∀ w1 : Word,
    decode ⟨w0, w1, 0, 0, 0, 0, 0, 0⟩
      = if w1.toNat ≤ 0xFFFF then .ok (mk (w1.setWidth 16)) else .error .illegalOperand

/-- The VRAM address of a tile reference, from the formula of rule R191. -/
def tileAddress (s : State) (r : Half) : Nat :=
  (s.ctx.tileaddr.toNat + (r.toNat &&& 0x3FF) <<< (4 + s.ctx.bpp.num)
    + if r.toNat &&& 0x100 ≠ 0 then s.ctx.namesel.toNat else 0) % 65536

/-- The tile number of a tile reference (rule R191). -/
def tileNumberOf (s : State) (r : Half) : BitVec 12 :=
  BitVec.ofNat 12 (tileAddress s r >>> (4 + s.ctx.bpp.num))

/-! ## Drawing commands -/

/-- `F_TILE_RANGE` is not raised for destination line `k`: the source row is one of 0, 8, ..., 56 (rules
R178, R215). -/
def State.rowDrawn (s : State) (t : Half) (sl : BitVec 6) (k : Nat) : Prop :=
  let twice : Prop := s.ctx.rsel.addr = .int ∨ s.ctx.rsel.addr = .hiresint
  let bps : Int := if twice then 2 * sl.toNat + 8 * s.ctx.iline.toNat else sl.toNat
  let step : Int := if twice then 16 * k else 8 * k
  let o : Int := if t.getLsbD s.cfg.vflipBit then 56 - bps - step else bps + step
  0 ≤ o ∧ o ≤ 56 ∧ o % 8 = 0

/-- The source row of the unflipped decode that destination line `k` shows: the interlaced modes walk
every other row from the field's first one, and V-flip walks up (rules R178, R215). -/
def State.drawnRow (s : State) (t : Half) (sl : BitVec 6) (k : Nat) : Nat :=
  let down :=
    if s.ctx.rsel.addr = .int ∨ s.ctx.rsel.addr = .hiresint then
      (2 * sl.toNat + 8 * s.ctx.iline.toNat) / 8 + 2 * k
    else sl.toNat / 8 + k
  if s.vflip t then 7 - down else down

/-- The pixel that tile column `c` of source row `row` shows: of a slot not yet decoded in this frame the
converter's pixel, mirrored under H-flip; of a slot flagged blank none; of another slot the byte it
holds, whatever `VRAM` holds by now (rules R96, R191, R192, R211, R215). -/
def State.drawnPixel (s : State) (t : Half) (row c : Nat) : Byte :=
  let flip := t.getLsbD s.cfg.hflipBit
  let tn := tileNumberOf s t
  if s.slotFlag s.ctx.bpp flip tn = 0 then s.sourcePixel t row (s.flippedColumn t c)
  else if s.slotFlag s.ctx.bpp flip tn = 2 then 0
  else s.cacheByte s.ctx.bpp flip tn (8 * row + c)

/-- The tile a reference names is not blank: its slot is flagged so, or is not yet decoded and some pixel
of it is not 0 (rules R192, R211). -/
def State.tileOpaque (s : State) (t : Half) : Prop :=
  let flag := s.slotFlag s.ctx.bpp (t.getLsbD s.cfg.hflipBit) (tileNumberOf s t)
  (flag ≠ 0 ∧ flag ≠ 2)
    ∨ (flag = 0 ∧ ∃ row < 8, ∃ col < 8, s.sourcePixel t row col ≠ 0)

/-- The plots of a command that draws from `Offset`: line address, line position, column (rule R210). -/
def State.placed (s : State) (offset : Word) (lines : Nat) (cols : Nat → Prop) (base oil n : Int) :
    Prop :=
  ∃ k < lines, ∃ c, cols c ∧ base = offset.toNat + (k : Int) * s.ctx.ppl.toNat
    ∧ oil = (offset.toNat : Int) % s.ctx.rppl.toNat ∧ n = c

/-- The plots of a Mode-7 command on the lines `STARTY..ENDY` (rules R238, R243). -/
def State.placedRows (s : State) (line0 : Nat) (cols : Nat → Prop) (base oil n : Int) : Prop :=
  ∃ line, s.ctx.starty.toNat ≤ line ∧ line ≤ s.ctx.endy.toNat ∧ ∃ c, cols c
    ∧ base = (line : Int) * s.ctx.ppl.toNat
    ∧ oil = ((line0 * s.ctx.ppl.toNat : Nat) : Int) % s.ctx.rppl.toNat ∧ n = c

/-- Between `s` and `t` nothing changes but the cells the plots can write, `STATUS`, the latches, the tile
cache with its counter, the catalog with its counts, the response and the free values drawn. -/
def State.changesOnly (s t : State) (plots : Int → Int → Int → Prop) : Prop :=
  s.sameInputs t ∧ s.samePeer t ∧ t.bcap = s.bcap ∧ s.sameDrawContext t
    ∧ (∀ i, (∀ base oil n, plots base oil n → ¬ s.screenCell base oil n i) →
        t.readTS i = s.readTS i)
    ∧ ∀ i, (∀ base oil n, plots base oil n → ¬ s.depthCell base oil n i) →
        t.readTZ i = s.readTZ i

/-- The tile cache, its latch and its counter are the same. -/
def State.sameCache (s t : State) : Prop :=
  t.tcbuf = s.tcbuf ∧ t.tcflag = s.tcflag ∧ t.ctx.tcsel = s.ctx.tcsel
    ∧ t.ctx.decodecnt = s.ctx.decodecnt

/-- A command ends without a fault and answers 0. -/
def State.endedOk (s t : State) : Prop :=
  t.response = some (.ok (.word 0)) ∧ t.ctx.status.halt = s.ctx.status.halt
    ∧ t.ctx.status.faultCode = s.ctx.status.faultCode

/-- `MLeft` (rule R240). -/
def State.blockLeft (s : State) (left : Half) : Nat :=
  left.toNat - left.toNat % s.ctx.hmosaic.toNat

/-- `MRight` (rule R240). -/
def State.blockRight (s : State) (right : Half) : Nat :=
  (right.toNat + s.ctx.hmosaic.toNat - 1)
    - (right.toNat + s.ctx.hmosaic.toNat - 1) % s.ctx.hmosaic.toNat

/-- The requirement of a Mode-7 row command on its lines holds (rule R238). -/
def State.linesInTable (s : State) : Prop :=
  s.ctx.endy.toNat < s.ctx.starty.toNat ∨ s.ctx.endy.toNat < s.cfg.lines

/-- `Line0`, the top line of the first mosaic block (rule R240). -/
def State.firstTop (s : State) : Nat := s.ctx.starty.toNat - s.ctx.mosaicstart.toNat

/-- The requirement of a Mode-7 mosaic command on its lines holds: that of a row, and the first block
has a record unless it lies below `ENDY` (rules R230, R240, R243). -/
def State.blocksInTable (s : State) : Prop :=
  s.linesInTable ∧ (s.ctx.endy.toNat < s.firstTop ∨ s.firstTop < s.cfg.lines)

/-- An address that is checked whatever the gate says is out of range (rule R172). -/
def PlotCall.baseOut (v : AddrMode) (p : PlotCall) (s : State) : Prop :=
  match v with
  | .n1x1 => ¬ s.inRange p.base1
  | .n2x1 | .int | .hires | .hiresint => ¬(s.inRange p.base2 ∧ s.inRange (p.base2 + 1))

/-! ## Mode 7 (rules R230 to R235) -/

/-- The source coordinate of column `x` on line `line` from a record's `m` (A or C), `n` (B or D),
and the offsets and centre of both axes (rule R232). -/
def mode7Source (m n hofs vofs cx cy centre : Int) (line x : Nat) : Int :=
  (m * x + 64 * (m * clip10 (hofs - cx) / 64) + 64 * (n * (line + 1) / 64)
    + 64 * (n * clip10 (vofs - cy) / 64) + centre * 256) / 256

/-- A cell of a line's record, in the order A, B, C, D, CX, CY, HOFS, VOFS. -/
def State.lineCell (s : State) (line field : Nat) : Half := Memory.read s.lmd (8 * line + field)

/-- A 13-bit signed field of a line's record (rule R33). -/
def State.lineOffset13 (s : State) (line field : Nat) : Int :=
  ((s.lineCell line field).setWidth 13).toInt

/-- The source X of column `x` of line `line`. -/
def State.mode7X (s : State) (line x : Nat) : Int :=
  mode7Source (s.lineCell line 0).toInt (s.lineCell line 1).toInt (s.lineOffset13 line 6)
    (s.lineOffset13 line 7) (s.lineOffset13 line 4) (s.lineOffset13 line 5) (s.lineOffset13 line 4)
    line x

/-- The source Y of column `x` of line `line`. -/
def State.mode7Y (s : State) (line x : Nat) : Int :=
  mode7Source (s.lineCell line 2).toInt (s.lineCell line 3).toInt (s.lineOffset13 line 6)
    (s.lineOffset13 line 7) (s.lineOffset13 line 4) (s.lineOffset13 line 5) (s.lineOffset13 line 5)
    line x

/-- The byte of the map at a coordinate in 0..1023 (rule R233). -/
def State.mapByte (s : State) (x y : Nat) : Byte :=
  let tile := (Memory.read s.vram (2 * (128 * (y / 8) + x / 8))).toNat
  Memory.read s.vram (2 * (64 * tile + 8 * (y % 8) + x % 8) + 1)

/-- The policy that `M7REPEAT` selects (rules R9, R125). -/
def State.policy (s : State) : M7Policy :=
  if s.ctx.m7repeat = 0 then s.cfg.m7Policy.p0
  else if s.ctx.m7repeat = 1 then s.cfg.m7Policy.p1
  else if s.ctx.m7repeat = 2 then s.cfg.m7Policy.p2
  else s.cfg.m7Policy.p3

/-- The sampled byte, `none` where the column is skipped (rule R234). -/
def State.mode7Byte (s : State) (x y : Int) : Option Byte :=
  if 0 ≤ x ∧ x ≤ 1023 ∧ 0 ≤ y ∧ y ≤ 1023 then some (s.mapByte x.toNat y.toNat)
  else
    match s.policy with
    | .transparent => none
    | .edge => some (s.mapByte (min 1023 (max 0 x)).toNat (min 1023 (max 0 y)).toNat)
    | .wrap => some (s.mapByte (x % 1024).toNat (y % 1024).toNat)
    | .fixedTile => some (Memory.read s.vram (2 * (8 * (y % 8).toNat + (x % 8).toNat) + 1))

/-- Logical pixel `n` of the line at `base` after a BG1 sample: the whole byte, through the direct map or
the palette, at the depth `D + M7_BG1_ZOFS` (rule R235). -/
def State.showsBg1 (s t : State) (d : Byte) (sample : Option Byte) (base n : Nat) : Prop :=
  match sample with
  | none => s.pixelDrawn t False 0 0 0 base n
  | some b =>
    s.pixelDrawn t (b ≠ 0)
      (if s.ctx.clip then 0
        else if s.ctx.direct then Memory.read s.dcm b.toNat else Memory.read s.pal b.toNat)
      (d + s.cfg.m7Bg1Zofs) (d + s.cfg.m7Bg1Zofs) base n

/-- Logical pixel `n` of the line at `base` after a BG2 sample: the low seven bits through the palette,
bit 7 selecting the depth (rule R235). -/
def State.showsBg2 (s t : State) (d : Byte) (sample : Option Byte) (base n : Nat) : Prop :=
  match sample with
  | none => s.pixelDrawn t False 0 0 0 base n
  | some b =>
    s.pixelDrawn t (b.toNat % 128 ≠ 0)
      (if s.ctx.clip then 0 else Memory.read s.pal (b.toNat % 128))
      (d + if 128 ≤ b.toNat then 11 else 3) (d + if 128 ≤ b.toNat then 11 else 3) base n

/-- The top line of the mosaic block of a line (rule R240). -/
def State.blockTop (s : State) (line : Nat) : Nat :=
  s.firstTop + s.ctx.vmosaic.toNat * ((line - s.firstTop) / s.ctx.vmosaic.toNat)

/-! ## Drawing commands as sequences of PLOT commands -/

/-- `from, from + 1, ..., to - 1`. -/
def between (a b : Nat) : List Nat := (List.range b).filter fun x => decide (a ≤ x)

/-- The PLOT commands of TR.TILE and TR.CLIP: lines top to bottom, columns in the order `cols` (rules R212,
R213, R217). -/
def State.tileInstrs (s : State) (tile : Half) (offset : Word) (sl : BitVec 6) (lines : Nat)
    (cols : List Nat) : List Instr :=
  (List.range lines).flatMap fun k => cols.map fun c =>
    let pix := s.drawnPixel tile (s.drawnRow tile sl k) c
    s.plotAt (offset.toNat + k * s.ctx.ppl.toNat) (offset.toNat % s.ctx.rppl.toNat) c
      (decide (pix ≠ 0)) pix s.ctx.z1 s.ctx.z2

/-- The PLOT commands of TR.MOSPIX: none for a transparent sample, else lines top to bottom, columns right
to left (rules R214, R217). -/
def State.mospixInstrs (s : State) (tile : Half) (offset : Word) (sl : BitVec 6) (sp : BitVec 3)
    (width lines : Nat) : List Instr :=
  let pix := s.drawnPixel tile (s.drawnRow tile sl 0) sp.toNat
  if pix = 0 then []
  else
    (List.range lines).flatMap fun k => (List.range width).reverse.map fun c =>
      s.plotAt (offset.toNat + k * s.ctx.ppl.toNat) (offset.toNat % s.ctx.rppl.toNat) c true pix
        s.ctx.z1 s.ctx.z2

/-- The PLOT commands of TR.BACKDROP (rule R216). -/
def State.backdropInstrs (s : State) (offset : Word) (left right : Half) : List Instr :=
  (between s.ctx.starty.toNat (s.ctx.endy.toNat + 1)).flatMap fun line =>
    (between left.toNat right.toNat).map fun x =>
      s.plotAt (offset.toNat + (line - s.ctx.starty.toNat) * s.ctx.ppl.toNat)
        (offset.toNat % s.ctx.rppl.toNat) x true 0 1 1

/-- The PLOT command of a Mode-7 sample; `shown` is false outside `[Left, Right)` (rules R235, R243). -/
def State.sampleInstr (s : State) (bg : Bg) (d : Byte) (base oil n : Nat) (shown : Bool) (b : Byte) :
    Instr :=
  match bg with
  | .bg1 =>
    s.plotAt base oil n (shown && decide (b ≠ 0)) b (d + s.cfg.m7Bg1Zofs) (d + s.cfg.m7Bg1Zofs)
  | .bg2 =>
    let z := d + if 128 ≤ b.toNat then 11 else 3
    s.plotAt base oil n (shown && decide (b.toNat % 128 ≠ 0)) (BitVec.ofNat 8 (b.toNat % 128)) z z

/-- The PLOT commands of a Mode-7 row command; a skipped sample plots nothing (rule R238). -/
def State.rowInstrs (s : State) (bg : Bg) (left right : Half) (d : Byte) : List Instr :=
  (between s.ctx.starty.toNat (s.ctx.endy.toNat + 1)).flatMap fun line =>
    (between left.toNat right.toNat).filterMap fun x =>
      (s.mode7Byte (s.mode7X line x) (s.mode7Y line x)).map
        (s.sampleInstr bg d (line * s.ctx.ppl.toNat)
          (s.ctx.starty.toNat * s.ctx.ppl.toNat % s.ctx.rppl.toNat) x true)

/-- The PLOT commands of a Mode-7 mosaic command: block rows top to bottom, blocks left to right, and of a
block whose sample is not skipped its lines in `STARTY..ENDY` top to bottom, its columns right to left
(rules R240, R243). -/
def State.mosaicInstrs (s : State) (bg : Bg) (left right : Half) (d : Byte) : List Instr :=
  let h := s.ctx.hmosaic.toNat
  let v := s.ctx.vmosaic.toNat
  let oil := s.firstTop * s.ctx.ppl.toNat % s.ctx.rppl.toNat
  let tops := (between s.firstTop (s.ctx.endy.toNat + 1)).filter fun y =>
    decide ((y - s.firstTop) % v = 0)
  let corners := (between (s.blockLeft left) (s.blockRight right)).filter fun x => decide (x % h = 0)
  tops.flatMap fun top => corners.flatMap fun corner =>
    match s.mode7Byte (s.mode7X top corner) (s.mode7Y top corner) with
    | none => []
    | some b =>
      let lines := (between top (top + v)).filter fun y =>
        decide (s.ctx.starty.toNat ≤ y ∧ y ≤ s.ctx.endy.toNat)
      lines.flatMap fun line => (between corner (corner + h)).reverse.map fun x =>
        s.sampleInstr bg d (line * s.ctx.ppl.toNat) oil x
          (decide (left.toNat ≤ x ∧ x < right.toNat)) b

/-! ## Capture -/

/-- The size of the palette an observed draw records (rule R271). -/
def State.drawnPalSize (s : State) : Nat := if s.ctx.direct then 256 else 2 ^ (2 * 2 ^ s.ctx.bpp.num)

/-- The colours of the palette an observed draw records, real even while clipping (rule R271). -/
def State.drawnPalette (s : State) (tile : Half) : List Half :=
  (List.range s.drawnPalSize).map fun k => s.tileRealColor tile (BitVec.ofNat 8 k)

/-- The id of the palette an observed draw uses: the record's, or the next one (rule R274). -/
def State.drawnPalId (s : State) (tile : Half) : Word :=
  match s.pals.find? fun p => p.colors == s.drawnPalette tile with
  | some p => p.id
  | none => s.ctx.npals

/-- The command is an observed draw of a tile reference (rule R272). -/
def observedDraw (i : Instr) (tile : Half) (offset : Word) (shape : Shape) : Prop :=
  (∃ sl lc, i = .trTile tile offset sl lc ∧ shape = .tile)
    ∨ ∃ sp w sl lc, i = .trClip tile offset sp w sl lc ∧ shape = .clip

/-- The record of a tile key, if the catalog holds one (rule R275). -/
def State.recordOf (s : State) (key : List Byte) : Option TileRecord :=
  s.tiles.find? fun r => r.pixels == key

/-- The count an observed draw establishes (rules R276, R277). -/
def State.countAfter (s : State) : Option TileRecord → Word
  | none => 1
  | some r => if r.lastSeenFrame = s.ctx.frame then r.sightings else r.sightings + 1

/-- The draw reaches a milestone: it sets the count, to a member of `MILESTONES` (rule R277). -/
def State.reachesMilestone (s : State) (old : Option TileRecord) : Prop :=
  (∀ r, old = some r → r.lastSeenFrame ≠ s.ctx.frame)
    ∧ (s.countAfter old).toNat ∈ s.cfg.milestones

/-- The draw is the first of its orientation (rule R278). -/
def State.firstOfOrientation (s : State) (tile : Half) (old : Option TileRecord) : Prop :=
  ∀ r, old = some r →
    r.orientSeen.get (orientOf (tile.getLsbD s.cfg.hflipBit) (tile.getLsbD s.cfg.vflipBit)) = false

/-- Every record an observed draw needs has room in its store, or the capture procedure does not run (rules
R272, R273, R281). -/
def State.catalogRoom (s : State) (tile : Half) : Prop :=
  s.ctx.capen = true → s.tileOpaque tile →
    let key := (State.resolve tile s).tileKey
    (∀ c, s.cfg.capTiles = some c → s.ctx.ntiles.toNat < c ∨ ∃ r ∈ s.tiles, r.pixels = key)
      ∧ (∀ c, s.cfg.capPals = some c →
          s.ctx.npals.toNat < c ∨ ∃ p ∈ s.pals, p.colors = s.drawnPalette tile)
      ∧ ∀ c, s.cfg.capRefs = some c →
          s.ctx.nrefs.toNat < c
            ∨ ¬(s.reachesMilestone (s.recordOf key) ∨ s.firstOfOrientation tile (s.recordOf key))

/-- The milestone list, orientation flags and reference ids of a tile record `r` after an observed draw of
`tile` that found `old` (rules R277 to R279). -/
def State.referencesStored (s : State) (tile : Half) (old : Option TileRecord) (r : TileRecord) :
    Prop :=
  let mile : List (Option Word) := match old with
    | some q => q.mileRef
    | none => s.cfg.milestones.map fun _ => none
  let seen : Orient → Bool := fun o => match old with
    | some q => q.orientSeen.get o
    | none => false
  let refs : Orient → Option Word := fun o => match old with
    | some q => q.orientRef.get o
    | none => none
  let here := orientOf (tile.getLsbD s.cfg.hflipBit) (tile.getLsbD s.cfg.vflipBit)
  (s.reachesMilestone old → ∀ i, s.cfg.milestones[i]? = some (s.countAfter old).toNat →
      (∀ j < i, s.cfg.milestones[j]? ≠ some (s.countAfter old).toNat) →
        r.mileRef = mile.set i (some s.ctx.nrefs))
    ∧ (¬ s.reachesMilestone old → r.mileRef = mile)
    ∧ (s.firstOfOrientation tile old →
        r.orientSeen.get here = true ∧ r.orientRef.get here = some s.ctx.nrefs)
    ∧ (¬ s.firstOfOrientation tile old →
        r.orientSeen.get here = seen here ∧ r.orientRef.get here = refs here)
    ∧ ∀ o, o ≠ here → r.orientSeen.get o = seen o ∧ r.orientRef.get o = refs o

/-- The sum of the frequencies of the palettes, mod 2^32. -/
def State.frequencySum (s : State) : Word := (s.pals.map PalRecord.frequency).sum

/-- What a command that ends without a fault answers (rule R118). -/
def answers (i : Instr) (s t : State) (v : RespValue) : Prop :=
  match i with
  | .sysCtxrd r => v = .word (s.ctx.readReg r)
  | .cmAdd _ _ | .cmAddh _ _ | .cmSub _ _ | .cmSubh _ _ | .cmAddb _ _ | .cmAddbh _ _
  | .blendNone _ _ _ | .blendAdd _ _ _ | .blendAddf _ _ _ | .blendAdds _ _ _ | .blendSub _ _ _
  | .blendSubf _ _ _ | .blendSubs _ _ _ | .blendAddb _ _ _ | .blendAddbs _ _ _ =>
    ∃ c : Half, v = .word (c.setWidth 32)
  | .tcResolve _ => v = .word (t.ctx.readReg .tcsel)
  | .tcSelpal _ => v = .word (t.ctx.readReg .scsel)
  | .csRdtile _ => v = .absent ∨ ∃ r ∈ s.tiles, v = .tile r
  | .csRdpal _ => v = .absent ∨ ∃ r ∈ s.pals, v = .pal (r.view s.cfg.pixfmt)
  | .csRdref _ => v = .absent ∨ ∃ r ∈ s.refs, v = .ref r.view
  | .sysNop | .sysRst | .sysCtxwr _ _ | .sysFramestart | .rdSelect _ _
  | .plotN1x1 _ _ _ _ _ _ _ | .plotN2x1 _ _ _ _ _ _ _ | .plotInt _ _ _ _ _ _ _
  | .plotHires _ _ _ _ _ _ _ | .plotHiresint _ _ _ _ _ _ _
  | .trTile _ _ _ _ | .trClip _ _ _ _ _ _ | .trMospix _ _ _ _ _ _ | .trBackdrop _ _ _
  | .trM7bg1 _ _ _ | .trM7bg2 _ _ _ | .trM7mbg1 _ _ _ | .trM7mbg2 _ _ _
  | .csReset | .csAck => v = .word 0

end Sys2Proof.Machine
end

