-- ==== Sys2Proof/Certificates/Slice0/Obligations.lean ====
section
/-! DEFINITION. The statements for the provers. Each docstring names the rules of spec/ it formalises;
the hypotheses of a statement are on the state and the operands. -/

open Sys2Proof Sys2Proof.Machine

/-! ## Encoding -/

/-- A few words written out from the spec's encodings (rules R113, R114, 95_test_vectors.md). -/
def Obligations.EncodingSamples : Prop :=
  decode ⟨0x00000000, 0, 0, 0, 0, 0, 0, 0⟩ = .ok .sysNop
    ∧ decode ⟨0x02000011, 0x0001F800, 0, 0, 0, 0, 0, 0⟩ = .ok (.sysCtxwr .fbd 0x0001F800)
    ∧ decode ⟨0x05000036, 0, 0, 0, 0, 0, 0, 0⟩ = .ok (.rdSelect .subs .hires)
    ∧ decode ⟨0x10000000, 0xA29F, 0x7A81, 0, 0, 0, 0, 0⟩ = .ok (.cmAdd 0xA29F 0x7A81)
    ∧ decode ⟨0x16000003, 0xA29F, 0x7A81, 0x20, 0, 0, 0, 0⟩ = .ok (.blendAdds 0xA29F 0x7A81 0x20)
    ∧ decode ⟨0x20000000, 4, 5, 0x60, 0x60, 5, 4, 9⟩ = .ok (.plotN1x1 4 5 0x60 0x60 5 4 9)
    ∧ decode ⟨0x30000000, 0x4105, 0, 0, 0, 0, 0, 0⟩ = .ok (.tcResolve 0x4105)
    ∧ decode ⟨0x41000000, 0x4001, 0x808, 2, 4, 0, 8, 0⟩ = .ok (.trClip 0x4001 0x808 2 4 0 8)
    ∧ decode ⟨0x45000000, 8, 16, 2, 0, 0, 0, 0⟩ = .ok (.trM7bg2 8 16 2)
    ∧ decode ⟨0x54000000, 3, 0, 0, 0, 0, 0, 0⟩ = .ok (.csRdref 3)

/-- Decoding the packet of a well-formed command gives the command (rules R110 to R115). -/
def Obligations.DecodeOfEncode : Prop :=
  ∀ i : Instr, i.wf = true → decode (encode i) = .ok i

/-- A packet that decodes is the packet of the command it decodes to, and that command is well formed:
no bit of the packet is ignored (rules R111, R112, R114). -/
def Obligations.EncodeOfDecode : Prop :=
  ∀ (p : Packet) (i : Instr), decode p = .ok i → i.wf = true ∧ encode i = p

/-- The opcode map: a packet is an opcode fault exactly when its header selects no row, and a packet
that decodes selects the row of its command and of no other kind of command (rule R113). -/
def Obligations.OpcodeMap : Prop :=
  (∀ p : Packet, decode p = .error .illegalOpcode ↔ ∀ i : Instr, ¬ headerSelects p.w0 i)
    ∧ (∀ (p : Packet) (i : Instr), decode p = .ok i → headerSelects p.w0 i)
    ∧ ∀ (w : Word) (i j : Instr),
        headerSelects w i → headerSelects w j → headerRow i = headerRow j

/-! ## The step -/

/-- A step runs the decoded command (rules R111, R335). That the host's moves are a list in the state is the
model's own choice (log entry 1). -/
def Obligations.StepRunsDecoded : Prop :=
  ∀ (s : State) (p : Packet) (rest : List HostMove) (i : Instr),
    s.moves = .packet p :: rest → s.ctx.status.halt = false → decode p = .ok i →
      step s = exec i { s with moves := rest }

/-- A packet refused at decode changes nothing but `STATUS` and the response (rules R111, R302). -/
def Obligations.RefusedPacketFaults : Prop :=
  ∀ (s : State) (p : Packet) (rest : List HostMove),
    s.moves = .packet p :: rest → s.ctx.status.halt = false →
      (decode p = .error .illegalOpcode →
        step s = .next { s with
          moves := rest
          ctx := { s.ctx with
            status := { halt := true, capreq := s.ctx.status.capreq, faultCode := 1 } }
          response := some (.fault .illegalOpcode) })
      ∧ (decode p = .error .illegalOperand →
        step s = .next { s with
          moves := rest
          ctx := { s.ctx with
            status := { halt := true, capreq := s.ctx.status.capreq, faultCode := 2 } }
          response := some (.fault .illegalOperand) })

/-- The halted block: no packet is consumed, the memory port stays usable, and only the hardware reset
changes a register or ends the halt (rule R303). That other moves pass a packet that waits is the model's
own choice (log entry 2). -/
def Obligations.HaltedBlock : Prop :=
  ∀ s : State, s.ctx.status.halt = true →
    ((∀ m ∈ s.moves, m.isPacket = true) → step s = .next s)
    ∧ (∀ t, step s = .next t →
        t.moves.filter HostMove.isPacket = s.moves.filter HostMove.isPacket
          ∧ ((t.ctx = s.ctx ∧ t.response = s.response ∧ t.tiles = s.tiles ∧ t.pals = s.pals
                ∧ t.refs = s.refs ∧ t.tcbuf = s.tcbuf ∧ t.tcflag = s.tcflag)
              ∨ (t.ctx.status.halt = false ∧ t.afterReset)))
    ∧ (∀ pre sp k rest, (∀ m ∈ pre, m.isPacket = true) → s.moves = pre ++ .read sp k :: rest →
        k < sp.size s.cfg →
          step s = .next { s with moves := pre ++ rest, memOut := some (s.hostCell sp k) })
    ∧ ∀ pre rest, (∀ m ∈ pre, m.isPacket = true) → s.moves = pre ++ .hardReset :: rest →
        ∃ t, step s = .next t ∧ t.ctx.status.halt = false ∧ t.afterReset

/-- The hardware reset, halted or not, leaves the registers, latches, flags, `BCAP` and the catalog at
their reset values, and State.reset holds them too (rules R75, R320, R321). -/
def Obligations.HardwareReset : Prop :=
  State.reset.afterReset
    ∧ ∀ (s : State) (rest : List HostMove), s.moves = .hardReset :: rest →
        ∃ t, step s = .next t ∧ t.afterReset ∧ t.statusOut = 0 ∧ t.moves = rest ∧ t.cfg = s.cfg

/-- With no move to take nothing changes; a written cell reads back and no other cell, register or
record changes; a read changes only the memory output (rules R80, R90, R335). That a value wider than the
cell is cut to its width, and the answer outside a memory, are the model's own choices (log entry 12). -/
def Obligations.HostMemoryPort : Prop :=
  ∀ s : State,
    (s.moves = [] → step s = .next s)
    ∧ (∀ sp k v rest, s.moves = .write sp k v :: rest → k < sp.size s.cfg →
        ∃ t, step s = .next t
          ∧ (t.hostCell sp k).toNat = v.toNat % 2 ^ sp.width
          ∧ (∀ sp' k', (sp' ≠ sp ∨ k' ≠ k) → t.hostCell sp' k' = s.hostCell sp' k')
          ∧ t.ctx = s.ctx ∧ t.cfg = s.cfg ∧ t.tcbuf = s.tcbuf ∧ t.tcflag = s.tcflag
          ∧ t.tiles = s.tiles ∧ t.pals = s.pals ∧ t.refs = s.refs ∧ t.moves = rest
          ∧ t.response = s.response)
    ∧ (∀ sp k rest, s.moves = .read sp k :: rest → k < sp.size s.cfg →
        step s = .next { s with moves := rest, memOut := some (s.hostCell sp k) })
    ∧ (∀ sp k v rest, s.moves = .write sp k v :: rest → ¬ k < sp.size s.cfg →
        step s = .fault .noSuchCell)
    ∧ ∀ sp k rest, s.moves = .read sp k :: rest → ¬ k < sp.size s.cfg →
        step s = .fault .noSuchCell

/-! ## System commands and the dispatch -/

/-- SYS.NOP (rule R251). -/
def Obligations.SysNopChangesNothing : Prop :=
  (∀ s : State, exec .sysNop s = .next { s with response := some (.ok (.word 0)) })
    ∧ decode ⟨0, 0, 0, 0, 0, 0, 0, 0⟩ = .ok .sysNop
    ∧ (∀ p : Packet, p.w0.toNat < 2 ^ 24 → p.w0 ≠ 0 → decode p = .error .illegalOpcode)
    ∧ ∀ p : Packet, p.w0 = 0 → p ≠ ⟨0, 0, 0, 0, 0, 0, 0, 0⟩ → decode p = .error .illegalOperand

/-- SYS.RST: registers, latches, flags, `BCAP` and the catalog take their reset values and the other
memories keep their contents; a halted block does not take the packet (rule R252). -/
def Obligations.SoftReset : Prop :=
  decode ⟨0x01000000, 0, 0, 0, 0, 0, 0, 0⟩ = .ok .sysRst
    ∧ (∀ s : State, ∃ t, exec .sysRst s = .next t ∧ t.afterReset ∧ s.sameInputs t
        ∧ t.sMain = s.sMain ∧ t.zMain = s.zMain ∧ t.sSub = s.sSub ∧ t.zSub = s.zSub
        ∧ t.tcbuf = s.tcbuf ∧ t.response = some (.ok (.word 0)))
    ∧ ∀ (s : State), s.ctx.status.halt = true →
        s.moves = [.packet ⟨0x01000000, 0, 0, 0, 0, 0, 0, 0⟩] → step s = .next s

/-- SYS.CTXWR: a legal value goes to the register and nothing else changes; anything else is an operand
fault that leaves every register but `STATUS` as it was (rule R253). That the decoder accepts the packet of
every register and value, and the command's own check refuses it, is the model's own reading (log entry 11);
rule R114 lists the value's legality at decode. -/
def Obligations.ContextWrite : Prop :=
  (∀ (s : State) (r : CtxReg) (v : Word), ctxLegal r v.toNat →
      ∃ t, exec (.sysCtxwr r v) s = .next t ∧ t.ctx.readReg r = v
        ∧ (∀ r', r' ≠ r → t.ctx.readReg r' = s.ctx.readReg r')
        ∧ t = { s with ctx := t.ctx, response := some (.ok (.word 0)) })
    ∧ (∀ (s : State) (r : CtxReg) (v : Word), ¬ ctxLegal r v.toNat →
        exec (.sysCtxwr r v) s = .next { s with
          ctx := { s.ctx with
            status := { halt := true, capreq := s.ctx.status.capreq, faultCode := 2 } }
          response := some (.fault .illegalOperand) })
    ∧ (∀ (r : CtxReg) (v : Word),
        decode ⟨0x02000000 + BitVec.ofNat 32 r.num, v, 0, 0, 0, 0, 0, 0⟩ = .ok (.sysCtxwr r v))
    ∧ ∀ (n : Nat) (v : Word), 0x21 < n → n < 256 →
        decode ⟨0x02000000 + BitVec.ofNat 32 n, v, 0, 0, 0, 0, 0, 0⟩ = .error .illegalOperand

/-- SYS.CTXRD: the register is the response and nothing else changes; the fields of the packed registers
stand where rule R40 puts them; `STATUS` read by a command shows no halt and no fault code; a number above
0x21 is an operand fault (rule R254). -/
def Obligations.ContextRead : Prop :=
  (∀ (s : State) (r : CtxReg),
      exec (.sysCtxrd r) s = .next { s with response := some (.ok (.word (s.ctx.readReg r))) })
    ∧ (∀ c : Ctx,
        (c.readReg .status).toNat
            = c.status.halt.toNat + 2 * c.status.capreq.toNat + 256 * c.status.faultCode.toNat
          ∧ (c.readReg .rsel).toNat = c.rsel.math.num + 16 * c.rsel.addr.num
          ∧ (c.readReg .fbd).toNat = c.fbd.color.toNat + 65536 * c.fbd.en.toNat
          ∧ (c.readReg .scsel).toNat = c.scsel.kind.num + 4 * c.scsel.black.toNat
              + 8 * c.scsel.base.toNat + 2048 * c.scsel.map.toNat
          ∧ (c.readReg .tcsel).toNat = c.tcsel.valid.toNat + 2 * c.tcsel.bank.num
              + 8 * c.tcsel.flip.toNat + 16 * c.tcsel.tn.toNat)
    ∧ (∀ (s : State) (rest : List HostMove),
        s.moves = .packet ⟨0x03000000, 0, 0, 0, 0, 0, 0, 0⟩ :: rest → s.ctx.status.halt = false →
        s.statusConsistent →
          ∃ t, step s = .next t
            ∧ t.response = some (.ok (.word (if s.ctx.status.capreq then 2 else 0))))
    ∧ (∀ r : CtxReg,
        decode ⟨0x03000000 + BitVec.ofNat 32 r.num, 0, 0, 0, 0, 0, 0, 0⟩ = .ok (.sysCtxrd r))
    ∧ ∀ n : Nat, 0x21 < n → n < 256 →
        decode ⟨0x03000000 + BitVec.ofNat 32 n, 0, 0, 0, 0, 0, 0, 0⟩ = .error .illegalOperand

/-- SYS.FRAMESTART: every flag and `TCSEL.VALID` are cleared, `FRAME` advances mod 2^32, and nothing
else changes (rule R255). -/
def Obligations.FrameStart : Prop :=
  decode ⟨0x04000000, 0, 0, 0, 0, 0, 0, 0⟩ = .ok .sysFramestart
    ∧ ∀ s : State, ∃ t, exec .sysFramestart s = .next t
        ∧ (∀ bank flip tn, t.slotFlag bank flip tn = 0)
        ∧ t = { s with
            tcflag := t.tcflag
            ctx := { s.ctx with
              tcsel := { s.ctx.tcsel with valid := false }
              frame := s.ctx.frame + 1 }
            response := some (.ok (.word 0)) }

/-- RD.SELECT: `RSEL` takes the selection and nothing else changes; the selection stays until the next
RD.SELECT or SYS.RST; the illegal values fault (rule R250). -/
def Obligations.RendererSelection : Prop :=
  (∀ (s : State) (m : MathMode) (a : AddrMode),
      exec (.rdSelect m a) s = .next { s with
        ctx := { s.ctx with rsel := ⟨m, a⟩ }
        response := some (.ok (.word 0)) })
    ∧ (∀ (i : Instr) (s t : State), exec i s = .next t → i ≠ .sysRst →
        (∀ m a, i ≠ .rdSelect m a) → t.ctx.rsel = s.ctx.rsel)
    ∧ (∀ (m : MathMode) (a : AddrMode),
        decode ⟨0x05000000 + BitVec.ofNat 32 (16 * a.num + m.num), 0, 0, 0, 0, 0, 0, 0⟩
          = .ok (.rdSelect m a))
    ∧ (∀ n : Nat, n < 128 → (8 < n % 16 ∨ 4 < n / 16) →
        decode ⟨0x05000000 + BitVec.ofNat 32 n, 0, 0, 0, 0, 0, 0, 0⟩ = .error .illegalOperand)
    ∧ ∀ (p : Packet) (n : Nat), 128 ≤ n → n < 256 → p.w0 = 0x05000000 + BitVec.ofNat 32 n →
        decode p = .error .illegalOpcode

/-! ## ColorMath -/

/-- CM.ADD saturates each channel by itself and gives a canonical colour (rule R142). -/
def Obligations.CmAddSaturates : Prop :=
  decodesColours 0x10000000 .cmAdd
    ∧ ∀ (s : State) (c1 c2 : Half), ∃ c : Half, respondsColour (.cmAdd c1 c2) s c
        ∧ (chan s.cfg.pixfmt c).r = min 31 ((chan s.cfg.pixfmt c1).r + (chan s.cfg.pixfmt c2).r)
        ∧ (chan s.cfg.pixfmt c).g = min 31 ((chan s.cfg.pixfmt c1).g + (chan s.cfg.pixfmt c2).g)
        ∧ (chan s.cfg.pixfmt c).b = min 31 ((chan s.cfg.pixfmt c1).b + (chan s.cfg.pixfmt c2).b)
        ∧ pack s.cfg.pixfmt (chan s.cfg.pixfmt c) = c

/-- CM.ADDH: each field is the floor of the mean, which is the carry-preserving mask form; CM.ADDBH answers
the same, whatever `BCAP` holds (rules R143, R148). The mask form and ADDBH rest on passages the spec marks
as its own (93_implementation_defined.md G2, G4). -/
def Obligations.CmAddhAverages : Prop :=
  decodesColours 0x11000000 .cmAddh ∧ decodesColours 0x15000000 .cmAddbh
    ∧ ∀ (s : State) (c1 c2 : Half), ∃ c : Half,
      respondsColour (.cmAddh c1 c2) s c ∧ respondsColour (.cmAddbh c1 c2) s c
        ∧ (fields s.cfg.pixfmt c).r
            = ((fields s.cfg.pixfmt c1).r + (fields s.cfg.pixfmt c2).r) / 2
        ∧ (fields s.cfg.pixfmt c).g
            = ((fields s.cfg.pixfmt c1).g + (fields s.cfg.pixfmt c2).g) / 2
        ∧ (fields s.cfg.pixfmt c).b
            = ((fields s.cfg.pixfmt c1).b + (fields s.cfg.pixfmt c2).b) / 2
        ∧ packf s.cfg.pixfmt (fields s.cfg.pixfmt c) = c
        ∧ let low := lowBits s.cfg.pixfmt
          let x := if s.cfg.pixfmt = .rgb555 then c1.toNat % 32768 else c1.toNat
          let y := if s.cfg.pixfmt = .rgb555 then c2.toNat % 32768 else c2.toNat
          c.toNat = ((x &&& (0xFFFF ^^^ low)) + (y &&& (0xFFFF ^^^ low))) / 2 + (x &&& y &&& low)

/-- CM.SUB clamps each channel at 0 and gives a canonical colour (rule R144). -/
def Obligations.CmSubClamps : Prop :=
  decodesColours 0x12000000 .cmSub
    ∧ ∀ (s : State) (c1 c2 : Half), ∃ c : Half, respondsColour (.cmSub c1 c2) s c
        ∧ ((chan s.cfg.pixfmt c).r : Int)
            = max 0 (((chan s.cfg.pixfmt c1).r : Int) - (chan s.cfg.pixfmt c2).r)
        ∧ ((chan s.cfg.pixfmt c).g : Int)
            = max 0 (((chan s.cfg.pixfmt c1).g : Int) - (chan s.cfg.pixfmt c2).g)
        ∧ ((chan s.cfg.pixfmt c).b : Int)
            = max 0 (((chan s.cfg.pixfmt c1).b : Int) - (chan s.cfg.pixfmt c2).b)
        ∧ pack s.cfg.pixfmt (chan s.cfg.pixfmt c) = c

/-- CM.SUBH: each field drops its low bit, subtracts and clamps at 0 (rule R145). The formula rests on a
passage the spec marks as its own (93_implementation_defined.md G3). -/
def Obligations.CmSubhHalves : Prop :=
  decodesColours 0x13000000 .cmSubh
    ∧ ∀ (s : State) (c1 c2 : Half), ∃ c : Half, respondsColour (.cmSubh c1 c2) s c
        ∧ ((fields s.cfg.pixfmt c).r : Int)
            = max 0 (((fields s.cfg.pixfmt c1).r / 2 : Int) - (fields s.cfg.pixfmt c2).r / 2)
        ∧ ((fields s.cfg.pixfmt c).g : Int)
            = max 0 (((fields s.cfg.pixfmt c1).g / 2 : Int) - (fields s.cfg.pixfmt c2).g / 2)
        ∧ ((fields s.cfg.pixfmt c).b : Int)
            = max 0 (((fields s.cfg.pixfmt c1).b / 2 : Int) - (fields s.cfg.pixfmt c2).b / 2)
        ∧ packf s.cfg.pixfmt (fields s.cfg.pixfmt c) = c

/-- CM.ADDB looks each channel sum up in `BCAP`; with the reset table it is CM.ADD (rule R146). -/
def Obligations.CmAddbLooksUp : Prop :=
  decodesColours 0x14000000 .cmAddb
    ∧ (∀ (s : State) (c1 c2 : Half), ∃ c : Half, respondsColour (.cmAddb c1 c2) s c
        ∧ (chan s.cfg.pixfmt c).r
            = (Memory.read s.bcap ((chan s.cfg.pixfmt c1).r + (chan s.cfg.pixfmt c2).r)).toNat
        ∧ (chan s.cfg.pixfmt c).g
            = (Memory.read s.bcap ((chan s.cfg.pixfmt c1).g + (chan s.cfg.pixfmt c2).g)).toNat
        ∧ (chan s.cfg.pixfmt c).b
            = (Memory.read s.bcap ((chan s.cfg.pixfmt c1).b + (chan s.cfg.pixfmt c2).b)).toNat
        ∧ pack s.cfg.pixfmt (chan s.cfg.pixfmt c) = c)
    ∧ ∀ (s : State) (c1 c2 : Half), (∀ k < 63, (Memory.read s.bcap k).toNat = min k 31) →
        exec (.cmAddb c1 c2) s = exec (.cmAdd c1 c2) s

/-- The subtract-half table of rule R147 with its guard bits gives what CM.SUBH answers (rules R145, R147).
The formula rests on a passage the spec marks as its own (93_implementation_defined.md G3). -/
def Obligations.SubtractHalfTable : Prop :=
  (∀ (s : State) (c1 c2 : Half), respondsColour (.cmSubh c1 c2) s (colorSubH s.cfg.pixfmt c1 c2))
    ∧ (∀ c1 c2 : Half,
        let k := ((c1.toNat ||| 0x10820) - (c2.toNat &&& 0xF7DE)) / 2 % 65536
        colorSubH .rgb565 c1 c2 = packf .rgb565
          ⟨if k / 2048 % 32 ≥ 16 then k / 2048 % 32 - 16 else 0,
            if k / 32 % 64 ≥ 32 then k / 32 % 64 - 32 else 0,
            if k % 32 ≥ 16 then k % 32 - 16 else 0⟩)
    ∧ ∀ c1 c2 : Half,
        let k := ((c1.toNat % 32768 ||| 0x8420) - (c2.toNat % 32768 &&& 0x7BDE)) / 2 % 65536
        colorSubH .rgb555 c1 c2 = packf .rgb555
          ⟨if k / 1024 % 32 ≥ 16 then k / 1024 % 32 - 16 else 0,
            if k / 32 % 32 ≥ 16 then k / 32 % 32 - 16 else 0,
            if k % 32 ≥ 16 then k % 32 - 16 else 0⟩

/-! ## Blend modes -/

/-- The modes that never halve: ADD, SUB, ADDB take the peer pixel or the fixed colour by the SD bit,
whatever `CLIP` is (rules R150, R152, R155, R158; passages G5 and G6 of 93_implementation_defined.md are the
spec's own). -/
def Obligations.BlendFullModes : Prop :=
  decodesBlend 1 .blendAdd ∧ decodesBlend 4 .blendSub ∧ decodesBlend 7 .blendAddb
    ∧ ∀ (s : State) (main sub : Half) (sd : Byte),
        let op2 := if sd.toNat / 2 ^ s.cfg.sdSelectBit % 2 = 1 then sub else s.ctx.fixedcol
        respondsColour (.blendAdd main sub sd) s (colorAdd s.cfg.pixfmt main op2)
          ∧ respondsColour (.blendSub main sub sd) s (colorSub s.cfg.pixfmt main op2)
          ∧ respondsColour (.blendAddb main sub sd) s (colorAddB s.cfg.pixfmt s.bcap main op2)

/-- The half modes against the fixed colour: halved unless clipping (rules R153, R156). When the half form
is used is the spec's own inference (rule R150; 93_implementation_defined.md G5). -/
def Obligations.BlendFixedHalfModes : Prop :=
  decodesBlend 2 .blendAddf ∧ decodesBlend 5 .blendSubf
    ∧ ∀ (s : State) (main sub : Half) (sd : Byte),
        respondsColour (.blendAddf main sub sd) s
            (if s.ctx.clip then colorAdd s.cfg.pixfmt main s.ctx.fixedcol
              else colorAddH s.cfg.pixfmt main s.ctx.fixedcol)
          ∧ respondsColour (.blendSubf main sub sd) s
            (if s.ctx.clip then colorSub s.cfg.pixfmt main s.ctx.fixedcol
              else colorSubH s.cfg.pixfmt main s.ctx.fixedcol)

/-- The conditional half modes: halved only when not clipping and the SD bit selects the peer pixel
(rules R154, R157, R159). When the half form is used is the spec's own inference (rule R150;
93_implementation_defined.md G5, G6). -/
def Obligations.BlendConditionalHalfModes : Prop :=
  decodesBlend 3 .blendAdds ∧ decodesBlend 6 .blendSubs ∧ decodesBlend 8 .blendAddbs
    ∧ ∀ (s : State) (main sub : Half) (sd : Byte),
        let peer := sd.toNat / 2 ^ s.cfg.sdSelectBit % 2 = 1
        let op2 := if peer then sub else s.ctx.fixedcol
        let half := ¬ s.ctx.clip = true ∧ peer
        respondsColour (.blendAdds main sub sd) s
            (if half then colorAddH s.cfg.pixfmt main sub else colorAdd s.cfg.pixfmt main op2)
          ∧ respondsColour (.blendSubs main sub sd) s
            (if half then colorSubH s.cfg.pixfmt main sub else colorSub s.cfg.pixfmt main op2)
          ∧ respondsColour (.blendAddbs main sub sd) s
            (if half then colorAddH s.cfg.pixfmt main sub
              else colorAddB s.cfg.pixfmt s.bcap main op2)

/-- BLEND.NONE returns its first operand unchanged; under every mode only the SD bit of `sd` matters;
an immediate above 8 selects no mode (rules R115, R150, R151). -/
def Obligations.BlendNoneAndSdBit : Prop :=
  decodesBlend 0 .blendNone
    ∧ (∀ (s : State) (main sub : Half) (sd : Byte), respondsColour (.blendNone main sub sd) s main)
    ∧ (∀ (s : State) (m : MathMode) (main sub : Half) (sd sd' : Byte),
        sd.toNat / 2 ^ s.cfg.sdSelectBit % 2 = sd'.toNat / 2 ^ s.cfg.sdSelectBit % 2 →
          exec (blendInstr m main sub sd) s = exec (blendInstr m main sub sd') s)
    ∧ ∀ (p : Packet) (n : Nat), 8 < n → n < 256 → p.w0 = 0x16000000 + BitVec.ofNat 32 n →
        decode p = .error .illegalOpcode

/-! ## PixelPlotter -/

/-- PLOT.N1X1: out of range it faults and accesses nothing; a pixel that passes the gate writes the
blended colour and the store depth at one address; another pixel changes nothing (rules R171 to R173; the peer and the address rest on
the spec's own passages G6 and G12 of 93_implementation_defined.md). -/
def Obligations.PlotN1x1 : Prop :=
  decodesPlot 0x20000000 .plotN1x1
    ∧ ∀ (s : State) (n m offset oil : Word) (pix z1 z2 : Byte),
        let a : Int := offset.toNat + n.toInt
        let i := s.index a
        (¬ s.inRange a → exec (.plotN1x1 n m offset oil pix z1 z2) s = .next (faultState .bufRange s))
        ∧ (s.inRange a → ¬(m ≠ 0 ∧ (s.readTZ i).toNat < z1.toNat) →
            exec (.plotN1x1 n m offset oil pix z1 z2) s
              = .next { s with response := some (.ok (.word 0)) })
        ∧ (s.inRange a → m ≠ 0 → (s.readTZ i).toNat < z1.toNat →
            ∃ t, exec (.plotN1x1 n m offset oil pix z1 z2) s = .next t
              ∧ t.readTS i = s.calc s.ctx.rsel.math (s.screenColor pix)
                  (Memory.read s.sSub i) (Memory.read s.zSub i)
              ∧ t.readTZ i = z2
              ∧ (∀ j, j ≠ i → t.readTS j = s.readTS j ∧ t.readTZ j = s.readTZ j)
              ∧ s.onlyTarget t ∧ t.freeCount = s.freeCount ∧ t.response = some (.ok (.word 0)))

/-- PLOT.N2X1 and PLOT.INT: two columns, one blend, only the depth at the base address is tested (rules
R171, R172, R174, R175; the spec's own passages G6 and G12). That a base cell in range keeps its value after
the fault is the model's own reading of rule R172 over rule R305 (log entry 16). -/
def Obligations.PlotN2x1AndInt : Prop :=
  decodesPlot 0x21000000 .plotN2x1 ∧ decodesPlot 0x22000000 .plotInt
    ∧ plotsTwoColumns .plotN2x1 ∧ plotsTwoColumns .plotInt

/-- PLOT.HIRES and PLOT.HIRESINT: the main column, the combined column, and the two depths (rules R171,
R172, R176, R177; the spec's own passages G6 and G12). The first column of a line is unspecified, a free
value of the model (log entry 6): nothing is said of it. That a base cell in range keeps its value after the
fault of the first clause is the model's own reading of rule R172 over rule R305 (log entry 16). -/
def Obligations.PlotHiresAndHiresint : Prop :=
  decodesPlot 0x23000000 .plotHires ∧ decodesPlot 0x24000000 .plotHiresint
    ∧ plotsHires .plotHires ∧ plotsHires .plotHiresint

/-! ## TileCache -/

/-- TC.RESOLVE: `TCSEL` names the slot of the reference and is the response; of a slot already decoded
nothing else changes (rules R190, R191, R193; `tileShift` is the spec's own passage G16). -/
def Obligations.ResolveNamesSlot : Prop :=
  decodesTileRef 0x30000000 .tcResolve
    ∧ ∀ (s : State) (r : Half),
        let flip := r.getLsbD s.cfg.hflipBit
        let tn := tileNumberOf s r
        let sel : Tcsel := ⟨true, s.ctx.bpp, flip, tn⟩
        tileAddress s r >>> (4 + s.ctx.bpp.num) < 4096
        ∧ (s.slotFlag s.ctx.bpp flip tn ≠ 0 →
            exec (.tcResolve r) s = .next { s with
              ctx := { s.ctx with tcsel := sel }
              response := some (.ok (.word sel.word)) })
        ∧ (s.slotFlag s.ctx.bpp flip tn = 0 →
            ∃ t, exec (.tcResolve r) s = .next t
              ∧ t = { s with
                  tcbuf := t.tcbuf
                  tcflag := t.tcflag
                  ctx := { s.ctx with tcsel := sel, decodecnt := s.ctx.decodecnt + 1 }
                  response := some (.ok (.word sel.word)) })

/-- A decode: every pixel is the converter's, mirrored in the flipped half; under the default converter every
bit of the 64 bytes comes from the bit plane rule R196 names; the flag is 2 when every byte is 0, else 1;
every other slot stays (rules R9, R192, R196; the plane layout and the flag value 2 are the spec's own
passages G17 and G19). Another converter is a free function of the model (log entry 3). -/
def Obligations.DecodeUnpacksPlanes : Prop :=
  ∀ (s t : State) (r : Half),
    let flip := r.getLsbD s.cfg.hflipBit
    let tn := tileNumberOf s r
    let bank := s.ctx.bpp
    s.slotFlag bank flip tn = 0 → exec (.tcResolve r) s = .next t →
      (s.cfg.convert = .planar → ∀ y < 8, ∀ x < 8, ∀ p < 8,
        (t.cacheByte bank flip tn (8 * y + x)).getLsbD p
          = (decide (p < 2 * 2 ^ bank.num)
            && (Memory.read s.vram
                ((tileAddress s r + 2 * y + p % 2 + 16 * (p / 2)) % 65536)).getLsbD
                (7 - if flip then 7 - x else x)))
      ∧ (∀ id, s.cfg.convert = .plugged id → ∀ y < 8, ∀ x < 8,
        t.cacheByte bank flip tn (8 * y + x)
          = Config.pluggedPixel id (2 * 2 ^ bank.num) (fun a => Memory.read s.vram (a % 65536))
              (tileAddress s r) (8 * y + if flip then 7 - x else x))
      ∧ ((∀ k < 64, t.cacheByte bank flip tn k = 0) → t.slotFlag bank flip tn = 2)
      ∧ ((∃ k < 64, t.cacheByte bank flip tn k ≠ 0) → t.slotFlag bank flip tn = 1)
      ∧ ∀ bank' flip' tn', (bank' ≠ bank ∨ flip' ≠ flip ∨ tn' ≠ tn) →
          t.slotFlag bank' flip' tn' = s.slotFlag bank' flip' tn'
            ∧ ∀ k < 64, t.cacheByte bank' flip' tn' k = s.cacheByte bank' flip' tn' k

/-- A slot is decoded at most once in a frame: resolving again changes nothing, and no command but
SYS.FRAMESTART and SYS.RST touches a decoded slot (rules R192, R198). -/
def Obligations.DecodedOncePerFrame : Prop :=
  (∀ (s t : State) (r : Half), exec (.tcResolve r) s = .next t → exec (.tcResolve r) t = .next t)
    ∧ ∀ (i : Instr) (s t : State) (bank : Bpp) (flip : Bool) (tn : BitVec 12),
        exec i s = .next t → i ≠ .sysFramestart → i ≠ .sysRst → s.slotFlag bank flip tn ≠ 0 →
          t.slotFlag bank flip tn = s.slotFlag bank flip tn
            ∧ ∀ k < 64, t.cacheByte bank flip tn k = s.cacheByte bank flip tn k

/-- TC.SELPAL: `SCSEL` takes the map or the slice of the reference, black while clipping, and is the
response; nothing else changes (rules R120, R194, R195). The default position of the map bits is the spec's
own passage G8; its form as a parameter is the model's own choice (log entry 23). -/
def Obligations.SelectPalette : Prop :=
  decodesTileRef 0x31000000 .tcSelpal
    ∧ ∀ (s : State) (r : Half),
        let base : Byte :=
          ((r >>> s.ctx.palshift.toNat).setWidth 8 &&& s.ctx.palmask) + s.ctx.startpal
        let sel : Scsel := if s.ctx.direct then ⟨.direct, s.ctx.clip, 0, r.extractLsb' s.cfg.mapBit 3⟩
          else ⟨.pal, s.ctx.clip, base, 0⟩
        exec (.tcSelpal r) s = .next { s with
          ctx := { s.ctx with scsel := sel }
          response := some (.ok (.word sel.word)) }

/-! ## TileRenderer -/

/-- TR.TILE, TR.CLIP and TR.MOSPIX answer a next state from every state, change only what their plots
reach, and end without a fault when every source row exists, the stores have room for the records the draw
needs and every plot is in range (rules R210 to R214, R217, R281). -/
def Obligations.TileCommandsFrame : Prop :=
  (∀ (s : State) (tile : Half) (offset : Word) (sl : BitVec 6) (lc : BitVec 4),
      ∃ t, exec (.trTile tile offset sl lc) s = .next t
        ∧ s.changesOnly t (s.placed offset lc.toNat fun c => c < 8)
        ∧ (s.ctx.capen = false → s.sameCatalog t)
        ∧ ((∀ k < lc.toNat, s.rowDrawn tile sl k) → s.catalogRoom tile →
            (∀ base oil n, s.placed offset lc.toNat (fun c => c < 8) base oil n →
              s.canPlot base oil n) → s.endedOk t))
    ∧ (∀ (s : State) (tile : Half) (offset : Word) (sp : BitVec 3) (w : BitVec 4) (sl : BitVec 6)
        (lc : BitVec 4),
        let cols := fun c : Nat => sp.toNat ≤ c ∧ c < min 8 (sp.toNat + w.toNat)
        ∃ t, exec (.trClip tile offset sp w sl lc) s = .next t
          ∧ s.changesOnly t (s.placed offset lc.toNat cols)
          ∧ (s.ctx.capen = false → s.sameCatalog t)
          ∧ ((∀ k < lc.toNat, s.rowDrawn tile sl k) → s.catalogRoom tile →
              (∀ base oil n, s.placed offset lc.toNat cols base oil n → s.canPlot base oil n) →
                s.endedOk t))
    ∧ ∀ (s : State) (tile : Half) (offset : Word) (sl : BitVec 6) (sp : BitVec 3) (w lc : Half),
        let cols := fun c : Nat => c < w.toNat
        ∃ t, exec (.trMospix tile offset sl sp w lc) s = .next t
          ∧ s.changesOnly t (s.placed offset lc.toNat cols)
          ∧ s.sameCatalog t
          ∧ (s.rowDrawn tile sl 0 →
              (∀ base oil n, s.placed offset lc.toNat cols base oil n → s.canPlot base oil n) →
                s.endedOk t)

/-- TR.BACKDROP and the four Mode-7 commands answer a next state from every state, change only what their
plots reach and the palette latch, which they set when their lines are legal, and end without a fault when
their lines are legal and every plot is in range; a mosaic command, completed or stopped by `F_BUF_RANGE`,
changes only the columns `[Left, Right)` (rules R216, R230, R235 to R238, R240 to R243, R305). That a masked
cell lies outside the footprint of rule R305 is the model's own reading (log entry 8). -/
def Obligations.FillCommandsFrame : Prop :=
  (∀ (s : State) (offset : Word) (left right : Half),
      let lines := s.ctx.endy.toNat + 1 - s.ctx.starty.toNat
      let cols := fun c : Nat => left.toNat ≤ c ∧ c < right.toNat
      ∃ t, exec (.trBackdrop offset left right) s = .next t
        ∧ s.changesOnly t (s.placed offset lines cols)
        ∧ s.sameCatalog t ∧ s.sameCache t
        ∧ t.ctx.scsel = ⟨if s.ctx.fbd.en then .forced else .pal, s.ctx.clip, 0, 0⟩
        ∧ ((∀ base oil n, s.placed offset lines cols base oil n → s.canPlot base oil n) →
            s.endedOk t))
    ∧ (∀ (i : Instr) (s : State) (left right : Half) (d : Byte),
        let cols := fun c : Nat => left.toNat ≤ c ∧ c < right.toNat
        (i = .trM7bg1 left right d ∨ i = .trM7bg2 left right d) →
        ∃ t, exec i s = .next t
          ∧ s.changesOnly t (s.placedRows s.ctx.starty.toNat cols)
          ∧ s.sameCatalog t ∧ s.sameCache t
          ∧ (s.linesInTable → t.ctx.scsel = ⟨if i = .trM7bg1 left right d ∧ s.ctx.direct then
              .direct else .pal, s.ctx.clip, 0, 0⟩)
          ∧ (s.linesInTable →
              (∀ base oil n, s.placedRows s.ctx.starty.toNat cols base oil n →
                s.canPlot base oil n) → s.endedOk t))
    ∧ ∀ (i : Instr) (s : State) (left right : Half) (d : Byte),
        let cols := fun c : Nat => s.blockLeft left ≤ c ∧ c < s.blockRight right
        let shown := fun c : Nat => left.toNat ≤ c ∧ c < right.toNat
        (i = .trM7mbg1 left right d ∨ i = .trM7mbg2 left right d) →
        ∃ t, exec i s = .next t
          ∧ s.changesOnly t (s.placedRows s.firstTop shown)
          ∧ s.sameCatalog t ∧ s.sameCache t
          ∧ (s.ctx.mosaicstart.toNat < s.ctx.vmosaic.toNat →
              s.ctx.mosaicstart.toNat ≤ s.ctx.starty.toNat → s.blocksInTable →
              t.ctx.scsel = ⟨if i = .trM7mbg1 left right d ∧ s.ctx.direct then
                .direct else .pal, s.ctx.clip, 0, 0⟩)
          ∧ (s.ctx.mosaicstart.toNat < s.ctx.vmosaic.toNat →
              s.ctx.mosaicstart.toNat ≤ s.ctx.starty.toNat → 1 ≤ s.ctx.hmosaic.toNat →
              s.blocksInTable →
              (∀ base oil n, s.placedRows s.firstTop cols base oil n → s.canPlot base oil n) →
                s.endedOk t)

/-- TR.TILE and TR.CLIP. Under N1X1, N2X1 and INT column `c` of line `k` shows the pixel at the source row
and column rules R178 and R215 give, from the unflipped decode or, of a slot decoded earlier in the frame,
from the slot's bytes, in the palette of the reference, gated and blended pixel by pixel. Under every
addressing mode the command does what TC.RESOLVE, TC.SELPAL and one PLOT command for each pixel do one after
another, and catalogues the draw (rules R96, R173 to R178, R194, R211 to R213, R215, R217; the layout of
references, slots and rows rests on the spec's own passages G7, G8, G16, G17 and G20). -/
def Obligations.TileDrawsSourcePixels : Prop :=
  (∀ (i : Instr) (s : State) (tile : Half) (offset : Word) (sl : BitVec 6) (lc : BitVec 4)
    (cols : Nat → Prop),
    ((i = .trTile tile offset sl lc ∧ ∀ c, cols c ↔ c < 8)
      ∨ ∃ (sp : BitVec 3) (w : BitVec 4), i = .trClip tile offset sp w sl lc
          ∧ ∀ c, cols c ↔ sp.toNat ≤ c ∧ c < min 8 (sp.toNat + w.toNat)) →
    s.lowRes → 8 * s.pixelWidth ≤ s.ctx.ppl.toNat → s.catalogRoom tile →
    (∀ k < lc.toNat, s.rowDrawn tile sl k) →
    (∀ k < lc.toNat, ∀ c, cols c → s.pixelInRange (offset.toNat + k * s.ctx.ppl.toNat) c) →
    ∃ t, exec i s = .next t ∧ s.endedOk t
      ∧ ∀ k < lc.toNat, ∀ c, cols c →
          let pix := s.drawnPixel tile (s.drawnRow tile sl k) c
          s.pixelDrawn t (pix ≠ 0) (s.tileColor tile pix) s.ctx.z1 s.ctx.z2
            (offset.toNat + k * s.ctx.ppl.toNat) c)
  ∧ ∀ (i : Instr) (s u : State) (tile : Half) (offset : Word) (sl : BitVec 6) (lc : BitVec 4)
    (cols : List Nat),
    ((i = .trTile tile offset sl lc ∧ cols = between 0 8)
      ∨ ∃ (sp : BitVec 3) (w : BitVec 4), i = .trClip tile offset sp w sl lc
          ∧ cols = between sp.toNat (min 8 (sp.toNat + w.toNat))) →
    (∀ k < lc.toNat, s.rowDrawn tile sl k) → s.catalogRoom tile → s.tileOpaque tile →
    offset.toNat + lc.toNat * s.ctx.ppl.toNat ≤ 2 ^ 32 →
    runAll ([.tcResolve tile, .tcSelpal tile] ++ s.tileInstrs tile offset sl lc.toNat cols) s
        = some u →
    ∃ t, exec i s = .next t
      ∧ t = { u.withCatalogOf t with response := some (.ok (.word 0)) }

/-- TR.MOSPIX. Under N1X1, N2X1 and INT every pixel of the block shows one sample, adjusted for the flips.
Under every addressing mode the command does what TC.RESOLVE, TC.SELPAL and one PLOT command for each pixel
do one after another (rules R96, R178, R211, R214, R215, R217; the spec's own passages G20 and G21). -/
def Obligations.MospixReplicatesSample : Prop :=
  (∀ (s : State) (tile : Half) (offset : Word) (sl : BitVec 6) (sp : BitVec 3) (w lc : Half),
    s.lowRes → s.pixelWidth * w.toNat ≤ s.ctx.ppl.toNat → s.rowDrawn tile sl 0 →
    (∀ k < lc.toNat, ∀ c < w.toNat, s.pixelInRange (offset.toNat + k * s.ctx.ppl.toNat) c) →
    ∃ t, exec (.trMospix tile offset sl sp w lc) s = .next t ∧ s.endedOk t
      ∧ ∀ k < lc.toNat, ∀ c < w.toNat,
          let pix := s.drawnPixel tile (s.drawnRow tile sl 0) sp.toNat
          s.pixelDrawn t (pix ≠ 0) (s.tileColor tile pix) s.ctx.z1 s.ctx.z2
            (offset.toNat + k * s.ctx.ppl.toNat) c)
  ∧ ∀ (s u : State) (tile : Half) (offset : Word) (sl : BitVec 6) (sp : BitVec 3) (w lc : Half),
    s.rowDrawn tile sl 0 → s.tileOpaque tile →
    offset.toNat + lc.toNat * s.ctx.ppl.toNat ≤ 2 ^ 32 →
    runAll ([.tcResolve tile, .tcSelpal tile]
        ++ s.mospixInstrs tile offset sl sp w.toNat lc.toNat) s = some u →
    exec (.trMospix tile offset sl sp w lc) s
      = .next { u with response := some (.ok (.word 0)) }

/-- TR.BACKDROP. Under N1X1, N2X1 and INT: black while clipping, else the forced colour, else entry 0 of the
palette, at depth 1 in every pixel of the rectangle whose depth is 0. Under every addressing mode the command
does what one PLOT command for each pixel does, under the palette it selects (rule R216). -/
def Obligations.BackdropFillsRectangle : Prop :=
  (∀ (s : State) (offset : Word) (left right : Half),
    s.lowRes → s.pixelWidth * (right.toNat - left.toNat) ≤ s.ctx.ppl.toNat →
    (∀ k, s.ctx.starty.toNat + k ≤ s.ctx.endy.toNat → ∀ x, left.toNat ≤ x → x < right.toNat →
      s.pixelInRange (offset.toNat + k * s.ctx.ppl.toNat) x) →
    ∃ t, exec (.trBackdrop offset left right) s = .next t ∧ s.endedOk t
      ∧ ∀ k, s.ctx.starty.toNat + k ≤ s.ctx.endy.toNat → ∀ x, left.toNat ≤ x → x < right.toNat →
          let colour := if s.ctx.clip then 0
            else if s.ctx.fbd.en then s.ctx.fbd.color else Memory.read s.pal 0
          s.pixelDrawn t True colour 1 1 (offset.toNat + k * s.ctx.ppl.toNat) x)
  ∧ ∀ (s u : State) (offset : Word) (left right : Half),
    offset.toNat + (s.ctx.endy.toNat + 1 - s.ctx.starty.toNat) * s.ctx.ppl.toNat ≤ 2 ^ 32 →
    runAll (s.backdropInstrs offset left right)
        { s with ctx := { s.ctx with
            scsel := ⟨if s.ctx.fbd.en then .forced else .pal, s.ctx.clip, 0, 0⟩ } } = some u →
    exec (.trBackdrop offset left right) s = .next { u with response := some (.ok (.word 0)) }

/-- TR.M7BG1 and TR.M7BG2. Under N1X1, N2X1 and INT: the transform, the repeat policy, the masks, the depths
and the palettes, pixel by pixel. Under every addressing mode each command does what one PLOT command for
each sample that is not skipped does, under the palette it selects (rules R230 to R238; the transform, the
map and the depths are the spec's own passages G11 and G22 to G24). -/
def Obligations.Mode7RowDraws : Prop :=
  (∀ (s : State) (left right : Half) (d : Byte),
    s.lowRes → s.linesInTable →
    s.pixelWidth * (right.toNat - left.toNat) ≤ s.ctx.ppl.toNat →
    (∀ line, s.ctx.starty.toNat ≤ line → line ≤ s.ctx.endy.toNat → ∀ x, left.toNat ≤ x →
      x < right.toNat → s.pixelInRange (line * s.ctx.ppl.toNat) x) →
    (∃ t, exec (.trM7bg1 left right d) s = .next t ∧ s.endedOk t
      ∧ ∀ line, s.ctx.starty.toNat ≤ line → line ≤ s.ctx.endy.toNat → ∀ x, left.toNat ≤ x →
          x < right.toNat → s.showsBg1 t d (s.mode7Byte (s.mode7X line x) (s.mode7Y line x))
            (line * s.ctx.ppl.toNat) x)
    ∧ ∃ t, exec (.trM7bg2 left right d) s = .next t ∧ s.endedOk t
      ∧ ∀ line, s.ctx.starty.toNat ≤ line → line ≤ s.ctx.endy.toNat → ∀ x, left.toNat ≤ x →
          x < right.toNat → s.showsBg2 t d (s.mode7Byte (s.mode7X line x) (s.mode7Y line x))
            (line * s.ctx.ppl.toNat) x)
  ∧ ∀ (i : Instr) (bg : Bg) (s u : State) (left right : Half) (d : Byte),
    ((i = .trM7bg1 left right d ∧ bg = .bg1) ∨ (i = .trM7bg2 left right d ∧ bg = .bg2)) →
    s.linesInTable → 1 ≤ s.ctx.rppl.toNat → s.ctx.endy.toNat * s.ctx.ppl.toNat < 2 ^ 32 →
    runAll (s.rowInstrs bg left right d)
        { s with ctx := { s.ctx with
            scsel := ⟨if bg = .bg1 ∧ s.ctx.direct then .direct else .pal, s.ctx.clip, 0, 0⟩ } }
        = some u →
    exec i s = .next { u with response := some (.ok (.word 0)) }

/-- TR.M7MBG1 and TR.M7MBG2. Under N1X1, N2X1 and INT every pixel of a block shows the sample of the block's
top-left corner, and only the columns `[Left, Right)` are drawn. Under every addressing mode each command
does what one PLOT command for each cell of each block does, in the order of rule R243, under the palette it
selects (rules R230, R235, R240 to R243; the block arithmetic is the spec's own passage G25). -/
def Obligations.Mode7MosaicDraws : Prop :=
  (∀ (s : State) (left right : Half) (d : Byte),
    s.lowRes → s.blocksInTable → 1 ≤ s.ctx.hmosaic.toNat →
    s.ctx.mosaicstart.toNat < s.ctx.vmosaic.toNat → s.ctx.mosaicstart.toNat ≤ s.ctx.starty.toNat →
    s.pixelWidth * (s.blockRight right - s.blockLeft left) ≤ s.ctx.ppl.toNat →
    (∀ line, s.ctx.starty.toNat ≤ line → line ≤ s.ctx.endy.toNat → ∀ x, s.blockLeft left ≤ x →
      x < s.blockRight right → s.pixelInRange (line * s.ctx.ppl.toNat) x) →
    let sample := fun line x : Nat =>
      let top := s.blockTop line
      let corner := x - x % s.ctx.hmosaic.toNat
      s.mode7Byte (s.mode7X top corner) (s.mode7Y top corner)
    (∃ t, exec (.trM7mbg1 left right d) s = .next t ∧ s.endedOk t
      ∧ ∀ line, s.ctx.starty.toNat ≤ line → line ≤ s.ctx.endy.toNat → ∀ x, left.toNat ≤ x →
          x < right.toNat →
            s.showsBg1 t d (sample line x) (line * s.ctx.ppl.toNat) x)
    ∧ ∃ t, exec (.trM7mbg2 left right d) s = .next t ∧ s.endedOk t
      ∧ ∀ line, s.ctx.starty.toNat ≤ line → line ≤ s.ctx.endy.toNat → ∀ x, left.toNat ≤ x →
          x < right.toNat →
            s.showsBg2 t d (sample line x) (line * s.ctx.ppl.toNat) x)
  ∧ ∀ (i : Instr) (bg : Bg) (s u : State) (left right : Half) (d : Byte),
    ((i = .trM7mbg1 left right d ∧ bg = .bg1) ∨ (i = .trM7mbg2 left right d ∧ bg = .bg2)) →
    s.blocksInTable → 1 ≤ s.ctx.hmosaic.toNat → s.ctx.mosaicstart.toNat < s.ctx.vmosaic.toNat →
    s.ctx.mosaicstart.toNat ≤ s.ctx.starty.toNat → 1 ≤ s.ctx.rppl.toNat →
    s.ctx.endy.toNat * s.ctx.ppl.toNat < 2 ^ 32 →
    runAll (s.mosaicInstrs bg left right d)
        { s with ctx := { s.ctx with
            scsel := ⟨if bg = .bg1 ∧ s.ctx.direct then .direct else .pal, s.ctx.clip, 0, 0⟩ } }
        = some u →
    exec i s = .next { u with response := some (.ok (.word 0)) }

/-- With 1×1 blocks and no phase a Mode-7 mosaic command does what the row command does, wherever the row
command ends without a fault (rule R241). -/
def Obligations.MosaicOfOneIsRow : Prop :=
  ∀ (s t : State) (left right : Half) (d : Byte),
    s.ctx.hmosaic = 1 → s.ctx.vmosaic = 1 → s.ctx.mosaicstart = 0 →
    t.response = some (.ok (.word 0)) →
      (exec (.trM7bg1 left right d) s = .next t → exec (.trM7mbg1 left right d) s = .next t)
      ∧ (exec (.trM7bg2 left right d) s = .next t → exec (.trM7mbg2 left right d) s = .next t)

/-- A blank tile: the command writes `TCSEL`, decodes the slot if it must, and changes nothing else: no
screen or depth cell, not `SCSEL`, no catalog record (rules R211, R217). -/
def Obligations.BlankTileDrawsNothing : Prop :=
  ∀ (i : Instr) (s : State) (tile : Half) (offset : Word) (sl : BitVec 6),
    ((∃ lc : BitVec 4, i = .trTile tile offset sl lc ∧ ∀ k < lc.toNat, s.rowDrawn tile sl k)
      ∨ (∃ (sp : BitVec 3) (w lc : BitVec 4), i = .trClip tile offset sp w sl lc
          ∧ ∀ k < lc.toNat, s.rowDrawn tile sl k)
      ∨ ∃ (sp : BitVec 3) (w lc : Half), i = .trMospix tile offset sl sp w lc
          ∧ s.rowDrawn tile sl 0) →
    let flip := tile.getLsbD s.cfg.hflipBit
    let tn := tileNumberOf s tile
    (s.slotFlag s.ctx.bpp flip tn = 2 →
      exec i s = .next { s with
        ctx := { s.ctx with tcsel := ⟨true, s.ctx.bpp, flip, tn⟩ }
        response := some (.ok (.word 0)) })
    ∧ (s.slotFlag s.ctx.bpp flip tn = 0 →
        (∀ row < 8, ∀ col < 8, s.sourcePixel tile row col = 0) →
        ∃ t, exec i s = .next t ∧ t = { s with
          tcbuf := t.tcbuf
          tcflag := t.tcflag
          ctx := { s.ctx with
            tcsel := ⟨true, s.ctx.bpp, flip, tn⟩
            decodecnt := s.ctx.decodecnt + 1 }
          response := some (.ok (.word 0)) })

/-- The checks of the TR commands that come before any state change, each with its fault and in its
order (rules R230, R240, R243, R300, R305, R307). That the record check of a mosaic block which draws no row
comes before the palette is selected is the model's own reading of rule R305 over the order of rule R243
(log entry 10). -/
def Obligations.PreciseRangeFaults : Prop :=
  (∀ (s : State) (tile : Half) (offset : Word) (sl : BitVec 6) (lc : BitVec 4) (k : Nat),
      k < lc.toNat → ¬ s.rowDrawn tile sl k →
        exec (.trTile tile offset sl lc) s = .next (faultState .tileRange s)
          ∧ ∀ sp w, exec (.trClip tile offset sp w sl lc) s = .next (faultState .tileRange s))
    ∧ (∀ (s : State) (tile : Half) (offset : Word) (sl : BitVec 6) (sp : BitVec 3) (w lc : Half),
        ¬ s.rowDrawn tile sl 0 →
          exec (.trMospix tile offset sl sp w lc) s = .next (faultState .tileRange s))
    ∧ (∀ (s : State) (left right : Half) (d : Byte), ¬ s.linesInTable →
        exec (.trM7bg1 left right d) s = .next (faultState .lineRange s)
          ∧ exec (.trM7bg2 left right d) s = .next (faultState .lineRange s))
    ∧ ∀ (i : Instr) (s : State) (left right : Half) (d : Byte),
        (i = .trM7mbg1 left right d ∨ i = .trM7mbg2 left right d) →
        (s.ctx.vmosaic.toNat ≤ s.ctx.mosaicstart.toNat →
          exec i s = .next (faultState .illegalOperand s))
        ∧ (s.ctx.mosaicstart.toNat < s.ctx.vmosaic.toNat →
            (s.ctx.starty.toNat < s.ctx.mosaicstart.toNat ∨ ¬ s.blocksInTable) →
            exec i s = .next (faultState .lineRange s))

/-- A draw that needs a record of a full store faults after `Resolve` and `SelectPalette` and changes
nothing else: no record, no cell (rules R281, R305). -/
def Obligations.FullCatalogFaults : Prop :=
  ∀ (i : Instr) (s : State) (tile : Half) (offset : Word) (shape : Shape),
    ((∃ (sl : BitVec 6) (lc : BitVec 4), i = .trTile tile offset sl lc
          ∧ ∀ k < lc.toNat, s.rowDrawn tile sl k)
      ∨ ∃ (sp : BitVec 3) (w : BitVec 4) (sl : BitVec 6) (lc : BitVec 4),
          i = .trClip tile offset sp w sl lc ∧ ∀ k < lc.toNat, s.rowDrawn tile sl k) →
    observedDraw i tile offset shape → s.ctx.capen = true →
    let u := State.selectPalette tile (State.resolve tile s)
    u.selectedFlag ≠ 2 →
    ((∃ c, s.cfg.capTiles = some c ∧ c ≤ s.ctx.ntiles.toNat
        ∧ ∀ r ∈ s.tiles, r.pixels ≠ u.tileKey)
      ∨ (∃ c, s.cfg.capPals = some c ∧ c ≤ s.ctx.npals.toNat
        ∧ ∀ r ∈ s.pals, palKey r.colors ≠ palKey u.palColors)
      ∨ ∃ c, s.cfg.capRefs = some c ∧ c ≤ s.ctx.nrefs.toNat
        ∧ (s.reachesMilestone (s.recordOf u.tileKey)
          ∨ s.firstOfOrientation tile (s.recordOf u.tileKey))) →
    exec i s = .next (faultState .csFull u)

/-- A plot whose base address is out of range stops TR.TILE (of a decoded tile that is not blank) and
TR.BACKDROP with `F_BUF_RANGE`, whatever its pixel or the depth (rules R172, R305). -/
def Obligations.OutOfRangePlotFaults : Prop :=
  (∀ (s : State) (tile : Half) (offset : Word) (sl : BitVec 6) (lc : BitVec 4) (base oil n : Int),
      s.ctx.capen = false → (∀ k < lc.toNat, s.rowDrawn tile sl k) →
      s.slotFlag s.ctx.bpp (tile.getLsbD s.cfg.hflipBit) (tileNumberOf s tile) = 1 →
      s.placed offset lc.toNat (fun c => c < 8) base oil n →
      (cellCall base oil n).baseOut s.ctx.rsel.addr s →
      ∃ t, exec (.trTile tile offset sl lc) s = .next t ∧ t.response = some (.fault .bufRange)
        ∧ t.ctx.status = { halt := true, capreq := s.ctx.status.capreq, faultCode := 3 })
    ∧ ∀ (s : State) (offset : Word) (left right : Half) (base oil n : Int),
        s.placed offset (s.ctx.endy.toNat + 1 - s.ctx.starty.toNat)
          (fun c => left.toNat ≤ c ∧ c < right.toNat) base oil n →
        (cellCall base oil n).baseOut s.ctx.rsel.addr s →
        ∃ t, exec (.trBackdrop offset left right) s = .next t
          ∧ t.response = some (.fault .bufRange)
          ∧ t.ctx.status = { halt := true, capreq := s.ctx.status.capreq, faultCode := 3 }

/-- `CLIP_10_BIT_SIGNED` (rule R231). -/
def Obligations.Clip10SignExtends : Prop :=
  (∀ x : Int, -512 ≤ clip10 x ∧ clip10 x ≤ 511 ∧ ∃ k : Int, x = clip10 x + 1024 * k)
    ∧ clip10 0x1FF = 511 ∧ clip10 0x200 = -512 ∧ clip10 0x3FF = -1 ∧ clip10 0x3FFF = -1

/-! ## CaptureStore -/

/-- CS.RESET clears the three stores as a unit, their counts and the request, and nothing else (rule
R284). -/
def Obligations.SessionReset : Prop :=
  decode ⟨0x50000000, 0, 0, 0, 0, 0, 0, 0⟩ = .ok .csReset
    ∧ ∀ s : State, exec .csReset s = .next { s with
        tiles := []
        pals := []
        refs := []
        ctx := { s.ctx with
          ntiles := 0
          npals := 0
          nrefs := 0
          status := { s.ctx.status with capreq := false } }
        response := some (.ok (.word 0)) }

/-- CS.ACK consumes a pending request and advances `SHOTID` mod 2^32; without one it does nothing (rule
R285). -/
def Obligations.CaptureAcknowledge : Prop :=
  decode ⟨0x51000000, 0, 0, 0, 0, 0, 0, 0⟩ = .ok .csAck
    ∧ (∀ s : State, s.ctx.status.capreq = true → exec .csAck s = .next { s with
        ctx := { s.ctx with
          status := { s.ctx.status with capreq := false }
          shotid := s.ctx.shotid + 1 }
        response := some (.ok (.word 0)) })
    ∧ ∀ s : State, s.ctx.status.capreq = false →
        exec .csAck s = .next { s with response := some (.ok (.word 0)) }

/-- CS.RDTILE, CS.RDPAL and CS.RDREF show the record of an id below the count, `ABSENT` otherwise, and
change no state (rules R286 to R289). Ids and counts of 32 bits are the model's own choice (log entry 14). -/
def Obligations.CatalogReads : Prop :=
  ∀ (s : State), s.idsOk → s.tiles.length < 2 ^ 32 → s.pals.length < 2 ^ 32 →
    s.refs.length < 2 ^ 32 → ∀ id : Word,
    exec (.csRdtile id) s = .next { s with
        response := some (.ok (match s.tiles[id.toNat]? with
          | some r => .tile r
          | none => .absent)) }
      ∧ exec (.csRdpal id) s = .next { s with
        response := some (.ok (match s.pals[id.toNat]? with
          | some r => .pal {
              id := r.id
              size := r.size
              colors := r.colors
              rgb := r.colors.map (chan s.cfg.pixfmt)
              frequency := r.frequency
              key := palKey r.colors }
          | none => .absent)) }
      ∧ exec (.csRdref id) s = .next { s with
        response := some (.ok (match s.refs[id.toNat]? with
          | some r => .ref {
              record := r
              shapeNum := r.shape.num
              addrNum := r.addr.num
              mathNum := r.math.num
              shapeName := shapeName r.shape
              addrName := addrName r.addr
              mathName := mathName r.math }
          | none => .absent)) }

/-- The records of an observed draw. The palette: a found record counts one more draw, a new one takes the
next id, the real colours, the size and frequency 1. The tile: its usage of that palette, and of no other,
counts every draw; a found tile seen in this frame keeps its count and its milestones, one seen in another
frame counts one more; a new tile starts at 1 (rules R271, R273 to R276). -/
def Obligations.ObservedDrawCounts : Prop :=
  ∀ (i : Instr) (s t : State) (tile : Half) (offset : Word) (shape : Shape),
    observedDraw i tile offset shape → s.ctx.capen = true → s.keysDistinct →
    (∀ r ∈ s.tiles, r.usageRises) →
    exec i s = .next t → t.response = some (.ok (.word 0)) →
    let u := State.resolve tile s
    let palId := s.drawnPalId tile
    u.selectedFlag ≠ 2 →
      t.frequencySum = s.frequencySum + 1
      ∧ (∀ j p, s.pals[j]? = some p → p.colors = s.drawnPalette tile →
          palId = p.id ∧ t.ctx.npals = s.ctx.npals
            ∧ t.pals = s.pals.set j { p with frequency := p.frequency + 1 })
      ∧ ((∀ p ∈ s.pals, p.colors ≠ s.drawnPalette tile) →
          palId = s.ctx.npals ∧ t.ctx.npals = s.ctx.npals + 1
            ∧ t.pals = s.pals ++ [{
                id := s.ctx.npals
                colors := s.drawnPalette tile
                size := s.drawnPalSize
                frequency := 1 }])
      ∧ (∀ j r, s.tiles[j]? = some r → r.pixels = u.tileKey →
          ∃ r', t.tiles = s.tiles.set j r' ∧ r'.id = r.id ∧ r'.pixels = r.pixels
            ∧ r'.palsize = r.palsize ∧ r'.lastSeenFrame = s.ctx.frame
            ∧ r'.usageSum = r.usageSum + 1 ∧ r'.usageRises
            ∧ (∀ q, r'.usageOf q = r.usageOf q + if q = palId.toNat then 1 else 0)
            ∧ (r.lastSeenFrame = s.ctx.frame → r'.sightings = r.sightings ∧ r'.mileRef = r.mileRef)
            ∧ (r.lastSeenFrame ≠ s.ctx.frame → r'.sightings = r.sightings + 1)
            ∧ t.ctx.ntiles = s.ctx.ntiles)
      ∧ ((∀ r ∈ s.tiles, r.pixels ≠ u.tileKey) →
          ∃ r', t.tiles = s.tiles ++ [r'] ∧ r'.id = s.ctx.ntiles ∧ r'.pixels = u.tileKey
            ∧ r'.palsize = s.drawnPalSize ∧ r'.usage = [(palId.toNat, 1)]
            ∧ r'.lastSeenFrame = s.ctx.frame ∧ r'.sightings = 1
            ∧ t.ctx.ntiles = s.ctx.ntiles + 1)

/-- An observed draw makes one reference and raises the request exactly when it reaches a milestone or is
the first of its orientation, and makes none otherwise; the tile record takes the reference's id at the
milestone and at the orientation, and nowhere else (rules R124, R277 to R280). -/
def Obligations.ReferenceAtMilestone : Prop :=
  ∀ (i : Instr) (s t : State) (tile : Half) (offset : Word) (shape : Shape),
    observedDraw i tile offset shape → s.ctx.capen = true → s.keysDistinct →
    exec i s = .next t → t.response = some (.ok (.word 0)) →
    let u := State.resolve tile s
    let old := s.recordOf u.tileKey
    u.selectedFlag ≠ 2 →
      ((s.reachesMilestone old ∨ s.firstOfOrientation tile old) →
        ∃ ref : RefRecord, t.refs = s.refs ++ [ref] ∧ ref.id = s.ctx.nrefs
          ∧ ref.tileId = (match old with
            | some r => r.id
            | none => s.ctx.ntiles)
          ∧ ref.shotId = s.ctx.shotid ∧ ref.frame = s.ctx.frame
          ∧ ref.x.toNat = offset.toNat % s.ctx.rppl.toNat
          ∧ ref.y.toNat = offset.toNat / s.ctx.rppl.toNat
          ∧ ref.shape = shape ∧ ref.addr = s.ctx.rsel.addr ∧ ref.math = s.ctx.rsel.math
          ∧ ref.shape.num = (encode i).w0.toNat / 2 ^ 24 % 16
          ∧ ref.palId = s.drawnPalId tile
          ∧ t.ctx.nrefs = s.ctx.nrefs + 1 ∧ t.ctx.status.capreq = true)
      ∧ (¬(s.reachesMilestone old ∨ s.firstOfOrientation tile old) →
          t.refs = s.refs ∧ t.ctx.nrefs = s.ctx.nrefs
            ∧ t.ctx.status.capreq = s.ctx.status.capreq)
      ∧ (∀ (j : Nat) (r : TileRecord), s.tiles[j]? = some r → r.pixels = u.tileKey →
          ∃ r', t.tiles[j]? = some r' ∧ s.referencesStored tile old r')
      ∧ ((∀ r ∈ s.tiles, r.pixels ≠ u.tileKey) →
          ∃ r', t.tiles[s.tiles.length]? = some r' ∧ s.referencesStored tile old r')

/-- Drawing the same tile with the same palette twice in one frame decodes nothing again, makes no second
record or reference and counts no second sighting, but counts palette frequency and tile usage (rule
R276). -/
def Obligations.SecondDrawInFrame : Prop :=
  ∀ (i : Instr) (s t u : State) (tile : Half) (offset : Word) (shape : Shape),
    observedDraw i tile offset shape → s.ctx.capen = true →
    exec i s = .next t → t.response = some (.ok (.word 0)) → exec i t = .next u →
    (State.resolve tile s).selectedFlag ≠ 2 →
      u.ctx.decodecnt = t.ctx.decodecnt ∧ u.refs = t.refs ∧ u.ctx.nrefs = t.ctx.nrefs
        ∧ u.ctx.ntiles = t.ctx.ntiles ∧ u.ctx.npals = t.ctx.npals
        ∧ u.tiles.map TileRecord.sightings = t.tiles.map TileRecord.sightings
        ∧ u.tiles.map TileRecord.pixels = t.tiles.map TileRecord.pixels
        ∧ (u.tiles.map TileRecord.usageSum).sum = (t.tiles.map TileRecord.usageSum).sum + 1
        ∧ u.frequencySum = t.frequencySum + 1

/-! ## Invariants every step keeps -/

/-- The state after reset meets every invariant. That the memories rule R75 leaves unspecified list nothing
over a draw of free values is the model's own form (log entry 5). -/
def Obligations.ResetMeetsInvariants : Prop :=
  State.reset.memoriesOk ∧ State.reset.registersLegal ∧ State.reset.statusConsistent
    ∧ State.reset.slotsConsistent ∧ State.reset.catalogConsistent

/-- Every step keeps the canonical form of every memory and its index range (rules R80, R88). -/
def Obligations.MemoriesStayCanonical : Prop :=
  ∀ s t : State, s.memoriesOk → step s = .next t → t.memoriesOk

/-- Every step keeps the registers legal and `FAULTCODE` consistent with `HALT` (rules R40, R41). -/
def Obligations.ContextStaysLegal : Prop :=
  ∀ s t : State, s.registersLegal → s.statusConsistent → step s = .next t →
    t.registersLegal ∧ t.statusConsistent

/-- Every step keeps every flag of the tile cache true to the slot's bytes (rules R36, R192, R198). -/
def Obligations.SlotsStayConsistent : Prop :=
  ∀ s t : State, s.slotsConsistent → step s = .next t → t.slotsConsistent

/-- Every step keeps the invariants of the catalog (rule R282). -/
def Obligations.CatalogStaysConsistent : Prop :=
  ∀ s t : State, s.catalogConsistent → step s = .next t → t.catalogConsistent

/-! ## Rules of the whole machine -/

/-- Every command ends with one response: `OK` with the value rule R118 names, or `FAULT` with the code
that `STATUS` then holds (rules R118, R302). -/
def Obligations.EveryCommandResponds : Prop :=
  ∀ (i : Instr) (s : State), ∃ t, exec i s = .next t
    ∧ ((∃ v, t.response = some (.ok v) ∧ answers i s t v
          ∧ (i ≠ .sysRst → t.ctx.status.halt = s.ctx.status.halt
            ∧ t.ctx.status.faultCode = s.ctx.status.faultCode))
      ∨ ∃ c, t.response = some (.fault c) ∧ t.ctx.status.halt = true
          ∧ t.ctx.status.faultCode = c.num)

/-- No command writes `VRAM`, `PAL`, `DCM`, `LMD`, the parameters or the host's moves; only SYS.RST
writes `BCAP`; only a drawing command writes a screen or depth cell (rules R30 to R35, R80). -/
def Obligations.CommandsKeepInputs : Prop :=
  ∀ (i : Instr) (s t : State), exec i s = .next t →
    s.sameInputs t ∧ (i ≠ .sysRst → t.bcap = s.bcap)
      ∧ (draws i = false → t.sMain = s.sMain ∧ t.zMain = s.zMain ∧ t.sSub = s.sSub
        ∧ t.zSub = s.zSub ∧ t.freeCount = s.freeCount)
      ∧ (draws i = true → s.samePeer t)

/-- Between session resets no record is removed: keys, ids and references are only appended (rules R63,
R281, R282). -/
def Obligations.CatalogOnlyGrows : Prop :=
  ∀ (i : Instr) (s t : State), exec i s = .next t → i ≠ .csReset → i ≠ .sysRst →
    (s.tiles.map fun r => (r.id, r.pixels, r.palsize))
        <+: (t.tiles.map fun r => (r.id, r.pixels, r.palsize))
      ∧ (s.pals.map fun r => (r.id, r.colors, r.size)) <+: (t.pals.map fun r => (r.id, r.colors, r.size))
      ∧ s.refs <+: t.refs

/-- With `CAPEN` = 0 no drawing result depends on CaptureStore: whatever the catalog holds, the command
does the same and leaves the catalog as it was (rule R314). -/
def Obligations.CaptureOffDrawsAlike : Prop :=
  ∀ (i : Instr) (s c t : State), draws i = true → s.ctx.capen = false → exec i s = .next t →
    exec i (s.withCatalogOf c) = .next (t.withCatalogOf c)
end

