-- ==== Sys2Proof/Laws/Memory.lean ====
section
/-! SUPPORT. The laws of the cell memory: what a read after a write gives, and that every write keeps the
canonical form and the index range. -/

namespace Sys2Proof.Machine

namespace MemoryLaws

variable {w : Nat}

theorem listedAt_insert (l : List (Nat × BitVec w)) (a b : Nat) (v : BitVec w) :
    listedAt (insertCell l a v) b = if b = a then some v else listedAt l b := by
  induction l with
  | nil =>
    simp only [insertCell, listedAt]
    split <;> split <;> simp_all
  | cons c t ih =>
    obtain ⟨k, u⟩ := c
    by_cases h : b = a
    · subst h
      simp only [insertCell]
      split
      · simp [listedAt]
      · split
        · simp [listedAt]
        · next h => simp [listedAt, Ne.symm h, ih]
    · simp only [insertCell, h, if_false] at ih ⊢
      split
      · simp [listedAt, Ne.symm h]
      · split
        · next h' => subst h'; simp [listedAt, Ne.symm h]
        · simp [listedAt, ih]

theorem listedAt_without (l : List (Nat × BitVec w)) (a b : Nat) :
    listedAt (l.filter fun c => decide (c.1 ≠ a)) b = if b = a then none else listedAt l b := by
  induction l with
  | nil => simp [listedAt]
  | cons c t ih =>
    obtain ⟨k, u⟩ := c
    by_cases hk : k = a
    · subst hk
      simp only [ne_eq, not_true_eq_false, decide_false, Bool.false_eq_true, not_false_eq_true,
        List.filter_cons_of_neg, listedAt]
      rw [ih]
      split
      · rfl
      · next h => simp [Ne.symm h]
    · simp only [ne_eq, hk, not_false_eq_true, decide_true, List.filter_cons_of_pos, listedAt, ih]
      split
      · next h => subst h; simp [hk]
      · rfl

@[simp] theorem write_fill (m : Memory w) (a : Nat) (v : BitVec w) :
    (Memory.write m a v).fill = m.fill := rfl

/-- A fill that hides a value gives it at every index. -/
theorem cell_of_hides {f : Fill} {v : BitVec w} (h : f.hides v = true) (a : Nat) : f.cell w a = v := by
  cases f with
  | zero => exact (of_decide_eq_true h).symm
  | free d => cases h

/-- A read after a write to the same cell gives the value written. -/
@[simp] theorem read_write_same (m : Memory w) (a : Nat) (v : BitVec w) :
    Memory.read (Memory.write m a v) a = v := by
  simp only [Memory.read, Memory.write]
  split
  · next x h =>
    split at h
    · rw [listedAt_without] at h; simp at h
    · simpa [listedAt_insert] using h.symm
  · next h =>
    split at h
    · next hv => exact cell_of_hides hv a
    · simp [listedAt_insert] at h

/-- A write leaves every other cell alone. -/
theorem read_write_other (m : Memory w) {a b : Nat} (v : BitVec w) (h : b ≠ a) :
    Memory.read (Memory.write m a v) b = Memory.read m b := by
  have : listedAt (Memory.write m a v).cells b = listedAt m.cells b := by
    simp only [Memory.write]
    split
    · rw [listedAt_without]; simp [h]
    · simp [listedAt_insert, h]
  simp [Memory.read, this]

theorem read_write (m : Memory w) (a b : Nat) (v : BitVec w) :
    Memory.read (Memory.write m a v) b = if b = a then v else Memory.read m b := by
  split
  · next h => subst h; simp
  · next h => exact read_write_other m v h

@[simp] theorem read_zeros (a : Nat) : Memory.read (Memory.zeros : Memory w) a = 0 := rfl

@[simp] theorem read_drawn (n a : Nat) :
    Memory.read (Memory.drawn n : Memory w) a = Config.freeCell w n a := rfl

/-! ## Several cells -/

theorem read_writeMany_outside (m : Memory w) (a b : Nat) (vs : List (BitVec w))
    (h : b < a ∨ a + vs.length ≤ b) :
    Memory.read (Memory.writeMany m a vs) b = Memory.read m b := by
  induction vs generalizing m a with
  | nil => rfl
  | cons v vs ih =>
    simp only [List.length_cons] at h
    simp only [Memory.writeMany]
    rw [ih _ _ (by omega), read_write_other _ _ (by omega)]

theorem read_writeMany_inside (m : Memory w) (a k : Nat) (vs : List (BitVec w)) (h : k < vs.length) :
    Memory.read (Memory.writeMany m a vs) (a + k) = vs[k] := by
  induction vs generalizing m a k with
  | nil => simp at h
  | cons v vs ih =>
    simp only [Memory.writeMany]
    cases k with
    | zero => rw [read_writeMany_outside _ _ _ _ (by omega)]; simp
    | succ k =>
      have h' : k < vs.length := by simpa using h
      have : a + (k + 1) = a + 1 + k := by omega
      rw [this, ih _ _ _ h']; simp

/-! ## The canonical form -/

theorem indexesRise_iff (l : List (Nat × BitVec w)) :
    indexesRise l = true ↔ l.Pairwise (fun a b => a.1 < b.1) := by
  induction l with
  | nil => simp [indexesRise]
  | cons c t ih =>
    cases t with
    | nil => simp [indexesRise]
    | cons d t =>
      simp only [indexesRise, Bool.and_eq_true, decide_eq_true_eq, ih, List.pairwise_cons,
        List.mem_cons]
      constructor
      · rintro ⟨h, h1, h2⟩
        refine ⟨?_, h1, h2⟩
        rintro x (rfl | hx)
        · exact h
        · exact Nat.lt_trans h (h1 x hx)
      · rintro ⟨h, h1, h2⟩
        exact ⟨h d (Or.inl rfl), h1, h2⟩

theorem wf_iff (m : Memory w) :
    Memory.wf m = true ↔
      m.cells.Pairwise (fun a b => a.1 < b.1) ∧ ∀ c ∈ m.cells, m.fill.hides c.2 = false := by
  simp [Memory.wf, indexesRise_iff, List.all_eq_true]

theorem below_iff (n : Nat) (m : Memory w) :
    Memory.below n m = true ↔ ∀ c ∈ m.cells, c.1 < n := by
  simp [Memory.below, List.all_eq_true]

theorem mem_insert {l : List (Nat × BitVec w)} {a : Nat} {v : BitVec w} {c : Nat × BitVec w}
    (h : c ∈ insertCell l a v) : c = (a, v) ∨ c ∈ l := by
  induction l with
  | nil => simpa [insertCell] using h
  | cons d t ih =>
    obtain ⟨k, u⟩ := d
    simp only [insertCell] at h
    split at h
    · simpa using h
    · split at h
      · rcases List.mem_cons.1 h with h | h
        · exact .inl h
        · exact .inr (by simp [h])
      · rcases List.mem_cons.1 h with h | h
        · exact .inr (by simp [h])
        · rcases ih h with h | h
          · exact .inl h
          · exact .inr (by simp [h])

theorem insert_pairwise {l : List (Nat × BitVec w)} (a : Nat) (v : BitVec w)
    (h : l.Pairwise (fun a b => a.1 < b.1)) :
    (insertCell l a v).Pairwise (fun a b => a.1 < b.1) := by
  induction l with
  | nil => simp [insertCell]
  | cons d t ih =>
    obtain ⟨k, u⟩ := d
    rw [List.pairwise_cons] at h
    obtain ⟨h1, h2⟩ := h
    simp only [insertCell]
    split
    · next hk =>
      rw [List.pairwise_cons, List.pairwise_cons]
      refine ⟨?_, h1, h2⟩
      intro x hx
      rcases List.mem_cons.1 hx with rfl | hx
      · exact hk
      · exact Nat.lt_trans hk (h1 x hx)
    · split
      · next hk =>
        subst hk
        rw [List.pairwise_cons]
        exact ⟨h1, h2⟩
      · next hk1 hk2 =>
        rw [List.pairwise_cons]
        refine ⟨?_, ih h2⟩
        intro x hx
        rcases mem_insert hx with rfl | hx
        · exact Nat.lt_of_le_of_ne (Nat.le_of_not_lt hk1) (Ne.symm hk2)
        · exact h1 x hx

/-- A write keeps the canonical form. -/
theorem write_wf {m : Memory w} (a : Nat) (v : BitVec w) (h : Memory.wf m = true) :
    Memory.wf (Memory.write m a v) = true := by
  rw [wf_iff] at h ⊢
  simp only [Memory.write]
  split
  · exact ⟨h.1.filter _, fun c hc => h.2 c (List.mem_filter.1 hc).1⟩
  · next hv =>
    refine ⟨insert_pairwise a v h.1, fun c hc => ?_⟩
    rcases mem_insert hc with rfl | hc
    · simpa using hv
    · exact h.2 c hc

/-- A write inside the range keeps the range. -/
theorem write_below {m : Memory w} {n a : Nat} (v : BitVec w) (ha : a < n)
    (h : Memory.below n m = true) : Memory.below n (Memory.write m a v) = true := by
  rw [below_iff] at h ⊢
  simp only [Memory.write]
  split
  · exact fun c hc => h c (List.mem_filter.1 hc).1
  · intro c hc
    rcases mem_insert hc with rfl | hc
    · exact ha
    · exact h c hc

theorem writeMany_wf {m : Memory w} (a : Nat) (vs : List (BitVec w)) (h : Memory.wf m = true) :
    Memory.wf (Memory.writeMany m a vs) = true := by
  induction vs generalizing m a with
  | nil => exact h
  | cons v vs ih => exact ih _ (write_wf a v h)

theorem writeMany_below {m : Memory w} {n a : Nat} (vs : List (BitVec w)) (ha : a + vs.length ≤ n)
    (h : Memory.below n m = true) : Memory.below n (Memory.writeMany m a vs) = true := by
  induction vs generalizing m a with
  | nil => exact h
  | cons v vs ih =>
    simp only [List.length_cons] at ha
    exact ih (by omega) (write_below v (by omega) h)

@[simp] theorem wf_zeros : Memory.wf (Memory.zeros : Memory w) = true := rfl

@[simp] theorem wf_drawn (n : Nat) : Memory.wf (Memory.drawn n : Memory w) = true := rfl

@[simp] theorem below_zeros (n : Nat) : Memory.below n (Memory.zeros : Memory w) = true := rfl

@[simp] theorem below_drawn (n d : Nat) : Memory.below n (Memory.drawn d : Memory w) = true := rfl

theorem bcapReset_wf : Memory.wf bcapReset = true := by decide +kernel

theorem bcapReset_below : Memory.below 63 bcapReset = true := by decide +kernel

/-- The reset table is `min(s, 31)` (rule R34). -/
theorem read_bcapReset : ∀ k < 63, (Memory.read bcapReset k).toNat = min k 31 := by decide +kernel

end MemoryLaws

end Sys2Proof.Machine
end

