-- ==== Sys2Proof/Laws/State.lean ====
section
/-! SUPPORT. One lemma for each field each update leaves alone, so that no proof unfolds a record update. -/

namespace Sys2Proof.Machine

section

variable (s : State)

/-! ### `State.done` -/

@[simp] theorem State.done_cfg (v : RespValue) : (State.done v s).cfg = s.cfg := rfl

@[simp] theorem State.done_ctx (v : RespValue) : (State.done v s).ctx = s.ctx := rfl

@[simp] theorem State.done_vram (v : RespValue) : (State.done v s).vram = s.vram := rfl

@[simp] theorem State.done_pal (v : RespValue) : (State.done v s).pal = s.pal := rfl

@[simp] theorem State.done_dcm (v : RespValue) : (State.done v s).dcm = s.dcm := rfl

@[simp] theorem State.done_lmd (v : RespValue) : (State.done v s).lmd = s.lmd := rfl

@[simp] theorem State.done_bcap (v : RespValue) : (State.done v s).bcap = s.bcap := rfl

@[simp] theorem State.done_sMain (v : RespValue) : (State.done v s).sMain = s.sMain := rfl

@[simp] theorem State.done_zMain (v : RespValue) : (State.done v s).zMain = s.zMain := rfl

@[simp] theorem State.done_sSub (v : RespValue) : (State.done v s).sSub = s.sSub := rfl

@[simp] theorem State.done_zSub (v : RespValue) : (State.done v s).zSub = s.zSub := rfl

@[simp] theorem State.done_tcbuf (v : RespValue) : (State.done v s).tcbuf = s.tcbuf := rfl

@[simp] theorem State.done_tcflag (v : RespValue) : (State.done v s).tcflag = s.tcflag := rfl

@[simp] theorem State.done_tiles (v : RespValue) : (State.done v s).tiles = s.tiles := rfl

@[simp] theorem State.done_pals (v : RespValue) : (State.done v s).pals = s.pals := rfl

@[simp] theorem State.done_refs (v : RespValue) : (State.done v s).refs = s.refs := rfl

@[simp] theorem State.done_moves (v : RespValue) : (State.done v s).moves = s.moves := rfl

@[simp] theorem State.done_memOut (v : RespValue) : (State.done v s).memOut = s.memOut := rfl

@[simp] theorem State.done_freeCount (v : RespValue) : (State.done v s).freeCount = s.freeCount := rfl

/-! ### `State.raise` -/

@[simp] theorem State.raise_cfg (c : FaultCode) : (State.raise c s).cfg = s.cfg := rfl

@[simp] theorem State.raise_vram (c : FaultCode) : (State.raise c s).vram = s.vram := rfl

@[simp] theorem State.raise_pal (c : FaultCode) : (State.raise c s).pal = s.pal := rfl

@[simp] theorem State.raise_dcm (c : FaultCode) : (State.raise c s).dcm = s.dcm := rfl

@[simp] theorem State.raise_lmd (c : FaultCode) : (State.raise c s).lmd = s.lmd := rfl

@[simp] theorem State.raise_bcap (c : FaultCode) : (State.raise c s).bcap = s.bcap := rfl

@[simp] theorem State.raise_sMain (c : FaultCode) : (State.raise c s).sMain = s.sMain := rfl

@[simp] theorem State.raise_zMain (c : FaultCode) : (State.raise c s).zMain = s.zMain := rfl

@[simp] theorem State.raise_sSub (c : FaultCode) : (State.raise c s).sSub = s.sSub := rfl

@[simp] theorem State.raise_zSub (c : FaultCode) : (State.raise c s).zSub = s.zSub := rfl

@[simp] theorem State.raise_tcbuf (c : FaultCode) : (State.raise c s).tcbuf = s.tcbuf := rfl

@[simp] theorem State.raise_tcflag (c : FaultCode) : (State.raise c s).tcflag = s.tcflag := rfl

@[simp] theorem State.raise_tiles (c : FaultCode) : (State.raise c s).tiles = s.tiles := rfl

@[simp] theorem State.raise_pals (c : FaultCode) : (State.raise c s).pals = s.pals := rfl

@[simp] theorem State.raise_refs (c : FaultCode) : (State.raise c s).refs = s.refs := rfl

@[simp] theorem State.raise_moves (c : FaultCode) : (State.raise c s).moves = s.moves := rfl

@[simp] theorem State.raise_memOut (c : FaultCode) : (State.raise c s).memOut = s.memOut := rfl

@[simp] theorem State.raise_freeCount (c : FaultCode) : (State.raise c s).freeCount = s.freeCount := rfl

@[simp] theorem State.raise_ctx_target (c : FaultCode) :
    (State.raise c s).ctx.target = s.ctx.target := rfl

@[simp] theorem State.raise_ctx_clip (c : FaultCode) :
    (State.raise c s).ctx.clip = s.ctx.clip := rfl

@[simp] theorem State.raise_ctx_fixedcol (c : FaultCode) :
    (State.raise c s).ctx.fixedcol = s.ctx.fixedcol := rfl

@[simp] theorem State.raise_ctx_rsel (c : FaultCode) :
    (State.raise c s).ctx.rsel = s.ctx.rsel := rfl

@[simp] theorem State.raise_ctx_tileaddr (c : FaultCode) :
    (State.raise c s).ctx.tileaddr = s.ctx.tileaddr := rfl

@[simp] theorem State.raise_ctx_namesel (c : FaultCode) :
    (State.raise c s).ctx.namesel = s.ctx.namesel := rfl

@[simp] theorem State.raise_ctx_bpp (c : FaultCode) :
    (State.raise c s).ctx.bpp = s.ctx.bpp := rfl

@[simp] theorem State.raise_ctx_palshift (c : FaultCode) :
    (State.raise c s).ctx.palshift = s.ctx.palshift := rfl

@[simp] theorem State.raise_ctx_palmask (c : FaultCode) :
    (State.raise c s).ctx.palmask = s.ctx.palmask := rfl

@[simp] theorem State.raise_ctx_startpal (c : FaultCode) :
    (State.raise c s).ctx.startpal = s.ctx.startpal := rfl

@[simp] theorem State.raise_ctx_direct (c : FaultCode) :
    (State.raise c s).ctx.direct = s.ctx.direct := rfl

@[simp] theorem State.raise_ctx_iline (c : FaultCode) :
    (State.raise c s).ctx.iline = s.ctx.iline := rfl

@[simp] theorem State.raise_ctx_z1 (c : FaultCode) :
    (State.raise c s).ctx.z1 = s.ctx.z1 := rfl

@[simp] theorem State.raise_ctx_z2 (c : FaultCode) :
    (State.raise c s).ctx.z2 = s.ctx.z2 := rfl

@[simp] theorem State.raise_ctx_starty (c : FaultCode) :
    (State.raise c s).ctx.starty = s.ctx.starty := rfl

@[simp] theorem State.raise_ctx_endy (c : FaultCode) :
    (State.raise c s).ctx.endy = s.ctx.endy := rfl

@[simp] theorem State.raise_ctx_fbd (c : FaultCode) :
    (State.raise c s).ctx.fbd = s.ctx.fbd := rfl

@[simp] theorem State.raise_ctx_m7repeat (c : FaultCode) :
    (State.raise c s).ctx.m7repeat = s.ctx.m7repeat := rfl

@[simp] theorem State.raise_ctx_hmosaic (c : FaultCode) :
    (State.raise c s).ctx.hmosaic = s.ctx.hmosaic := rfl

@[simp] theorem State.raise_ctx_vmosaic (c : FaultCode) :
    (State.raise c s).ctx.vmosaic = s.ctx.vmosaic := rfl

@[simp] theorem State.raise_ctx_mosaicstart (c : FaultCode) :
    (State.raise c s).ctx.mosaicstart = s.ctx.mosaicstart := rfl

@[simp] theorem State.raise_ctx_origin (c : FaultCode) :
    (State.raise c s).ctx.origin = s.ctx.origin := rfl

@[simp] theorem State.raise_ctx_ppl (c : FaultCode) :
    (State.raise c s).ctx.ppl = s.ctx.ppl := rfl

@[simp] theorem State.raise_ctx_rppl (c : FaultCode) :
    (State.raise c s).ctx.rppl = s.ctx.rppl := rfl

@[simp] theorem State.raise_ctx_capen (c : FaultCode) :
    (State.raise c s).ctx.capen = s.ctx.capen := rfl

@[simp] theorem State.raise_ctx_frame (c : FaultCode) :
    (State.raise c s).ctx.frame = s.ctx.frame := rfl

@[simp] theorem State.raise_ctx_shotid (c : FaultCode) :
    (State.raise c s).ctx.shotid = s.ctx.shotid := rfl

@[simp] theorem State.raise_ctx_ntiles (c : FaultCode) :
    (State.raise c s).ctx.ntiles = s.ctx.ntiles := rfl

@[simp] theorem State.raise_ctx_npals (c : FaultCode) :
    (State.raise c s).ctx.npals = s.ctx.npals := rfl

@[simp] theorem State.raise_ctx_nrefs (c : FaultCode) :
    (State.raise c s).ctx.nrefs = s.ctx.nrefs := rfl

@[simp] theorem State.raise_ctx_scsel (c : FaultCode) :
    (State.raise c s).ctx.scsel = s.ctx.scsel := rfl

@[simp] theorem State.raise_ctx_tcsel (c : FaultCode) :
    (State.raise c s).ctx.tcsel = s.ctx.tcsel := rfl

@[simp] theorem State.raise_ctx_decodecnt (c : FaultCode) :
    (State.raise c s).ctx.decodecnt = s.ctx.decodecnt := rfl

/-! ### `State.softReset` -/

@[simp] theorem State.softReset_cfg : (State.softReset s).cfg = s.cfg := rfl

@[simp] theorem State.softReset_vram : (State.softReset s).vram = s.vram := rfl

@[simp] theorem State.softReset_pal : (State.softReset s).pal = s.pal := rfl

@[simp] theorem State.softReset_dcm : (State.softReset s).dcm = s.dcm := rfl

@[simp] theorem State.softReset_lmd : (State.softReset s).lmd = s.lmd := rfl

@[simp] theorem State.softReset_sMain : (State.softReset s).sMain = s.sMain := rfl

@[simp] theorem State.softReset_zMain : (State.softReset s).zMain = s.zMain := rfl

@[simp] theorem State.softReset_sSub : (State.softReset s).sSub = s.sSub := rfl

@[simp] theorem State.softReset_zSub : (State.softReset s).zSub = s.zSub := rfl

@[simp] theorem State.softReset_tcbuf : (State.softReset s).tcbuf = s.tcbuf := rfl

@[simp] theorem State.softReset_moves : (State.softReset s).moves = s.moves := rfl

@[simp] theorem State.softReset_response : (State.softReset s).response = s.response := rfl

@[simp] theorem State.softReset_memOut : (State.softReset s).memOut = s.memOut := rfl

@[simp] theorem State.softReset_freeCount : (State.softReset s).freeCount = s.freeCount := rfl

/-! ### `State.setCapreq` -/

@[simp] theorem State.setCapreq_cfg (b : Bool) : (State.setCapreq b s).cfg = s.cfg := rfl

@[simp] theorem State.setCapreq_vram (b : Bool) : (State.setCapreq b s).vram = s.vram := rfl

@[simp] theorem State.setCapreq_pal (b : Bool) : (State.setCapreq b s).pal = s.pal := rfl

@[simp] theorem State.setCapreq_dcm (b : Bool) : (State.setCapreq b s).dcm = s.dcm := rfl

@[simp] theorem State.setCapreq_lmd (b : Bool) : (State.setCapreq b s).lmd = s.lmd := rfl

@[simp] theorem State.setCapreq_bcap (b : Bool) : (State.setCapreq b s).bcap = s.bcap := rfl

@[simp] theorem State.setCapreq_sMain (b : Bool) : (State.setCapreq b s).sMain = s.sMain := rfl

@[simp] theorem State.setCapreq_zMain (b : Bool) : (State.setCapreq b s).zMain = s.zMain := rfl

@[simp] theorem State.setCapreq_sSub (b : Bool) : (State.setCapreq b s).sSub = s.sSub := rfl

@[simp] theorem State.setCapreq_zSub (b : Bool) : (State.setCapreq b s).zSub = s.zSub := rfl

@[simp] theorem State.setCapreq_tcbuf (b : Bool) : (State.setCapreq b s).tcbuf = s.tcbuf := rfl

@[simp] theorem State.setCapreq_tcflag (b : Bool) : (State.setCapreq b s).tcflag = s.tcflag := rfl

@[simp] theorem State.setCapreq_tiles (b : Bool) : (State.setCapreq b s).tiles = s.tiles := rfl

@[simp] theorem State.setCapreq_pals (b : Bool) : (State.setCapreq b s).pals = s.pals := rfl

@[simp] theorem State.setCapreq_refs (b : Bool) : (State.setCapreq b s).refs = s.refs := rfl

@[simp] theorem State.setCapreq_moves (b : Bool) : (State.setCapreq b s).moves = s.moves := rfl

@[simp] theorem State.setCapreq_response (b : Bool) : (State.setCapreq b s).response = s.response := rfl

@[simp] theorem State.setCapreq_memOut (b : Bool) : (State.setCapreq b s).memOut = s.memOut := rfl

@[simp] theorem State.setCapreq_freeCount (b : Bool) : (State.setCapreq b s).freeCount = s.freeCount := rfl

@[simp] theorem State.setCapreq_ctx_target (b : Bool) :
    (State.setCapreq b s).ctx.target = s.ctx.target := rfl

@[simp] theorem State.setCapreq_ctx_clip (b : Bool) :
    (State.setCapreq b s).ctx.clip = s.ctx.clip := rfl

@[simp] theorem State.setCapreq_ctx_fixedcol (b : Bool) :
    (State.setCapreq b s).ctx.fixedcol = s.ctx.fixedcol := rfl

@[simp] theorem State.setCapreq_ctx_rsel (b : Bool) :
    (State.setCapreq b s).ctx.rsel = s.ctx.rsel := rfl

@[simp] theorem State.setCapreq_ctx_tileaddr (b : Bool) :
    (State.setCapreq b s).ctx.tileaddr = s.ctx.tileaddr := rfl

@[simp] theorem State.setCapreq_ctx_namesel (b : Bool) :
    (State.setCapreq b s).ctx.namesel = s.ctx.namesel := rfl

@[simp] theorem State.setCapreq_ctx_bpp (b : Bool) :
    (State.setCapreq b s).ctx.bpp = s.ctx.bpp := rfl

@[simp] theorem State.setCapreq_ctx_palshift (b : Bool) :
    (State.setCapreq b s).ctx.palshift = s.ctx.palshift := rfl

@[simp] theorem State.setCapreq_ctx_palmask (b : Bool) :
    (State.setCapreq b s).ctx.palmask = s.ctx.palmask := rfl

@[simp] theorem State.setCapreq_ctx_startpal (b : Bool) :
    (State.setCapreq b s).ctx.startpal = s.ctx.startpal := rfl

@[simp] theorem State.setCapreq_ctx_direct (b : Bool) :
    (State.setCapreq b s).ctx.direct = s.ctx.direct := rfl

@[simp] theorem State.setCapreq_ctx_iline (b : Bool) :
    (State.setCapreq b s).ctx.iline = s.ctx.iline := rfl

@[simp] theorem State.setCapreq_ctx_z1 (b : Bool) :
    (State.setCapreq b s).ctx.z1 = s.ctx.z1 := rfl

@[simp] theorem State.setCapreq_ctx_z2 (b : Bool) :
    (State.setCapreq b s).ctx.z2 = s.ctx.z2 := rfl

@[simp] theorem State.setCapreq_ctx_starty (b : Bool) :
    (State.setCapreq b s).ctx.starty = s.ctx.starty := rfl

@[simp] theorem State.setCapreq_ctx_endy (b : Bool) :
    (State.setCapreq b s).ctx.endy = s.ctx.endy := rfl

@[simp] theorem State.setCapreq_ctx_fbd (b : Bool) :
    (State.setCapreq b s).ctx.fbd = s.ctx.fbd := rfl

@[simp] theorem State.setCapreq_ctx_m7repeat (b : Bool) :
    (State.setCapreq b s).ctx.m7repeat = s.ctx.m7repeat := rfl

@[simp] theorem State.setCapreq_ctx_hmosaic (b : Bool) :
    (State.setCapreq b s).ctx.hmosaic = s.ctx.hmosaic := rfl

@[simp] theorem State.setCapreq_ctx_vmosaic (b : Bool) :
    (State.setCapreq b s).ctx.vmosaic = s.ctx.vmosaic := rfl

@[simp] theorem State.setCapreq_ctx_mosaicstart (b : Bool) :
    (State.setCapreq b s).ctx.mosaicstart = s.ctx.mosaicstart := rfl

@[simp] theorem State.setCapreq_ctx_origin (b : Bool) :
    (State.setCapreq b s).ctx.origin = s.ctx.origin := rfl

@[simp] theorem State.setCapreq_ctx_ppl (b : Bool) :
    (State.setCapreq b s).ctx.ppl = s.ctx.ppl := rfl

@[simp] theorem State.setCapreq_ctx_rppl (b : Bool) :
    (State.setCapreq b s).ctx.rppl = s.ctx.rppl := rfl

@[simp] theorem State.setCapreq_ctx_capen (b : Bool) :
    (State.setCapreq b s).ctx.capen = s.ctx.capen := rfl

@[simp] theorem State.setCapreq_ctx_frame (b : Bool) :
    (State.setCapreq b s).ctx.frame = s.ctx.frame := rfl

@[simp] theorem State.setCapreq_ctx_shotid (b : Bool) :
    (State.setCapreq b s).ctx.shotid = s.ctx.shotid := rfl

@[simp] theorem State.setCapreq_ctx_ntiles (b : Bool) :
    (State.setCapreq b s).ctx.ntiles = s.ctx.ntiles := rfl

@[simp] theorem State.setCapreq_ctx_npals (b : Bool) :
    (State.setCapreq b s).ctx.npals = s.ctx.npals := rfl

@[simp] theorem State.setCapreq_ctx_nrefs (b : Bool) :
    (State.setCapreq b s).ctx.nrefs = s.ctx.nrefs := rfl

@[simp] theorem State.setCapreq_ctx_scsel (b : Bool) :
    (State.setCapreq b s).ctx.scsel = s.ctx.scsel := rfl

@[simp] theorem State.setCapreq_ctx_tcsel (b : Bool) :
    (State.setCapreq b s).ctx.tcsel = s.ctx.tcsel := rfl

@[simp] theorem State.setCapreq_ctx_decodecnt (b : Bool) :
    (State.setCapreq b s).ctx.decodecnt = s.ctx.decodecnt := rfl

/-! ### `State.clearSlotFlags` -/

@[simp] theorem State.clearSlotFlags_cfg : (State.clearSlotFlags s).cfg = s.cfg := rfl

@[simp] theorem State.clearSlotFlags_ctx : (State.clearSlotFlags s).ctx = s.ctx := rfl

@[simp] theorem State.clearSlotFlags_vram : (State.clearSlotFlags s).vram = s.vram := rfl

@[simp] theorem State.clearSlotFlags_pal : (State.clearSlotFlags s).pal = s.pal := rfl

@[simp] theorem State.clearSlotFlags_dcm : (State.clearSlotFlags s).dcm = s.dcm := rfl

@[simp] theorem State.clearSlotFlags_lmd : (State.clearSlotFlags s).lmd = s.lmd := rfl

@[simp] theorem State.clearSlotFlags_bcap : (State.clearSlotFlags s).bcap = s.bcap := rfl

@[simp] theorem State.clearSlotFlags_sMain : (State.clearSlotFlags s).sMain = s.sMain := rfl

@[simp] theorem State.clearSlotFlags_zMain : (State.clearSlotFlags s).zMain = s.zMain := rfl

@[simp] theorem State.clearSlotFlags_sSub : (State.clearSlotFlags s).sSub = s.sSub := rfl

@[simp] theorem State.clearSlotFlags_zSub : (State.clearSlotFlags s).zSub = s.zSub := rfl

@[simp] theorem State.clearSlotFlags_tcbuf : (State.clearSlotFlags s).tcbuf = s.tcbuf := rfl

@[simp] theorem State.clearSlotFlags_tiles : (State.clearSlotFlags s).tiles = s.tiles := rfl

@[simp] theorem State.clearSlotFlags_pals : (State.clearSlotFlags s).pals = s.pals := rfl

@[simp] theorem State.clearSlotFlags_refs : (State.clearSlotFlags s).refs = s.refs := rfl

@[simp] theorem State.clearSlotFlags_moves : (State.clearSlotFlags s).moves = s.moves := rfl

@[simp] theorem State.clearSlotFlags_response : (State.clearSlotFlags s).response = s.response := rfl

@[simp] theorem State.clearSlotFlags_memOut : (State.clearSlotFlags s).memOut = s.memOut := rfl

@[simp] theorem State.clearSlotFlags_freeCount : (State.clearSlotFlags s).freeCount = s.freeCount := rfl

/-! ### `State.setScsel` -/

@[simp] theorem State.setScsel_cfg (c : Scsel) : (State.setScsel c s).cfg = s.cfg := rfl

@[simp] theorem State.setScsel_vram (c : Scsel) : (State.setScsel c s).vram = s.vram := rfl

@[simp] theorem State.setScsel_pal (c : Scsel) : (State.setScsel c s).pal = s.pal := rfl

@[simp] theorem State.setScsel_dcm (c : Scsel) : (State.setScsel c s).dcm = s.dcm := rfl

@[simp] theorem State.setScsel_lmd (c : Scsel) : (State.setScsel c s).lmd = s.lmd := rfl

@[simp] theorem State.setScsel_bcap (c : Scsel) : (State.setScsel c s).bcap = s.bcap := rfl

@[simp] theorem State.setScsel_sMain (c : Scsel) : (State.setScsel c s).sMain = s.sMain := rfl

@[simp] theorem State.setScsel_zMain (c : Scsel) : (State.setScsel c s).zMain = s.zMain := rfl

@[simp] theorem State.setScsel_sSub (c : Scsel) : (State.setScsel c s).sSub = s.sSub := rfl

@[simp] theorem State.setScsel_zSub (c : Scsel) : (State.setScsel c s).zSub = s.zSub := rfl

@[simp] theorem State.setScsel_tcbuf (c : Scsel) : (State.setScsel c s).tcbuf = s.tcbuf := rfl

@[simp] theorem State.setScsel_tcflag (c : Scsel) : (State.setScsel c s).tcflag = s.tcflag := rfl

@[simp] theorem State.setScsel_tiles (c : Scsel) : (State.setScsel c s).tiles = s.tiles := rfl

@[simp] theorem State.setScsel_pals (c : Scsel) : (State.setScsel c s).pals = s.pals := rfl

@[simp] theorem State.setScsel_refs (c : Scsel) : (State.setScsel c s).refs = s.refs := rfl

@[simp] theorem State.setScsel_moves (c : Scsel) : (State.setScsel c s).moves = s.moves := rfl

@[simp] theorem State.setScsel_response (c : Scsel) : (State.setScsel c s).response = s.response := rfl

@[simp] theorem State.setScsel_memOut (c : Scsel) : (State.setScsel c s).memOut = s.memOut := rfl

@[simp] theorem State.setScsel_freeCount (c : Scsel) : (State.setScsel c s).freeCount = s.freeCount := rfl

@[simp] theorem State.setScsel_ctx_status (c : Scsel) :
    (State.setScsel c s).ctx.status = s.ctx.status := rfl

@[simp] theorem State.setScsel_ctx_target (c : Scsel) :
    (State.setScsel c s).ctx.target = s.ctx.target := rfl

@[simp] theorem State.setScsel_ctx_clip (c : Scsel) :
    (State.setScsel c s).ctx.clip = s.ctx.clip := rfl

@[simp] theorem State.setScsel_ctx_fixedcol (c : Scsel) :
    (State.setScsel c s).ctx.fixedcol = s.ctx.fixedcol := rfl

@[simp] theorem State.setScsel_ctx_rsel (c : Scsel) :
    (State.setScsel c s).ctx.rsel = s.ctx.rsel := rfl

@[simp] theorem State.setScsel_ctx_tileaddr (c : Scsel) :
    (State.setScsel c s).ctx.tileaddr = s.ctx.tileaddr := rfl

@[simp] theorem State.setScsel_ctx_namesel (c : Scsel) :
    (State.setScsel c s).ctx.namesel = s.ctx.namesel := rfl

@[simp] theorem State.setScsel_ctx_bpp (c : Scsel) :
    (State.setScsel c s).ctx.bpp = s.ctx.bpp := rfl

@[simp] theorem State.setScsel_ctx_palshift (c : Scsel) :
    (State.setScsel c s).ctx.palshift = s.ctx.palshift := rfl

@[simp] theorem State.setScsel_ctx_palmask (c : Scsel) :
    (State.setScsel c s).ctx.palmask = s.ctx.palmask := rfl

@[simp] theorem State.setScsel_ctx_startpal (c : Scsel) :
    (State.setScsel c s).ctx.startpal = s.ctx.startpal := rfl

@[simp] theorem State.setScsel_ctx_direct (c : Scsel) :
    (State.setScsel c s).ctx.direct = s.ctx.direct := rfl

@[simp] theorem State.setScsel_ctx_iline (c : Scsel) :
    (State.setScsel c s).ctx.iline = s.ctx.iline := rfl

@[simp] theorem State.setScsel_ctx_z1 (c : Scsel) :
    (State.setScsel c s).ctx.z1 = s.ctx.z1 := rfl

@[simp] theorem State.setScsel_ctx_z2 (c : Scsel) :
    (State.setScsel c s).ctx.z2 = s.ctx.z2 := rfl

@[simp] theorem State.setScsel_ctx_starty (c : Scsel) :
    (State.setScsel c s).ctx.starty = s.ctx.starty := rfl

@[simp] theorem State.setScsel_ctx_endy (c : Scsel) :
    (State.setScsel c s).ctx.endy = s.ctx.endy := rfl

@[simp] theorem State.setScsel_ctx_fbd (c : Scsel) :
    (State.setScsel c s).ctx.fbd = s.ctx.fbd := rfl

@[simp] theorem State.setScsel_ctx_m7repeat (c : Scsel) :
    (State.setScsel c s).ctx.m7repeat = s.ctx.m7repeat := rfl

@[simp] theorem State.setScsel_ctx_hmosaic (c : Scsel) :
    (State.setScsel c s).ctx.hmosaic = s.ctx.hmosaic := rfl

@[simp] theorem State.setScsel_ctx_vmosaic (c : Scsel) :
    (State.setScsel c s).ctx.vmosaic = s.ctx.vmosaic := rfl

@[simp] theorem State.setScsel_ctx_mosaicstart (c : Scsel) :
    (State.setScsel c s).ctx.mosaicstart = s.ctx.mosaicstart := rfl

@[simp] theorem State.setScsel_ctx_origin (c : Scsel) :
    (State.setScsel c s).ctx.origin = s.ctx.origin := rfl

@[simp] theorem State.setScsel_ctx_ppl (c : Scsel) :
    (State.setScsel c s).ctx.ppl = s.ctx.ppl := rfl

@[simp] theorem State.setScsel_ctx_rppl (c : Scsel) :
    (State.setScsel c s).ctx.rppl = s.ctx.rppl := rfl

@[simp] theorem State.setScsel_ctx_capen (c : Scsel) :
    (State.setScsel c s).ctx.capen = s.ctx.capen := rfl

@[simp] theorem State.setScsel_ctx_frame (c : Scsel) :
    (State.setScsel c s).ctx.frame = s.ctx.frame := rfl

@[simp] theorem State.setScsel_ctx_shotid (c : Scsel) :
    (State.setScsel c s).ctx.shotid = s.ctx.shotid := rfl

@[simp] theorem State.setScsel_ctx_ntiles (c : Scsel) :
    (State.setScsel c s).ctx.ntiles = s.ctx.ntiles := rfl

@[simp] theorem State.setScsel_ctx_npals (c : Scsel) :
    (State.setScsel c s).ctx.npals = s.ctx.npals := rfl

@[simp] theorem State.setScsel_ctx_nrefs (c : Scsel) :
    (State.setScsel c s).ctx.nrefs = s.ctx.nrefs := rfl

@[simp] theorem State.setScsel_ctx_tcsel (c : Scsel) :
    (State.setScsel c s).ctx.tcsel = s.ctx.tcsel := rfl

@[simp] theorem State.setScsel_ctx_decodecnt (c : Scsel) :
    (State.setScsel c s).ctx.decodecnt = s.ctx.decodecnt := rfl

/-! ### `State.selectPalette` -/

@[simp] theorem State.selectPalette_cfg (t : Half) : (State.selectPalette t s).cfg = s.cfg := rfl

@[simp] theorem State.selectPalette_vram (t : Half) : (State.selectPalette t s).vram = s.vram := rfl

@[simp] theorem State.selectPalette_pal (t : Half) : (State.selectPalette t s).pal = s.pal := rfl

@[simp] theorem State.selectPalette_dcm (t : Half) : (State.selectPalette t s).dcm = s.dcm := rfl

@[simp] theorem State.selectPalette_lmd (t : Half) : (State.selectPalette t s).lmd = s.lmd := rfl

@[simp] theorem State.selectPalette_bcap (t : Half) : (State.selectPalette t s).bcap = s.bcap := rfl

@[simp] theorem State.selectPalette_sMain (t : Half) : (State.selectPalette t s).sMain = s.sMain := rfl

@[simp] theorem State.selectPalette_zMain (t : Half) : (State.selectPalette t s).zMain = s.zMain := rfl

@[simp] theorem State.selectPalette_sSub (t : Half) : (State.selectPalette t s).sSub = s.sSub := rfl

@[simp] theorem State.selectPalette_zSub (t : Half) : (State.selectPalette t s).zSub = s.zSub := rfl

@[simp] theorem State.selectPalette_tcbuf (t : Half) : (State.selectPalette t s).tcbuf = s.tcbuf := rfl

@[simp] theorem State.selectPalette_tcflag (t : Half) : (State.selectPalette t s).tcflag = s.tcflag := rfl

@[simp] theorem State.selectPalette_tiles (t : Half) : (State.selectPalette t s).tiles = s.tiles := rfl

@[simp] theorem State.selectPalette_pals (t : Half) : (State.selectPalette t s).pals = s.pals := rfl

@[simp] theorem State.selectPalette_refs (t : Half) : (State.selectPalette t s).refs = s.refs := rfl

@[simp] theorem State.selectPalette_moves (t : Half) : (State.selectPalette t s).moves = s.moves := rfl

@[simp] theorem State.selectPalette_response (t : Half) : (State.selectPalette t s).response = s.response := rfl

@[simp] theorem State.selectPalette_memOut (t : Half) : (State.selectPalette t s).memOut = s.memOut := rfl

@[simp] theorem State.selectPalette_freeCount (t : Half) : (State.selectPalette t s).freeCount = s.freeCount := rfl

@[simp] theorem State.selectPalette_ctx_status (t : Half) :
    (State.selectPalette t s).ctx.status = s.ctx.status := rfl

@[simp] theorem State.selectPalette_ctx_target (t : Half) :
    (State.selectPalette t s).ctx.target = s.ctx.target := rfl

@[simp] theorem State.selectPalette_ctx_clip (t : Half) :
    (State.selectPalette t s).ctx.clip = s.ctx.clip := rfl

@[simp] theorem State.selectPalette_ctx_fixedcol (t : Half) :
    (State.selectPalette t s).ctx.fixedcol = s.ctx.fixedcol := rfl

@[simp] theorem State.selectPalette_ctx_rsel (t : Half) :
    (State.selectPalette t s).ctx.rsel = s.ctx.rsel := rfl

@[simp] theorem State.selectPalette_ctx_tileaddr (t : Half) :
    (State.selectPalette t s).ctx.tileaddr = s.ctx.tileaddr := rfl

@[simp] theorem State.selectPalette_ctx_namesel (t : Half) :
    (State.selectPalette t s).ctx.namesel = s.ctx.namesel := rfl

@[simp] theorem State.selectPalette_ctx_bpp (t : Half) :
    (State.selectPalette t s).ctx.bpp = s.ctx.bpp := rfl

@[simp] theorem State.selectPalette_ctx_palshift (t : Half) :
    (State.selectPalette t s).ctx.palshift = s.ctx.palshift := rfl

@[simp] theorem State.selectPalette_ctx_palmask (t : Half) :
    (State.selectPalette t s).ctx.palmask = s.ctx.palmask := rfl

@[simp] theorem State.selectPalette_ctx_startpal (t : Half) :
    (State.selectPalette t s).ctx.startpal = s.ctx.startpal := rfl

@[simp] theorem State.selectPalette_ctx_direct (t : Half) :
    (State.selectPalette t s).ctx.direct = s.ctx.direct := rfl

@[simp] theorem State.selectPalette_ctx_iline (t : Half) :
    (State.selectPalette t s).ctx.iline = s.ctx.iline := rfl

@[simp] theorem State.selectPalette_ctx_z1 (t : Half) :
    (State.selectPalette t s).ctx.z1 = s.ctx.z1 := rfl

@[simp] theorem State.selectPalette_ctx_z2 (t : Half) :
    (State.selectPalette t s).ctx.z2 = s.ctx.z2 := rfl

@[simp] theorem State.selectPalette_ctx_starty (t : Half) :
    (State.selectPalette t s).ctx.starty = s.ctx.starty := rfl

@[simp] theorem State.selectPalette_ctx_endy (t : Half) :
    (State.selectPalette t s).ctx.endy = s.ctx.endy := rfl

@[simp] theorem State.selectPalette_ctx_fbd (t : Half) :
    (State.selectPalette t s).ctx.fbd = s.ctx.fbd := rfl

@[simp] theorem State.selectPalette_ctx_m7repeat (t : Half) :
    (State.selectPalette t s).ctx.m7repeat = s.ctx.m7repeat := rfl

@[simp] theorem State.selectPalette_ctx_hmosaic (t : Half) :
    (State.selectPalette t s).ctx.hmosaic = s.ctx.hmosaic := rfl

@[simp] theorem State.selectPalette_ctx_vmosaic (t : Half) :
    (State.selectPalette t s).ctx.vmosaic = s.ctx.vmosaic := rfl

@[simp] theorem State.selectPalette_ctx_mosaicstart (t : Half) :
    (State.selectPalette t s).ctx.mosaicstart = s.ctx.mosaicstart := rfl

@[simp] theorem State.selectPalette_ctx_origin (t : Half) :
    (State.selectPalette t s).ctx.origin = s.ctx.origin := rfl

@[simp] theorem State.selectPalette_ctx_ppl (t : Half) :
    (State.selectPalette t s).ctx.ppl = s.ctx.ppl := rfl

@[simp] theorem State.selectPalette_ctx_rppl (t : Half) :
    (State.selectPalette t s).ctx.rppl = s.ctx.rppl := rfl

@[simp] theorem State.selectPalette_ctx_capen (t : Half) :
    (State.selectPalette t s).ctx.capen = s.ctx.capen := rfl

@[simp] theorem State.selectPalette_ctx_frame (t : Half) :
    (State.selectPalette t s).ctx.frame = s.ctx.frame := rfl

@[simp] theorem State.selectPalette_ctx_shotid (t : Half) :
    (State.selectPalette t s).ctx.shotid = s.ctx.shotid := rfl

@[simp] theorem State.selectPalette_ctx_ntiles (t : Half) :
    (State.selectPalette t s).ctx.ntiles = s.ctx.ntiles := rfl

@[simp] theorem State.selectPalette_ctx_npals (t : Half) :
    (State.selectPalette t s).ctx.npals = s.ctx.npals := rfl

@[simp] theorem State.selectPalette_ctx_nrefs (t : Half) :
    (State.selectPalette t s).ctx.nrefs = s.ctx.nrefs := rfl

@[simp] theorem State.selectPalette_ctx_tcsel (t : Half) :
    (State.selectPalette t s).ctx.tcsel = s.ctx.tcsel := rfl

@[simp] theorem State.selectPalette_ctx_decodecnt (t : Half) :
    (State.selectPalette t s).ctx.decodecnt = s.ctx.decodecnt := rfl

/-! ### `State.setRsel` -/

@[simp] theorem State.setRsel_cfg (m : MathMode) (a : AddrMode) : (State.setRsel m a s).cfg = s.cfg := rfl

@[simp] theorem State.setRsel_vram (m : MathMode) (a : AddrMode) : (State.setRsel m a s).vram = s.vram := rfl

@[simp] theorem State.setRsel_pal (m : MathMode) (a : AddrMode) : (State.setRsel m a s).pal = s.pal := rfl

@[simp] theorem State.setRsel_dcm (m : MathMode) (a : AddrMode) : (State.setRsel m a s).dcm = s.dcm := rfl

@[simp] theorem State.setRsel_lmd (m : MathMode) (a : AddrMode) : (State.setRsel m a s).lmd = s.lmd := rfl

@[simp] theorem State.setRsel_bcap (m : MathMode) (a : AddrMode) : (State.setRsel m a s).bcap = s.bcap := rfl

@[simp] theorem State.setRsel_sMain (m : MathMode) (a : AddrMode) : (State.setRsel m a s).sMain = s.sMain := rfl

@[simp] theorem State.setRsel_zMain (m : MathMode) (a : AddrMode) : (State.setRsel m a s).zMain = s.zMain := rfl

@[simp] theorem State.setRsel_sSub (m : MathMode) (a : AddrMode) : (State.setRsel m a s).sSub = s.sSub := rfl

@[simp] theorem State.setRsel_zSub (m : MathMode) (a : AddrMode) : (State.setRsel m a s).zSub = s.zSub := rfl

@[simp] theorem State.setRsel_tcbuf (m : MathMode) (a : AddrMode) : (State.setRsel m a s).tcbuf = s.tcbuf := rfl

@[simp] theorem State.setRsel_tcflag (m : MathMode) (a : AddrMode) : (State.setRsel m a s).tcflag = s.tcflag := rfl

@[simp] theorem State.setRsel_tiles (m : MathMode) (a : AddrMode) : (State.setRsel m a s).tiles = s.tiles := rfl

@[simp] theorem State.setRsel_pals (m : MathMode) (a : AddrMode) : (State.setRsel m a s).pals = s.pals := rfl

@[simp] theorem State.setRsel_refs (m : MathMode) (a : AddrMode) : (State.setRsel m a s).refs = s.refs := rfl

@[simp] theorem State.setRsel_moves (m : MathMode) (a : AddrMode) : (State.setRsel m a s).moves = s.moves := rfl

@[simp] theorem State.setRsel_response (m : MathMode) (a : AddrMode) : (State.setRsel m a s).response = s.response := rfl

@[simp] theorem State.setRsel_memOut (m : MathMode) (a : AddrMode) : (State.setRsel m a s).memOut = s.memOut := rfl

@[simp] theorem State.setRsel_freeCount (m : MathMode) (a : AddrMode) : (State.setRsel m a s).freeCount = s.freeCount := rfl

@[simp] theorem State.setRsel_ctx_status (m : MathMode) (a : AddrMode) :
    (State.setRsel m a s).ctx.status = s.ctx.status := rfl

@[simp] theorem State.setRsel_ctx_target (m : MathMode) (a : AddrMode) :
    (State.setRsel m a s).ctx.target = s.ctx.target := rfl

@[simp] theorem State.setRsel_ctx_clip (m : MathMode) (a : AddrMode) :
    (State.setRsel m a s).ctx.clip = s.ctx.clip := rfl

@[simp] theorem State.setRsel_ctx_fixedcol (m : MathMode) (a : AddrMode) :
    (State.setRsel m a s).ctx.fixedcol = s.ctx.fixedcol := rfl

@[simp] theorem State.setRsel_ctx_tileaddr (m : MathMode) (a : AddrMode) :
    (State.setRsel m a s).ctx.tileaddr = s.ctx.tileaddr := rfl

@[simp] theorem State.setRsel_ctx_namesel (m : MathMode) (a : AddrMode) :
    (State.setRsel m a s).ctx.namesel = s.ctx.namesel := rfl

@[simp] theorem State.setRsel_ctx_bpp (m : MathMode) (a : AddrMode) :
    (State.setRsel m a s).ctx.bpp = s.ctx.bpp := rfl

@[simp] theorem State.setRsel_ctx_palshift (m : MathMode) (a : AddrMode) :
    (State.setRsel m a s).ctx.palshift = s.ctx.palshift := rfl

@[simp] theorem State.setRsel_ctx_palmask (m : MathMode) (a : AddrMode) :
    (State.setRsel m a s).ctx.palmask = s.ctx.palmask := rfl

@[simp] theorem State.setRsel_ctx_startpal (m : MathMode) (a : AddrMode) :
    (State.setRsel m a s).ctx.startpal = s.ctx.startpal := rfl

@[simp] theorem State.setRsel_ctx_direct (m : MathMode) (a : AddrMode) :
    (State.setRsel m a s).ctx.direct = s.ctx.direct := rfl

@[simp] theorem State.setRsel_ctx_iline (m : MathMode) (a : AddrMode) :
    (State.setRsel m a s).ctx.iline = s.ctx.iline := rfl

@[simp] theorem State.setRsel_ctx_z1 (m : MathMode) (a : AddrMode) :
    (State.setRsel m a s).ctx.z1 = s.ctx.z1 := rfl

@[simp] theorem State.setRsel_ctx_z2 (m : MathMode) (a : AddrMode) :
    (State.setRsel m a s).ctx.z2 = s.ctx.z2 := rfl

@[simp] theorem State.setRsel_ctx_starty (m : MathMode) (a : AddrMode) :
    (State.setRsel m a s).ctx.starty = s.ctx.starty := rfl

@[simp] theorem State.setRsel_ctx_endy (m : MathMode) (a : AddrMode) :
    (State.setRsel m a s).ctx.endy = s.ctx.endy := rfl

@[simp] theorem State.setRsel_ctx_fbd (m : MathMode) (a : AddrMode) :
    (State.setRsel m a s).ctx.fbd = s.ctx.fbd := rfl

@[simp] theorem State.setRsel_ctx_m7repeat (m : MathMode) (a : AddrMode) :
    (State.setRsel m a s).ctx.m7repeat = s.ctx.m7repeat := rfl

@[simp] theorem State.setRsel_ctx_hmosaic (m : MathMode) (a : AddrMode) :
    (State.setRsel m a s).ctx.hmosaic = s.ctx.hmosaic := rfl

@[simp] theorem State.setRsel_ctx_vmosaic (m : MathMode) (a : AddrMode) :
    (State.setRsel m a s).ctx.vmosaic = s.ctx.vmosaic := rfl

@[simp] theorem State.setRsel_ctx_mosaicstart (m : MathMode) (a : AddrMode) :
    (State.setRsel m a s).ctx.mosaicstart = s.ctx.mosaicstart := rfl

@[simp] theorem State.setRsel_ctx_origin (m : MathMode) (a : AddrMode) :
    (State.setRsel m a s).ctx.origin = s.ctx.origin := rfl

@[simp] theorem State.setRsel_ctx_ppl (m : MathMode) (a : AddrMode) :
    (State.setRsel m a s).ctx.ppl = s.ctx.ppl := rfl

@[simp] theorem State.setRsel_ctx_rppl (m : MathMode) (a : AddrMode) :
    (State.setRsel m a s).ctx.rppl = s.ctx.rppl := rfl

@[simp] theorem State.setRsel_ctx_capen (m : MathMode) (a : AddrMode) :
    (State.setRsel m a s).ctx.capen = s.ctx.capen := rfl

@[simp] theorem State.setRsel_ctx_frame (m : MathMode) (a : AddrMode) :
    (State.setRsel m a s).ctx.frame = s.ctx.frame := rfl

@[simp] theorem State.setRsel_ctx_shotid (m : MathMode) (a : AddrMode) :
    (State.setRsel m a s).ctx.shotid = s.ctx.shotid := rfl

@[simp] theorem State.setRsel_ctx_ntiles (m : MathMode) (a : AddrMode) :
    (State.setRsel m a s).ctx.ntiles = s.ctx.ntiles := rfl

@[simp] theorem State.setRsel_ctx_npals (m : MathMode) (a : AddrMode) :
    (State.setRsel m a s).ctx.npals = s.ctx.npals := rfl

@[simp] theorem State.setRsel_ctx_nrefs (m : MathMode) (a : AddrMode) :
    (State.setRsel m a s).ctx.nrefs = s.ctx.nrefs := rfl

@[simp] theorem State.setRsel_ctx_scsel (m : MathMode) (a : AddrMode) :
    (State.setRsel m a s).ctx.scsel = s.ctx.scsel := rfl

@[simp] theorem State.setRsel_ctx_tcsel (m : MathMode) (a : AddrMode) :
    (State.setRsel m a s).ctx.tcsel = s.ctx.tcsel := rfl

@[simp] theorem State.setRsel_ctx_decodecnt (m : MathMode) (a : AddrMode) :
    (State.setRsel m a s).ctx.decodecnt = s.ctx.decodecnt := rfl

/-! ### `State.writeReg` -/

@[simp] theorem State.writeReg_cfg (r : CtxReg) (v : Word) : (State.writeReg r v s).cfg = s.cfg := rfl

@[simp] theorem State.writeReg_vram (r : CtxReg) (v : Word) : (State.writeReg r v s).vram = s.vram := rfl

@[simp] theorem State.writeReg_pal (r : CtxReg) (v : Word) : (State.writeReg r v s).pal = s.pal := rfl

@[simp] theorem State.writeReg_dcm (r : CtxReg) (v : Word) : (State.writeReg r v s).dcm = s.dcm := rfl

@[simp] theorem State.writeReg_lmd (r : CtxReg) (v : Word) : (State.writeReg r v s).lmd = s.lmd := rfl

@[simp] theorem State.writeReg_bcap (r : CtxReg) (v : Word) : (State.writeReg r v s).bcap = s.bcap := rfl

@[simp] theorem State.writeReg_sMain (r : CtxReg) (v : Word) : (State.writeReg r v s).sMain = s.sMain := rfl

@[simp] theorem State.writeReg_zMain (r : CtxReg) (v : Word) : (State.writeReg r v s).zMain = s.zMain := rfl

@[simp] theorem State.writeReg_sSub (r : CtxReg) (v : Word) : (State.writeReg r v s).sSub = s.sSub := rfl

@[simp] theorem State.writeReg_zSub (r : CtxReg) (v : Word) : (State.writeReg r v s).zSub = s.zSub := rfl

@[simp] theorem State.writeReg_tcbuf (r : CtxReg) (v : Word) : (State.writeReg r v s).tcbuf = s.tcbuf := rfl

@[simp] theorem State.writeReg_tcflag (r : CtxReg) (v : Word) : (State.writeReg r v s).tcflag = s.tcflag := rfl

@[simp] theorem State.writeReg_tiles (r : CtxReg) (v : Word) : (State.writeReg r v s).tiles = s.tiles := rfl

@[simp] theorem State.writeReg_pals (r : CtxReg) (v : Word) : (State.writeReg r v s).pals = s.pals := rfl

@[simp] theorem State.writeReg_refs (r : CtxReg) (v : Word) : (State.writeReg r v s).refs = s.refs := rfl

@[simp] theorem State.writeReg_moves (r : CtxReg) (v : Word) : (State.writeReg r v s).moves = s.moves := rfl

@[simp] theorem State.writeReg_response (r : CtxReg) (v : Word) : (State.writeReg r v s).response = s.response := rfl

@[simp] theorem State.writeReg_memOut (r : CtxReg) (v : Word) : (State.writeReg r v s).memOut = s.memOut := rfl

@[simp] theorem State.writeReg_freeCount (r : CtxReg) (v : Word) : (State.writeReg r v s).freeCount = s.freeCount := rfl

/-! ### `State.frameStart` -/

@[simp] theorem State.frameStart_cfg : (State.frameStart s).cfg = s.cfg := rfl

@[simp] theorem State.frameStart_vram : (State.frameStart s).vram = s.vram := rfl

@[simp] theorem State.frameStart_pal : (State.frameStart s).pal = s.pal := rfl

@[simp] theorem State.frameStart_dcm : (State.frameStart s).dcm = s.dcm := rfl

@[simp] theorem State.frameStart_lmd : (State.frameStart s).lmd = s.lmd := rfl

@[simp] theorem State.frameStart_bcap : (State.frameStart s).bcap = s.bcap := rfl

@[simp] theorem State.frameStart_sMain : (State.frameStart s).sMain = s.sMain := rfl

@[simp] theorem State.frameStart_zMain : (State.frameStart s).zMain = s.zMain := rfl

@[simp] theorem State.frameStart_sSub : (State.frameStart s).sSub = s.sSub := rfl

@[simp] theorem State.frameStart_zSub : (State.frameStart s).zSub = s.zSub := rfl

@[simp] theorem State.frameStart_tcbuf : (State.frameStart s).tcbuf = s.tcbuf := rfl

@[simp] theorem State.frameStart_tiles : (State.frameStart s).tiles = s.tiles := rfl

@[simp] theorem State.frameStart_pals : (State.frameStart s).pals = s.pals := rfl

@[simp] theorem State.frameStart_refs : (State.frameStart s).refs = s.refs := rfl

@[simp] theorem State.frameStart_moves : (State.frameStart s).moves = s.moves := rfl

@[simp] theorem State.frameStart_response : (State.frameStart s).response = s.response := rfl

@[simp] theorem State.frameStart_memOut : (State.frameStart s).memOut = s.memOut := rfl

@[simp] theorem State.frameStart_freeCount : (State.frameStart s).freeCount = s.freeCount := rfl

@[simp] theorem State.frameStart_ctx_status :
    (State.frameStart s).ctx.status = s.ctx.status := rfl

@[simp] theorem State.frameStart_ctx_target :
    (State.frameStart s).ctx.target = s.ctx.target := rfl

@[simp] theorem State.frameStart_ctx_clip :
    (State.frameStart s).ctx.clip = s.ctx.clip := rfl

@[simp] theorem State.frameStart_ctx_fixedcol :
    (State.frameStart s).ctx.fixedcol = s.ctx.fixedcol := rfl

@[simp] theorem State.frameStart_ctx_rsel :
    (State.frameStart s).ctx.rsel = s.ctx.rsel := rfl

@[simp] theorem State.frameStart_ctx_tileaddr :
    (State.frameStart s).ctx.tileaddr = s.ctx.tileaddr := rfl

@[simp] theorem State.frameStart_ctx_namesel :
    (State.frameStart s).ctx.namesel = s.ctx.namesel := rfl

@[simp] theorem State.frameStart_ctx_bpp :
    (State.frameStart s).ctx.bpp = s.ctx.bpp := rfl

@[simp] theorem State.frameStart_ctx_palshift :
    (State.frameStart s).ctx.palshift = s.ctx.palshift := rfl

@[simp] theorem State.frameStart_ctx_palmask :
    (State.frameStart s).ctx.palmask = s.ctx.palmask := rfl

@[simp] theorem State.frameStart_ctx_startpal :
    (State.frameStart s).ctx.startpal = s.ctx.startpal := rfl

@[simp] theorem State.frameStart_ctx_direct :
    (State.frameStart s).ctx.direct = s.ctx.direct := rfl

@[simp] theorem State.frameStart_ctx_iline :
    (State.frameStart s).ctx.iline = s.ctx.iline := rfl

@[simp] theorem State.frameStart_ctx_z1 :
    (State.frameStart s).ctx.z1 = s.ctx.z1 := rfl

@[simp] theorem State.frameStart_ctx_z2 :
    (State.frameStart s).ctx.z2 = s.ctx.z2 := rfl

@[simp] theorem State.frameStart_ctx_starty :
    (State.frameStart s).ctx.starty = s.ctx.starty := rfl

@[simp] theorem State.frameStart_ctx_endy :
    (State.frameStart s).ctx.endy = s.ctx.endy := rfl

@[simp] theorem State.frameStart_ctx_fbd :
    (State.frameStart s).ctx.fbd = s.ctx.fbd := rfl

@[simp] theorem State.frameStart_ctx_m7repeat :
    (State.frameStart s).ctx.m7repeat = s.ctx.m7repeat := rfl

@[simp] theorem State.frameStart_ctx_hmosaic :
    (State.frameStart s).ctx.hmosaic = s.ctx.hmosaic := rfl

@[simp] theorem State.frameStart_ctx_vmosaic :
    (State.frameStart s).ctx.vmosaic = s.ctx.vmosaic := rfl

@[simp] theorem State.frameStart_ctx_mosaicstart :
    (State.frameStart s).ctx.mosaicstart = s.ctx.mosaicstart := rfl

@[simp] theorem State.frameStart_ctx_origin :
    (State.frameStart s).ctx.origin = s.ctx.origin := rfl

@[simp] theorem State.frameStart_ctx_ppl :
    (State.frameStart s).ctx.ppl = s.ctx.ppl := rfl

@[simp] theorem State.frameStart_ctx_rppl :
    (State.frameStart s).ctx.rppl = s.ctx.rppl := rfl

@[simp] theorem State.frameStart_ctx_capen :
    (State.frameStart s).ctx.capen = s.ctx.capen := rfl

@[simp] theorem State.frameStart_ctx_shotid :
    (State.frameStart s).ctx.shotid = s.ctx.shotid := rfl

@[simp] theorem State.frameStart_ctx_ntiles :
    (State.frameStart s).ctx.ntiles = s.ctx.ntiles := rfl

@[simp] theorem State.frameStart_ctx_npals :
    (State.frameStart s).ctx.npals = s.ctx.npals := rfl

@[simp] theorem State.frameStart_ctx_nrefs :
    (State.frameStart s).ctx.nrefs = s.ctx.nrefs := rfl

@[simp] theorem State.frameStart_ctx_scsel :
    (State.frameStart s).ctx.scsel = s.ctx.scsel := rfl

@[simp] theorem State.frameStart_ctx_decodecnt :
    (State.frameStart s).ctx.decodecnt = s.ctx.decodecnt := rfl

/-! ### `State.sessionReset` -/

@[simp] theorem State.sessionReset_cfg : (State.sessionReset s).cfg = s.cfg := rfl

@[simp] theorem State.sessionReset_vram : (State.sessionReset s).vram = s.vram := rfl

@[simp] theorem State.sessionReset_pal : (State.sessionReset s).pal = s.pal := rfl

@[simp] theorem State.sessionReset_dcm : (State.sessionReset s).dcm = s.dcm := rfl

@[simp] theorem State.sessionReset_lmd : (State.sessionReset s).lmd = s.lmd := rfl

@[simp] theorem State.sessionReset_bcap : (State.sessionReset s).bcap = s.bcap := rfl

@[simp] theorem State.sessionReset_sMain : (State.sessionReset s).sMain = s.sMain := rfl

@[simp] theorem State.sessionReset_zMain : (State.sessionReset s).zMain = s.zMain := rfl

@[simp] theorem State.sessionReset_sSub : (State.sessionReset s).sSub = s.sSub := rfl

@[simp] theorem State.sessionReset_zSub : (State.sessionReset s).zSub = s.zSub := rfl

@[simp] theorem State.sessionReset_tcbuf : (State.sessionReset s).tcbuf = s.tcbuf := rfl

@[simp] theorem State.sessionReset_tcflag : (State.sessionReset s).tcflag = s.tcflag := rfl

@[simp] theorem State.sessionReset_moves : (State.sessionReset s).moves = s.moves := rfl

@[simp] theorem State.sessionReset_response : (State.sessionReset s).response = s.response := rfl

@[simp] theorem State.sessionReset_memOut : (State.sessionReset s).memOut = s.memOut := rfl

@[simp] theorem State.sessionReset_freeCount : (State.sessionReset s).freeCount = s.freeCount := rfl

@[simp] theorem State.sessionReset_ctx_target :
    (State.sessionReset s).ctx.target = s.ctx.target := rfl

@[simp] theorem State.sessionReset_ctx_clip :
    (State.sessionReset s).ctx.clip = s.ctx.clip := rfl

@[simp] theorem State.sessionReset_ctx_fixedcol :
    (State.sessionReset s).ctx.fixedcol = s.ctx.fixedcol := rfl

@[simp] theorem State.sessionReset_ctx_rsel :
    (State.sessionReset s).ctx.rsel = s.ctx.rsel := rfl

@[simp] theorem State.sessionReset_ctx_tileaddr :
    (State.sessionReset s).ctx.tileaddr = s.ctx.tileaddr := rfl

@[simp] theorem State.sessionReset_ctx_namesel :
    (State.sessionReset s).ctx.namesel = s.ctx.namesel := rfl

@[simp] theorem State.sessionReset_ctx_bpp :
    (State.sessionReset s).ctx.bpp = s.ctx.bpp := rfl

@[simp] theorem State.sessionReset_ctx_palshift :
    (State.sessionReset s).ctx.palshift = s.ctx.palshift := rfl

@[simp] theorem State.sessionReset_ctx_palmask :
    (State.sessionReset s).ctx.palmask = s.ctx.palmask := rfl

@[simp] theorem State.sessionReset_ctx_startpal :
    (State.sessionReset s).ctx.startpal = s.ctx.startpal := rfl

@[simp] theorem State.sessionReset_ctx_direct :
    (State.sessionReset s).ctx.direct = s.ctx.direct := rfl

@[simp] theorem State.sessionReset_ctx_iline :
    (State.sessionReset s).ctx.iline = s.ctx.iline := rfl

@[simp] theorem State.sessionReset_ctx_z1 :
    (State.sessionReset s).ctx.z1 = s.ctx.z1 := rfl

@[simp] theorem State.sessionReset_ctx_z2 :
    (State.sessionReset s).ctx.z2 = s.ctx.z2 := rfl

@[simp] theorem State.sessionReset_ctx_starty :
    (State.sessionReset s).ctx.starty = s.ctx.starty := rfl

@[simp] theorem State.sessionReset_ctx_endy :
    (State.sessionReset s).ctx.endy = s.ctx.endy := rfl

@[simp] theorem State.sessionReset_ctx_fbd :
    (State.sessionReset s).ctx.fbd = s.ctx.fbd := rfl

@[simp] theorem State.sessionReset_ctx_m7repeat :
    (State.sessionReset s).ctx.m7repeat = s.ctx.m7repeat := rfl

@[simp] theorem State.sessionReset_ctx_hmosaic :
    (State.sessionReset s).ctx.hmosaic = s.ctx.hmosaic := rfl

@[simp] theorem State.sessionReset_ctx_vmosaic :
    (State.sessionReset s).ctx.vmosaic = s.ctx.vmosaic := rfl

@[simp] theorem State.sessionReset_ctx_mosaicstart :
    (State.sessionReset s).ctx.mosaicstart = s.ctx.mosaicstart := rfl

@[simp] theorem State.sessionReset_ctx_origin :
    (State.sessionReset s).ctx.origin = s.ctx.origin := rfl

@[simp] theorem State.sessionReset_ctx_ppl :
    (State.sessionReset s).ctx.ppl = s.ctx.ppl := rfl

@[simp] theorem State.sessionReset_ctx_rppl :
    (State.sessionReset s).ctx.rppl = s.ctx.rppl := rfl

@[simp] theorem State.sessionReset_ctx_capen :
    (State.sessionReset s).ctx.capen = s.ctx.capen := rfl

@[simp] theorem State.sessionReset_ctx_frame :
    (State.sessionReset s).ctx.frame = s.ctx.frame := rfl

@[simp] theorem State.sessionReset_ctx_shotid :
    (State.sessionReset s).ctx.shotid = s.ctx.shotid := rfl

@[simp] theorem State.sessionReset_ctx_scsel :
    (State.sessionReset s).ctx.scsel = s.ctx.scsel := rfl

@[simp] theorem State.sessionReset_ctx_tcsel :
    (State.sessionReset s).ctx.tcsel = s.ctx.tcsel := rfl

@[simp] theorem State.sessionReset_ctx_decodecnt :
    (State.sessionReset s).ctx.decodecnt = s.ctx.decodecnt := rfl

/-! ### `State.hostRead` -/

@[simp] theorem State.hostRead_cfg (sp : Space) (i : Nat) : (State.hostRead sp i s).cfg = s.cfg := rfl

@[simp] theorem State.hostRead_ctx (sp : Space) (i : Nat) : (State.hostRead sp i s).ctx = s.ctx := rfl

@[simp] theorem State.hostRead_vram (sp : Space) (i : Nat) : (State.hostRead sp i s).vram = s.vram := rfl

@[simp] theorem State.hostRead_pal (sp : Space) (i : Nat) : (State.hostRead sp i s).pal = s.pal := rfl

@[simp] theorem State.hostRead_dcm (sp : Space) (i : Nat) : (State.hostRead sp i s).dcm = s.dcm := rfl

@[simp] theorem State.hostRead_lmd (sp : Space) (i : Nat) : (State.hostRead sp i s).lmd = s.lmd := rfl

@[simp] theorem State.hostRead_bcap (sp : Space) (i : Nat) : (State.hostRead sp i s).bcap = s.bcap := rfl

@[simp] theorem State.hostRead_sMain (sp : Space) (i : Nat) : (State.hostRead sp i s).sMain = s.sMain := rfl

@[simp] theorem State.hostRead_zMain (sp : Space) (i : Nat) : (State.hostRead sp i s).zMain = s.zMain := rfl

@[simp] theorem State.hostRead_sSub (sp : Space) (i : Nat) : (State.hostRead sp i s).sSub = s.sSub := rfl

@[simp] theorem State.hostRead_zSub (sp : Space) (i : Nat) : (State.hostRead sp i s).zSub = s.zSub := rfl

@[simp] theorem State.hostRead_tcbuf (sp : Space) (i : Nat) : (State.hostRead sp i s).tcbuf = s.tcbuf := rfl

@[simp] theorem State.hostRead_tcflag (sp : Space) (i : Nat) : (State.hostRead sp i s).tcflag = s.tcflag := rfl

@[simp] theorem State.hostRead_tiles (sp : Space) (i : Nat) : (State.hostRead sp i s).tiles = s.tiles := rfl

@[simp] theorem State.hostRead_pals (sp : Space) (i : Nat) : (State.hostRead sp i s).pals = s.pals := rfl

@[simp] theorem State.hostRead_refs (sp : Space) (i : Nat) : (State.hostRead sp i s).refs = s.refs := rfl

@[simp] theorem State.hostRead_moves (sp : Space) (i : Nat) : (State.hostRead sp i s).moves = s.moves := rfl

@[simp] theorem State.hostRead_response (sp : Space) (i : Nat) : (State.hostRead sp i s).response = s.response := rfl

@[simp] theorem State.hostRead_freeCount (sp : Space) (i : Nat) : (State.hostRead sp i s).freeCount = s.freeCount := rfl

/-! ### `State.decodeSlot` -/

@[simp] theorem State.decodeSlot_cfg (b : Bpp) (f : Bool) (tn : BitVec 12) (a : Nat) : (State.decodeSlot b f tn a s).cfg = s.cfg := rfl

@[simp] theorem State.decodeSlot_vram (b : Bpp) (f : Bool) (tn : BitVec 12) (a : Nat) : (State.decodeSlot b f tn a s).vram = s.vram := rfl

@[simp] theorem State.decodeSlot_pal (b : Bpp) (f : Bool) (tn : BitVec 12) (a : Nat) : (State.decodeSlot b f tn a s).pal = s.pal := rfl

@[simp] theorem State.decodeSlot_dcm (b : Bpp) (f : Bool) (tn : BitVec 12) (a : Nat) : (State.decodeSlot b f tn a s).dcm = s.dcm := rfl

@[simp] theorem State.decodeSlot_lmd (b : Bpp) (f : Bool) (tn : BitVec 12) (a : Nat) : (State.decodeSlot b f tn a s).lmd = s.lmd := rfl

@[simp] theorem State.decodeSlot_bcap (b : Bpp) (f : Bool) (tn : BitVec 12) (a : Nat) : (State.decodeSlot b f tn a s).bcap = s.bcap := rfl

@[simp] theorem State.decodeSlot_sMain (b : Bpp) (f : Bool) (tn : BitVec 12) (a : Nat) : (State.decodeSlot b f tn a s).sMain = s.sMain := rfl

@[simp] theorem State.decodeSlot_zMain (b : Bpp) (f : Bool) (tn : BitVec 12) (a : Nat) : (State.decodeSlot b f tn a s).zMain = s.zMain := rfl

@[simp] theorem State.decodeSlot_sSub (b : Bpp) (f : Bool) (tn : BitVec 12) (a : Nat) : (State.decodeSlot b f tn a s).sSub = s.sSub := rfl

@[simp] theorem State.decodeSlot_zSub (b : Bpp) (f : Bool) (tn : BitVec 12) (a : Nat) : (State.decodeSlot b f tn a s).zSub = s.zSub := rfl

@[simp] theorem State.decodeSlot_tiles (b : Bpp) (f : Bool) (tn : BitVec 12) (a : Nat) : (State.decodeSlot b f tn a s).tiles = s.tiles := rfl

@[simp] theorem State.decodeSlot_pals (b : Bpp) (f : Bool) (tn : BitVec 12) (a : Nat) : (State.decodeSlot b f tn a s).pals = s.pals := rfl

@[simp] theorem State.decodeSlot_refs (b : Bpp) (f : Bool) (tn : BitVec 12) (a : Nat) : (State.decodeSlot b f tn a s).refs = s.refs := rfl

@[simp] theorem State.decodeSlot_moves (b : Bpp) (f : Bool) (tn : BitVec 12) (a : Nat) : (State.decodeSlot b f tn a s).moves = s.moves := rfl

@[simp] theorem State.decodeSlot_response (b : Bpp) (f : Bool) (tn : BitVec 12) (a : Nat) : (State.decodeSlot b f tn a s).response = s.response := rfl

@[simp] theorem State.decodeSlot_memOut (b : Bpp) (f : Bool) (tn : BitVec 12) (a : Nat) : (State.decodeSlot b f tn a s).memOut = s.memOut := rfl

@[simp] theorem State.decodeSlot_freeCount (b : Bpp) (f : Bool) (tn : BitVec 12) (a : Nat) : (State.decodeSlot b f tn a s).freeCount = s.freeCount := rfl

@[simp] theorem State.decodeSlot_ctx_status (b : Bpp) (f : Bool) (tn : BitVec 12) (a : Nat) :
    (State.decodeSlot b f tn a s).ctx.status = s.ctx.status := rfl

@[simp] theorem State.decodeSlot_ctx_target (b : Bpp) (f : Bool) (tn : BitVec 12) (a : Nat) :
    (State.decodeSlot b f tn a s).ctx.target = s.ctx.target := rfl

@[simp] theorem State.decodeSlot_ctx_clip (b : Bpp) (f : Bool) (tn : BitVec 12) (a : Nat) :
    (State.decodeSlot b f tn a s).ctx.clip = s.ctx.clip := rfl

@[simp] theorem State.decodeSlot_ctx_fixedcol (b : Bpp) (f : Bool) (tn : BitVec 12) (a : Nat) :
    (State.decodeSlot b f tn a s).ctx.fixedcol = s.ctx.fixedcol := rfl

@[simp] theorem State.decodeSlot_ctx_rsel (b : Bpp) (f : Bool) (tn : BitVec 12) (a : Nat) :
    (State.decodeSlot b f tn a s).ctx.rsel = s.ctx.rsel := rfl

@[simp] theorem State.decodeSlot_ctx_tileaddr (b : Bpp) (f : Bool) (tn : BitVec 12) (a : Nat) :
    (State.decodeSlot b f tn a s).ctx.tileaddr = s.ctx.tileaddr := rfl

@[simp] theorem State.decodeSlot_ctx_namesel (b : Bpp) (f : Bool) (tn : BitVec 12) (a : Nat) :
    (State.decodeSlot b f tn a s).ctx.namesel = s.ctx.namesel := rfl

@[simp] theorem State.decodeSlot_ctx_bpp (b : Bpp) (f : Bool) (tn : BitVec 12) (a : Nat) :
    (State.decodeSlot b f tn a s).ctx.bpp = s.ctx.bpp := rfl

@[simp] theorem State.decodeSlot_ctx_palshift (b : Bpp) (f : Bool) (tn : BitVec 12) (a : Nat) :
    (State.decodeSlot b f tn a s).ctx.palshift = s.ctx.palshift := rfl

@[simp] theorem State.decodeSlot_ctx_palmask (b : Bpp) (f : Bool) (tn : BitVec 12) (a : Nat) :
    (State.decodeSlot b f tn a s).ctx.palmask = s.ctx.palmask := rfl

@[simp] theorem State.decodeSlot_ctx_startpal (b : Bpp) (f : Bool) (tn : BitVec 12) (a : Nat) :
    (State.decodeSlot b f tn a s).ctx.startpal = s.ctx.startpal := rfl

@[simp] theorem State.decodeSlot_ctx_direct (b : Bpp) (f : Bool) (tn : BitVec 12) (a : Nat) :
    (State.decodeSlot b f tn a s).ctx.direct = s.ctx.direct := rfl

@[simp] theorem State.decodeSlot_ctx_iline (b : Bpp) (f : Bool) (tn : BitVec 12) (a : Nat) :
    (State.decodeSlot b f tn a s).ctx.iline = s.ctx.iline := rfl

@[simp] theorem State.decodeSlot_ctx_z1 (b : Bpp) (f : Bool) (tn : BitVec 12) (a : Nat) :
    (State.decodeSlot b f tn a s).ctx.z1 = s.ctx.z1 := rfl

@[simp] theorem State.decodeSlot_ctx_z2 (b : Bpp) (f : Bool) (tn : BitVec 12) (a : Nat) :
    (State.decodeSlot b f tn a s).ctx.z2 = s.ctx.z2 := rfl

@[simp] theorem State.decodeSlot_ctx_starty (b : Bpp) (f : Bool) (tn : BitVec 12) (a : Nat) :
    (State.decodeSlot b f tn a s).ctx.starty = s.ctx.starty := rfl

@[simp] theorem State.decodeSlot_ctx_endy (b : Bpp) (f : Bool) (tn : BitVec 12) (a : Nat) :
    (State.decodeSlot b f tn a s).ctx.endy = s.ctx.endy := rfl

@[simp] theorem State.decodeSlot_ctx_fbd (b : Bpp) (f : Bool) (tn : BitVec 12) (a : Nat) :
    (State.decodeSlot b f tn a s).ctx.fbd = s.ctx.fbd := rfl

@[simp] theorem State.decodeSlot_ctx_m7repeat (b : Bpp) (f : Bool) (tn : BitVec 12) (a : Nat) :
    (State.decodeSlot b f tn a s).ctx.m7repeat = s.ctx.m7repeat := rfl

@[simp] theorem State.decodeSlot_ctx_hmosaic (b : Bpp) (f : Bool) (tn : BitVec 12) (a : Nat) :
    (State.decodeSlot b f tn a s).ctx.hmosaic = s.ctx.hmosaic := rfl

@[simp] theorem State.decodeSlot_ctx_vmosaic (b : Bpp) (f : Bool) (tn : BitVec 12) (a : Nat) :
    (State.decodeSlot b f tn a s).ctx.vmosaic = s.ctx.vmosaic := rfl

@[simp] theorem State.decodeSlot_ctx_mosaicstart (b : Bpp) (f : Bool) (tn : BitVec 12) (a : Nat) :
    (State.decodeSlot b f tn a s).ctx.mosaicstart = s.ctx.mosaicstart := rfl

@[simp] theorem State.decodeSlot_ctx_origin (b : Bpp) (f : Bool) (tn : BitVec 12) (a : Nat) :
    (State.decodeSlot b f tn a s).ctx.origin = s.ctx.origin := rfl

@[simp] theorem State.decodeSlot_ctx_ppl (b : Bpp) (f : Bool) (tn : BitVec 12) (a : Nat) :
    (State.decodeSlot b f tn a s).ctx.ppl = s.ctx.ppl := rfl

@[simp] theorem State.decodeSlot_ctx_rppl (b : Bpp) (f : Bool) (tn : BitVec 12) (a : Nat) :
    (State.decodeSlot b f tn a s).ctx.rppl = s.ctx.rppl := rfl

@[simp] theorem State.decodeSlot_ctx_capen (b : Bpp) (f : Bool) (tn : BitVec 12) (a : Nat) :
    (State.decodeSlot b f tn a s).ctx.capen = s.ctx.capen := rfl

@[simp] theorem State.decodeSlot_ctx_frame (b : Bpp) (f : Bool) (tn : BitVec 12) (a : Nat) :
    (State.decodeSlot b f tn a s).ctx.frame = s.ctx.frame := rfl

@[simp] theorem State.decodeSlot_ctx_shotid (b : Bpp) (f : Bool) (tn : BitVec 12) (a : Nat) :
    (State.decodeSlot b f tn a s).ctx.shotid = s.ctx.shotid := rfl

@[simp] theorem State.decodeSlot_ctx_ntiles (b : Bpp) (f : Bool) (tn : BitVec 12) (a : Nat) :
    (State.decodeSlot b f tn a s).ctx.ntiles = s.ctx.ntiles := rfl

@[simp] theorem State.decodeSlot_ctx_npals (b : Bpp) (f : Bool) (tn : BitVec 12) (a : Nat) :
    (State.decodeSlot b f tn a s).ctx.npals = s.ctx.npals := rfl

@[simp] theorem State.decodeSlot_ctx_nrefs (b : Bpp) (f : Bool) (tn : BitVec 12) (a : Nat) :
    (State.decodeSlot b f tn a s).ctx.nrefs = s.ctx.nrefs := rfl

@[simp] theorem State.decodeSlot_ctx_scsel (b : Bpp) (f : Bool) (tn : BitVec 12) (a : Nat) :
    (State.decodeSlot b f tn a s).ctx.scsel = s.ctx.scsel := rfl

@[simp] theorem State.decodeSlot_ctx_tcsel (b : Bpp) (f : Bool) (tn : BitVec 12) (a : Nat) :
    (State.decodeSlot b f tn a s).ctx.tcsel = s.ctx.tcsel := rfl

/-! ### `State.captureStores` -/

@[simp] theorem State.captureStores_cfg (p : CapturePlan) (sh : Shape) (o : Word) : (State.captureStores s p sh o).cfg = s.cfg := rfl

@[simp] theorem State.captureStores_vram (p : CapturePlan) (sh : Shape) (o : Word) : (State.captureStores s p sh o).vram = s.vram := rfl

@[simp] theorem State.captureStores_pal (p : CapturePlan) (sh : Shape) (o : Word) : (State.captureStores s p sh o).pal = s.pal := rfl

@[simp] theorem State.captureStores_dcm (p : CapturePlan) (sh : Shape) (o : Word) : (State.captureStores s p sh o).dcm = s.dcm := rfl

@[simp] theorem State.captureStores_lmd (p : CapturePlan) (sh : Shape) (o : Word) : (State.captureStores s p sh o).lmd = s.lmd := rfl

@[simp] theorem State.captureStores_bcap (p : CapturePlan) (sh : Shape) (o : Word) : (State.captureStores s p sh o).bcap = s.bcap := rfl

@[simp] theorem State.captureStores_sMain (p : CapturePlan) (sh : Shape) (o : Word) : (State.captureStores s p sh o).sMain = s.sMain := rfl

@[simp] theorem State.captureStores_zMain (p : CapturePlan) (sh : Shape) (o : Word) : (State.captureStores s p sh o).zMain = s.zMain := rfl

@[simp] theorem State.captureStores_sSub (p : CapturePlan) (sh : Shape) (o : Word) : (State.captureStores s p sh o).sSub = s.sSub := rfl

@[simp] theorem State.captureStores_zSub (p : CapturePlan) (sh : Shape) (o : Word) : (State.captureStores s p sh o).zSub = s.zSub := rfl

@[simp] theorem State.captureStores_tcbuf (p : CapturePlan) (sh : Shape) (o : Word) : (State.captureStores s p sh o).tcbuf = s.tcbuf := rfl

@[simp] theorem State.captureStores_tcflag (p : CapturePlan) (sh : Shape) (o : Word) : (State.captureStores s p sh o).tcflag = s.tcflag := rfl

@[simp] theorem State.captureStores_moves (p : CapturePlan) (sh : Shape) (o : Word) : (State.captureStores s p sh o).moves = s.moves := rfl

@[simp] theorem State.captureStores_response (p : CapturePlan) (sh : Shape) (o : Word) : (State.captureStores s p sh o).response = s.response := rfl

@[simp] theorem State.captureStores_memOut (p : CapturePlan) (sh : Shape) (o : Word) : (State.captureStores s p sh o).memOut = s.memOut := rfl

@[simp] theorem State.captureStores_freeCount (p : CapturePlan) (sh : Shape) (o : Word) : (State.captureStores s p sh o).freeCount = s.freeCount := rfl

@[simp] theorem State.captureStores_ctx_status (p : CapturePlan) (sh : Shape) (o : Word) :
    (State.captureStores s p sh o).ctx.status = s.ctx.status := rfl

@[simp] theorem State.captureStores_ctx_target (p : CapturePlan) (sh : Shape) (o : Word) :
    (State.captureStores s p sh o).ctx.target = s.ctx.target := rfl

@[simp] theorem State.captureStores_ctx_clip (p : CapturePlan) (sh : Shape) (o : Word) :
    (State.captureStores s p sh o).ctx.clip = s.ctx.clip := rfl

@[simp] theorem State.captureStores_ctx_fixedcol (p : CapturePlan) (sh : Shape) (o : Word) :
    (State.captureStores s p sh o).ctx.fixedcol = s.ctx.fixedcol := rfl

@[simp] theorem State.captureStores_ctx_rsel (p : CapturePlan) (sh : Shape) (o : Word) :
    (State.captureStores s p sh o).ctx.rsel = s.ctx.rsel := rfl

@[simp] theorem State.captureStores_ctx_tileaddr (p : CapturePlan) (sh : Shape) (o : Word) :
    (State.captureStores s p sh o).ctx.tileaddr = s.ctx.tileaddr := rfl

@[simp] theorem State.captureStores_ctx_namesel (p : CapturePlan) (sh : Shape) (o : Word) :
    (State.captureStores s p sh o).ctx.namesel = s.ctx.namesel := rfl

@[simp] theorem State.captureStores_ctx_bpp (p : CapturePlan) (sh : Shape) (o : Word) :
    (State.captureStores s p sh o).ctx.bpp = s.ctx.bpp := rfl

@[simp] theorem State.captureStores_ctx_palshift (p : CapturePlan) (sh : Shape) (o : Word) :
    (State.captureStores s p sh o).ctx.palshift = s.ctx.palshift := rfl

@[simp] theorem State.captureStores_ctx_palmask (p : CapturePlan) (sh : Shape) (o : Word) :
    (State.captureStores s p sh o).ctx.palmask = s.ctx.palmask := rfl

@[simp] theorem State.captureStores_ctx_startpal (p : CapturePlan) (sh : Shape) (o : Word) :
    (State.captureStores s p sh o).ctx.startpal = s.ctx.startpal := rfl

@[simp] theorem State.captureStores_ctx_direct (p : CapturePlan) (sh : Shape) (o : Word) :
    (State.captureStores s p sh o).ctx.direct = s.ctx.direct := rfl

@[simp] theorem State.captureStores_ctx_iline (p : CapturePlan) (sh : Shape) (o : Word) :
    (State.captureStores s p sh o).ctx.iline = s.ctx.iline := rfl

@[simp] theorem State.captureStores_ctx_z1 (p : CapturePlan) (sh : Shape) (o : Word) :
    (State.captureStores s p sh o).ctx.z1 = s.ctx.z1 := rfl

@[simp] theorem State.captureStores_ctx_z2 (p : CapturePlan) (sh : Shape) (o : Word) :
    (State.captureStores s p sh o).ctx.z2 = s.ctx.z2 := rfl

@[simp] theorem State.captureStores_ctx_starty (p : CapturePlan) (sh : Shape) (o : Word) :
    (State.captureStores s p sh o).ctx.starty = s.ctx.starty := rfl

@[simp] theorem State.captureStores_ctx_endy (p : CapturePlan) (sh : Shape) (o : Word) :
    (State.captureStores s p sh o).ctx.endy = s.ctx.endy := rfl

@[simp] theorem State.captureStores_ctx_fbd (p : CapturePlan) (sh : Shape) (o : Word) :
    (State.captureStores s p sh o).ctx.fbd = s.ctx.fbd := rfl

@[simp] theorem State.captureStores_ctx_m7repeat (p : CapturePlan) (sh : Shape) (o : Word) :
    (State.captureStores s p sh o).ctx.m7repeat = s.ctx.m7repeat := rfl

@[simp] theorem State.captureStores_ctx_hmosaic (p : CapturePlan) (sh : Shape) (o : Word) :
    (State.captureStores s p sh o).ctx.hmosaic = s.ctx.hmosaic := rfl

@[simp] theorem State.captureStores_ctx_vmosaic (p : CapturePlan) (sh : Shape) (o : Word) :
    (State.captureStores s p sh o).ctx.vmosaic = s.ctx.vmosaic := rfl

@[simp] theorem State.captureStores_ctx_mosaicstart (p : CapturePlan) (sh : Shape) (o : Word) :
    (State.captureStores s p sh o).ctx.mosaicstart = s.ctx.mosaicstart := rfl

@[simp] theorem State.captureStores_ctx_origin (p : CapturePlan) (sh : Shape) (o : Word) :
    (State.captureStores s p sh o).ctx.origin = s.ctx.origin := rfl

@[simp] theorem State.captureStores_ctx_ppl (p : CapturePlan) (sh : Shape) (o : Word) :
    (State.captureStores s p sh o).ctx.ppl = s.ctx.ppl := rfl

@[simp] theorem State.captureStores_ctx_rppl (p : CapturePlan) (sh : Shape) (o : Word) :
    (State.captureStores s p sh o).ctx.rppl = s.ctx.rppl := rfl

@[simp] theorem State.captureStores_ctx_capen (p : CapturePlan) (sh : Shape) (o : Word) :
    (State.captureStores s p sh o).ctx.capen = s.ctx.capen := rfl

@[simp] theorem State.captureStores_ctx_frame (p : CapturePlan) (sh : Shape) (o : Word) :
    (State.captureStores s p sh o).ctx.frame = s.ctx.frame := rfl

@[simp] theorem State.captureStores_ctx_shotid (p : CapturePlan) (sh : Shape) (o : Word) :
    (State.captureStores s p sh o).ctx.shotid = s.ctx.shotid := rfl

@[simp] theorem State.captureStores_ctx_scsel (p : CapturePlan) (sh : Shape) (o : Word) :
    (State.captureStores s p sh o).ctx.scsel = s.ctx.scsel := rfl

@[simp] theorem State.captureStores_ctx_tcsel (p : CapturePlan) (sh : Shape) (o : Word) :
    (State.captureStores s p sh o).ctx.tcsel = s.ctx.tcsel := rfl

@[simp] theorem State.captureStores_ctx_decodecnt (p : CapturePlan) (sh : Shape) (o : Word) :
    (State.captureStores s p sh o).ctx.decodecnt = s.ctx.decodecnt := rfl

/-! ### `State.hardReset` -/

@[simp] theorem State.hardReset_cfg : (State.hardReset s).cfg = s.cfg := rfl

@[simp] theorem State.hardReset_moves : (State.hardReset s).moves = s.moves := rfl

/-! ### `State.writeTS` -/

@[simp] theorem State.writeTS_cfg (i : Nat) (v : Half) : (State.writeTS i v s).cfg = s.cfg := by unfold State.writeTS; split <;> rfl

@[simp] theorem State.writeTS_ctx (i : Nat) (v : Half) : (State.writeTS i v s).ctx = s.ctx := by unfold State.writeTS; split <;> rfl

@[simp] theorem State.writeTS_vram (i : Nat) (v : Half) : (State.writeTS i v s).vram = s.vram := by unfold State.writeTS; split <;> rfl

@[simp] theorem State.writeTS_pal (i : Nat) (v : Half) : (State.writeTS i v s).pal = s.pal := by unfold State.writeTS; split <;> rfl

@[simp] theorem State.writeTS_dcm (i : Nat) (v : Half) : (State.writeTS i v s).dcm = s.dcm := by unfold State.writeTS; split <;> rfl

@[simp] theorem State.writeTS_lmd (i : Nat) (v : Half) : (State.writeTS i v s).lmd = s.lmd := by unfold State.writeTS; split <;> rfl

@[simp] theorem State.writeTS_bcap (i : Nat) (v : Half) : (State.writeTS i v s).bcap = s.bcap := by unfold State.writeTS; split <;> rfl

@[simp] theorem State.writeTS_zMain (i : Nat) (v : Half) : (State.writeTS i v s).zMain = s.zMain := by unfold State.writeTS; split <;> rfl

@[simp] theorem State.writeTS_zSub (i : Nat) (v : Half) : (State.writeTS i v s).zSub = s.zSub := by unfold State.writeTS; split <;> rfl

@[simp] theorem State.writeTS_tcbuf (i : Nat) (v : Half) : (State.writeTS i v s).tcbuf = s.tcbuf := by unfold State.writeTS; split <;> rfl

@[simp] theorem State.writeTS_tcflag (i : Nat) (v : Half) : (State.writeTS i v s).tcflag = s.tcflag := by unfold State.writeTS; split <;> rfl

@[simp] theorem State.writeTS_tiles (i : Nat) (v : Half) : (State.writeTS i v s).tiles = s.tiles := by unfold State.writeTS; split <;> rfl

@[simp] theorem State.writeTS_pals (i : Nat) (v : Half) : (State.writeTS i v s).pals = s.pals := by unfold State.writeTS; split <;> rfl

@[simp] theorem State.writeTS_refs (i : Nat) (v : Half) : (State.writeTS i v s).refs = s.refs := by unfold State.writeTS; split <;> rfl

@[simp] theorem State.writeTS_moves (i : Nat) (v : Half) : (State.writeTS i v s).moves = s.moves := by unfold State.writeTS; split <;> rfl

@[simp] theorem State.writeTS_response (i : Nat) (v : Half) : (State.writeTS i v s).response = s.response := by unfold State.writeTS; split <;> rfl

@[simp] theorem State.writeTS_memOut (i : Nat) (v : Half) : (State.writeTS i v s).memOut = s.memOut := by unfold State.writeTS; split <;> rfl

@[simp] theorem State.writeTS_freeCount (i : Nat) (v : Half) : (State.writeTS i v s).freeCount = s.freeCount := by unfold State.writeTS; split <;> rfl

/-! ### `State.writeTZ` -/

@[simp] theorem State.writeTZ_cfg (i : Nat) (v : Byte) : (State.writeTZ i v s).cfg = s.cfg := by unfold State.writeTZ; split <;> rfl

@[simp] theorem State.writeTZ_ctx (i : Nat) (v : Byte) : (State.writeTZ i v s).ctx = s.ctx := by unfold State.writeTZ; split <;> rfl

@[simp] theorem State.writeTZ_vram (i : Nat) (v : Byte) : (State.writeTZ i v s).vram = s.vram := by unfold State.writeTZ; split <;> rfl

@[simp] theorem State.writeTZ_pal (i : Nat) (v : Byte) : (State.writeTZ i v s).pal = s.pal := by unfold State.writeTZ; split <;> rfl

@[simp] theorem State.writeTZ_dcm (i : Nat) (v : Byte) : (State.writeTZ i v s).dcm = s.dcm := by unfold State.writeTZ; split <;> rfl

@[simp] theorem State.writeTZ_lmd (i : Nat) (v : Byte) : (State.writeTZ i v s).lmd = s.lmd := by unfold State.writeTZ; split <;> rfl

@[simp] theorem State.writeTZ_bcap (i : Nat) (v : Byte) : (State.writeTZ i v s).bcap = s.bcap := by unfold State.writeTZ; split <;> rfl

@[simp] theorem State.writeTZ_sMain (i : Nat) (v : Byte) : (State.writeTZ i v s).sMain = s.sMain := by unfold State.writeTZ; split <;> rfl

@[simp] theorem State.writeTZ_sSub (i : Nat) (v : Byte) : (State.writeTZ i v s).sSub = s.sSub := by unfold State.writeTZ; split <;> rfl

@[simp] theorem State.writeTZ_tcbuf (i : Nat) (v : Byte) : (State.writeTZ i v s).tcbuf = s.tcbuf := by unfold State.writeTZ; split <;> rfl

@[simp] theorem State.writeTZ_tcflag (i : Nat) (v : Byte) : (State.writeTZ i v s).tcflag = s.tcflag := by unfold State.writeTZ; split <;> rfl

@[simp] theorem State.writeTZ_tiles (i : Nat) (v : Byte) : (State.writeTZ i v s).tiles = s.tiles := by unfold State.writeTZ; split <;> rfl

@[simp] theorem State.writeTZ_pals (i : Nat) (v : Byte) : (State.writeTZ i v s).pals = s.pals := by unfold State.writeTZ; split <;> rfl

@[simp] theorem State.writeTZ_refs (i : Nat) (v : Byte) : (State.writeTZ i v s).refs = s.refs := by unfold State.writeTZ; split <;> rfl

@[simp] theorem State.writeTZ_moves (i : Nat) (v : Byte) : (State.writeTZ i v s).moves = s.moves := by unfold State.writeTZ; split <;> rfl

@[simp] theorem State.writeTZ_response (i : Nat) (v : Byte) : (State.writeTZ i v s).response = s.response := by unfold State.writeTZ; split <;> rfl

@[simp] theorem State.writeTZ_memOut (i : Nat) (v : Byte) : (State.writeTZ i v s).memOut = s.memOut := by unfold State.writeTZ; split <;> rfl

@[simp] theorem State.writeTZ_freeCount (i : Nat) (v : Byte) : (State.writeTZ i v s).freeCount = s.freeCount := by unfold State.writeTZ; split <;> rfl

/-! ### `State.freeTS` -/

@[simp] theorem State.freeTS_cfg (i : Nat) : (State.freeTS i s).cfg = s.cfg := by simp [State.freeTS]

@[simp] theorem State.freeTS_ctx (i : Nat) : (State.freeTS i s).ctx = s.ctx := by simp [State.freeTS]

@[simp] theorem State.freeTS_vram (i : Nat) : (State.freeTS i s).vram = s.vram := by simp [State.freeTS]

@[simp] theorem State.freeTS_pal (i : Nat) : (State.freeTS i s).pal = s.pal := by simp [State.freeTS]

@[simp] theorem State.freeTS_dcm (i : Nat) : (State.freeTS i s).dcm = s.dcm := by simp [State.freeTS]

@[simp] theorem State.freeTS_lmd (i : Nat) : (State.freeTS i s).lmd = s.lmd := by simp [State.freeTS]

@[simp] theorem State.freeTS_bcap (i : Nat) : (State.freeTS i s).bcap = s.bcap := by simp [State.freeTS]

@[simp] theorem State.freeTS_zMain (i : Nat) : (State.freeTS i s).zMain = s.zMain := by simp [State.freeTS]

@[simp] theorem State.freeTS_zSub (i : Nat) : (State.freeTS i s).zSub = s.zSub := by simp [State.freeTS]

@[simp] theorem State.freeTS_tcbuf (i : Nat) : (State.freeTS i s).tcbuf = s.tcbuf := by simp [State.freeTS]

@[simp] theorem State.freeTS_tcflag (i : Nat) : (State.freeTS i s).tcflag = s.tcflag := by simp [State.freeTS]

@[simp] theorem State.freeTS_tiles (i : Nat) : (State.freeTS i s).tiles = s.tiles := by simp [State.freeTS]

@[simp] theorem State.freeTS_pals (i : Nat) : (State.freeTS i s).pals = s.pals := by simp [State.freeTS]

@[simp] theorem State.freeTS_refs (i : Nat) : (State.freeTS i s).refs = s.refs := by simp [State.freeTS]

@[simp] theorem State.freeTS_moves (i : Nat) : (State.freeTS i s).moves = s.moves := by simp [State.freeTS]

@[simp] theorem State.freeTS_response (i : Nat) : (State.freeTS i s).response = s.response := by simp [State.freeTS]

@[simp] theorem State.freeTS_memOut (i : Nat) : (State.freeTS i s).memOut = s.memOut := by simp [State.freeTS]

/-! ### `State.freeTZ` -/

@[simp] theorem State.freeTZ_cfg (i : Nat) : (State.freeTZ i s).cfg = s.cfg := by simp [State.freeTZ]

@[simp] theorem State.freeTZ_ctx (i : Nat) : (State.freeTZ i s).ctx = s.ctx := by simp [State.freeTZ]

@[simp] theorem State.freeTZ_vram (i : Nat) : (State.freeTZ i s).vram = s.vram := by simp [State.freeTZ]

@[simp] theorem State.freeTZ_pal (i : Nat) : (State.freeTZ i s).pal = s.pal := by simp [State.freeTZ]

@[simp] theorem State.freeTZ_dcm (i : Nat) : (State.freeTZ i s).dcm = s.dcm := by simp [State.freeTZ]

@[simp] theorem State.freeTZ_lmd (i : Nat) : (State.freeTZ i s).lmd = s.lmd := by simp [State.freeTZ]

@[simp] theorem State.freeTZ_bcap (i : Nat) : (State.freeTZ i s).bcap = s.bcap := by simp [State.freeTZ]

@[simp] theorem State.freeTZ_sMain (i : Nat) : (State.freeTZ i s).sMain = s.sMain := by simp [State.freeTZ]

@[simp] theorem State.freeTZ_sSub (i : Nat) : (State.freeTZ i s).sSub = s.sSub := by simp [State.freeTZ]

@[simp] theorem State.freeTZ_tcbuf (i : Nat) : (State.freeTZ i s).tcbuf = s.tcbuf := by simp [State.freeTZ]

@[simp] theorem State.freeTZ_tcflag (i : Nat) : (State.freeTZ i s).tcflag = s.tcflag := by simp [State.freeTZ]

@[simp] theorem State.freeTZ_tiles (i : Nat) : (State.freeTZ i s).tiles = s.tiles := by simp [State.freeTZ]

@[simp] theorem State.freeTZ_pals (i : Nat) : (State.freeTZ i s).pals = s.pals := by simp [State.freeTZ]

@[simp] theorem State.freeTZ_refs (i : Nat) : (State.freeTZ i s).refs = s.refs := by simp [State.freeTZ]

@[simp] theorem State.freeTZ_moves (i : Nat) : (State.freeTZ i s).moves = s.moves := by simp [State.freeTZ]

@[simp] theorem State.freeTZ_response (i : Nat) : (State.freeTZ i s).response = s.response := by simp [State.freeTZ]

@[simp] theorem State.freeTZ_memOut (i : Nat) : (State.freeTZ i s).memOut = s.memOut := by simp [State.freeTZ]

/-! ### `State.fillSlot` -/

@[simp] theorem State.fillSlot_cfg (t : Half) : (State.fillSlot t s).cfg = s.cfg := by unfold State.fillSlot; split <;> rfl

@[simp] theorem State.fillSlot_vram (t : Half) : (State.fillSlot t s).vram = s.vram := by unfold State.fillSlot; split <;> rfl

@[simp] theorem State.fillSlot_pal (t : Half) : (State.fillSlot t s).pal = s.pal := by unfold State.fillSlot; split <;> rfl

@[simp] theorem State.fillSlot_dcm (t : Half) : (State.fillSlot t s).dcm = s.dcm := by unfold State.fillSlot; split <;> rfl

@[simp] theorem State.fillSlot_lmd (t : Half) : (State.fillSlot t s).lmd = s.lmd := by unfold State.fillSlot; split <;> rfl

@[simp] theorem State.fillSlot_bcap (t : Half) : (State.fillSlot t s).bcap = s.bcap := by unfold State.fillSlot; split <;> rfl

@[simp] theorem State.fillSlot_sMain (t : Half) : (State.fillSlot t s).sMain = s.sMain := by unfold State.fillSlot; split <;> rfl

@[simp] theorem State.fillSlot_zMain (t : Half) : (State.fillSlot t s).zMain = s.zMain := by unfold State.fillSlot; split <;> rfl

@[simp] theorem State.fillSlot_sSub (t : Half) : (State.fillSlot t s).sSub = s.sSub := by unfold State.fillSlot; split <;> rfl

@[simp] theorem State.fillSlot_zSub (t : Half) : (State.fillSlot t s).zSub = s.zSub := by unfold State.fillSlot; split <;> rfl

@[simp] theorem State.fillSlot_tiles (t : Half) : (State.fillSlot t s).tiles = s.tiles := by unfold State.fillSlot; split <;> rfl

@[simp] theorem State.fillSlot_pals (t : Half) : (State.fillSlot t s).pals = s.pals := by unfold State.fillSlot; split <;> rfl

@[simp] theorem State.fillSlot_refs (t : Half) : (State.fillSlot t s).refs = s.refs := by unfold State.fillSlot; split <;> rfl

@[simp] theorem State.fillSlot_moves (t : Half) : (State.fillSlot t s).moves = s.moves := by unfold State.fillSlot; split <;> rfl

@[simp] theorem State.fillSlot_response (t : Half) : (State.fillSlot t s).response = s.response := by unfold State.fillSlot; split <;> rfl

@[simp] theorem State.fillSlot_memOut (t : Half) : (State.fillSlot t s).memOut = s.memOut := by unfold State.fillSlot; split <;> rfl

@[simp] theorem State.fillSlot_freeCount (t : Half) : (State.fillSlot t s).freeCount = s.freeCount := by unfold State.fillSlot; split <;> rfl

@[simp] theorem State.fillSlot_ctx_status (t : Half) :
    (State.fillSlot t s).ctx.status = s.ctx.status := by unfold State.fillSlot; split <;> rfl

@[simp] theorem State.fillSlot_ctx_target (t : Half) :
    (State.fillSlot t s).ctx.target = s.ctx.target := by unfold State.fillSlot; split <;> rfl

@[simp] theorem State.fillSlot_ctx_clip (t : Half) :
    (State.fillSlot t s).ctx.clip = s.ctx.clip := by unfold State.fillSlot; split <;> rfl

@[simp] theorem State.fillSlot_ctx_fixedcol (t : Half) :
    (State.fillSlot t s).ctx.fixedcol = s.ctx.fixedcol := by unfold State.fillSlot; split <;> rfl

@[simp] theorem State.fillSlot_ctx_rsel (t : Half) :
    (State.fillSlot t s).ctx.rsel = s.ctx.rsel := by unfold State.fillSlot; split <;> rfl

@[simp] theorem State.fillSlot_ctx_tileaddr (t : Half) :
    (State.fillSlot t s).ctx.tileaddr = s.ctx.tileaddr := by unfold State.fillSlot; split <;> rfl

@[simp] theorem State.fillSlot_ctx_namesel (t : Half) :
    (State.fillSlot t s).ctx.namesel = s.ctx.namesel := by unfold State.fillSlot; split <;> rfl

@[simp] theorem State.fillSlot_ctx_bpp (t : Half) :
    (State.fillSlot t s).ctx.bpp = s.ctx.bpp := by unfold State.fillSlot; split <;> rfl

@[simp] theorem State.fillSlot_ctx_palshift (t : Half) :
    (State.fillSlot t s).ctx.palshift = s.ctx.palshift := by unfold State.fillSlot; split <;> rfl

@[simp] theorem State.fillSlot_ctx_palmask (t : Half) :
    (State.fillSlot t s).ctx.palmask = s.ctx.palmask := by unfold State.fillSlot; split <;> rfl

@[simp] theorem State.fillSlot_ctx_startpal (t : Half) :
    (State.fillSlot t s).ctx.startpal = s.ctx.startpal := by unfold State.fillSlot; split <;> rfl

@[simp] theorem State.fillSlot_ctx_direct (t : Half) :
    (State.fillSlot t s).ctx.direct = s.ctx.direct := by unfold State.fillSlot; split <;> rfl

@[simp] theorem State.fillSlot_ctx_iline (t : Half) :
    (State.fillSlot t s).ctx.iline = s.ctx.iline := by unfold State.fillSlot; split <;> rfl

@[simp] theorem State.fillSlot_ctx_z1 (t : Half) :
    (State.fillSlot t s).ctx.z1 = s.ctx.z1 := by unfold State.fillSlot; split <;> rfl

@[simp] theorem State.fillSlot_ctx_z2 (t : Half) :
    (State.fillSlot t s).ctx.z2 = s.ctx.z2 := by unfold State.fillSlot; split <;> rfl

@[simp] theorem State.fillSlot_ctx_starty (t : Half) :
    (State.fillSlot t s).ctx.starty = s.ctx.starty := by unfold State.fillSlot; split <;> rfl

@[simp] theorem State.fillSlot_ctx_endy (t : Half) :
    (State.fillSlot t s).ctx.endy = s.ctx.endy := by unfold State.fillSlot; split <;> rfl

@[simp] theorem State.fillSlot_ctx_fbd (t : Half) :
    (State.fillSlot t s).ctx.fbd = s.ctx.fbd := by unfold State.fillSlot; split <;> rfl

@[simp] theorem State.fillSlot_ctx_m7repeat (t : Half) :
    (State.fillSlot t s).ctx.m7repeat = s.ctx.m7repeat := by unfold State.fillSlot; split <;> rfl

@[simp] theorem State.fillSlot_ctx_hmosaic (t : Half) :
    (State.fillSlot t s).ctx.hmosaic = s.ctx.hmosaic := by unfold State.fillSlot; split <;> rfl

@[simp] theorem State.fillSlot_ctx_vmosaic (t : Half) :
    (State.fillSlot t s).ctx.vmosaic = s.ctx.vmosaic := by unfold State.fillSlot; split <;> rfl

@[simp] theorem State.fillSlot_ctx_mosaicstart (t : Half) :
    (State.fillSlot t s).ctx.mosaicstart = s.ctx.mosaicstart := by unfold State.fillSlot; split <;> rfl

@[simp] theorem State.fillSlot_ctx_origin (t : Half) :
    (State.fillSlot t s).ctx.origin = s.ctx.origin := by unfold State.fillSlot; split <;> rfl

@[simp] theorem State.fillSlot_ctx_ppl (t : Half) :
    (State.fillSlot t s).ctx.ppl = s.ctx.ppl := by unfold State.fillSlot; split <;> rfl

@[simp] theorem State.fillSlot_ctx_rppl (t : Half) :
    (State.fillSlot t s).ctx.rppl = s.ctx.rppl := by unfold State.fillSlot; split <;> rfl

@[simp] theorem State.fillSlot_ctx_capen (t : Half) :
    (State.fillSlot t s).ctx.capen = s.ctx.capen := by unfold State.fillSlot; split <;> rfl

@[simp] theorem State.fillSlot_ctx_frame (t : Half) :
    (State.fillSlot t s).ctx.frame = s.ctx.frame := by unfold State.fillSlot; split <;> rfl

@[simp] theorem State.fillSlot_ctx_shotid (t : Half) :
    (State.fillSlot t s).ctx.shotid = s.ctx.shotid := by unfold State.fillSlot; split <;> rfl

@[simp] theorem State.fillSlot_ctx_ntiles (t : Half) :
    (State.fillSlot t s).ctx.ntiles = s.ctx.ntiles := by unfold State.fillSlot; split <;> rfl

@[simp] theorem State.fillSlot_ctx_npals (t : Half) :
    (State.fillSlot t s).ctx.npals = s.ctx.npals := by unfold State.fillSlot; split <;> rfl

@[simp] theorem State.fillSlot_ctx_nrefs (t : Half) :
    (State.fillSlot t s).ctx.nrefs = s.ctx.nrefs := by unfold State.fillSlot; split <;> rfl

@[simp] theorem State.fillSlot_ctx_scsel (t : Half) :
    (State.fillSlot t s).ctx.scsel = s.ctx.scsel := by unfold State.fillSlot; split <;> rfl

@[simp] theorem State.fillSlot_ctx_tcsel (t : Half) :
    (State.fillSlot t s).ctx.tcsel = s.ctx.tcsel := by unfold State.fillSlot; split <;> rfl

/-! ### `State.resolve` -/

@[simp] theorem State.resolve_cfg (t : Half) : (State.resolve t s).cfg = s.cfg := by simp [State.resolve]

@[simp] theorem State.resolve_vram (t : Half) : (State.resolve t s).vram = s.vram := by simp [State.resolve]

@[simp] theorem State.resolve_pal (t : Half) : (State.resolve t s).pal = s.pal := by simp [State.resolve]

@[simp] theorem State.resolve_dcm (t : Half) : (State.resolve t s).dcm = s.dcm := by simp [State.resolve]

@[simp] theorem State.resolve_lmd (t : Half) : (State.resolve t s).lmd = s.lmd := by simp [State.resolve]

@[simp] theorem State.resolve_bcap (t : Half) : (State.resolve t s).bcap = s.bcap := by simp [State.resolve]

@[simp] theorem State.resolve_sMain (t : Half) : (State.resolve t s).sMain = s.sMain := by simp [State.resolve]

@[simp] theorem State.resolve_zMain (t : Half) : (State.resolve t s).zMain = s.zMain := by simp [State.resolve]

@[simp] theorem State.resolve_sSub (t : Half) : (State.resolve t s).sSub = s.sSub := by simp [State.resolve]

@[simp] theorem State.resolve_zSub (t : Half) : (State.resolve t s).zSub = s.zSub := by simp [State.resolve]

@[simp] theorem State.resolve_tiles (t : Half) : (State.resolve t s).tiles = s.tiles := by simp [State.resolve]

@[simp] theorem State.resolve_pals (t : Half) : (State.resolve t s).pals = s.pals := by simp [State.resolve]

@[simp] theorem State.resolve_refs (t : Half) : (State.resolve t s).refs = s.refs := by simp [State.resolve]

@[simp] theorem State.resolve_moves (t : Half) : (State.resolve t s).moves = s.moves := by simp [State.resolve]

@[simp] theorem State.resolve_response (t : Half) : (State.resolve t s).response = s.response := by simp [State.resolve]

@[simp] theorem State.resolve_memOut (t : Half) : (State.resolve t s).memOut = s.memOut := by simp [State.resolve]

@[simp] theorem State.resolve_freeCount (t : Half) : (State.resolve t s).freeCount = s.freeCount := by simp [State.resolve]

@[simp] theorem State.resolve_ctx_status (t : Half) :
    (State.resolve t s).ctx.status = s.ctx.status := by simp [State.resolve]

@[simp] theorem State.resolve_ctx_target (t : Half) :
    (State.resolve t s).ctx.target = s.ctx.target := by simp [State.resolve]

@[simp] theorem State.resolve_ctx_clip (t : Half) :
    (State.resolve t s).ctx.clip = s.ctx.clip := by simp [State.resolve]

@[simp] theorem State.resolve_ctx_fixedcol (t : Half) :
    (State.resolve t s).ctx.fixedcol = s.ctx.fixedcol := by simp [State.resolve]

@[simp] theorem State.resolve_ctx_rsel (t : Half) :
    (State.resolve t s).ctx.rsel = s.ctx.rsel := by simp [State.resolve]

@[simp] theorem State.resolve_ctx_tileaddr (t : Half) :
    (State.resolve t s).ctx.tileaddr = s.ctx.tileaddr := by simp [State.resolve]

@[simp] theorem State.resolve_ctx_namesel (t : Half) :
    (State.resolve t s).ctx.namesel = s.ctx.namesel := by simp [State.resolve]

@[simp] theorem State.resolve_ctx_bpp (t : Half) :
    (State.resolve t s).ctx.bpp = s.ctx.bpp := by simp [State.resolve]

@[simp] theorem State.resolve_ctx_palshift (t : Half) :
    (State.resolve t s).ctx.palshift = s.ctx.palshift := by simp [State.resolve]

@[simp] theorem State.resolve_ctx_palmask (t : Half) :
    (State.resolve t s).ctx.palmask = s.ctx.palmask := by simp [State.resolve]

@[simp] theorem State.resolve_ctx_startpal (t : Half) :
    (State.resolve t s).ctx.startpal = s.ctx.startpal := by simp [State.resolve]

@[simp] theorem State.resolve_ctx_direct (t : Half) :
    (State.resolve t s).ctx.direct = s.ctx.direct := by simp [State.resolve]

@[simp] theorem State.resolve_ctx_iline (t : Half) :
    (State.resolve t s).ctx.iline = s.ctx.iline := by simp [State.resolve]

@[simp] theorem State.resolve_ctx_z1 (t : Half) :
    (State.resolve t s).ctx.z1 = s.ctx.z1 := by simp [State.resolve]

@[simp] theorem State.resolve_ctx_z2 (t : Half) :
    (State.resolve t s).ctx.z2 = s.ctx.z2 := by simp [State.resolve]

@[simp] theorem State.resolve_ctx_starty (t : Half) :
    (State.resolve t s).ctx.starty = s.ctx.starty := by simp [State.resolve]

@[simp] theorem State.resolve_ctx_endy (t : Half) :
    (State.resolve t s).ctx.endy = s.ctx.endy := by simp [State.resolve]

@[simp] theorem State.resolve_ctx_fbd (t : Half) :
    (State.resolve t s).ctx.fbd = s.ctx.fbd := by simp [State.resolve]

@[simp] theorem State.resolve_ctx_m7repeat (t : Half) :
    (State.resolve t s).ctx.m7repeat = s.ctx.m7repeat := by simp [State.resolve]

@[simp] theorem State.resolve_ctx_hmosaic (t : Half) :
    (State.resolve t s).ctx.hmosaic = s.ctx.hmosaic := by simp [State.resolve]

@[simp] theorem State.resolve_ctx_vmosaic (t : Half) :
    (State.resolve t s).ctx.vmosaic = s.ctx.vmosaic := by simp [State.resolve]

@[simp] theorem State.resolve_ctx_mosaicstart (t : Half) :
    (State.resolve t s).ctx.mosaicstart = s.ctx.mosaicstart := by simp [State.resolve]

@[simp] theorem State.resolve_ctx_origin (t : Half) :
    (State.resolve t s).ctx.origin = s.ctx.origin := by simp [State.resolve]

@[simp] theorem State.resolve_ctx_ppl (t : Half) :
    (State.resolve t s).ctx.ppl = s.ctx.ppl := by simp [State.resolve]

@[simp] theorem State.resolve_ctx_rppl (t : Half) :
    (State.resolve t s).ctx.rppl = s.ctx.rppl := by simp [State.resolve]

@[simp] theorem State.resolve_ctx_capen (t : Half) :
    (State.resolve t s).ctx.capen = s.ctx.capen := by simp [State.resolve]

@[simp] theorem State.resolve_ctx_frame (t : Half) :
    (State.resolve t s).ctx.frame = s.ctx.frame := by simp [State.resolve]

@[simp] theorem State.resolve_ctx_shotid (t : Half) :
    (State.resolve t s).ctx.shotid = s.ctx.shotid := by simp [State.resolve]

@[simp] theorem State.resolve_ctx_ntiles (t : Half) :
    (State.resolve t s).ctx.ntiles = s.ctx.ntiles := by simp [State.resolve]

@[simp] theorem State.resolve_ctx_npals (t : Half) :
    (State.resolve t s).ctx.npals = s.ctx.npals := by simp [State.resolve]

@[simp] theorem State.resolve_ctx_nrefs (t : Half) :
    (State.resolve t s).ctx.nrefs = s.ctx.nrefs := by simp [State.resolve]

@[simp] theorem State.resolve_ctx_scsel (t : Half) :
    (State.resolve t s).ctx.scsel = s.ctx.scsel := by simp [State.resolve]

/-! ### `State.acknowledge` -/

@[simp] theorem State.acknowledge_cfg : (State.acknowledge s).cfg = s.cfg := by unfold State.acknowledge; split <;> rfl

@[simp] theorem State.acknowledge_vram : (State.acknowledge s).vram = s.vram := by unfold State.acknowledge; split <;> rfl

@[simp] theorem State.acknowledge_pal : (State.acknowledge s).pal = s.pal := by unfold State.acknowledge; split <;> rfl

@[simp] theorem State.acknowledge_dcm : (State.acknowledge s).dcm = s.dcm := by unfold State.acknowledge; split <;> rfl

@[simp] theorem State.acknowledge_lmd : (State.acknowledge s).lmd = s.lmd := by unfold State.acknowledge; split <;> rfl

@[simp] theorem State.acknowledge_bcap : (State.acknowledge s).bcap = s.bcap := by unfold State.acknowledge; split <;> rfl

@[simp] theorem State.acknowledge_sMain : (State.acknowledge s).sMain = s.sMain := by unfold State.acknowledge; split <;> rfl

@[simp] theorem State.acknowledge_zMain : (State.acknowledge s).zMain = s.zMain := by unfold State.acknowledge; split <;> rfl

@[simp] theorem State.acknowledge_sSub : (State.acknowledge s).sSub = s.sSub := by unfold State.acknowledge; split <;> rfl

@[simp] theorem State.acknowledge_zSub : (State.acknowledge s).zSub = s.zSub := by unfold State.acknowledge; split <;> rfl

@[simp] theorem State.acknowledge_tcbuf : (State.acknowledge s).tcbuf = s.tcbuf := by unfold State.acknowledge; split <;> rfl

@[simp] theorem State.acknowledge_tcflag : (State.acknowledge s).tcflag = s.tcflag := by unfold State.acknowledge; split <;> rfl

@[simp] theorem State.acknowledge_tiles : (State.acknowledge s).tiles = s.tiles := by unfold State.acknowledge; split <;> rfl

@[simp] theorem State.acknowledge_pals : (State.acknowledge s).pals = s.pals := by unfold State.acknowledge; split <;> rfl

@[simp] theorem State.acknowledge_refs : (State.acknowledge s).refs = s.refs := by unfold State.acknowledge; split <;> rfl

@[simp] theorem State.acknowledge_moves : (State.acknowledge s).moves = s.moves := by unfold State.acknowledge; split <;> rfl

@[simp] theorem State.acknowledge_response : (State.acknowledge s).response = s.response := by unfold State.acknowledge; split <;> rfl

@[simp] theorem State.acknowledge_memOut : (State.acknowledge s).memOut = s.memOut := by unfold State.acknowledge; split <;> rfl

@[simp] theorem State.acknowledge_freeCount : (State.acknowledge s).freeCount = s.freeCount := by unfold State.acknowledge; split <;> rfl

@[simp] theorem State.acknowledge_ctx_target :
    (State.acknowledge s).ctx.target = s.ctx.target := by unfold State.acknowledge; split <;> rfl

@[simp] theorem State.acknowledge_ctx_clip :
    (State.acknowledge s).ctx.clip = s.ctx.clip := by unfold State.acknowledge; split <;> rfl

@[simp] theorem State.acknowledge_ctx_fixedcol :
    (State.acknowledge s).ctx.fixedcol = s.ctx.fixedcol := by unfold State.acknowledge; split <;> rfl

@[simp] theorem State.acknowledge_ctx_rsel :
    (State.acknowledge s).ctx.rsel = s.ctx.rsel := by unfold State.acknowledge; split <;> rfl

@[simp] theorem State.acknowledge_ctx_tileaddr :
    (State.acknowledge s).ctx.tileaddr = s.ctx.tileaddr := by unfold State.acknowledge; split <;> rfl

@[simp] theorem State.acknowledge_ctx_namesel :
    (State.acknowledge s).ctx.namesel = s.ctx.namesel := by unfold State.acknowledge; split <;> rfl

@[simp] theorem State.acknowledge_ctx_bpp :
    (State.acknowledge s).ctx.bpp = s.ctx.bpp := by unfold State.acknowledge; split <;> rfl

@[simp] theorem State.acknowledge_ctx_palshift :
    (State.acknowledge s).ctx.palshift = s.ctx.palshift := by unfold State.acknowledge; split <;> rfl

@[simp] theorem State.acknowledge_ctx_palmask :
    (State.acknowledge s).ctx.palmask = s.ctx.palmask := by unfold State.acknowledge; split <;> rfl

@[simp] theorem State.acknowledge_ctx_startpal :
    (State.acknowledge s).ctx.startpal = s.ctx.startpal := by unfold State.acknowledge; split <;> rfl

@[simp] theorem State.acknowledge_ctx_direct :
    (State.acknowledge s).ctx.direct = s.ctx.direct := by unfold State.acknowledge; split <;> rfl

@[simp] theorem State.acknowledge_ctx_iline :
    (State.acknowledge s).ctx.iline = s.ctx.iline := by unfold State.acknowledge; split <;> rfl

@[simp] theorem State.acknowledge_ctx_z1 :
    (State.acknowledge s).ctx.z1 = s.ctx.z1 := by unfold State.acknowledge; split <;> rfl

@[simp] theorem State.acknowledge_ctx_z2 :
    (State.acknowledge s).ctx.z2 = s.ctx.z2 := by unfold State.acknowledge; split <;> rfl

@[simp] theorem State.acknowledge_ctx_starty :
    (State.acknowledge s).ctx.starty = s.ctx.starty := by unfold State.acknowledge; split <;> rfl

@[simp] theorem State.acknowledge_ctx_endy :
    (State.acknowledge s).ctx.endy = s.ctx.endy := by unfold State.acknowledge; split <;> rfl

@[simp] theorem State.acknowledge_ctx_fbd :
    (State.acknowledge s).ctx.fbd = s.ctx.fbd := by unfold State.acknowledge; split <;> rfl

@[simp] theorem State.acknowledge_ctx_m7repeat :
    (State.acknowledge s).ctx.m7repeat = s.ctx.m7repeat := by unfold State.acknowledge; split <;> rfl

@[simp] theorem State.acknowledge_ctx_hmosaic :
    (State.acknowledge s).ctx.hmosaic = s.ctx.hmosaic := by unfold State.acknowledge; split <;> rfl

@[simp] theorem State.acknowledge_ctx_vmosaic :
    (State.acknowledge s).ctx.vmosaic = s.ctx.vmosaic := by unfold State.acknowledge; split <;> rfl

@[simp] theorem State.acknowledge_ctx_mosaicstart :
    (State.acknowledge s).ctx.mosaicstart = s.ctx.mosaicstart := by unfold State.acknowledge; split <;> rfl

@[simp] theorem State.acknowledge_ctx_origin :
    (State.acknowledge s).ctx.origin = s.ctx.origin := by unfold State.acknowledge; split <;> rfl

@[simp] theorem State.acknowledge_ctx_ppl :
    (State.acknowledge s).ctx.ppl = s.ctx.ppl := by unfold State.acknowledge; split <;> rfl

@[simp] theorem State.acknowledge_ctx_rppl :
    (State.acknowledge s).ctx.rppl = s.ctx.rppl := by unfold State.acknowledge; split <;> rfl

@[simp] theorem State.acknowledge_ctx_capen :
    (State.acknowledge s).ctx.capen = s.ctx.capen := by unfold State.acknowledge; split <;> rfl

@[simp] theorem State.acknowledge_ctx_frame :
    (State.acknowledge s).ctx.frame = s.ctx.frame := by unfold State.acknowledge; split <;> rfl

@[simp] theorem State.acknowledge_ctx_ntiles :
    (State.acknowledge s).ctx.ntiles = s.ctx.ntiles := by unfold State.acknowledge; split <;> rfl

@[simp] theorem State.acknowledge_ctx_npals :
    (State.acknowledge s).ctx.npals = s.ctx.npals := by unfold State.acknowledge; split <;> rfl

@[simp] theorem State.acknowledge_ctx_nrefs :
    (State.acknowledge s).ctx.nrefs = s.ctx.nrefs := by unfold State.acknowledge; split <;> rfl

@[simp] theorem State.acknowledge_ctx_scsel :
    (State.acknowledge s).ctx.scsel = s.ctx.scsel := by unfold State.acknowledge; split <;> rfl

@[simp] theorem State.acknowledge_ctx_tcsel :
    (State.acknowledge s).ctx.tcsel = s.ctx.tcsel := by unfold State.acknowledge; split <;> rfl

@[simp] theorem State.acknowledge_ctx_decodecnt :
    (State.acknowledge s).ctx.decodecnt = s.ctx.decodecnt := by unfold State.acknowledge; split <;> rfl

/-! ### `State.captureCommit` -/

@[simp] theorem State.captureCommit_cfg (p : CapturePlan) (sh : Shape) (o : Word) : (State.captureCommit s p sh o).cfg = s.cfg := by unfold State.captureCommit; split <;> simp

@[simp] theorem State.captureCommit_vram (p : CapturePlan) (sh : Shape) (o : Word) : (State.captureCommit s p sh o).vram = s.vram := by unfold State.captureCommit; split <;> simp

@[simp] theorem State.captureCommit_pal (p : CapturePlan) (sh : Shape) (o : Word) : (State.captureCommit s p sh o).pal = s.pal := by unfold State.captureCommit; split <;> simp

@[simp] theorem State.captureCommit_dcm (p : CapturePlan) (sh : Shape) (o : Word) : (State.captureCommit s p sh o).dcm = s.dcm := by unfold State.captureCommit; split <;> simp

@[simp] theorem State.captureCommit_lmd (p : CapturePlan) (sh : Shape) (o : Word) : (State.captureCommit s p sh o).lmd = s.lmd := by unfold State.captureCommit; split <;> simp

@[simp] theorem State.captureCommit_bcap (p : CapturePlan) (sh : Shape) (o : Word) : (State.captureCommit s p sh o).bcap = s.bcap := by unfold State.captureCommit; split <;> simp

@[simp] theorem State.captureCommit_sMain (p : CapturePlan) (sh : Shape) (o : Word) : (State.captureCommit s p sh o).sMain = s.sMain := by unfold State.captureCommit; split <;> simp

@[simp] theorem State.captureCommit_zMain (p : CapturePlan) (sh : Shape) (o : Word) : (State.captureCommit s p sh o).zMain = s.zMain := by unfold State.captureCommit; split <;> simp

@[simp] theorem State.captureCommit_sSub (p : CapturePlan) (sh : Shape) (o : Word) : (State.captureCommit s p sh o).sSub = s.sSub := by unfold State.captureCommit; split <;> simp

@[simp] theorem State.captureCommit_zSub (p : CapturePlan) (sh : Shape) (o : Word) : (State.captureCommit s p sh o).zSub = s.zSub := by unfold State.captureCommit; split <;> simp

@[simp] theorem State.captureCommit_tcbuf (p : CapturePlan) (sh : Shape) (o : Word) : (State.captureCommit s p sh o).tcbuf = s.tcbuf := by unfold State.captureCommit; split <;> simp

@[simp] theorem State.captureCommit_tcflag (p : CapturePlan) (sh : Shape) (o : Word) : (State.captureCommit s p sh o).tcflag = s.tcflag := by unfold State.captureCommit; split <;> simp

@[simp] theorem State.captureCommit_moves (p : CapturePlan) (sh : Shape) (o : Word) : (State.captureCommit s p sh o).moves = s.moves := by unfold State.captureCommit; split <;> simp

@[simp] theorem State.captureCommit_response (p : CapturePlan) (sh : Shape) (o : Word) : (State.captureCommit s p sh o).response = s.response := by unfold State.captureCommit; split <;> simp

@[simp] theorem State.captureCommit_memOut (p : CapturePlan) (sh : Shape) (o : Word) : (State.captureCommit s p sh o).memOut = s.memOut := by unfold State.captureCommit; split <;> simp

@[simp] theorem State.captureCommit_freeCount (p : CapturePlan) (sh : Shape) (o : Word) : (State.captureCommit s p sh o).freeCount = s.freeCount := by unfold State.captureCommit; split <;> simp

@[simp] theorem State.captureCommit_ctx_target (p : CapturePlan) (sh : Shape) (o : Word) :
    (State.captureCommit s p sh o).ctx.target = s.ctx.target := by unfold State.captureCommit; split <;> simp

@[simp] theorem State.captureCommit_ctx_clip (p : CapturePlan) (sh : Shape) (o : Word) :
    (State.captureCommit s p sh o).ctx.clip = s.ctx.clip := by unfold State.captureCommit; split <;> simp

@[simp] theorem State.captureCommit_ctx_fixedcol (p : CapturePlan) (sh : Shape) (o : Word) :
    (State.captureCommit s p sh o).ctx.fixedcol = s.ctx.fixedcol := by unfold State.captureCommit; split <;> simp

@[simp] theorem State.captureCommit_ctx_rsel (p : CapturePlan) (sh : Shape) (o : Word) :
    (State.captureCommit s p sh o).ctx.rsel = s.ctx.rsel := by unfold State.captureCommit; split <;> simp

@[simp] theorem State.captureCommit_ctx_tileaddr (p : CapturePlan) (sh : Shape) (o : Word) :
    (State.captureCommit s p sh o).ctx.tileaddr = s.ctx.tileaddr := by unfold State.captureCommit; split <;> simp

@[simp] theorem State.captureCommit_ctx_namesel (p : CapturePlan) (sh : Shape) (o : Word) :
    (State.captureCommit s p sh o).ctx.namesel = s.ctx.namesel := by unfold State.captureCommit; split <;> simp

@[simp] theorem State.captureCommit_ctx_bpp (p : CapturePlan) (sh : Shape) (o : Word) :
    (State.captureCommit s p sh o).ctx.bpp = s.ctx.bpp := by unfold State.captureCommit; split <;> simp

@[simp] theorem State.captureCommit_ctx_palshift (p : CapturePlan) (sh : Shape) (o : Word) :
    (State.captureCommit s p sh o).ctx.palshift = s.ctx.palshift := by unfold State.captureCommit; split <;> simp

@[simp] theorem State.captureCommit_ctx_palmask (p : CapturePlan) (sh : Shape) (o : Word) :
    (State.captureCommit s p sh o).ctx.palmask = s.ctx.palmask := by unfold State.captureCommit; split <;> simp

@[simp] theorem State.captureCommit_ctx_startpal (p : CapturePlan) (sh : Shape) (o : Word) :
    (State.captureCommit s p sh o).ctx.startpal = s.ctx.startpal := by unfold State.captureCommit; split <;> simp

@[simp] theorem State.captureCommit_ctx_direct (p : CapturePlan) (sh : Shape) (o : Word) :
    (State.captureCommit s p sh o).ctx.direct = s.ctx.direct := by unfold State.captureCommit; split <;> simp

@[simp] theorem State.captureCommit_ctx_iline (p : CapturePlan) (sh : Shape) (o : Word) :
    (State.captureCommit s p sh o).ctx.iline = s.ctx.iline := by unfold State.captureCommit; split <;> simp

@[simp] theorem State.captureCommit_ctx_z1 (p : CapturePlan) (sh : Shape) (o : Word) :
    (State.captureCommit s p sh o).ctx.z1 = s.ctx.z1 := by unfold State.captureCommit; split <;> simp

@[simp] theorem State.captureCommit_ctx_z2 (p : CapturePlan) (sh : Shape) (o : Word) :
    (State.captureCommit s p sh o).ctx.z2 = s.ctx.z2 := by unfold State.captureCommit; split <;> simp

@[simp] theorem State.captureCommit_ctx_starty (p : CapturePlan) (sh : Shape) (o : Word) :
    (State.captureCommit s p sh o).ctx.starty = s.ctx.starty := by unfold State.captureCommit; split <;> simp

@[simp] theorem State.captureCommit_ctx_endy (p : CapturePlan) (sh : Shape) (o : Word) :
    (State.captureCommit s p sh o).ctx.endy = s.ctx.endy := by unfold State.captureCommit; split <;> simp

@[simp] theorem State.captureCommit_ctx_fbd (p : CapturePlan) (sh : Shape) (o : Word) :
    (State.captureCommit s p sh o).ctx.fbd = s.ctx.fbd := by unfold State.captureCommit; split <;> simp

@[simp] theorem State.captureCommit_ctx_m7repeat (p : CapturePlan) (sh : Shape) (o : Word) :
    (State.captureCommit s p sh o).ctx.m7repeat = s.ctx.m7repeat := by unfold State.captureCommit; split <;> simp

@[simp] theorem State.captureCommit_ctx_hmosaic (p : CapturePlan) (sh : Shape) (o : Word) :
    (State.captureCommit s p sh o).ctx.hmosaic = s.ctx.hmosaic := by unfold State.captureCommit; split <;> simp

@[simp] theorem State.captureCommit_ctx_vmosaic (p : CapturePlan) (sh : Shape) (o : Word) :
    (State.captureCommit s p sh o).ctx.vmosaic = s.ctx.vmosaic := by unfold State.captureCommit; split <;> simp

@[simp] theorem State.captureCommit_ctx_mosaicstart (p : CapturePlan) (sh : Shape) (o : Word) :
    (State.captureCommit s p sh o).ctx.mosaicstart = s.ctx.mosaicstart := by unfold State.captureCommit; split <;> simp

@[simp] theorem State.captureCommit_ctx_origin (p : CapturePlan) (sh : Shape) (o : Word) :
    (State.captureCommit s p sh o).ctx.origin = s.ctx.origin := by unfold State.captureCommit; split <;> simp

@[simp] theorem State.captureCommit_ctx_ppl (p : CapturePlan) (sh : Shape) (o : Word) :
    (State.captureCommit s p sh o).ctx.ppl = s.ctx.ppl := by unfold State.captureCommit; split <;> simp

@[simp] theorem State.captureCommit_ctx_rppl (p : CapturePlan) (sh : Shape) (o : Word) :
    (State.captureCommit s p sh o).ctx.rppl = s.ctx.rppl := by unfold State.captureCommit; split <;> simp

@[simp] theorem State.captureCommit_ctx_capen (p : CapturePlan) (sh : Shape) (o : Word) :
    (State.captureCommit s p sh o).ctx.capen = s.ctx.capen := by unfold State.captureCommit; split <;> simp

@[simp] theorem State.captureCommit_ctx_frame (p : CapturePlan) (sh : Shape) (o : Word) :
    (State.captureCommit s p sh o).ctx.frame = s.ctx.frame := by unfold State.captureCommit; split <;> simp

@[simp] theorem State.captureCommit_ctx_shotid (p : CapturePlan) (sh : Shape) (o : Word) :
    (State.captureCommit s p sh o).ctx.shotid = s.ctx.shotid := by unfold State.captureCommit; split <;> simp

@[simp] theorem State.captureCommit_ctx_scsel (p : CapturePlan) (sh : Shape) (o : Word) :
    (State.captureCommit s p sh o).ctx.scsel = s.ctx.scsel := by unfold State.captureCommit; split <;> simp

@[simp] theorem State.captureCommit_ctx_tcsel (p : CapturePlan) (sh : Shape) (o : Word) :
    (State.captureCommit s p sh o).ctx.tcsel = s.ctx.tcsel := by unfold State.captureCommit; split <;> simp

@[simp] theorem State.captureCommit_ctx_decodecnt (p : CapturePlan) (sh : Shape) (o : Word) :
    (State.captureCommit s p sh o).ctx.decodecnt = s.ctx.decodecnt := by unfold State.captureCommit; split <;> simp

/-! ### `State.hostWrite` -/

@[simp] theorem State.hostWrite_cfg (sp : Space) (i : Nat) (v : Half) : (State.hostWrite sp i v s).cfg = s.cfg := by cases sp <;> rfl

@[simp] theorem State.hostWrite_ctx (sp : Space) (i : Nat) (v : Half) : (State.hostWrite sp i v s).ctx = s.ctx := by cases sp <;> rfl

@[simp] theorem State.hostWrite_tcbuf (sp : Space) (i : Nat) (v : Half) : (State.hostWrite sp i v s).tcbuf = s.tcbuf := by cases sp <;> rfl

@[simp] theorem State.hostWrite_tcflag (sp : Space) (i : Nat) (v : Half) : (State.hostWrite sp i v s).tcflag = s.tcflag := by cases sp <;> rfl

@[simp] theorem State.hostWrite_tiles (sp : Space) (i : Nat) (v : Half) : (State.hostWrite sp i v s).tiles = s.tiles := by cases sp <;> rfl

@[simp] theorem State.hostWrite_pals (sp : Space) (i : Nat) (v : Half) : (State.hostWrite sp i v s).pals = s.pals := by cases sp <;> rfl

@[simp] theorem State.hostWrite_refs (sp : Space) (i : Nat) (v : Half) : (State.hostWrite sp i v s).refs = s.refs := by cases sp <;> rfl

@[simp] theorem State.hostWrite_moves (sp : Space) (i : Nat) (v : Half) : (State.hostWrite sp i v s).moves = s.moves := by cases sp <;> rfl

@[simp] theorem State.hostWrite_response (sp : Space) (i : Nat) (v : Half) : (State.hostWrite sp i v s).response = s.response := by cases sp <;> rfl

@[simp] theorem State.hostWrite_memOut (sp : Space) (i : Nat) (v : Half) : (State.hostWrite sp i v s).memOut = s.memOut := by cases sp <;> rfl

@[simp] theorem State.hostWrite_freeCount (sp : Space) (i : Nat) (v : Half) : (State.hostWrite sp i v s).freeCount = s.freeCount := by cases sp <;> rfl

/-! ### `State.ready` -/

@[simp] theorem State.ready_cfg : (State.ready s).cfg = s.cfg := by unfold State.ready; split <;> rfl

@[simp] theorem State.ready_vram : (State.ready s).vram = s.vram := by unfold State.ready; split <;> rfl

@[simp] theorem State.ready_pal : (State.ready s).pal = s.pal := by unfold State.ready; split <;> rfl

@[simp] theorem State.ready_dcm : (State.ready s).dcm = s.dcm := by unfold State.ready; split <;> rfl

@[simp] theorem State.ready_lmd : (State.ready s).lmd = s.lmd := by unfold State.ready; split <;> rfl

@[simp] theorem State.ready_bcap : (State.ready s).bcap = s.bcap := by unfold State.ready; split <;> rfl

@[simp] theorem State.ready_sMain : (State.ready s).sMain = s.sMain := by unfold State.ready; split <;> rfl

@[simp] theorem State.ready_zMain : (State.ready s).zMain = s.zMain := by unfold State.ready; split <;> rfl

@[simp] theorem State.ready_sSub : (State.ready s).sSub = s.sSub := by unfold State.ready; split <;> rfl

@[simp] theorem State.ready_zSub : (State.ready s).zSub = s.zSub := by unfold State.ready; split <;> rfl

@[simp] theorem State.ready_tcbuf : (State.ready s).tcbuf = s.tcbuf := by unfold State.ready; split <;> rfl

@[simp] theorem State.ready_tcflag : (State.ready s).tcflag = s.tcflag := by unfold State.ready; split <;> rfl

@[simp] theorem State.ready_tiles : (State.ready s).tiles = s.tiles := by unfold State.ready; split <;> rfl

@[simp] theorem State.ready_pals : (State.ready s).pals = s.pals := by unfold State.ready; split <;> rfl

@[simp] theorem State.ready_refs : (State.ready s).refs = s.refs := by unfold State.ready; split <;> rfl

@[simp] theorem State.ready_moves : (State.ready s).moves = s.moves := by unfold State.ready; split <;> rfl

@[simp] theorem State.ready_response : (State.ready s).response = s.response := by unfold State.ready; split <;> rfl

@[simp] theorem State.ready_memOut : (State.ready s).memOut = s.memOut := by unfold State.ready; split <;> rfl

@[simp] theorem State.ready_freeCount : (State.ready s).freeCount = s.freeCount := by unfold State.ready; split <;> rfl

@[simp] theorem State.ready_ctx_target :
    (State.ready s).ctx.target = s.ctx.target := by unfold State.ready; split <;> rfl

@[simp] theorem State.ready_ctx_clip :
    (State.ready s).ctx.clip = s.ctx.clip := by unfold State.ready; split <;> rfl

@[simp] theorem State.ready_ctx_fixedcol :
    (State.ready s).ctx.fixedcol = s.ctx.fixedcol := by unfold State.ready; split <;> rfl

@[simp] theorem State.ready_ctx_rsel :
    (State.ready s).ctx.rsel = s.ctx.rsel := by unfold State.ready; split <;> rfl

@[simp] theorem State.ready_ctx_tileaddr :
    (State.ready s).ctx.tileaddr = s.ctx.tileaddr := by unfold State.ready; split <;> rfl

@[simp] theorem State.ready_ctx_namesel :
    (State.ready s).ctx.namesel = s.ctx.namesel := by unfold State.ready; split <;> rfl

@[simp] theorem State.ready_ctx_bpp :
    (State.ready s).ctx.bpp = s.ctx.bpp := by unfold State.ready; split <;> rfl

@[simp] theorem State.ready_ctx_palshift :
    (State.ready s).ctx.palshift = s.ctx.palshift := by unfold State.ready; split <;> rfl

@[simp] theorem State.ready_ctx_palmask :
    (State.ready s).ctx.palmask = s.ctx.palmask := by unfold State.ready; split <;> rfl

@[simp] theorem State.ready_ctx_startpal :
    (State.ready s).ctx.startpal = s.ctx.startpal := by unfold State.ready; split <;> rfl

@[simp] theorem State.ready_ctx_direct :
    (State.ready s).ctx.direct = s.ctx.direct := by unfold State.ready; split <;> rfl

@[simp] theorem State.ready_ctx_iline :
    (State.ready s).ctx.iline = s.ctx.iline := by unfold State.ready; split <;> rfl

@[simp] theorem State.ready_ctx_z1 :
    (State.ready s).ctx.z1 = s.ctx.z1 := by unfold State.ready; split <;> rfl

@[simp] theorem State.ready_ctx_z2 :
    (State.ready s).ctx.z2 = s.ctx.z2 := by unfold State.ready; split <;> rfl

@[simp] theorem State.ready_ctx_starty :
    (State.ready s).ctx.starty = s.ctx.starty := by unfold State.ready; split <;> rfl

@[simp] theorem State.ready_ctx_endy :
    (State.ready s).ctx.endy = s.ctx.endy := by unfold State.ready; split <;> rfl

@[simp] theorem State.ready_ctx_fbd :
    (State.ready s).ctx.fbd = s.ctx.fbd := by unfold State.ready; split <;> rfl

@[simp] theorem State.ready_ctx_m7repeat :
    (State.ready s).ctx.m7repeat = s.ctx.m7repeat := by unfold State.ready; split <;> rfl

@[simp] theorem State.ready_ctx_hmosaic :
    (State.ready s).ctx.hmosaic = s.ctx.hmosaic := by unfold State.ready; split <;> rfl

@[simp] theorem State.ready_ctx_vmosaic :
    (State.ready s).ctx.vmosaic = s.ctx.vmosaic := by unfold State.ready; split <;> rfl

@[simp] theorem State.ready_ctx_mosaicstart :
    (State.ready s).ctx.mosaicstart = s.ctx.mosaicstart := by unfold State.ready; split <;> rfl

@[simp] theorem State.ready_ctx_origin :
    (State.ready s).ctx.origin = s.ctx.origin := by unfold State.ready; split <;> rfl

@[simp] theorem State.ready_ctx_ppl :
    (State.ready s).ctx.ppl = s.ctx.ppl := by unfold State.ready; split <;> rfl

@[simp] theorem State.ready_ctx_rppl :
    (State.ready s).ctx.rppl = s.ctx.rppl := by unfold State.ready; split <;> rfl

@[simp] theorem State.ready_ctx_capen :
    (State.ready s).ctx.capen = s.ctx.capen := by unfold State.ready; split <;> rfl

@[simp] theorem State.ready_ctx_frame :
    (State.ready s).ctx.frame = s.ctx.frame := by unfold State.ready; split <;> rfl

@[simp] theorem State.ready_ctx_shotid :
    (State.ready s).ctx.shotid = s.ctx.shotid := by unfold State.ready; split <;> rfl

@[simp] theorem State.ready_ctx_ntiles :
    (State.ready s).ctx.ntiles = s.ctx.ntiles := by unfold State.ready; split <;> rfl

@[simp] theorem State.ready_ctx_npals :
    (State.ready s).ctx.npals = s.ctx.npals := by unfold State.ready; split <;> rfl

@[simp] theorem State.ready_ctx_nrefs :
    (State.ready s).ctx.nrefs = s.ctx.nrefs := by unfold State.ready; split <;> rfl

@[simp] theorem State.ready_ctx_scsel :
    (State.ready s).ctx.scsel = s.ctx.scsel := by unfold State.ready; split <;> rfl

@[simp] theorem State.ready_ctx_tcsel :
    (State.ready s).ctx.tcsel = s.ctx.tcsel := by unfold State.ready; split <;> rfl

@[simp] theorem State.ready_ctx_decodecnt :
    (State.ready s).ctx.decodecnt = s.ctx.decodecnt := by unfold State.ready; split <;> rfl

/-! ### What the updates write -/

@[simp] theorem State.done_response (v : RespValue) :
    (State.done v s).response = some (.ok v) := rfl

@[simp] theorem State.raise_response (c : FaultCode) :
    (State.raise c s).response = some (.fault c) := rfl

@[simp] theorem State.raise_ctx_status (c : FaultCode) :
    (State.raise c s).ctx.status = ⟨true, s.ctx.status.capreq, c.num⟩ := rfl

@[simp] theorem State.setScsel_ctx_scsel (c : Scsel) : (State.setScsel c s).ctx.scsel = c := rfl

@[simp] theorem State.selectPalette_ctx_scsel (t : Half) :
    (State.selectPalette t s).ctx.scsel = s.selected t := rfl

@[simp] theorem State.setRsel_ctx_rsel (m : MathMode) (a : AddrMode) :
    (State.setRsel m a s).ctx.rsel = ⟨m, a⟩ := rfl

@[simp] theorem State.resolve_ctx_tcsel (t : Half) :
    (State.resolve t s).ctx.tcsel = s.resolved t := rfl

@[simp] theorem State.softReset_ctx : (State.softReset s).ctx = Ctx.reset := rfl

@[simp] theorem State.hardReset_ctx : (State.hardReset s).ctx = Ctx.reset := rfl

@[simp] theorem State.hardReset_freeCount : (State.hardReset s).freeCount = s.freeCount + 9 := rfl

@[simp] theorem State.setCapreq_ctx_status (b : Bool) :
    (State.setCapreq b s).ctx.status = { s.ctx.status with capreq := b } := rfl

@[simp] theorem State.clearSlotFlags_tcflag : (State.clearSlotFlags s).tcflag = .zeros := rfl

@[simp] theorem State.frameStart_tcflag : (State.frameStart s).tcflag = .zeros := rfl

end

end Sys2Proof.Machine
end

