-- ==== Sys2Proof/Laws/Cache.lean ====
section
/-! SUPPORT. The tile cache: slots are apart, what a decode writes, and the two ways `Resolve` can end. -/

namespace Sys2Proof.Machine

theorem bit_le (b : Bool) : bit b ≤ 1 := by cases b <;> decide

theorem bppNum_le (b : Bpp) : b.num ≤ 2 := by cases b <;> decide

theorem slotKey_lt (bank : Bpp) (flip : Bool) (tn : BitVec 12) : slotKey bank flip tn < 24576 := by
  have := bit_le flip; have := bppNum_le bank; have := tn.isLt
  unfold slotKey; omega

/-- Distinct slots have distinct numbers. -/
theorem slotKey_injective {b b' : Bpp} {f f' : Bool} {t t' : BitVec 12}
    (h : slotKey b f t = slotKey b' f' t') : b = b' ∧ f = f' ∧ t = t' := by
  have h1 := t.isLt; have h2 := t'.isLt
  unfold slotKey at h
  have hb := bit_le f; have hb' := bit_le f'
  have e1 : b.num = b'.num := by omega
  have e2 : bit f = bit f' := by omega
  have e3 : t.toNat = t'.toNat := by omega
  refine ⟨?_, ?_, BitVec.eq_of_toNat_eq e3⟩
  · cases b <;> cases b' <;> simp [Bpp.num] at e1 ⊢
  · cases f <;> cases f' <;> simp [bit] at e2 ⊢

theorem convert_length (s : State) (bpp addr : Nat) : (s.convert bpp addr).length = 64 := by
  simp [State.convert]

theorem decodedPixels_length (s : State) (bank : Bpp) (flip : Bool) (addr : Nat) :
    (s.decodedPixels bank flip addr).length = 64 := by
  unfold State.decodedPixels mirrorH
  cases flip <;> simp [convert_length]

/-- The flag of the decoded slot, and of every other slot, after a decode (rule R192). -/
theorem decodeSlot_slotFlag (s : State) (bank bank' : Bpp) (flip flip' : Bool) (tn tn' : BitVec 12)
    (addr : Nat) :
    (State.decodeSlot bank flip tn addr s).slotFlag bank' flip' tn'
      = if bank' = bank ∧ flip' = flip ∧ tn' = tn then flagOf (s.decodedPixels bank flip addr)
        else s.slotFlag bank' flip' tn' := by
  unfold State.slotFlag State.decodeSlot
  simp only [MemoryLaws.read_write]
  by_cases h : bank' = bank ∧ flip' = flip ∧ tn' = tn
  · obtain ⟨rfl, rfl, rfl⟩ := h; simp
  · rw [if_neg (fun e => h (slotKey_injective e)), if_neg h]

/-- The bytes of the decoded slot after a decode (rule R192). -/
theorem decodeSlot_cacheByte_same (s : State) (bank : Bpp) (flip : Bool) (tn : BitVec 12)
    (addr : Nat) {k : Nat} (h : k < 64) :
    (State.decodeSlot bank flip tn addr s).cacheByte bank flip tn k
      = (s.decodedPixels bank flip addr)[k]'(by rw [decodedPixels_length]; exact h) := by
  unfold State.cacheByte State.decodeSlot
  simp only
  rw [MemoryLaws.read_writeMany_inside]

/-- The bytes of every other slot after a decode. -/
theorem decodeSlot_cacheByte_other (s : State) {bank bank' : Bpp} {flip flip' : Bool}
    {tn tn' : BitVec 12} (addr : Nat) {k : Nat} (hk : k < 64)
    (h : ¬(bank' = bank ∧ flip' = flip ∧ tn' = tn)) :
    (State.decodeSlot bank flip tn addr s).cacheByte bank' flip' tn' k
      = s.cacheByte bank' flip' tn' k := by
  have hne : slotKey bank' flip' tn' ≠ slotKey bank flip tn := fun e => h (slotKey_injective e)
  unfold State.cacheByte State.decodeSlot
  simp only
  rw [MemoryLaws.read_writeMany_outside]
  rw [decodedPixels_length]
  omega

theorem flagOf_ne_zero (px : List Byte) : flagOf px ≠ 0 := by
  unfold flagOf; split <;> decide

/-- `Resolve` of a slot already decoded writes `TCSEL` alone. -/
theorem resolve_of_decoded {s : State} {t : Half}
    (h : s.slotFlag s.ctx.bpp (s.hflip t) (s.tileNumber t) ≠ 0) :
    State.resolve t s = { s with ctx := { s.ctx with tcsel := s.resolved t } } := by
  unfold State.resolve State.fillSlot
  rw [if_neg h]

/-- `Resolve` of a slot not yet decoded decodes it. -/
theorem resolve_of_fresh {s : State} {t : Half}
    (h : s.slotFlag s.ctx.bpp (s.hflip t) (s.tileNumber t) = 0) :
    State.resolve t s =
      let u := State.decodeSlot s.ctx.bpp (s.hflip t) (s.tileNumber t) (s.tileAddr t) s
      { u with ctx := { u.ctx with tcsel := s.resolved t } } := by
  unfold State.resolve State.fillSlot
  rw [if_pos h]

/-- The flag of the resolved slot is never 0. -/
theorem resolve_slotFlag_self (s : State) (t : Half) :
    (State.resolve t s).slotFlag s.ctx.bpp (s.hflip t) (s.tileNumber t) ≠ 0 := by
  by_cases h : s.slotFlag s.ctx.bpp (s.hflip t) (s.tileNumber t) = 0
  · rw [resolve_of_fresh h]
    show (State.decodeSlot _ _ _ _ s).slotFlag _ _ _ ≠ 0
    rw [decodeSlot_slotFlag, if_pos ⟨rfl, rfl, rfl⟩]
    exact flagOf_ne_zero _
  · rw [resolve_of_decoded h]; exact h

theorem selectedFlag_resolve (s : State) (t : Half) :
    (State.resolve t s).selectedFlag
      = (State.resolve t s).slotFlag s.ctx.bpp (s.hflip t) (s.tileNumber t) := by
  unfold State.selectedFlag
  rw [State.resolve_ctx_tcsel]; rfl

/-- A slot already decoded keeps its flag and its bytes through a `Resolve`. -/
theorem resolve_keeps_slot (s : State) (t : Half) {bank : Bpp} {flip : Bool} {tn : BitVec 12}
    (h : s.slotFlag bank flip tn ≠ 0) :
    (State.resolve t s).slotFlag bank flip tn = s.slotFlag bank flip tn
      ∧ ∀ k < 64, (State.resolve t s).cacheByte bank flip tn k = s.cacheByte bank flip tn k := by
  by_cases h0 : s.slotFlag s.ctx.bpp (s.hflip t) (s.tileNumber t) = 0
  · have hne : ¬(bank = s.ctx.bpp ∧ flip = s.hflip t ∧ tn = s.tileNumber t) := by
      rintro ⟨rfl, rfl, rfl⟩; exact h h0
    rw [resolve_of_fresh h0]
    refine ⟨?_, fun k hk => ?_⟩
    · show (State.decodeSlot _ _ _ _ s).slotFlag _ _ _ = _
      rw [decodeSlot_slotFlag, if_neg hne]
    · show (State.decodeSlot _ _ _ _ s).cacheByte _ _ _ _ = _
      exact decodeSlot_cacheByte_other s _ hk hne
  · rw [resolve_of_decoded h0]; exact ⟨rfl, fun _ _ => rfl⟩

/-- Resolving the same reference again changes nothing (rule R192). -/
theorem resolve_idempotent (s : State) (t : Half) :
    State.resolve t (State.resolve t s) = State.resolve t s := by
  have hb : (State.resolve t s).ctx.bpp = s.ctx.bpp := by simp
  have hh : (State.resolve t s).hflip t = s.hflip t := by unfold State.hflip; simp
  have hn : (State.resolve t s).tileNumber t = s.tileNumber t := by
    unfold State.tileNumber State.tileAddr; simp
  have hr : (State.resolve t s).resolved t = s.resolved t := by
    unfold State.resolved; rw [hb, hh, hn]
  rw [resolve_of_decoded (s := State.resolve t s) (by rw [hb, hh, hn]; exact resolve_slotFlag_self s t),
    hr]
  rfl

/-- The tile number lies in its bank (rule R190). -/
theorem tileNumber_lt (s : State) (t : Half) :
    s.tileAddr t / 2 ^ tileShift s.ctx.bpp < 65536 / 2 ^ tileShift s.ctx.bpp := by
  have h : s.tileAddr t < 65536 := Nat.mod_lt _ (by decide)
  unfold tileShift
  cases s.ctx.bpp <;> simp only [Bpp.num] <;> omega

theorem tileNumber_toNat (s : State) (t : Half) :
    (s.tileNumber t).toNat = s.tileAddr t / 2 ^ tileShift s.ctx.bpp := by
  have h := tileNumber_lt s t
  unfold State.tileNumber
  rw [BitVec.toNat_ofNat, Nat.mod_eq_of_lt]
  refine Nat.lt_of_lt_of_le h ?_
  unfold tileShift
  cases s.ctx.bpp <;> decide

end Sys2Proof.Machine
end

