-- ==== Sys2Proof/Laws/Capture.lean ====
section
/-! SUPPORT. What the capture procedure can do, said once (spec/46_capturestore.md rules R273 to
R281), and the two ways a Mode-7 command ends (spec/44_mode7.md rules R238, R243). -/

namespace CaptureLaws

open Sys2Proof Sys2Proof.Machine

/-! ## Usage counts (rule R275) -/

theorem bumpUsage_sum (l : List (Nat × Word)) (a : Nat) :
    ((bumpUsage l a).map Prod.snd).sum = (l.map Prod.snd).sum + 1 := by
  induction l with
  | nil => simp [bumpUsage]
  | cons u t ih =>
    obtain ⟨k, n⟩ := u
    rw [bumpUsage]
    split_ifs
    · simp only [List.map_cons, List.sum_cons]; ring
    · simp only [List.map_cons, List.sum_cons]; ring
    · simp only [List.map_cons, List.sum_cons, ih]; ring

/-- A counted palette is the one just used or was counted before. -/
theorem mem_bumpUsage {l : List (Nat × Word)} {a : Nat} {u : Nat × Word} (h : u ∈ bumpUsage l a) :
    u.1 = a ∨ ∃ v ∈ l, v.1 = u.1 := by
  induction l with
  | nil =>
    rw [bumpUsage, List.mem_singleton] at h
    exact .inl (by rw [h])
  | cons v t ih =>
    obtain ⟨k, n⟩ := v
    rw [bumpUsage] at h
    split_ifs at h with h1 h2
    · rcases List.mem_cons.1 h with h | h
      · exact .inl (by rw [h])
      · exact .inr ⟨u, h, rfl⟩
    · rcases List.mem_cons.1 h with h | h
      · exact .inl (by rw [h, h2])
      · exact .inr ⟨u, List.mem_cons_of_mem _ h, rfl⟩
    · rcases List.mem_cons.1 h with h | h
      · exact .inr ⟨(k, n), List.mem_cons_self, by rw [h]⟩
      · rcases ih h with h | ⟨v, hv, e⟩
        · exact .inl h
        · exact .inr ⟨v, List.mem_cons_of_mem _ hv, e⟩

/-- A bump keeps a usage map in rising palette id. -/
theorem bumpUsage_rises {l : List (Nat × Word)} (a : Nat) (h : (l.map Prod.fst).Pairwise (· < ·)) :
    ((bumpUsage l a).map Prod.fst).Pairwise (· < ·) := by
  induction l with
  | nil => simp [bumpUsage]
  | cons u t ih =>
    obtain ⟨k, n⟩ := u
    simp only [List.map_cons, List.pairwise_cons] at h
    rw [bumpUsage]
    split_ifs with h1 h2
    · simp only [List.map_cons, List.pairwise_cons, List.mem_cons]
      exact ⟨by rintro x (rfl | hx); exacts [h1, h1.trans (h.1 x hx)], h.1, h.2⟩
    · simpa [h2] using h
    · simp only [List.map_cons, List.pairwise_cons]
      refine ⟨fun x hx => ?_, ih h.2⟩
      obtain ⟨u, hu, rfl⟩ := List.mem_map.1 hx
      rcases mem_bumpUsage hu with e | ⟨v, hv, e⟩
      · omega
      · exact e ▸ h.1 v.1 (List.mem_map_of_mem hv)

/-- The count of palette `q` in a usage map that lists `k` first. -/
theorem count_cons (k q : Nat) (n : Word) (l : List (Nat × Word)) :
    ((((k, n) :: l).find? fun u => u.1 == q).map Prod.snd).getD 0
      = if k = q then n else ((l.find? fun u => u.1 == q).map Prod.snd).getD 0 := by
  rw [List.find?_cons]
  by_cases h : k = q
  · simp [h]
  · simp [h, beq_eq_false_iff_ne.2 h]

/-- A bump counts the palette it names once more and no other. -/
theorem bumpUsage_count {l : List (Nat × Word)} (a q : Nat) (h : (l.map Prod.fst).Pairwise (· < ·)) :
    (((bumpUsage l a).find? fun u => u.1 == q).map Prod.snd).getD 0
      = ((l.find? fun u => u.1 == q).map Prod.snd).getD 0 + if q = a then 1 else 0 := by
  induction l with
  | nil =>
    rw [bumpUsage, count_cons]
    by_cases e : q = a
    · simp [e]
    · simp [e, Ne.symm e]
  | cons u t ih =>
    obtain ⟨k, n⟩ := u
    simp only [List.map_cons, List.pairwise_cons] at h
    have hn : q < k → (t.find? fun u => u.1 == q) = none := by
      intro hq
      rw [List.find?_eq_none]
      intro x hx
      have := h.1 x.1 (List.mem_map_of_mem hx)
      simp; omega
    rw [bumpUsage]
    by_cases h1 : a < k
    · rw [if_pos h1, count_cons, count_cons]
      by_cases e : q = a
      · subst e
        rw [if_pos rfl, if_neg (by omega), hn h1, if_pos rfl]; simp
      · rw [if_neg (Ne.symm e), if_neg e, add_zero]
    · by_cases h2 : a = k
      · rw [if_neg h1, if_pos h2, count_cons, count_cons]
        by_cases e : k = q
        · rw [if_pos e, if_pos e, if_pos (by omega)]
        · rw [if_neg e, if_neg e, if_neg (by omega), add_zero]
      · rw [if_neg h1, if_neg h2, count_cons, count_cons, ih h.2]
        by_cases e : k = q
        · rw [if_pos e, if_pos e, if_neg (by omega), add_zero]
        · rw [if_neg e, if_neg e]

/-! ## The two phases (rule R273) -/

/-- A full store stops the procedure; otherwise it commits its plan. -/
theorem captureObserve_eq (t : Half) (shape : Shape) (offset : Word) (s : State) :
    State.captureObserve t shape offset s
      = if s.captureFull (State.capturePlan t s) then none
        else some (s.captureCommit (State.capturePlan t s) shape offset) := rfl

/-- A commit changes the three stores, their counts and the request, and nothing else. -/
theorem captureCommit_rest (s : State) (p : CapturePlan) (shape : Shape) (offset : Word) :
    s.captureCommit p shape offset = { s with
      tiles := (s.captureCommit p shape offset).tiles
      pals := (s.captureCommit p shape offset).pals
      refs := (s.captureCommit p shape offset).refs
      ctx := { s.ctx with
        ntiles := (s.captureCommit p shape offset).ctx.ntiles
        npals := (s.captureCommit p shape offset).ctx.npals
        nrefs := (s.captureCommit p shape offset).ctx.nrefs
        status := { s.ctx.status with
          capreq := (s.captureCommit p shape offset).ctx.status.capreq } } } := by
  unfold State.captureCommit
  split <;> rfl

theorem captureCommit_pals (s : State) (p : CapturePlan) (shape : Shape) (offset : Word) :
    (s.captureCommit p shape offset).pals = s.capturePals p := by
  unfold State.captureCommit
  split <;> rfl

theorem captureCommit_tiles (s : State) (p : CapturePlan) (shape : Shape) (offset : Word) :
    (s.captureCommit p shape offset).tiles = match p.tileAt with
      | some i => s.tiles.set i (s.captureTile p)
      | none => s.tiles ++ [s.captureTile p] := by
  unfold State.captureCommit
  split <;> rfl

theorem captureCommit_refs (s : State) (p : CapturePlan) (shape : Shape) (offset : Word) :
    (s.captureCommit p shape offset).refs
      = if p.needsRef then s.refs ++ [s.captureRef p shape offset] else s.refs := by
  have h : (s.captureCommit p shape offset).refs = (s.captureStores p shape offset).refs := by
    unfold State.captureCommit
    split <;> rfl
  exact h

theorem captureCommit_capreq (s : State) (p : CapturePlan) (shape : Shape) (offset : Word) :
    (s.captureCommit p shape offset).ctx.status.capreq = (p.needsRef || s.ctx.status.capreq) := by
  unfold State.captureCommit
  cases p.needsRef <;> rfl

/-- The record of the tile drawn keeps the identity of the record it was found in. -/
theorem captureTile_identity (s : State) (p : CapturePlan) :
    (s.captureTile p).id = (s.captureBase p).id ∧ (s.captureTile p).pixels = (s.captureBase p).pixels
      ∧ (s.captureTile p).palsize = (s.captureBase p).palsize := ⟨rfl, rfl, rfl⟩

/-- Every observed draw counts once in the usage of its tile (rule R275). -/
theorem captureTile_usageSum (s : State) (p : CapturePlan) :
    (s.captureTile p).usageSum = (s.captureBase p).usageSum + 1 :=
  bumpUsage_sum _ _

/-- Every observed draw counts once in the frequency of its palette (rule R274). -/
theorem capturePals_frequency (s : State) (p : CapturePlan) (h : ∀ i, p.palAt = some i →
    i < s.pals.length) :
    ((s.capturePals p).map PalRecord.frequency).sum = (s.pals.map PalRecord.frequency).sum + 1 := by
  unfold State.capturePals
  cases hp : p.palAt with
  | none => simp
  | some i =>
    have hi := h i hp
    clear hp h
    generalize s.pals = l at hi ⊢
    induction l generalizing i with
    | nil => cases hi
    | cons r t ih =>
      cases i with
      | zero => simp; ring
      | succ i =>
        have := ih i (by simpa using hi)
        simp only [List.modify_succ_cons, List.map_cons, List.sum_cons, this]
        ring

/-- The palette a plan finds is in the store. -/
theorem capturePlan_palAt (t : Half) (s : State) {i : Nat} (h : (State.capturePlan t s).palAt = some i) :
    ∃ r, s.pals[i]? = some r ∧ palKey r.colors = palKey s.palColors := by
  have h' : s.pals.findIdx? (fun r => palKey r.colors == palKey s.palColors) = some i := h
  rw [List.findIdx?_eq_some_iff_getElem] at h'
  obtain ⟨hi, hk, _⟩ := h'
  exact ⟨s.pals[i], List.getElem?_eq_getElem hi, by simpa using hk⟩

/-- The tile a plan finds is in the store. -/
theorem capturePlan_tileAt (t : Half) (s : State) {i : Nat}
    (h : (State.capturePlan t s).tileAt = some i) :
    ∃ r, s.tiles[i]? = some r ∧ r.pixels = s.tileKey := by
  have h' : s.tiles.findIdx? (fun r => r.pixels == s.tileKey) = some i := h
  rw [List.findIdx?_eq_some_iff_getElem] at h'
  obtain ⟨hi, hk, _⟩ := h'
  exact ⟨s.tiles[i], List.getElem?_eq_getElem hi, by simpa using hk⟩

/-! ## Mode-7 commands -/

/-- A row command faults before any change or runs its plots under its palette. -/
theorem m7Row_cases (bg : Bg) (left right : Half) (d : Byte) (s : State) :
    (s.linesOk = false ∧ State.m7Row bg left right d s = s.raise .lineRange)
      ∨ (s.linesOk = true ∧ State.m7Row bg left right d s
          = (State.setScsel (s.m7Scsel bg) s).runPlots
              (State.m7RowPlots bg left right d (State.setScsel (s.m7Scsel bg) s))) := by
  unfold State.m7Row
  cases h : s.linesOk
  · exact .inl ⟨rfl, if_neg (by simp)⟩
  · exact .inr ⟨rfl, if_pos rfl⟩

/-- The check of a mosaic command holds exactly when `ENDY` is in the table or no line is drawn, and the
top line of every block is in the table: each record that rule R243 reads exists. -/
theorem mosaicLinesOk_iff (s : State) (hV : s.ctx.mosaicstart.toNat < s.ctx.vmosaic.toNat)
    (hS : s.ctx.mosaicstart.toNat ≤ s.ctx.starty.toNat) :
    s.mosaicLinesOk = true ↔ s.linesOk = true
      ∧ ∀ j < s.mosaicBlocks, s.mosaicLine0 + s.ctx.vmosaic.toNat * j < s.cfg.lines := by
  have hpos : 0 < s.ctx.vmosaic.toNat := by omega
  have hb : ∀ j, j < s.mosaicBlocks ↔ s.mosaicLine0 + s.ctx.vmosaic.toNat * j ≤ s.ctx.endy.toNat := by
    intro j
    unfold State.mosaicBlocks
    rw [← Nat.succ_le_iff, Nat.le_div_iff_mul_le hpos, Nat.succ_mul, Nat.mul_comm]
    omega
  unfold State.mosaicLinesOk State.linesOk
  simp only [Bool.and_eq_true, decide_eq_true_eq]
  constructor
  · rintro ⟨h1, h2⟩
    refine ⟨h1, fun j hj => ?_⟩
    rw [hb] at hj
    unfold State.mosaicLine0 at *
    rcases Nat.eq_zero_or_pos j with rfl | h
    · omega
    · have := Nat.le_mul_of_pos_right s.ctx.vmosaic.toNat h
      omega
  · rintro ⟨h1, h2⟩
    refine ⟨h1, ?_⟩
    by_cases h : s.ctx.endy.toNat < s.mosaicLine0
    · exact .inl h
    · exact .inr (by simpa using h2 0 ((hb 0).2 (by simpa using h)))

/-- A mosaic command faults before any change, in the order of its checks, or runs its plots. -/
theorem m7MosaicRow_cases (bg : Bg) (left right : Half) (d : Byte) (s : State) :
    (s.ctx.vmosaic.toNat ≤ s.ctx.mosaicstart.toNat
        ∧ State.m7MosaicRow bg left right d s = s.raise .illegalOperand)
      ∨ (s.ctx.mosaicstart.toNat < s.ctx.vmosaic.toNat
          ∧ (s.ctx.starty.toNat < s.ctx.mosaicstart.toNat ∨ s.mosaicLinesOk = false)
          ∧ State.m7MosaicRow bg left right d s = s.raise .lineRange)
      ∨ (s.ctx.mosaicstart.toNat < s.ctx.vmosaic.toNat
          ∧ s.ctx.mosaicstart.toNat ≤ s.ctx.starty.toNat ∧ s.mosaicLinesOk = true
          ∧ State.m7MosaicRow bg left right d s
            = (State.setScsel (s.m7Scsel bg) s).runPlots
                (State.m7MosaicPlots bg left right d (State.setScsel (s.m7Scsel bg) s))) := by
  unfold State.m7MosaicRow
  split_ifs with h1 h2 h3
  · exact .inl ⟨h1, rfl⟩
  · exact .inr (.inl ⟨by omega, .inl h2, rfl⟩)
  · exact .inr (.inr ⟨by omega, by omega, h3, rfl⟩)
  · exact .inr (.inl ⟨by omega, .inr (by simpa using h3), rfl⟩)

end CaptureLaws
end

