-- ==== Sys2Proof/Laws/Draw.lean ====
section
/-! SUPPORT. What plotting can do to a state, said once: a sequence of writes to cells of the target pair.
Every plot, sequence of plots and `F_BUF_RANGE` is such a sequence, inside its footprint. -/

namespace Sys2Proof.Machine

/-- `t` comes from `s` by writes to target screen cells in `A` and target depth cells in `B`, and by free
values drawn. -/
inductive Draws (A B : Nat → Prop) (s : State) : State → Prop
  | refl : Draws A B s s
  | screen {t : State} (i : Nat) (v : Half) : Draws A B s t → A i → Draws A B s (State.writeTS i v t)
  | depth {t : State} (i : Nat) (v : Byte) : Draws A B s t → B i → Draws A B s (State.writeTZ i v t)
  | count {t : State} (n : Nat) : Draws A B s t → Draws A B s { t with freeCount := n }

namespace Draws

variable {A B A' B' : Nat → Prop} {s t u : State}

theorem mono (hA : ∀ i, A i → A' i) (hB : ∀ i, B i → B' i) (h : Draws A B s t) :
    Draws A' B' s t := by
  induction h with
  | refl => exact .refl
  | screen i v _ hi ih => exact .screen i v ih (hA i hi)
  | depth i v _ hi ih => exact .depth i v ih (hB i hi)
  | count n _ ih => exact .count n ih

theorem trans (h : Draws A B s t) (h' : Draws A B t u) : Draws A B s u := by
  induction h' with
  | refl => exact h
  | screen i v _ hi ih => exact .screen i v ih hi
  | depth i v _ hi ih => exact .depth i v ih hi
  | count n _ ih => exact .count n ih

/-- All but the four screen memories and the count of free values is the same. -/
theorem rest (h : Draws A B s t) :
    t = { s with
      sMain := t.sMain
      zMain := t.zMain
      sSub := t.sSub
      zSub := t.zSub
      freeCount := t.freeCount } := by
  induction h with
  | refl => rfl
  | screen i v _ _ ih => rw [ih]; unfold State.writeTS; split <;> rfl
  | depth i v _ _ ih => rw [ih]; unfold State.writeTZ; split <;> rfl
  | count n _ ih => rw [ih]

theorem ctx (h : Draws A B s t) : t.ctx = s.ctx := by rw [h.rest]

theorem cfg (h : Draws A B s t) : t.cfg = s.cfg := by rw [h.rest]

theorem peer (h : Draws A B s t) : s.samePeer t := by
  have key : ∀ {t}, Draws A B s t →
      (s.ctx.target = .main → t.sSub = s.sSub ∧ t.zSub = s.zSub)
        ∧ (s.ctx.target = .sub → t.sMain = s.sMain ∧ t.zMain = s.zMain) := by
    intro t h
    induction h with
    | refl => simp
    | screen i v h' _ ih =>
      have := h'.ctx
      unfold State.writeTS
      rw [this]
      split <;> next ht => simp [ht] at ih ⊢; exact ih
    | depth i v h' _ ih =>
      have := h'.ctx
      unfold State.writeTZ
      rw [this]
      split <;> next ht => simp [ht] at ih ⊢; exact ih
    | count n _ ih => exact ih
  unfold State.samePeer
  split <;> next ht => simp [ht] at key; exact key h

/-- A state drawn from `s` is `s` but for the target pair, the response and the free count. -/
theorem onlyTarget (h : Draws A B s t) : s.onlyTarget t := by
  have hr := h.rest
  have hp := h.peer
  unfold State.samePeer at hp
  unfold State.onlyTarget
  split <;> next ht => rw [ht] at hp; simp only at hp; rw [hr]; simp [hp]

theorem readTS_writeTS (s : State) (i j : Nat) (v : Half) :
    (State.writeTS i v s).readTS j = if j = i then v else s.readTS j := by
  unfold State.writeTS State.readTS
  cases h : s.ctx.target <;> simp [h, MemoryLaws.read_write]

theorem readTZ_writeTS (s : State) (i j : Nat) (v : Half) :
    (State.writeTS i v s).readTZ j = s.readTZ j := by
  unfold State.writeTS State.readTZ
  cases h : s.ctx.target <;> simp [h]

theorem readTZ_writeTZ (s : State) (i j : Nat) (v : Byte) :
    (State.writeTZ i v s).readTZ j = if j = i then v else s.readTZ j := by
  unfold State.writeTZ State.readTZ
  cases h : s.ctx.target <;> simp [h, MemoryLaws.read_write]

theorem readTS_writeTZ (s : State) (i j : Nat) (v : Byte) :
    (State.writeTZ i v s).readTS j = s.readTS j := by
  unfold State.writeTZ State.readTS
  cases h : s.ctx.target <;> simp [h]

theorem readTS_count (s : State) (n j : Nat) : ({ s with freeCount := n } : State).readTS j = s.readTS j :=
  rfl

theorem readTZ_count (s : State) (n j : Nat) : ({ s with freeCount := n } : State).readTZ j = s.readTZ j :=
  rfl

/-- A screen cell outside `A` keeps its value. -/
theorem readTS_outside (h : Draws A B s t) {i : Nat} (hi : ¬ A i) : t.readTS i = s.readTS i := by
  induction h with
  | refl => rfl
  | screen j v _ hj ih =>
    rw [readTS_writeTS, if_neg (by rintro rfl; exact hi hj), ih]
  | depth j v _ _ ih => rw [readTS_writeTZ, ih]
  | count n _ ih => exact ih

/-- A depth cell outside `B` keeps its value. -/
theorem readTZ_outside (h : Draws A B s t) {i : Nat} (hi : ¬ B i) : t.readTZ i = s.readTZ i := by
  induction h with
  | refl => rfl
  | screen j v _ _ ih => rw [readTZ_writeTS, ih]
  | depth j v _ hj ih =>
    rw [readTZ_writeTZ, if_neg (by rintro rfl; exact hi hj), ih]
  | count n _ ih => exact ih

/-- Drawing inside the memories keeps their canonical form and their range. -/
theorem screensOk (h : Draws A B s t) {n : Nat} (hA : ∀ i, A i → i < n) (hB : ∀ i, B i → i < n)
    (hs : (s.sMain.wf = true ∧ s.sMain.below n = true) ∧ (s.zMain.wf = true ∧ s.zMain.below n = true)
      ∧ (s.sSub.wf = true ∧ s.sSub.below n = true) ∧ (s.zSub.wf = true ∧ s.zSub.below n = true)) :
    (t.sMain.wf = true ∧ t.sMain.below n = true) ∧ (t.zMain.wf = true ∧ t.zMain.below n = true)
      ∧ (t.sSub.wf = true ∧ t.sSub.below n = true) ∧ (t.zSub.wf = true ∧ t.zSub.below n = true) := by
  induction h with
  | refl => exact hs
  | screen i v _ hi ih =>
    obtain ⟨h1, h2, h3, h4⟩ := ih
    unfold State.writeTS
    split
    · exact ⟨⟨MemoryLaws.write_wf i v h1.1, MemoryLaws.write_below v (hA i hi) h1.2⟩, h2, h3, h4⟩
    · exact ⟨h1, h2, ⟨MemoryLaws.write_wf i v h3.1, MemoryLaws.write_below v (hA i hi) h3.2⟩, h4⟩
  | depth i v _ hi ih =>
    obtain ⟨h1, h2, h3, h4⟩ := ih
    unfold State.writeTZ
    split
    · exact ⟨h1, ⟨MemoryLaws.write_wf i v h2.1, MemoryLaws.write_below v (hB i hi) h2.2⟩, h3, h4⟩
    · exact ⟨h1, h2, h3, ⟨MemoryLaws.write_wf i v h4.1, MemoryLaws.write_below v (hB i hi) h4.2⟩⟩
  | count n _ ih => exact ih

end Draws

/-! ## Addresses -/

/-- `Phys(a)` is in range exactly where the rule says, and is the physical index (rule R88). -/
theorem phys_eq_some (s : State) (a : Int) (i : Nat) :
    s.phys a = some i ↔ s.inRange a ∧ i = s.index a := by
  unfold State.phys State.inRange State.index
  simp only
  split
  · next h => simp [h, eq_comm]
  · next h => simp [h]

theorem phys_eq_none (s : State) (a : Int) : s.phys a = none ↔ ¬ s.inRange a := by
  unfold State.phys State.inRange
  simp only
  split
  · next h => simp [h]
  · next h => simp [h]

theorem phys_of_inRange {s : State} {a : Int} (h : s.inRange a) : s.phys a = some (s.index a) :=
  (phys_eq_some s a _).2 ⟨h, rfl⟩

theorem index_lt {s : State} {a : Int} (h : s.inRange a) : s.index a < s.cfg.bufsz := by
  unfold State.inRange at h; unfold State.index; omega

theorem phys_lt {s : State} {a : Int} {i : Nat} (h : s.phys a = some i) : i < s.cfg.bufsz := by
  rw [phys_eq_some] at h
  rw [h.2]; exact index_lt h.1

theorem index_injective {s : State} {a b : Int} (ha : s.inRange a) (hb : s.inRange b)
    (h : s.index a = s.index b) : a = b := by
  unfold State.inRange at ha hb; unfold State.index at h; omega

theorem phys_congr {s t : State} (hc : t.cfg = s.cfg) (ho : t.ctx.origin = s.ctx.origin) (a : Int) :
    t.phys a = s.phys a := by
  unfold State.phys; rw [hc, ho]

theorem phys2_of_inRange {s : State} {a b : Int} (ha : s.inRange a) (hb : s.inRange b) :
    s.phys2 a b = some (s.index a, s.index b) := by
  unfold State.phys2; rw [phys_of_inRange ha, phys_of_inRange hb]

theorem phys2_eq_none (s : State) (a b : Int) :
    s.phys2 a b = none ↔ ¬(s.inRange a ∧ s.inRange b) := by
  by_cases ha : s.inRange a
  · by_cases hb : s.inRange b
    · simp [phys2_of_inRange ha hb, ha, hb]
    · simp [State.phys2, (phys_eq_none s b).2 hb, hb, phys_of_inRange ha]
  · simp [State.phys2, (phys_eq_none s a).2 ha, ha]

/-- The physical screen cells a plot of variant `v` can write. -/
def PlotCall.screenOf (v : AddrMode) (p : PlotCall) (s : State) (i : Nat) : Prop :=
  ∃ a ∈ p.screenAddrs v s, s.phys a = some i

/-- The physical depth cells a plot of variant `v` can write. -/
def PlotCall.depthOf (v : AddrMode) (p : PlotCall) (s : State) (i : Nat) : Prop :=
  ∃ a ∈ p.depthAddrs v, s.phys a = some i

/-! ## One plot -/

/-- What each plot variant can do. -/
theorem plotN1x1_cases (p : PlotCall) (s : State) :
    (¬ s.inRange p.base1 ∧ plotN1x1 p s = .outAtBase)
      ∨ (s.inRange p.base1 ∧ s.passes p (s.index p.base1) = false ∧ plotN1x1 p s = .ended s)
      ∨ (s.inRange p.base1 ∧ s.passes p (s.index p.base1) = true
          ∧ plotN1x1 p s = .ended (s.draw1 p (s.index p.base1))) := by
  unfold plotN1x1
  by_cases h : s.inRange p.base1
  · rw [phys_of_inRange h]
    cases hp : s.passes p (s.index p.base1) <;> simp [h, hp]
  · rw [(phys_eq_none s _).2 h]; simp [h]

theorem plotN2x1_cases (p : PlotCall) (s : State) :
    (¬(s.inRange p.base2 ∧ s.inRange (p.base2 + 1)) ∧ plotN2x1 p s = .outAtBase)
      ∨ (s.inRange p.base2 ∧ s.inRange (p.base2 + 1) ∧ s.passes p (s.index p.base2) = false
          ∧ plotN2x1 p s = .ended s)
      ∨ (s.inRange p.base2 ∧ s.inRange (p.base2 + 1) ∧ s.passes p (s.index p.base2) = true
          ∧ plotN2x1 p s = .ended (s.draw2 p (s.index p.base2) (s.index (p.base2 + 1)))) := by
  unfold plotN2x1
  by_cases h : s.inRange p.base2 ∧ s.inRange (p.base2 + 1)
  · rw [phys2_of_inRange h.1 h.2]
    cases hp : s.passes p (s.index p.base2) <;> simp [h, hp]
  · rw [(phys2_eq_none s _ _).2 h]; simp [h]

/-- The state of a hi-res plot that passes the gate and draws a combined column. -/
def State.hiresCombined (s : State) (p : PlotCall) : State :=
  let i := s.index p.base2
  let j := s.index (p.base2 + 1)
  (((s.drawMain p i j).drawCombined p (Memory.read s.zSub i) (s.index (p.base2 + 2))).finishHires p i j)

/-- The state of a hi-res plot that passes the gate and draws no combined column. -/
def State.hiresLast (s : State) (p : PlotCall) : State :=
  (s.drawMain p (s.index p.base2) (s.index (p.base2 + 1))).finishHires p (s.index p.base2)
    (s.index (p.base2 + 1))

theorem drawMain_phys (s : State) (p : PlotCall) (i j : Nat) (a : Int) :
    (s.drawMain p i j).phys a = s.phys a :=
  phys_congr (by simp [State.drawMain]) (by simp [State.drawMain]) a

theorem plotHires_cases (p : PlotCall) (s : State) :
    (¬(s.inRange p.base2 ∧ s.inRange (p.base2 + 1)) ∧ plotHires p s = .outAtBase)
      ∨ (s.inRange p.base2 ∧ s.inRange (p.base2 + 1) ∧ s.passes p (s.index p.base2) = false
          ∧ plotHires p s = .ended s)
      ∨ (s.inRange p.base2 ∧ s.inRange (p.base2 + 1) ∧ s.passes p (s.index p.base2) = true
          ∧ p.combines = true ∧ ¬ s.inRange (p.base2 + 2) ∧ plotHires p s = .outAtCombined)
      ∨ (s.inRange p.base2 ∧ s.inRange (p.base2 + 1) ∧ s.passes p (s.index p.base2) = true
          ∧ p.combines = true ∧ s.inRange (p.base2 + 2)
          ∧ plotHires p s = .ended (s.hiresCombined p))
      ∨ (s.inRange p.base2 ∧ s.inRange (p.base2 + 1) ∧ s.passes p (s.index p.base2) = true
          ∧ p.combines = false ∧ plotHires p s = .ended (s.hiresLast p)) := by
  unfold plotHires
  by_cases h : s.inRange p.base2 ∧ s.inRange (p.base2 + 1)
  · rw [phys2_of_inRange h.1 h.2]
    cases hp : s.passes p (s.index p.base2)
    · simp [h, hp]
    · cases hc : p.combines
      · simp [h, hp, State.hiresLast]
      · by_cases hk : s.inRange (p.base2 + 2)
        · simp [h, hp, hk, phys_of_inRange hk, State.hiresCombined]
        · simp [h, hp, hk, (phys_eq_none s _).2 hk]
  · rw [(phys2_eq_none s _ _).2 h]; simp [h]

theorem draws_freeTS {A B : Nat → Prop} {s t : State} (h : Draws A B s t) {i : Nat} (hi : A i) :
    Draws A B s (State.freeTS i t) :=
  .count _ (.screen i _ h hi)

theorem draws_freeTZ {A B : Nat → Prop} {s t : State} (h : Draws A B s t) {i : Nat} (hi : B i) :
    Draws A B s (State.freeTZ i t) :=
  .count _ (.depth i _ h hi)

theorem draws_finishHires {A B : Nat → Prop} {s t : State} (h : Draws A B s t) {p : PlotCall} {i j : Nat}
    (hA : p.firstOfLine s = true → A i) (hi : B i) (hj : B j) :
    Draws A B s (t.finishHires p i j) := by
  unfold State.finishHires
  refine .depth j _ (.depth i _ ?_ hi) hj
  have hf : p.firstOfLine t = p.firstOfLine s := by unfold PlotCall.firstOfLine; rw [h.ctx]
  rw [hf]
  split
  · next hl => exact draws_freeTS h (hA hl)
  · exact h

/-- A plot that ends only draws inside its cells. -/
theorem plotVariant_draws {v : AddrMode} {p : PlotCall} {s t : State}
    (h : plotVariant v p s = .ended t) : Draws (p.screenOf v s) (p.depthOf v s) s t := by
  have two : ∀ v', (v' = .n2x1 ∨ v' = .int) → ∀ {t}, plotN2x1 p s = .ended t →
      Draws (p.screenOf v' s) (p.depthOf v' s) s t := by
    intro v' hv t ht
    rcases plotN2x1_cases p s with ⟨_, e⟩ | ⟨_, _, _, e⟩ | ⟨h1, h2, _, e⟩
    · rw [e] at ht; cases ht
    · rw [e] at ht; cases ht; exact .refl
    · rw [e] at ht; cases ht
      have a1 := phys_of_inRange h1
      have a2 := phys_of_inRange h2
      unfold State.draw2
      rcases hv with rfl | rfl
      all_goals
        refine .depth _ _ (.depth _ _ (.screen _ _ (.screen _ _ .refl ?_) ?_) ?_) ?_
        · exact ⟨p.base2, by simp [PlotCall.screenAddrs], a1⟩
        · exact ⟨p.base2 + 1, by simp [PlotCall.screenAddrs], a2⟩
        · exact ⟨p.base2, by simp [PlotCall.depthAddrs], a1⟩
        · exact ⟨p.base2 + 1, by simp [PlotCall.depthAddrs], a2⟩
  have hi : ∀ v', (v' = .hires ∨ v' = .hiresint) → ∀ {t}, plotHires p s = .ended t →
      Draws (p.screenOf v' s) (p.depthOf v' s) s t := by
    intro v' hv t ht
    have base : s.inRange p.base2 → s.inRange (p.base2 + 1) →
        (p.screenOf v' s (s.index (p.base2 + 1)))
        ∧ (p.firstOfLine s = true → p.screenOf v' s (s.index p.base2))
        ∧ (p.combines = true → s.inRange (p.base2 + 2) → p.screenOf v' s (s.index (p.base2 + 2)))
        ∧ p.depthOf v' s (s.index p.base2) ∧ p.depthOf v' s (s.index (p.base2 + 1)) := by
      intro h1 h2
      have a1 := phys_of_inRange h1
      have a2 := phys_of_inRange h2
      rcases hv with rfl | rfl
      all_goals
        refine ⟨⟨p.base2 + 1, by simp [PlotCall.screenAddrs], a2⟩, fun hf =>
          ⟨p.base2, by simp [PlotCall.screenAddrs, hf], a1⟩, fun hc hk =>
          ⟨p.base2 + 2, by simp [PlotCall.screenAddrs, hc], phys_of_inRange hk⟩,
          ⟨p.base2, by simp [PlotCall.depthAddrs], a1⟩,
          ⟨p.base2 + 1, by simp [PlotCall.depthAddrs], a2⟩⟩
    rcases plotHires_cases p s with ⟨_, e⟩ | ⟨_, _, _, e⟩ | ⟨_, _, _, _, _, e⟩ | ⟨h1, h2, _, hc, hk, e⟩
      | ⟨h1, h2, _, _, e⟩
    · rw [e] at ht; cases ht
    · rw [e] at ht; cases ht; exact .refl
    · rw [e] at ht; cases ht
    · rw [e] at ht; cases ht
      obtain ⟨b1, b2, b3, b4, b5⟩ := base h1 h2
      exact draws_finishHires (.screen _ _ (.screen _ _ .refl b1) (b3 hc hk)) b2 b4 b5
    · rw [e] at ht; cases ht
      obtain ⟨b1, b2, _, b4, b5⟩ := base h1 h2
      exact draws_finishHires (.screen _ _ .refl b1) b2 b4 b5
  cases v with
  | n1x1 =>
    rcases plotN1x1_cases p s with ⟨_, e⟩ | ⟨_, _, e⟩ | ⟨h1, _, e⟩
    · rw [plotVariant, e] at h; cases h
    · rw [plotVariant, e] at h; cases h; exact .refl
    · rw [plotVariant, e] at h; cases h
      have a1 := phys_of_inRange h1
      refine .depth _ _ (.screen _ _ .refl ?_) ?_
      · exact ⟨p.base1, by simp [PlotCall.screenAddrs], a1⟩
      · exact ⟨p.base1, by simp [PlotCall.depthAddrs], a1⟩
  | n2x1 => exact two _ (.inl rfl) h
  | int => exact two _ (.inr rfl) h
  | hires => exact hi _ (.inl rfl) h
  | hiresint => exact hi _ (.inr rfl) h

/-- A plot whose truth flag is 0 changes nothing (rule R180). -/
theorem plotVariant_unflagged {v : AddrMode} {p : PlotCall} {s t : State} (hf : p.flag = false)
    (h : plotVariant v p s = .ended t) : t = s := by
  have hp : ∀ i, s.passes p i = false := fun i => by simp [State.passes, hf]
  have two : ∀ {t}, plotN2x1 p s = .ended t → t = s := by
    intro t ht
    rcases plotN2x1_cases p s with ⟨_, e⟩ | ⟨_, _, _, e⟩ | ⟨_, _, hg, _⟩
    · rw [e] at ht; cases ht
    · rw [e] at ht; cases ht; rfl
    · rw [hp] at hg; cases hg
  have hi : ∀ {t}, plotHires p s = .ended t → t = s := by
    intro t ht
    rcases plotHires_cases p s with ⟨_, e⟩ | ⟨_, _, _, e⟩ | ⟨_, _, hg, _⟩ | ⟨_, _, hg, _⟩ | ⟨_, _, hg, _⟩
    · rw [e] at ht; cases ht
    · rw [e] at ht; cases ht; rfl
    all_goals rw [hp] at hg; cases hg
  cases v with
  | n1x1 =>
    rcases plotN1x1_cases p s with ⟨_, e⟩ | ⟨_, _, e⟩ | ⟨_, hg, _⟩
    · rw [plotVariant, e] at h; cases h
    · rw [plotVariant, e] at h; cases h; rfl
    · rw [hp] at hg; cases hg
  | n2x1 => exact two h
  | int => exact two h
  | hires => exact hi h
  | hiresint => exact hi h

/-- A plot whose cells are in range ends. -/
theorem plotVariant_reachable {v : AddrMode} {p : PlotCall} {s : State} (h : p.reachable v s) :
    ∃ t, plotVariant v p s = .ended t := by
  have two : s.inRange p.base2 ∧ s.inRange (p.base2 + 1) → ∃ t, plotN2x1 p s = .ended t := by
    intro h
    rcases plotN2x1_cases p s with ⟨h', _⟩ | ⟨_, _, _, e⟩ | ⟨_, _, _, e⟩
    · exact absurd h h'
    · exact ⟨_, e⟩
    · exact ⟨_, e⟩
  have hi : s.inRange p.base2 ∧ s.inRange (p.base2 + 1)
      ∧ (p.linePos ≠ 510 → s.inRange (p.base2 + 2)) → ∃ t, plotHires p s = .ended t := by
    intro h
    rcases plotHires_cases p s with ⟨h', _⟩ | ⟨_, _, _, e⟩ | ⟨_, _, _, hc, hk, _⟩ | ⟨_, _, _, _, _, e⟩
      | ⟨_, _, _, _, e⟩
    · exact absurd ⟨h.1, h.2.1⟩ h'
    · exact ⟨_, e⟩
    · exact absurd (h.2.2 (by simpa [PlotCall.combines] using hc)) hk
    · exact ⟨_, e⟩
    · exact ⟨_, e⟩
  cases v with
  | n1x1 =>
    rcases plotN1x1_cases p s with ⟨h', _⟩ | ⟨_, _, e⟩ | ⟨_, _, e⟩
    · exact absurd h h'
    · exact ⟨_, e⟩
    · exact ⟨_, e⟩
  | n2x1 => exact two h
  | int => exact two h
  | hires => exact hi h
  | hiresint => exact hi h

/-- A plot whose base address is out of range accesses nothing. -/
theorem plotVariant_baseOut {v : AddrMode} {p : PlotCall} {s : State} (h : p.baseOut v s) :
    plotVariant v p s = .outAtBase := by
  have two : ¬(s.inRange p.base2 ∧ s.inRange (p.base2 + 1)) → plotN2x1 p s = .outAtBase := by
    intro h
    rcases plotN2x1_cases p s with ⟨_, e⟩ | ⟨h1, h2, _⟩ | ⟨h1, h2, _⟩
    · exact e
    · exact absurd ⟨h1, h2⟩ h
    · exact absurd ⟨h1, h2⟩ h
  have hi : ¬(s.inRange p.base2 ∧ s.inRange (p.base2 + 1)) → plotHires p s = .outAtBase := by
    intro h
    rcases plotHires_cases p s with ⟨_, e⟩ | ⟨h1, h2, _⟩ | ⟨h1, h2, _⟩ | ⟨h1, h2, _⟩ | ⟨h1, h2, _⟩
    · exact e
    all_goals exact absurd ⟨h1, h2⟩ h
  cases v with
  | n1x1 =>
    rcases plotN1x1_cases p s with ⟨_, e⟩ | ⟨h', _⟩ | ⟨h', _⟩
    · exact e
    · exact absurd h' h
    · exact absurd h' h
  | n2x1 => exact two h
  | int => exact two h
  | hires => exact hi h
  | hiresint => exact hi h

/-! ## The addresses do not depend on what is drawn -/

section Congr

variable {s t : State} (hc : t.cfg = s.cfg) (hx : t.ctx = s.ctx)

include hc hx

theorem phys_same (a : Int) : t.phys a = s.phys a := phys_congr hc (by rw [hx]) a

omit hc in
theorem screenAddrs_same (v : AddrMode) (p : PlotCall) : p.screenAddrs v t = p.screenAddrs v s := by
  have : p.firstOfLine t = p.firstOfLine s := by unfold PlotCall.firstOfLine; rw [hx]
  unfold PlotCall.screenAddrs; rw [this]

theorem screenOf_same (v : AddrMode) (p : PlotCall) (i : Nat) :
    p.screenOf v t i ↔ p.screenOf v s i := by
  unfold PlotCall.screenOf; rw [screenAddrs_same hx]; simp [phys_same hc hx]

theorem depthOf_same (v : AddrMode) (p : PlotCall) (i : Nat) :
    p.depthOf v t i ↔ p.depthOf v s i := by
  unfold PlotCall.depthOf; simp [phys_same hc hx]

theorem inRange_same (a : Int) : t.inRange a ↔ s.inRange a := by
  unfold State.inRange; rw [hc, hx]

theorem reachable_same (v : AddrMode) (p : PlotCall) : p.reachable v t ↔ p.reachable v s := by
  unfold PlotCall.reachable; cases v <;> simp [inRange_same hc hx]

theorem baseOut_same (v : AddrMode) (p : PlotCall) : p.baseOut v t ↔ p.baseOut v s := by
  unfold PlotCall.baseOut; cases v <;> simp [inRange_same hc hx]

end Congr

/-! ## A sequence of plots -/

/-- The screen cells a sequence of plots can write: those of the plots whose truth flag is not 0. -/
def screenOfAll (v : AddrMode) (ps : List PlotCall) (s : State) (i : Nat) : Prop :=
  ∃ p ∈ ps, p.flag = true ∧ p.screenOf v s i

/-- The depth cells a sequence of plots can write. -/
def depthOfAll (v : AddrMode) (ps : List PlotCall) (s : State) (i : Nat) : Prop :=
  ∃ p ∈ ps, p.flag = true ∧ p.depthOf v s i

/-- The state a sequence of plots leaves is drawn inside their cells. -/
theorem plotAll_draws {ps : List PlotCall} {s t : State} (h : plotAll ps s = some t) :
    Draws (screenOfAll s.ctx.rsel.addr ps s) (depthOfAll s.ctx.rsel.addr ps s) s t := by
  induction ps generalizing s with
  | nil => rw [plotAll] at h; cases h; exact .refl
  | cons p ps ih =>
    rw [plotAll] at h
    split at h
    · next u hu =>
      have d1 := plotVariant_draws hu
      have d2 := ih h
      have hc := d1.cfg
      have hx := d1.ctx
      rw [hx] at d2
      refine Draws.trans ?_ (d2.mono ?_ ?_)
      · cases hf : p.flag
        · rw [plotVariant_unflagged hf hu]; exact .refl
        · exact d1.mono (fun i hi => ⟨p, by simp, hf, hi⟩) (fun i hi => ⟨p, by simp, hf, hi⟩)
      · rintro i ⟨q, hq, hf, hi⟩
        exact ⟨q, by simp [hq], hf, (screenOf_same hc hx _ _ _).1 hi⟩
      · rintro i ⟨q, hq, hf, hi⟩
        exact ⟨q, by simp [hq], hf, (depthOf_same hc hx _ _ _).1 hi⟩
    · cases h
    · cases h

/-- A sequence of plots in range completes. -/
theorem plotAll_reachable {ps : List PlotCall} {s : State}
    (h : ∀ p ∈ ps, p.reachable s.ctx.rsel.addr s) : ∃ t, plotAll ps s = some t := by
  induction ps generalizing s with
  | nil => exact ⟨s, rfl⟩
  | cons p ps ih =>
    obtain ⟨u, hu⟩ := plotVariant_reachable (h p (by simp))
    have d := plotVariant_draws hu
    obtain ⟨t, ht⟩ := ih (s := u) (fun q hq => by
      rw [d.ctx, reachable_same d.cfg d.ctx]; exact h q (by simp [hq]))
    refine ⟨t, ?_⟩
    rw [plotAll, plot, hu]; exact ht

/-- A sequence with a plot whose base address is out of range does not complete. -/
theorem plotAll_baseOut {ps : List PlotCall} {s : State} {p : PlotCall} (hp : p ∈ ps)
    (h : p.baseOut s.ctx.rsel.addr s) : plotAll ps s = none := by
  induction ps generalizing s with
  | nil => cases hp
  | cons q ps ih =>
    rw [plotAll]
    rcases List.mem_cons.1 hp with rfl | hp
    · rw [plot, plotVariant_baseOut h]
    · cases hq : plot q s with
      | outAtBase => rfl
      | outAtCombined => rfl
      | ended u =>
        have d := plotVariant_draws (v := s.ctx.rsel.addr) hq
        exact ih (s := u) hp (by rw [d.ctx, baseOut_same d.cfg d.ctx]; exact h)

theorem draws_freeScreen {A B : Nat → Prop} {s t : State} (h : Draws A B s t) (is : List Nat)
    (hi : ∀ i ∈ is, A i) : Draws A B s (State.freeScreen is t) := by
  induction is generalizing t with
  | nil => exact h
  | cons i is ih =>
    exact ih (draws_freeTS h (hi i (by simp))) (fun j hj => hi j (by simp [hj]))

theorem draws_freeDepth {A B : Nat → Prop} {s t : State} (h : Draws A B s t) (is : List Nat)
    (hi : ∀ i ∈ is, B i) : Draws A B s (State.freeDepth is t) := by
  induction is generalizing t with
  | nil => exact h
  | cons i is ih =>
    exact ih (draws_freeTZ h (hi i (by simp))) (fun j hj => hi j (by simp [hj]))

/-- A plot that could write is a plot of the sequence, and its truth flag is not 0. -/
theorem writers_mem {v : AddrMode} {p : PlotCall} {ps : List PlotCall} {s : State}
    (h : p ∈ writers v ps s) : p ∈ ps ∧ p.flag = true := by
  induction ps generalizing s with
  | nil => cases h
  | cons q ps ih =>
    rw [writers] at h
    split at h
    · next hw =>
      rcases List.mem_cons.1 h with rfl | h
      · refine ⟨by simp, ?_⟩
        unfold State.couldWrite State.passes at hw
        split at hw <;> (simp at hw; exact hw.1)
      · exact ⟨by simp [(ih h).1], (ih h).2⟩
    · exact ⟨by simp [(ih h).1], (ih h).2⟩

/-- A plot that could write, its base being in range, passes the gate in the state it meets. -/
theorem couldWrite_inRange {v : AddrMode} {p : PlotCall} {s : State} (h : s.inRange (p.base v)) :
    s.couldWrite v p = s.passes p (s.index (p.base v)) := by
  unfold State.couldWrite; rw [phys_of_inRange h]

/-- Where every plot is transparent or fails the gate, the footprint is empty. -/
theorem writers_none {v : AddrMode} {ps : List PlotCall} {s : State}
    (h : ∀ p ∈ ps, s.couldWrite v p = false) : writers v ps s = [] := by
  induction ps with
  | nil => rfl
  | cons p ps ih =>
    rw [writers, h p (by simp), if_neg (by simp), ih fun q hq => h q (by simp [hq])]

/-- Such a sequence of plots leaves the state as it was after `F_BUF_RANGE` too. -/
theorem scramble_none {v : AddrMode} {ps : List PlotCall} {s : State}
    (h : ∀ p ∈ ps, s.couldWrite v p = false) : s.scramble v ps = s := by
  unfold State.scramble; rw [writers_none h]; rfl

/-- What `F_BUF_RANGE` leaves behind is drawn inside the footprint (rule R305). -/
theorem scramble_draws (v : AddrMode) (ps : List PlotCall) (s : State) :
    Draws (screenOfAll v ps s) (depthOfAll v ps s) s (s.scramble v ps) := by
  unfold State.scramble
  refine draws_freeDepth (draws_freeScreen .refl _ ?_) _ ?_
  · intro i hi
    simp only [screenFootprint, List.mem_filterMap, List.mem_flatMap] at hi
    obtain ⟨a, ⟨p, hp, ha⟩, hi⟩ := hi
    exact ⟨p, (writers_mem hp).1, (writers_mem hp).2, a, ha, hi⟩
  · intro i hi
    simp only [depthFootprint, List.mem_filterMap, List.mem_flatMap] at hi
    obtain ⟨a, ⟨p, hp, ha⟩, hi⟩ := hi
    exact ⟨p, (writers_mem hp).1, (writers_mem hp).2, a, ha, hi⟩

/-- Everything the pixel loop of a TR command can do: it completes, or it faults with `F_BUF_RANGE`; in
both cases only footprint cells change. -/
theorem runPlots_cases (ps : List PlotCall) (s : State) :
    ∃ u, Draws (screenOfAll s.ctx.rsel.addr ps s) (depthOfAll s.ctx.rsel.addr ps s) s u
      ∧ ((plotAll ps s = some u ∧ s.runPlots ps = u.done (.word 0))
        ∨ (plotAll ps s = none ∧ s.runPlots ps = u.raise .bufRange)) := by
  unfold State.runPlots
  cases h : plotAll ps s with
  | none => exact ⟨_, scramble_draws _ _ _, .inr ⟨rfl, rfl⟩⟩
  | some t => exact ⟨t, plotAll_draws h, .inl ⟨rfl, rfl⟩⟩

/-- Everything a PLOT command can do. -/
theorem plotCommand_cases (v : AddrMode) (p : PlotCall) (s : State) :
    ∃ u, Draws (p.screenOf v s) (p.depthOf v s) s u
      ∧ (s.plotCommand v p = u.done (.word 0) ∨ s.plotCommand v p = u.raise .bufRange) := by
  unfold State.plotCommand
  cases h : plotVariant v p s with
  | ended t => exact ⟨t, plotVariant_draws h, .inl rfl⟩
  | outAtBase => exact ⟨s, .refl, .inr rfl⟩
  | outAtCombined =>
    refine ⟨s.scramble v [p], (scramble_draws v [p] s).mono ?_ ?_, .inr rfl⟩
    · rintro i ⟨q, hq, _, hi⟩; simp only [List.mem_singleton] at hq; exact hq ▸ hi
    · rintro i ⟨q, hq, _, hi⟩; simp only [List.mem_singleton] at hq; exact hq ▸ hi

end Sys2Proof.Machine
end

