-- ==== Sys2Proof/Laws/Encoding.lean ====
section
/-! SUPPORT. What the header of a packet holds, field by field, and what a word says when it fits an
operand (spec/30_encoding.md rules R110, R114). -/

namespace EncodingLaws

open Sys2Proof

theorem header_toNat (opc imm : BitVec 8) :
    (header opc imm).toNat = opc.toNat * 16777216 + imm.toNat := by
  have h2 := imm.isLt
  show (opc ++ 0#16 ++ imm : BitVec (8 + 16 + 8)).toNat = _
  rw [BitVec.toNat_append, BitVec.toNat_append, Nat.shiftLeft_eq, Nat.shiftLeft_eq]
  simp only [BitVec.toNat_ofNat, Nat.zero_mod, Nat.or_zero]
  rw [show opc.toNat * 2 ^ 16 * 2 ^ 8 = 2 ^ 8 * (opc.toNat * 2 ^ 16) by ring,
    ← Nat.two_pow_add_eq_or_of_lt h2]
  omega

@[simp] theorem header_opc (opc imm : BitVec 8) : (header opc imm).extractLsb' 24 8 = opc := by
  apply BitVec.eq_of_toNat_eq
  have h1 := opc.isLt
  have h2 := imm.isLt
  rw [BitVec.extractLsb'_toNat, header_toNat, Nat.shiftRight_eq_div_pow]
  omega

@[simp] theorem header_imm (opc imm : BitVec 8) : (header opc imm).extractLsb' 0 8 = imm := by
  apply BitVec.eq_of_toNat_eq
  have h2 := imm.isLt
  rw [BitVec.extractLsb'_toNat, header_toNat, Nat.shiftRight_eq_div_pow]
  omega

@[simp] theorem header_rsvd (opc imm : BitVec 8) : (header opc imm).extractLsb' 8 16 = 0 := by
  apply BitVec.eq_of_toNat_eq
  have h1 := opc.isLt
  have h2 := imm.isLt
  rw [BitVec.extractLsb'_toNat, header_toNat, Nat.shiftRight_eq_div_pow]
  show _ = 0
  omega

/-- A header whose reserved field is 0 is made of its opcode and its immediate. -/
theorem header_of_fields (w : Word) (h : w.extractLsb' 8 16 = 0) :
    w = header (w.extractLsb' 24 8) (w.extractLsb' 0 8) := by
  apply BitVec.eq_of_toNat_eq
  have h' := congrArg BitVec.toNat h
  have hw := w.isLt
  rw [header_toNat]
  simp only [BitVec.extractLsb'_toNat, Nat.shiftRight_eq_div_pow] at h' ⊢
  rw [show (0 : BitVec 16).toNat = 0 from rfl] at h'
  omega

/-- A word that fits an operand is that operand, zero-extended (rule R114). -/
theorem setWidth_of_fits {n : Nat} {w : Word} (h : fits n w = true) :
    (w.setWidth n).setWidth 32 = w := by
  apply BitVec.eq_of_toNat_eq
  simp only [fits, decide_eq_true_eq] at h
  rw [BitVec.toNat_setWidth, BitVec.toNat_setWidth, Nat.mod_eq_of_lt h, Nat.mod_eq_of_lt w.isLt]

/-- A zero-extended operand fits, and is itself again. -/
theorem fits_setWidth {n : Nat} (v : BitVec n) : fits n (v.setWidth 32) = true := by
  have h := v.isLt
  simp only [fits, decide_eq_true_eq, BitVec.toNat_setWidth]
  exact Nat.lt_of_le_of_lt (Nat.mod_le _ _) h

theorem setWidth_setWidth {n : Nat} (hn : n ≤ 32) (v : BitVec n) : (v.setWidth 32).setWidth n = v := by
  apply BitVec.eq_of_toNat_eq
  have h : v.toNat < 2 ^ 32 := Nat.lt_of_lt_of_le v.isLt (Nat.pow_le_pow_right (by decide) hn)
  rw [BitVec.toNat_setWidth, BitVec.toNat_setWidth, Nat.mod_eq_of_lt h, Nat.mod_eq_of_lt v.isLt]

theorem ctxRegOf_num (r : CtxReg) : ctxRegOf r.num = some r := by cases r <;> rfl

theorem ctxReg_num_lt (r : CtxReg) : r.num < 256 := by cases r <;> decide

theorem mathModeOf_num (m : MathMode) : mathModeOf m.num = some m := by cases m <;> rfl

theorem addrModeOf_num (a : AddrMode) : addrModeOf a.num = some a := by cases a <;> rfl

theorem num_of_ctxRegOf {n : Nat} {r : CtxReg} (h : ctxRegOf n = some r) : r.num = n := by
  have hn : n < 34 := by
    by_contra hc
    rw [ctxRegOf, List.getElem?_eq_none (by simp [ctxRegTable]; omega)] at h
    cases h
  interval_cases n <;> cases h <;> decide

theorem num_of_mathModeOf {n : Nat} {m : MathMode} (h : mathModeOf n = some m) : m.num = n := by
  unfold mathModeOf at h
  split at h <;> cases h <;> rfl

theorem num_of_addrModeOf {n : Nat} {a : AddrMode} (h : addrModeOf n = some a) : a.num = n := by
  unfold addrModeOf at h
  split at h <;> cases h <;> rfl

end EncodingLaws
end

