-- ==== Sys2Proof/Laws/PerInstr.lean ====
section
/-! SUPPORT. What holds of every command as syntax, one lemma per constructor: the header the encoder
writes is the header of the command's own row of the opcode map, and of no reserved opcode. -/

namespace Sys2Proof.Laws.HeaderWord

open Sys2Proof.Machine

/-- The header selects the command's row, and its bits 23 to 8 are 0 (rules R110, R113). -/
def Statement (i : Instr) : Prop := headerSelects (encode i).w0 i ∧ (encode i).rsvd = 0

/-- A header that selects the row whose mask is full. -/
theorem of_header {i : Instr} (w : Word) (h : (encode i).w0 = w) (hr : headerRow i = (w, 0xFFFFFFFF))
    (h0 : w.extractLsb' 8 16 = 0) : Statement i := by
  refine ⟨?_, by rw [Packet.rsvd, h, h0]⟩
  rw [headerSelects, h, hr]
  exact BitVec.and_allOnes

theorem sysNop : Statement .sysNop := of_header 0x00000000 rfl rfl rfl

theorem sysRst : Statement .sysRst := of_header 0x01000000 rfl rfl rfl

theorem sysCtxwr (reg : CtxReg) (value : Word) : Statement (.sysCtxwr reg value) := by
  refine ⟨show header 0x02 (BitVec.ofNat 8 reg.num) &&& 0xFFFFFF00 = 0x02000000 from ?_,
    show (header 0x02 (BitVec.ofNat 8 reg.num)).extractLsb' 8 16 = 0 from ?_⟩ <;>
  cases reg <;> decide

theorem sysCtxrd (reg : CtxReg) : Statement (.sysCtxrd reg) := by
  refine ⟨show header 0x03 (BitVec.ofNat 8 reg.num) &&& 0xFFFFFF00 = 0x03000000 from ?_,
    show (header 0x03 (BitVec.ofNat 8 reg.num)).extractLsb' 8 16 = 0 from ?_⟩ <;>
  cases reg <;> decide

theorem sysFramestart : Statement .sysFramestart := of_header 0x04000000 rfl rfl rfl

theorem rdSelect (math : MathMode) (addr : AddrMode) : Statement (.rdSelect math addr) := by
  cases math <;> cases addr <;> exact ⟨rfl, rfl⟩

theorem cmAdd (c1 c2 : Half) : Statement (.cmAdd c1 c2) := of_header 0x10000000 rfl rfl rfl

theorem cmAddh (c1 c2 : Half) : Statement (.cmAddh c1 c2) := of_header 0x11000000 rfl rfl rfl

theorem cmSub (c1 c2 : Half) : Statement (.cmSub c1 c2) := of_header 0x12000000 rfl rfl rfl

theorem cmSubh (c1 c2 : Half) : Statement (.cmSubh c1 c2) := of_header 0x13000000 rfl rfl rfl

theorem cmAddb (c1 c2 : Half) : Statement (.cmAddb c1 c2) := of_header 0x14000000 rfl rfl rfl

theorem cmAddbh (c1 c2 : Half) : Statement (.cmAddbh c1 c2) := of_header 0x15000000 rfl rfl rfl

theorem blendNone (main sub : Half) (sd : Byte) : Statement (.blendNone main sub sd) :=
  of_header 0x16000000 rfl rfl rfl

theorem blendAdd (main sub : Half) (sd : Byte) : Statement (.blendAdd main sub sd) :=
  of_header 0x16000001 rfl rfl rfl

theorem blendAddf (main sub : Half) (sd : Byte) : Statement (.blendAddf main sub sd) :=
  of_header 0x16000002 rfl rfl rfl

theorem blendAdds (main sub : Half) (sd : Byte) : Statement (.blendAdds main sub sd) :=
  of_header 0x16000003 rfl rfl rfl

theorem blendSub (main sub : Half) (sd : Byte) : Statement (.blendSub main sub sd) :=
  of_header 0x16000004 rfl rfl rfl

theorem blendSubf (main sub : Half) (sd : Byte) : Statement (.blendSubf main sub sd) :=
  of_header 0x16000005 rfl rfl rfl

theorem blendSubs (main sub : Half) (sd : Byte) : Statement (.blendSubs main sub sd) :=
  of_header 0x16000006 rfl rfl rfl

theorem blendAddb (main sub : Half) (sd : Byte) : Statement (.blendAddb main sub sd) :=
  of_header 0x16000007 rfl rfl rfl

theorem blendAddbs (main sub : Half) (sd : Byte) : Statement (.blendAddbs main sub sd) :=
  of_header 0x16000008 rfl rfl rfl

theorem plotN1x1 (n m offset oil : Word) (pix z1 z2 : Byte) : Statement (.plotN1x1 n m offset oil pix z1 z2) :=
  of_header 0x20000000 rfl rfl rfl

theorem plotN2x1 (n m offset oil : Word) (pix z1 z2 : Byte) : Statement (.plotN2x1 n m offset oil pix z1 z2) :=
  of_header 0x21000000 rfl rfl rfl

theorem plotInt (n m offset oil : Word) (pix z1 z2 : Byte) : Statement (.plotInt n m offset oil pix z1 z2) :=
  of_header 0x22000000 rfl rfl rfl

theorem plotHires (n m offset oil : Word) (pix z1 z2 : Byte) : Statement (.plotHires n m offset oil pix z1 z2) :=
  of_header 0x23000000 rfl rfl rfl

theorem plotHiresint (n m offset oil : Word) (pix z1 z2 : Byte) : Statement (.plotHiresint n m offset oil pix z1 z2) :=
  of_header 0x24000000 rfl rfl rfl

theorem tcResolve (tileRef : Half) : Statement (.tcResolve tileRef) :=
  of_header 0x30000000 rfl rfl rfl

theorem tcSelpal (tileRef : Half) : Statement (.tcSelpal tileRef) :=
  of_header 0x31000000 rfl rfl rfl

theorem trTile (tile : Half) (offset : Word) (startLine : BitVec 6) (lineCount : BitVec 4) : Statement (.trTile tile offset startLine lineCount) :=
  of_header 0x40000000 rfl rfl rfl

theorem trClip (tile : Half) (offset : Word) (startPixel : BitVec 3) (width : BitVec 4) (startLine : BitVec 6) (lineCount : BitVec 4) : Statement (.trClip tile offset startPixel width startLine lineCount) :=
  of_header 0x41000000 rfl rfl rfl

theorem trMospix (tile : Half) (offset : Word) (startLine : BitVec 6) (startPixel : BitVec 3) (width lineCount : Half) : Statement (.trMospix tile offset startLine startPixel width lineCount) :=
  of_header 0x42000000 rfl rfl rfl

theorem trBackdrop (offset : Word) (left right : Half) : Statement (.trBackdrop offset left right) :=
  of_header 0x43000000 rfl rfl rfl

theorem trM7bg1 (left right : Half) (d : Byte) : Statement (.trM7bg1 left right d) :=
  of_header 0x44000000 rfl rfl rfl

theorem trM7bg2 (left right : Half) (d : Byte) : Statement (.trM7bg2 left right d) :=
  of_header 0x45000000 rfl rfl rfl

theorem trM7mbg1 (left right : Half) (d : Byte) : Statement (.trM7mbg1 left right d) :=
  of_header 0x46000000 rfl rfl rfl

theorem trM7mbg2 (left right : Half) (d : Byte) : Statement (.trM7mbg2 left right d) :=
  of_header 0x47000000 rfl rfl rfl

theorem csReset : Statement .csReset := of_header 0x50000000 rfl rfl rfl

theorem csAck : Statement .csAck := of_header 0x51000000 rfl rfl rfl

theorem csRdtile (id : Word) : Statement (.csRdtile id) := of_header 0x52000000 rfl rfl rfl

theorem csRdpal (id : Word) : Statement (.csRdpal id) := of_header 0x53000000 rfl rfl rfl

theorem csRdref (id : Word) : Statement (.csRdref id) := of_header 0x54000000 rfl rfl rfl

end Sys2Proof.Laws.HeaderWord
end

