-- ==== Sys2Proof/Laws/Render.lean ====
section
/-! SUPPORT. The TR commands: what comes before their pixel loop, what the loop can change, and what it
draws under the 1×1 variant. -/

namespace Sys2Proof.Machine

/-! ## Before the pixel loop -/

/-- `t` is `s` but for the tile cache, the latches, the catalog with its counts, and `CAPREQ`. -/
def Prepared (s t : State) : Prop :=
  t = { s with
    tcbuf := t.tcbuf
    tcflag := t.tcflag
    tiles := t.tiles
    pals := t.pals
    refs := t.refs
    ctx := { s.ctx with
      status := { s.ctx.status with capreq := t.ctx.status.capreq }
      ntiles := t.ctx.ntiles
      npals := t.ctx.npals
      nrefs := t.ctx.nrefs
      scsel := t.ctx.scsel
      tcsel := t.ctx.tcsel
      decodecnt := t.ctx.decodecnt } }

theorem Prepared.refl (s : State) : Prepared s s := rfl

theorem Prepared.trans {s t u : State} (h : Prepared s t) (h' : Prepared t u) : Prepared s u := by
  unfold Prepared at *
  rw [h', h]

theorem prepared_setScsel (s : State) (c : Scsel) : Prepared s (State.setScsel c s) := rfl

theorem prepared_selectPalette (s : State) (t : Half) : Prepared s (State.selectPalette t s) := rfl

theorem prepared_resolve (s : State) (t : Half) : Prepared s (State.resolve t s) := by
  by_cases h : s.slotFlag s.ctx.bpp (s.hflip t) (s.tileNumber t) = 0
  · rw [resolve_of_fresh h]; rfl
  · rw [resolve_of_decoded h]; rfl

theorem prepared_captureCommit (s : State) (p : CapturePlan) (sh : Shape) (o : Word) :
    Prepared s (s.captureCommit p sh o) := by
  unfold State.captureCommit
  split <;> rfl

/-- `CaptureObserve` either finds a store full or commits its plan (rule R273). -/
theorem captureObserve_eq_some {s t : State} {tile : Half} {sh : Shape} {o : Word}
    (h : State.captureObserve tile sh o s = some t) :
    s.captureFull (State.capturePlan tile s) = false
      ∧ t = s.captureCommit (State.capturePlan tile s) sh o := by
  unfold State.captureObserve at h
  simp only at h
  split at h
  · cases h
  · next hf =>
    cases h
    exact ⟨by simpa using hf, rfl⟩

theorem captureObserve_eq_none {s : State} {tile : Half} {sh : Shape} {o : Word}
    (h : State.captureObserve tile sh o s = none) :
    s.captureFull (State.capturePlan tile s) = true := by
  unfold State.captureObserve at h
  simp only at h
  split at h
  · next hf => exact hf
  · cases h

theorem prepared_captureObserve {s t : State} {tile : Half} {sh : Shape} {o : Word}
    (h : State.captureObserve tile sh o s = some t) : Prepared s t := by
  rw [(captureObserve_eq_some h).2]; exact prepared_captureCommit _ _ _ _

/-- The three ways a tile command can go on after its row check (rules R211 to R214). -/
theorem tileCommand_cases (tile : Half) (shape : Shape) (offset : Word)
    (plots : State → List PlotCall) (s : State) :
    ((State.resolve tile s).selectedFlag = 2
        ∧ State.tileCommand tile shape offset plots s
          = State.done (.word 0) (State.resolve tile s))
      ∨ ((State.resolve tile s).selectedFlag ≠ 2 ∧ s.ctx.capen = true ∧ observed shape = true
        ∧ State.captureObserve tile shape offset
            (State.selectPalette tile (State.resolve tile s)) = none
        ∧ State.tileCommand tile shape offset plots s
          = State.raise .csFull (State.selectPalette tile (State.resolve tile s)))
      ∨ ∃ u, (State.resolve tile s).selectedFlag ≠ 2
        ∧ ((u = State.selectPalette tile (State.resolve tile s)
              ∧ (s.ctx.capen = false ∨ observed shape = false))
            ∨ (s.ctx.capen = true ∧ observed shape = true
              ∧ State.captureObserve tile shape offset
                  (State.selectPalette tile (State.resolve tile s)) = some u))
        ∧ State.tileCommand tile shape offset plots s = u.runPlots (plots u) := by
  unfold State.tileCommand State.tilePrologue
  simp only
  by_cases hb : (State.resolve tile s).selectedFlag = 2
  · simp [hb]
  · simp only [hb, if_false, false_and, ne_eq, not_false_eq_true, true_and, false_or]
    by_cases hc : s.ctx.capen = true ∧ observed shape = true
    · simp only [hc.1, hc.2, Bool.and_self, if_true]
      cases ho : State.captureObserve tile shape offset
          (State.selectPalette tile (State.resolve tile s)) with
      | none => left; simp
      | some u => right; exact ⟨u, .inr ⟨trivial, trivial, rfl⟩, rfl⟩
    · have : (s.ctx.capen && observed shape) = false := by
        cases h1 : s.ctx.capen <;> cases h2 : observed shape <;> simp_all
      rw [this]
      refine .inr ⟨_, .inl ⟨rfl, ?_⟩, rfl⟩
      cases h1 : s.ctx.capen <;> cases h2 : observed shape <;> simp_all

/-- The state before the loop differs from the command's start state as `Prepared` says. -/
theorem prepared_prologue {s u : State} {tile : Half} {shape : Shape} {offset : Word}
    (h : (u = State.selectPalette tile (State.resolve tile s)
              ∧ (s.ctx.capen = false ∨ observed shape = false))
            ∨ (s.ctx.capen = true ∧ observed shape = true
              ∧ State.captureObserve tile shape offset
                  (State.selectPalette tile (State.resolve tile s)) = some u)) : Prepared s u := by
  have h1 := (prepared_resolve s tile).trans (prepared_selectPalette (State.resolve tile s) tile)
  rcases h with ⟨rfl, _⟩ | ⟨_, _, h⟩
  · exact h1
  · exact h1.trans (prepared_captureObserve h)

/-! ## What the loop can change -/

section Frame

variable {s u : State} (hp : Prepared s u)

include hp

theorem Prepared.cfg : u.cfg = s.cfg := by rw [hp]
theorem Prepared.rsel : u.ctx.rsel = s.ctx.rsel := by rw [hp]
theorem Prepared.origin : u.ctx.origin = s.ctx.origin := by rw [hp]
theorem Prepared.target : u.ctx.target = s.ctx.target := by rw [hp]
theorem Prepared.rppl : u.ctx.rppl = s.ctx.rppl := by rw [hp]
theorem Prepared.ppl : u.ctx.ppl = s.ctx.ppl := by rw [hp]

theorem Prepared.phys (a : Int) : u.phys a = s.phys a := phys_congr hp.cfg hp.origin a

theorem Prepared.inRange (a : Int) : u.inRange a ↔ s.inRange a := by
  unfold State.inRange; rw [hp.cfg, hp.origin]

theorem Prepared.index (a : Int) : u.index a = s.index a := by
  unfold State.index; rw [hp.origin]

theorem Prepared.screenAddrs (v : AddrMode) (p : PlotCall) :
    p.screenAddrs v u = p.screenAddrs v s := by
  have : p.firstOfLine u = p.firstOfLine s := by unfold PlotCall.firstOfLine; rw [hp.rppl]
  unfold PlotCall.screenAddrs; rw [this]

theorem Prepared.reachable (v : AddrMode) (p : PlotCall) : p.reachable v u ↔ p.reachable v s := by
  unfold PlotCall.reachable; cases v <;> simp [hp.inRange]

theorem Prepared.baseOut (v : AddrMode) (p : PlotCall) : p.baseOut v u ↔ p.baseOut v s := by
  unfold PlotCall.baseOut; cases v <;> simp [hp.inRange]

theorem Prepared.readTS (i : Nat) : u.readTS i = s.readTS i := by
  have h1 : u.sMain = s.sMain := by rw [hp]
  have h2 : u.sSub = s.sSub := by rw [hp]
  unfold State.readTS; rw [hp.target, h1, h2]

theorem Prepared.readTZ (i : Nat) : u.readTZ i = s.readTZ i := by
  have h1 : u.zMain = s.zMain := by rw [hp]
  have h2 : u.zSub = s.zSub := by rw [hp]
  unfold State.readTZ; rw [hp.target, h1, h2]

theorem Prepared.calc (m : MathMode) (a b : Half) (d : Byte) : u.calc m a b d = s.calc m a b d := by
  have h1 : u.bcap = s.bcap := by rw [hp]
  have h2 : u.ctx.fixedcol = s.ctx.fixedcol := by rw [hp]
  have h3 : u.ctx.clip = s.ctx.clip := by rw [hp]
  unfold State.calc State.blendAdd State.blendAddf State.blendAdds State.blendSub State.blendSubf
    State.blendSubs State.blendAddb State.blendAddbs State.op2 State.sdSelect
  rw [h1, h2, h3, hp.cfg]

end Frame

/-- The addresses of a plot are those of its column, line address and line position. -/
theorem screenAddrs_cellCall (p : PlotCall) (v : AddrMode) (s : State) :
    p.screenAddrs v s = (cellCall p.offset p.oil p.n).screenAddrs v s := rfl

theorem depthAddrs_cellCall (p : PlotCall) (v : AddrMode) :
    p.depthAddrs v = (cellCall p.offset p.oil p.n).depthAddrs v := rfl

theorem reachable_cellCall (p : PlotCall) (v : AddrMode) (s : State) :
    p.reachable v s ↔ (cellCall p.offset p.oil p.n).reachable v s := Iff.rfl

theorem baseOut_cellCall (p : PlotCall) (v : AddrMode) (s : State) :
    p.baseOut v s ↔ (cellCall p.offset p.oil p.n).baseOut v s := by
  unfold PlotCall.baseOut; cases v <;> exact Iff.rfl

/-- What a loop leaves that draws only where `plots` says. -/
theorem changesOnly_of_draws {s u w t : State} {plots : Int → Int → Int → Prop} {A B : Nat → Prop}
    (hp : Prepared s u) (hd : Draws A B u w) (hA : ∀ i, A i → ∃ base oil n, plots base oil n
      ∧ s.screenCell base oil n i) (hB : ∀ i, B i → ∃ base oil n, plots base oil n
      ∧ s.depthCell base oil n i)
    (ht : t = w.done (.word 0) ∨ ∃ c, t = w.raise c) : s.changesOnly t plots := by
  have hr := hd.rest
  have hpe := hd.peer
  have hts : ∀ i, t.readTS i = w.readTS i := by rcases ht with rfl | ⟨c, rfl⟩ <;> intro i <;> rfl
  have htz : ∀ i, t.readTZ i = w.readTZ i := by rcases ht with rfl | ⟨c, rfl⟩ <;> intro i <;> rfl
  have hin : s.sameInputs t := by
    rcases ht with rfl | ⟨c, rfl⟩ <;>
      (unfold State.sameInputs; simp; rw [hr]; simp only; rw [hp]; simp)
  have hpeer : s.samePeer t := by
    unfold State.samePeer at hpe ⊢
    rw [hp.target] at hpe
    rcases ht with rfl | ⟨c, rfl⟩ <;> (split <;> next h => rw [h] at hpe; simp at hpe ⊢; rw [hpe.1, hpe.2, hp]; simp)
  refine ⟨hin, hpeer, ?_, ?_, ?_, ?_⟩
  · rcases ht with rfl | ⟨c, rfl⟩ <;> (simp; rw [hr]; simp only; rw [hp])
  · unfold State.sameDrawContext
    rcases ht with rfl | ⟨c, rfl⟩
    · rw [show (State.done (.word 0) w).ctx = u.ctx from hd.ctx, hp]
    · have : (State.raise c w).ctx
          = { u.ctx with status := (State.raise c w).ctx.status } := by
        rw [← hd.ctx]; rfl
      rw [this, hp]
  · intro i hi
    rw [hts, hd.readTS_outside (fun h => ?_), hp.readTS]
    obtain ⟨base, oil, n, h1, h2⟩ := hA i h
    exact hi base oil n h1 h2
  · intro i hi
    rw [htz, hd.readTZ_outside (fun h => ?_), hp.readTZ]
    obtain ⟨base, oil, n, h1, h2⟩ := hB i h
    exact hi base oil n h1 h2

/-- The frame of a pixel loop, and its completion when every plot is in range: the loop changes, whether it
completes or faults, only cells of plots whose truth flag is not 0 (`shown`). -/
theorem runPlots_masked {s u : State} {ps : List PlotCall} {plots shown : Int → Int → Int → Prop}
    (hp : Prepared s u) (hps : ∀ p ∈ ps, plots p.offset p.oil p.n)
    (hsh : ∀ p ∈ ps, p.flag = true → shown p.offset p.oil p.n) :
    s.changesOnly (u.runPlots ps) shown
      ∧ ((∀ base oil n, plots base oil n → s.canPlot base oil n) → s.endedOk (u.runPlots ps)) := by
  obtain ⟨w, hd, hw⟩ := runPlots_cases ps u
  refine ⟨changesOnly_of_draws hp hd ?_ ?_ ?_, fun hin => ?_⟩
  · rintro i ⟨p, hm, hf, a, ha, hi⟩
    refine ⟨_, _, _, hsh p hm hf, a, ?_, ?_⟩
    · rw [← hp.rsel, ← screenAddrs_cellCall, ← hp.screenAddrs]; exact ha
    · rw [← hp.phys]; exact hi
  · rintro i ⟨p, hm, hf, a, ha, hi⟩
    refine ⟨_, _, _, hsh p hm hf, a, ?_, ?_⟩
    · rw [← hp.rsel]; exact ha
    · rw [← hp.phys]; exact hi
  · rcases hw with ⟨_, h⟩ | ⟨_, h⟩
    · exact .inl h
    · exact .inr ⟨_, h⟩
  · have hall : ∃ t, plotAll ps u = some t := plotAll_reachable fun p hm => by
      rw [hp.reachable, reachable_cellCall, hp.rsel]; exact hin _ _ _ (hps p hm)
    rcases hw with ⟨_, h⟩ | ⟨h, _⟩
    · rw [h]
      refine ⟨rfl, ?_, ?_⟩
      · show w.ctx.status.halt = _
        rw [hd.ctx, hp]
      · show w.ctx.status.faultCode = _
        rw [hd.ctx, hp]
    · obtain ⟨t, ht⟩ := hall; rw [ht] at h; cases h

/-- The frame of a pixel loop over all its plots. -/
theorem runPlots_frame {s u : State} {ps : List PlotCall} {plots : Int → Int → Int → Prop}
    (hp : Prepared s u) (hps : ∀ p ∈ ps, plots p.offset p.oil p.n) :
    s.changesOnly (u.runPlots ps) plots
      ∧ ((∀ base oil n, plots base oil n → s.canPlot base oil n) → s.endedOk (u.runPlots ps)) :=
  runPlots_masked hp hps fun p hm _ => hps p hm

/-- What else a pixel loop leaves alone: everything but the target pair, `STATUS`, the response and the
free count. -/
theorem runPlots_rest (ps : List PlotCall) (u : State) :
    ∃ w, (∃ A B, Draws A B u w)
      ∧ (u.runPlots ps = w.done (.word 0) ∨ u.runPlots ps = w.raise .bufRange) := by
  obtain ⟨w, hd, hw⟩ := runPlots_cases ps u
  exact ⟨w, ⟨_, _, hd⟩, hw.imp And.right And.right⟩

/-! ## What the loop draws under the low-resolution variants -/

theorem passes_iff (s : State) (p : PlotCall) (i : Nat) :
    s.passes p i = true ↔ p.flag = true ∧ (s.readTZ i).toNat < p.z1.toNat := by
  simp [State.passes]

/-- The blend of a pixel whose cell holds what it held before. -/
theorem calc_of_draws {A B : Nat → Prop} {s t : State} (h : Draws A B s t) (m : MathMode) (a b : Half)
    (d : Byte) : t.calc m a b d = s.calc m a b d := by
  rw [h.rest]; rfl

theorem screenColor_of_draws {A B : Nat → Prop} {s t : State} (h : Draws A B s t) (p : Byte) :
    t.screenColor p = s.screenColor p := by
  rw [h.rest]; rfl

/-- A cell of the peer that no plot has written yet holds what it held. -/
theorem peer_outside {A B : Nat → Prop} {s t : State} (h : Draws A B s t) {i : Nat} (hA : ¬ A i)
    (hB : ¬ B i) : Memory.read t.sSub i = Memory.read s.sSub i
      ∧ Memory.read t.zSub i = Memory.read s.zSub i := by
  have hpe := h.peer
  unfold State.samePeer at hpe
  have h1 := h.readTS_outside hA
  have h2 := h.readTZ_outside hB
  unfold State.readTS at h1
  unfold State.readTZ at h2
  rw [h.ctx] at h1 h2
  split at hpe <;> next ht => simp [ht] at h1 h2; simp_all

/-- What one plot of a low-resolution variant shows in its cells (rules R173 to R175). -/
def PlotCall.shown (p : PlotCall) (s t : State) : Prop :=
  if s.ctx.rsel.addr = .n1x1 then
    s.cellDrawn t (p.flag = true) (s.screenColor p.pix) p.z1 p.z2 (s.index p.base1)
  else
    s.pairDrawn t (p.flag = true) (s.screenColor p.pix) p.z1 p.z2 (s.index p.base2)
      (s.index (p.base2 + 1))

theorem lowRes_cases {s : State} (h : s.lowRes) :
    s.ctx.rsel.addr = .n1x1 ∨ s.ctx.rsel.addr = .n2x1 ∨ s.ctx.rsel.addr = .int := by
  obtain ⟨h1, h2⟩ := h
  cases ha : s.ctx.rsel.addr <;> simp [ha] at h1 h2 ⊢

/-- Under the low-resolution variants a plot writes screen cells where it writes depth cells. -/
theorem screenAddrs_lowRes {s : State} (h : s.lowRes) (p : PlotCall) :
    p.screenAddrs s.ctx.rsel.addr s = p.depthAddrs s.ctx.rsel.addr := by
  rcases lowRes_cases h with h | h | h <;> rw [h] <;> rfl

/-- One plot of a low-resolution variant draws its cells and no other (rules R170 to R175). -/
theorem plot_lowRes {p : PlotCall} {s : State} (ha : s.lowRes) (hr : p.reachable s.ctx.rsel.addr s) :
    ∃ u, plot p s = .ended u ∧ p.shown s u := by
  have one : s.ctx.rsel.addr = .n1x1 → s.inRange p.base1 → ∃ u, plotN1x1 p s = .ended u
      ∧ s.cellDrawn u (p.flag = true) (s.screenColor p.pix) p.z1 p.z2 (s.index p.base1) := by
    intro _ hp
    rcases plotN1x1_cases p s with ⟨h, _⟩ | ⟨_, hg, e⟩ | ⟨_, hg, e⟩
    · exact absurd hp h
    · refine ⟨s, e, fun h => ?_, fun _ => ⟨rfl, rfl⟩⟩
      rw [(passes_iff s p _).2 h] at hg; cases hg
    · refine ⟨_, e, fun _ => ?_, fun h => absurd ((passes_iff s p _).1 hg) h⟩
      rw [State.draw1, Draws.readTS_writeTZ, Draws.readTS_writeTS, if_pos rfl, Draws.readTZ_writeTZ,
        if_pos rfl]
      exact ⟨rfl, rfl⟩
  have two : s.inRange p.base2 ∧ s.inRange (p.base2 + 1) → ∃ u, plotN2x1 p s = .ended u
      ∧ s.pairDrawn u (p.flag = true) (s.screenColor p.pix) p.z1 p.z2 (s.index p.base2)
        (s.index (p.base2 + 1)) := by
    rintro ⟨h1, h2⟩
    rcases plotN2x1_cases p s with ⟨h, _⟩ | ⟨_, _, hg, e⟩ | ⟨_, _, hg, e⟩
    · exact absurd ⟨h1, h2⟩ h
    · refine ⟨s, e, fun h => ?_, fun _ => ⟨rfl, rfl, rfl, rfl⟩⟩
      rw [(passes_iff s p _).2 h] at hg; cases hg
    · refine ⟨_, e, fun _ => ?_, fun h => absurd ((passes_iff s p _).1 hg) h⟩
      have hne : s.index p.base2 ≠ s.index (p.base2 + 1) := fun e => by
        have := index_injective h1 h2 e; omega
      simp only [State.draw2, Draws.readTS_writeTZ, Draws.readTS_writeTS, Draws.readTZ_writeTZ, if_true,
        if_neg hne, State.blendAt, and_self]
  unfold PlotCall.shown plot
  rcases lowRes_cases ha with h | h | h <;> rw [h] at hr ⊢
  · exact one h hr
  · simpa [plotVariant] using two hr
  · simpa [plotVariant, plotInt] using two hr

/-- The plots of a low-resolution command whose cells are all distinct: each pixel is gated, blended and
written by itself (rules R170 to R175). -/
theorem plotAll_lowRes {ps : List PlotCall} {s : State} (ha : s.lowRes)
    (hr : ∀ p ∈ ps, p.reachable s.ctx.rsel.addr s)
    (hd : ps.Pairwise fun p q => ∀ a ∈ p.depthAddrs s.ctx.rsel.addr, a ∉ q.depthAddrs s.ctx.rsel.addr) :
    ∃ t, plotAll ps s = some t ∧ ∀ p ∈ ps, p.shown s t := by
  induction ps generalizing s with
  | nil => exact ⟨s, rfl, by simp⟩
  | cons p ps ih =>
    rw [List.pairwise_cons] at hd
    obtain ⟨u, hu, hshown⟩ := plot_lowRes ha (hr p (by simp))
    have hdraw := plotVariant_draws (v := s.ctx.rsel.addr) hu
    have hru : u.ctx.rsel = s.ctx.rsel := by rw [hdraw.ctx]
    have hua : u.lowRes := by unfold State.lowRes; rw [hru]; exact ha
    obtain ⟨t, ht, hts⟩ := ih (s := u) hua
      (fun q hq => by
        rw [hru]; exact (reachable_same hdraw.cfg hdraw.ctx _ _).2 (hr q (by simp [hq])))
      (by rw [hru]; exact hd.2)
    refine ⟨t, by rw [plotAll, hu]; exact ht, ?_⟩
    have hindex : ∀ a, u.index a = s.index a := fun a => by unfold State.index; rw [hdraw.ctx]
    have hrest := plotAll_draws ht
    -- every cell of a plot is in range
    have hin : ∀ q ∈ p :: ps, ∀ a ∈ q.depthAddrs s.ctx.rsel.addr, s.inRange a := by
      intro q hq a haq
      have h := hr q hq
      rcases lowRes_cases ha with e | e | e <;> rw [e] at h haq <;>
        simp only [PlotCall.depthAddrs, List.mem_cons, List.not_mem_nil, or_false] at haq
      · rw [haq]; exact h
      · rcases haq with rfl | rfl
        · exact h.1
        · exact h.2
      · rcases haq with rfl | rfl
        · exact h.1
        · exact h.2
    -- a cell of one plot is no cell of a later one
    have hlater : ∀ a ∈ p.depthAddrs s.ctx.rsel.addr,
        t.readTS (s.index a) = u.readTS (s.index a) ∧ t.readTZ (s.index a) = u.readTZ (s.index a) := by
      intro a hap
      have hno : ∀ q ∈ ps, ∀ b ∈ q.depthAddrs u.ctx.rsel.addr, u.phys b ≠ some (s.index a) := by
        intro q hq b hb e
        rw [hru] at hb
        rw [phys_eq_some, hindex] at e
        have := index_injective (hin p (by simp) a hap) (hin q (by simp [hq]) b hb) e.2
        exact hd.1 q hq a hap (this ▸ hb)
      refine ⟨hrest.readTS_outside ?_, hrest.readTZ_outside ?_⟩
      · rintro ⟨q, hq, _, b, hb, e⟩
        rw [screenAddrs_lowRes hua] at hb
        exact hno q hq b hb e
      · rintro ⟨q, hq, _, b, hb, e⟩
        exact hno q hq b hb e
    -- a cell of a later plot is as the first plot found it
    have hearlier : ∀ q ∈ ps, ∀ a ∈ q.depthAddrs s.ctx.rsel.addr,
        u.readTS (s.index a) = s.readTS (s.index a) ∧ u.readTZ (s.index a) = s.readTZ (s.index a)
          ∧ Memory.read u.sSub (s.index a) = Memory.read s.sSub (s.index a)
          ∧ Memory.read u.zSub (s.index a) = Memory.read s.zSub (s.index a) := by
      intro q hq a haq
      have hB : ¬ p.depthOf s.ctx.rsel.addr s (s.index a) := by
        rintro ⟨b, hb, e⟩
        rw [phys_eq_some] at e
        have := index_injective (hin q (by simp [hq]) a haq) (hin p (by simp) b hb) e.2
        exact hd.1 q hq b hb (this ▸ haq)
      have hA : ¬ p.screenOf s.ctx.rsel.addr s (s.index a) := by
        rintro ⟨b, hb, e⟩
        rw [screenAddrs_lowRes ha] at hb
        exact hB ⟨b, hb, e⟩
      exact ⟨hdraw.readTS_outside hA, hdraw.readTZ_outside hB, peer_outside hdraw hA hB⟩
    -- the cells of a plot, by variant
    have hone : ∀ q : PlotCall, s.ctx.rsel.addr = .n1x1 → q.base1 ∈ q.depthAddrs s.ctx.rsel.addr := by
      intro q e; rw [e]; simp [PlotCall.depthAddrs]
    have htwo : ∀ q : PlotCall, s.ctx.rsel.addr ≠ .n1x1 → q.base2 ∈ q.depthAddrs s.ctx.rsel.addr
        ∧ q.base2 + 1 ∈ q.depthAddrs s.ctx.rsel.addr := by
      intro q e
      rcases lowRes_cases ha with e' | e' | e'
      · exact absurd e' e
      · rw [e']; simp [PlotCall.depthAddrs]
      · rw [e']; simp [PlotCall.depthAddrs]
    intro q hq
    by_cases e : s.ctx.rsel.addr = .n1x1
    · rcases List.mem_cons.1 hq with rfl | hq
      · unfold PlotCall.shown State.cellDrawn at hshown ⊢
        rw [if_pos e] at hshown ⊢
        obtain ⟨h1, h2⟩ := hlater _ (hone q e)
        rw [h1, h2]; exact hshown
      · have hc := hts q hq
        unfold PlotCall.shown State.cellDrawn at hc ⊢
        obtain ⟨h1, h2, h3, h4⟩ := hearlier q hq _ (hone q e)
        rw [hru, if_pos e, hindex, h1, h2, h3, h4, calc_of_draws hdraw, screenColor_of_draws hdraw] at hc
        rw [if_pos e]; exact hc
    · rcases List.mem_cons.1 hq with rfl | hq
      · unfold PlotCall.shown State.pairDrawn at hshown ⊢
        rw [if_neg e] at hshown ⊢
        obtain ⟨h1, h2⟩ := hlater _ (htwo q e).1
        obtain ⟨h3, h4⟩ := hlater _ (htwo q e).2
        rw [h1, h2, h3, h4]; exact hshown
      · have hc := hts q hq
        unfold PlotCall.shown State.pairDrawn at hc ⊢
        obtain ⟨h1, h2, h3, h4⟩ := hearlier q hq _ (htwo q e).1
        obtain ⟨h5, h6, _, _⟩ := hearlier q hq _ (htwo q e).2
        rw [hru, if_neg e, hindex, hindex, h1, h2, h3, h4, h5, h6, calc_of_draws hdraw,
          screenColor_of_draws hdraw] at hc
        rw [if_neg e]; exact hc

/-- A `Prepared` state draws what the command's start state shows. -/
theorem Prepared.cellDrawn {s u t : State} (hp : Prepared s u) {on : Prop} {v : Half} {z1 z2 : Byte}
    {i : Nat} (h : u.cellDrawn t on v z1 z2 i) : s.cellDrawn t on v z1 z2 i := by
  have h1 : u.sSub = s.sSub := by rw [hp]
  have h2 : u.zSub = s.zSub := by rw [hp]
  unfold State.cellDrawn at h ⊢
  rw [hp.readTZ, hp.readTS, hp.calc, hp.rsel, h1, h2] at h
  exact h

theorem Prepared.pairDrawn {s u t : State} (hp : Prepared s u) {on : Prop} {v : Half} {z1 z2 : Byte}
    {i j : Nat} (h : u.pairDrawn t on v z1 z2 i j) : s.pairDrawn t on v z1 z2 i j := by
  have h1 : u.sSub = s.sSub := by rw [hp]
  have h2 : u.zSub = s.zSub := by rw [hp]
  unfold State.pairDrawn at h ⊢
  rw [hp.readTZ, hp.readTZ, hp.readTS, hp.readTS, hp.calc, hp.rsel, h1, h2] at h
  exact h

end Sys2Proof.Machine
end

