-- ==== Sys2Proof/Tests/Slice0.lean ====
section
/-! SUPPORT. Tests of the model, with expected results from spec/95_test_vectors.md and the examples of
the rules, and a witness for the hypotheses of every statement that has some. -/

open Sys2Proof Sys2Proof.Machine

namespace Sys2Proof.Tests

set_option Elab.async false

/-! ## Helpers -/

/-- The state a command leads to. -/
def after (i : Instr) (s : State) : State :=
  match exec i s with
  | .next t => t
  | .fault _ => s
  | .refused _ => s

theorem exec_after (i : Instr) (s : State) : exec i s = .next (after i s) := by cases i <;> rfl

/-- The response of a command. -/
def answer (i : Instr) (s : State) : Option Response := (after i s).response

/-- An answer of one word. -/
def word (w : Word) : Option Response := some (.ok (.word w))

/-- The state a step leads to. -/
def stepped (s : State) : State :=
  match step s with
  | .next t => t
  | .fault _ => s
  | .refused _ => s

/-- A memory whose cells are 0 but for those listed. -/
def ram {w : Nat} (cells : List (Nat × BitVec w)) : Memory w := ⟨.zero, cells⟩

/-- The state after reset once the host has written 0 into every cell the reset leaves unspecified, as the
vectors of 95_test_vectors.md start. -/
def cleared : State :=
  { State.reset with
    vram := ram []
    pal := ram []
    dcm := ram []
    lmd := ram []
    sMain := ram []
    zMain := ram []
    sSub := ram []
    zSub := ram []
    tcbuf := ram [] }

/-- The state after reset, with one packet on the command port. -/
def withPacket (p : Packet) : State := { cleared with moves := [.packet p] }

/-- The state after reset with other registers. -/
def withCtx (c : Ctx) : State := { cleared with ctx := c }

/-- The other colour layout. -/
def state555 : State := { cleared with cfg := { Params.standard with pixfmt := .rgb555 } }

/-- The state of 2.2, the blend table. -/
def blendState (clip : Bool) : State :=
  withCtx { Ctx.reset with fixedcol := 0x0883, clip := clip }

/-- The state of 2.3, rows P1 to P8. -/
def plotState : State := { cleared with pal := ram [(5, 0x1234)], zMain := ram [(100, 3)] }

/-- The hi-res state of 2.3. -/
def hiresState : State :=
  { cleared with
    pal := ram [(5, 0x1234), (6, 0x4321)]
    sSub := ram [(10, 0x0AAA), (12, 0x0BBB)] }

/-- The state T of 2.5. -/
def tileState : State :=
  { cleared with
    vram := ram [(16, 0x81), (17, 0xC0)]
    pal := ram [(1, 0x0011), (2, 0x0022), (3, 0x0033)]
    ctx := { Ctx.reset with palshift := 8, palmask := 0x1C, z1 := 5, z2 := 5 } }

/-- The state T with capture on, in frame 1: program P3. -/
def captureState : State :=
  { tileState with ctx := { tileState.ctx with capen := true, frame := 1 } }

/-- Program P3 after its line 3. -/
def drawnState : State := after (.trTile 1 1024 0 8) captureState

/-- The next frame. -/
def nextFrame (s : State) : State := after .sysFramestart s

/-- The interlaced state of program P5. -/
def fieldState : State :=
  { cleared with
    vram := ram [(48, 0x80), (50, 0x40), (52, 0x20), (54, 0x10), (56, 0x08), (58, 0x04), (60, 0x02),
      (62, 0x01)]
    pal := ram [(1, 0x07E0)]
    ctx := { Ctx.reset with iline := true, z1 := 3, z2 := 3, rsel := ⟨.none, .int⟩ } }

/-- The rectangle state of row T14. -/
def backdropState : State :=
  { cleared with
    pal := ram [(0, 0x0841)]
    zMain := ram [(1029, 4)]
    ctx := { Ctx.reset with starty := 2, endy := 3 } }

/-- The row state of 2.6. -/
def rowState : State :=
  { cleared with
    lmd := ram [(0, 0x0100), (3, 0x0100), (8, 0x0100), (11, 0x0100)]
    vram := ram [(2, 3), (403, 0x85), (421, 0x05)]
    pal := ram [(5, 0x0505), (0x85, 0x8585)]
    ctx := { Ctx.reset with endy := 1 } }

/-- The state of the repeat-policy table of 2.6. -/
def repeatState (m : BitVec 2) : State :=
  { cleared with
    lmd := ram [(0, 0xFF00), (3, 0x0100)]
    vram := ram [(17, 0x22), (31, 0x11)]
    pal := ram [(0x11, 0x1111), (0x22, 0x2222)]
    ctx := { Ctx.reset with m7repeat := m } }

/-- The state of rule R241's example. -/
def mosaicState : State :=
  { cleared with
    lmd := ram [(0, 0x0100), (3, 0x0100), (8, 0x0100), (11, 0x0100), (16, 0x0100), (19, 0x0100)]
    vram := ram [(2, 3), (401, 0x21)]
    pal := ram [(0x21, 0x2121)]
    ctx := { Ctx.reset with endy := 2, hmosaic := 4, vmosaic := 2 } }

/-! ## Ill-formed terms are refused (rule R114) -/

theorem test_wf_startLine : Instr.wf (.trTile 1 0 4 1) = false := by decide

theorem test_wf_tileLineCount : Instr.wf (.trTile 1 0 8 9) = false := by decide

theorem test_wf_clipWidth : Instr.wf (.trClip 1 0 7 9 56 8) = false := by decide

theorem test_wf_clipStartLine : Instr.wf (.trClip 1 0 7 8 57 8) = false := by decide

theorem test_wf_clipLineCount : Instr.wf (.trClip 1 0 7 8 56 9) = false := by decide

theorem test_wf_mospixStartLine : Instr.wf (.trMospix 1 0 63 7 0xFFFF 0xFFFF) = false := by decide

theorem test_wf_edges :
    Instr.wf (.trTile 1 0 56 8) = true ∧ Instr.wf (.trClip 1 0 7 8 56 8) = true := by decide

/-! ## Decoding, word by word (rules R110 to R116) -/

theorem test_decode_sysNop : decode ⟨0, 0, 0, 0, 0, 0, 0, 0⟩ = .ok .sysNop := rfl

theorem test_decode_sysRst : decode ⟨0x01000000, 0, 0, 0, 0, 0, 0, 0⟩ = .ok .sysRst := rfl

theorem test_decode_sysCtxwr :
    decode ⟨0x02000011, 0x0001F800, 0, 0, 0, 0, 0, 0⟩ = .ok (.sysCtxwr .fbd 0x0001F800) := rfl

theorem test_decode_sysCtxrd :
    decode ⟨0x03000013, 0, 0, 0, 0, 0, 0, 0⟩ = .ok (.sysCtxrd .hmosaic) := rfl

theorem test_decode_sysFramestart :
    decode ⟨0x04000000, 0, 0, 0, 0, 0, 0, 0⟩ = .ok .sysFramestart := rfl

theorem test_decode_rdSelect :
    decode ⟨0x05000036, 0, 0, 0, 0, 0, 0, 0⟩ = .ok (.rdSelect .subs .hires) := rfl

theorem test_decode_cmAdd :
    decode ⟨0x10000000, 0xA29F, 0x7A81, 0, 0, 0, 0, 0⟩ = .ok (.cmAdd 0xA29F 0x7A81) := rfl

theorem test_decode_cmAddh :
    decode ⟨0x11000000, 0xA29F, 0x7A81, 0, 0, 0, 0, 0⟩ = .ok (.cmAddh 0xA29F 0x7A81) := rfl

theorem test_decode_cmSub :
    decode ⟨0x12000000, 0xA29F, 0x7A81, 0, 0, 0, 0, 0⟩ = .ok (.cmSub 0xA29F 0x7A81) := rfl

theorem test_decode_cmSubh :
    decode ⟨0x13000000, 0xA29F, 0x7A81, 0, 0, 0, 0, 0⟩ = .ok (.cmSubh 0xA29F 0x7A81) := rfl

theorem test_decode_cmAddb :
    decode ⟨0x14000000, 0xA29F, 0x7A81, 0, 0, 0, 0, 0⟩ = .ok (.cmAddb 0xA29F 0x7A81) := rfl

theorem test_decode_cmAddbh :
    decode ⟨0x15000000, 0xA29F, 0x7A81, 0, 0, 0, 0, 0⟩ = .ok (.cmAddbh 0xA29F 0x7A81) := rfl

theorem test_decode_blendNone :
    decode ⟨0x16000000, 0xA29F, 0x7A81, 0xFF, 0, 0, 0, 0⟩ = .ok (.blendNone 0xA29F 0x7A81 0xFF) := rfl

theorem test_decode_blendAdd :
    decode ⟨0x16000001, 0xA29F, 0x7A81, 0x20, 0, 0, 0, 0⟩ = .ok (.blendAdd 0xA29F 0x7A81 0x20) := rfl

theorem test_decode_blendAddf :
    decode ⟨0x16000002, 0xA29F, 0x7A81, 0x20, 0, 0, 0, 0⟩ = .ok (.blendAddf 0xA29F 0x7A81 0x20) := rfl

theorem test_decode_blendAdds :
    decode ⟨0x16000003, 0xA29F, 0x7A81, 0x20, 0, 0, 0, 0⟩ = .ok (.blendAdds 0xA29F 0x7A81 0x20) := rfl

theorem test_decode_blendSub :
    decode ⟨0x16000004, 0xA29F, 0x7A81, 0x20, 0, 0, 0, 0⟩ = .ok (.blendSub 0xA29F 0x7A81 0x20) := rfl

theorem test_decode_blendSubf :
    decode ⟨0x16000005, 0xA29F, 0x7A81, 0x20, 0, 0, 0, 0⟩ = .ok (.blendSubf 0xA29F 0x7A81 0x20) := rfl

theorem test_decode_blendSubs :
    decode ⟨0x16000006, 0xA29F, 0x7A81, 0x20, 0, 0, 0, 0⟩ = .ok (.blendSubs 0xA29F 0x7A81 0x20) := rfl

theorem test_decode_blendAddb :
    decode ⟨0x16000007, 0xA29F, 0x7A81, 0x20, 0, 0, 0, 0⟩ = .ok (.blendAddb 0xA29F 0x7A81 0x20) := rfl

theorem test_decode_blendAddbs :
    decode ⟨0x16000008, 0xA29F, 0x7A81, 0x20, 0, 0, 0, 0⟩ = .ok (.blendAddbs 0xA29F 0x7A81 0x20) := rfl

theorem test_decode_plotN1x1 :
    decode ⟨0x20000000, 4, 5, 0x60, 0x61, 6, 7, 9⟩ = .ok (.plotN1x1 4 5 0x60 0x61 6 7 9) := rfl

theorem test_decode_plotN2x1 :
    decode ⟨0x21000000, 4, 5, 0x60, 0x61, 6, 7, 9⟩ = .ok (.plotN2x1 4 5 0x60 0x61 6 7 9) := rfl

theorem test_decode_plotInt :
    decode ⟨0x22000000, 4, 5, 0x60, 0x61, 6, 7, 9⟩ = .ok (.plotInt 4 5 0x60 0x61 6 7 9) := rfl

theorem test_decode_plotHires :
    decode ⟨0x23000000, 4, 5, 0x60, 0x61, 6, 7, 9⟩ = .ok (.plotHires 4 5 0x60 0x61 6 7 9) := rfl

theorem test_decode_plotHiresint :
    decode ⟨0x24000000, 4, 5, 0x60, 0x61, 6, 7, 9⟩ = .ok (.plotHiresint 4 5 0x60 0x61 6 7 9) := rfl

theorem test_decode_tcResolve :
    decode ⟨0x30000000, 0x4105, 0, 0, 0, 0, 0, 0⟩ = .ok (.tcResolve 0x4105) := rfl

theorem test_decode_tcSelpal :
    decode ⟨0x31000000, 0x4D05, 0, 0, 0, 0, 0, 0⟩ = .ok (.tcSelpal 0x4D05) := rfl

theorem test_decode_trTile :
    decode ⟨0x40000000, 1, 0x400, 0x38, 2, 0, 0, 0⟩ = .ok (.trTile 1 0x400 56 2) := rfl

theorem test_decode_trClip :
    decode ⟨0x41000000, 0xC003, 0x2000, 2, 3, 0x10, 2, 0⟩ = .ok (.trClip 0xC003 0x2000 2 3 16 2) := rfl

theorem test_decode_trMospix :
    decode ⟨0x42000000, 1, 0x800, 8, 1, 3, 2, 0⟩ = .ok (.trMospix 1 0x800 8 1 3 2) := rfl

theorem test_decode_trBackdrop :
    decode ⟨0x43000000, 0x400, 4, 7, 0, 0, 0, 0⟩ = .ok (.trBackdrop 0x400 4 7) := rfl

theorem test_decode_trM7bg1 :
    decode ⟨0x44000000, 8, 16, 2, 0, 0, 0, 0⟩ = .ok (.trM7bg1 8 16 2) := rfl

theorem test_decode_trM7bg2 :
    decode ⟨0x45000000, 8, 16, 2, 0, 0, 0, 0⟩ = .ok (.trM7bg2 8 16 2) := rfl

theorem test_decode_trM7mbg1 :
    decode ⟨0x46000000, 9, 16, 2, 0, 0, 0, 0⟩ = .ok (.trM7mbg1 9 16 2) := rfl

theorem test_decode_trM7mbg2 :
    decode ⟨0x47000000, 9, 16, 2, 0, 0, 0, 0⟩ = .ok (.trM7mbg2 9 16 2) := rfl

theorem test_decode_csReset : decode ⟨0x50000000, 0, 0, 0, 0, 0, 0, 0⟩ = .ok .csReset := rfl

theorem test_decode_csAck : decode ⟨0x51000000, 0, 0, 0, 0, 0, 0, 0⟩ = .ok .csAck := rfl

theorem test_decode_csRdtile : decode ⟨0x52000000, 2, 0, 0, 0, 0, 0, 0⟩ = .ok (.csRdtile 2) := rfl

theorem test_decode_csRdpal : decode ⟨0x53000000, 2, 0, 0, 0, 0, 0, 0⟩ = .ok (.csRdpal 2) := rfl

theorem test_decode_csRdref : decode ⟨0x54000000, 3, 0, 0, 0, 0, 0, 0⟩ = .ok (.csRdref 3) := rfl

/-- Rows D2 to D4, D10, D14 to D16, F1, P12, C10, T11 and the corner cases of 2.2. -/
theorem test_decode_refusals :
    decode ⟨0x05000009, 0, 0, 0, 0, 0, 0, 0⟩ = .error .illegalOperand
      ∧ decode ⟨0x05000050, 0, 0, 0, 0, 0, 0, 0⟩ = .error .illegalOperand
      ∧ decode ⟨0x05000080, 0, 0, 0, 0, 0, 0, 0⟩ = .error .illegalOpcode
      ∧ decode ⟨0x03000022, 0, 0, 0, 0, 0, 0, 0⟩ = .error .illegalOperand
      ∧ decode ⟨0x06000000, 0, 0, 0, 0, 0, 0, 0⟩ = .error .illegalOpcode
      ∧ decode ⟨0x00000100, 0, 0, 0, 0, 0, 0, 0⟩ = .error .illegalOpcode
      ∧ decode ⟨0, 0, 0, 1, 0, 0, 0, 0⟩ = .error .illegalOperand
      ∧ decode ⟨0x10000000, 0x10000, 0, 0, 0, 0, 0, 0⟩ = .error .illegalOperand
      ∧ decode ⟨0x20000000, 4, 5, 0x60, 0x60, 0x100, 4, 9⟩ = .error .illegalOperand
      ∧ decode ⟨0x30000000, 0x10000, 0, 0, 0, 0, 0, 0⟩ = .error .illegalOperand
      ∧ decode ⟨0x41000000, 1, 0x400, 8, 8, 0, 1, 0⟩ = .error .illegalOperand
      ∧ decode ⟨0x16000009, 0, 0, 0, 0, 0, 0, 0⟩ = .error .illegalOpcode
      ∧ decode ⟨0x16000000, 0, 0, 0x100, 0, 0, 0, 0⟩ = .error .illegalOperand :=
  ⟨rfl, rfl, rfl, rfl, rfl, rfl, rfl, rfl, rfl, rfl, rfl, rfl, rfl⟩

/-- The table's numbering: row TC.RESOLVE, 64 bits. -/
theorem test_decodeTableWord :
    decodeTableWord 64 (0x4105 * 2 ^ 32 + 0x30000000) = some (.tcResolve 0x4105)
      ∧ decodeTableWord 32 0x06000000 = none := ⟨rfl, rfl⟩

/-! ## The step -/

/-- Rows E1 and E2, and program P4, line 3. -/
theorem test_step_faults :
    (stepped (withPacket ⟨0x06000000, 0, 0, 0, 0, 0, 0, 0⟩)).statusOut = 0x0101
      ∧ (stepped (withPacket ⟨0x40000000, 1, 0, 0x38, 2, 0, 0, 0⟩)).statusOut = 0x0401
      ∧ (stepped (stepped { cleared with
          moves := [.packet ⟨0x06000000, 0, 0, 0, 0, 0, 0, 0⟩, .packet ⟨0, 0, 0, 0, 0, 0, 0, 0⟩] })).moves
        = [.packet ⟨0, 0, 0, 0, 0, 0, 0, 0⟩] := by decide +kernel

/-- Row E3. -/
theorem test_step_hardReset :
    (stepped { cleared with
        ctx := { Ctx.reset with status := ⟨true, true, 4⟩, z1 := 7 }
        moves := [.packet ⟨0, 0, 0, 0, 0, 0, 0, 0⟩, .hardReset] }).ctx = Ctx.reset := by
  decide +kernel

/-- The command a row of the table places is the one the next step runs. -/
theorem test_withFetchWord :
    (stepped (State.reset.withFetchWord 32 0x05000036)).ctx.rsel = ⟨.subs, .hires⟩
      ∧ step (State.reset.withFetchWord 32 0x05000036) = exec (.rdSelect .subs .hires) State.reset :=
  ⟨by decide +kernel, rfl⟩

/-! ## System commands and the dispatch (2.7) -/

theorem test_sysNop : answer .sysNop State.reset = word 0 := by decide +kernel

/-- Row D11; the memories stay (rule R252). -/
theorem test_sysRst :
    let t := after .sysRst { cleared with
      ctx := { Ctx.reset with ppl := 256 }
      vram := ram [(16, 0x81)]
      bcap := ram [] }
    t.ctx.ppl = 512 ∧ t.vram = ram [(16, 0x81)] ∧ t.bcap = bcapReset := by decide +kernel

/-- Row D6. -/
theorem test_sysCtxwr_fbd :
    (after (.sysCtxwr .fbd 0x1F800) State.reset).ctx.fbd = ⟨true, 0xF800⟩ := by decide +kernel

/-- Rows D8 and D9. -/
theorem test_sysCtxwr_refused :
    answer (.sysCtxwr .bpp 3) State.reset = some (.fault .illegalOperand)
      ∧ answer (.sysCtxwr .rsel 1) State.reset = some (.fault .illegalOperand) := by decide +kernel

/-- Row D7, and the packed word of row C1. -/
theorem test_sysCtxrd :
    answer (.sysCtxrd .hmosaic) State.reset = word 1
      ∧ answer (.sysCtxrd .tcsel) (withCtx { Ctx.reset with tcsel := ⟨true, .bpp4, true, 0x285⟩ })
        = word 0x285B := by decide +kernel

/-- Rows D12 and D13. -/
theorem test_sysFramestart :
    (after .sysFramestart { cleared with
        ctx := { Ctx.reset with frame := 7 }
        tcflag := ram [(1, 1), (4097, 2)] }).ctx.frame = 8
      ∧ (after .sysFramestart { cleared with tcflag := ram [(1, 1), (4097, 2)] }).tcflag = ram []
      ∧ (after .sysFramestart (withCtx { Ctx.reset with frame := 0xFFFFFFFF })).ctx.frame = 0 := by
  decide +kernel

/-- Row D1. -/
theorem test_rdSelect :
    (after (.rdSelect .subs .hires) State.reset).ctx.readReg .rsel = 0x36 := by decide +kernel

/-! ## ColorMath (2.1) -/

/-- Rows A1, A4 and A6. -/
theorem test_cmAdd :
    answer (.cmAdd 0xA29F 0x7A81) State.reset = word 0xFD3F
      ∧ answer (.cmAdd 0xFFFF 0xFFFF) state555 = word 0x7FFF
      ∧ answer (.cmAdd 0x0400 0x0000) State.reset = word 0x0420 := by decide +kernel

/-- Rows H1, H2 and H5. -/
theorem test_cmAddh :
    answer (.cmAddh 0xA29F 0x7A81) State.reset = word 0x8A90
      ∧ answer (.cmAddh 0x515F 0x3D41) state555 = word 0x4550
      ∧ answer (.cmAddh 0x07E0 0x0000) State.reset = word 0x03E0 := by decide +kernel

/-- Rows S1, S3 and S6. -/
theorem test_cmSub :
    answer (.cmSub 0xA29F 0x7A81) State.reset = word 0x281E
      ∧ answer (.cmSub 0x7A81 0xA29F) State.reset = word 0
      ∧ answer (.cmSub 0x8430 0x0001) State.reset = word 0x842F := by decide +kernel

/-- Rows X1, X4 and X5. -/
theorem test_cmSubh :
    answer (.cmSubh 0xA29F 0x7A81) State.reset = word 0x180F
      ∧ answer (.cmSubh 0xFFFF 0x0000) state555 = word 0x3DEF
      ∧ answer (.cmSubh 0x0002 0x0001) State.reset = word 0x0001 := by decide +kernel

/-- A host-loaded `BCAP` of s >> 1 at the sums of rows B2 and B2b. -/
def halvingState : State :=
  { cleared with bcap := ram [(20, 10), (31, 15), (32, 16), (35, 17)] }

/-- Rows B1, B2 and B2b. -/
theorem test_cmAddb :
    answer (.cmAddb 0xA29F 0x7A81) State.reset = word 0xFD3F
      ∧ answer (.cmAddb 0xA29F 0x7A81) halvingState = word 0x8A90
      ∧ answer (.cmAddb 0x07E0 0x0000) halvingState = word 0x03C0 := by decide +kernel

/-- Row B3. -/
theorem test_cmAddbh : answer (.cmAddbh 0xA29F 0x7A81) halvingState = word 0x8A90 := by decide +kernel

/-! ## Blend modes: the table of 2.2 -/

/-- The four columns of the table. -/
def blendRow (mk : Half → Half → Byte → Instr) : List (Option Response) :=
  [answer (mk 0xA29F 0x7A81 0x00) (blendState false), answer (mk 0xA29F 0x7A81 0x20) (blendState false),
    answer (mk 0xA29F 0x7A81 0x00) (blendState true), answer (mk 0xA29F 0x7A81 0x20) (blendState true)]

theorem test_blendNone :
    blendRow .blendNone = [word 0xA29F, word 0xA29F, word 0xA29F, word 0xA29F] := by decide +kernel

theorem test_blendNone_keepsBit5 : answer (.blendNone 0x0020 0 0) State.reset = word 0x0020 := by
  decide +kernel

theorem test_blendAdd :
    blendRow .blendAdd = [word 0xAB1F, word 0xFD3F, word 0xAB1F, word 0xFD3F] := by decide +kernel

/-- sd = 0xDF behaves as 0x00 and sd = 0xFF as 0x20. -/
theorem test_blendAdd_sdBit :
    answer (.blendAdd 0xA29F 0x7A81 0xDF) (blendState false) = word 0xAB1F
      ∧ answer (.blendAdd 0xA29F 0x7A81 0xFF) (blendState false) = word 0xFD3F := by decide +kernel

theorem test_blendAddf :
    blendRow .blendAddf = [word 0x5191, word 0x5191, word 0xAB1F, word 0xAB1F] := by decide +kernel

theorem test_blendAdds :
    blendRow .blendAdds = [word 0xAB1F, word 0x8A90, word 0xAB1F, word 0xFD3F] := by decide +kernel

theorem test_blendSub :
    blendRow .blendSub = [word 0x9A1C, word 0x281E, word 0x9A1C, word 0x281E] := by decide +kernel

theorem test_blendSubf :
    blendRow .blendSubf = [word 0x510E, word 0x510E, word 0x9A1C, word 0x9A1C] := by decide +kernel

theorem test_blendSubs :
    blendRow .blendSubs = [word 0x9A1C, word 0x180F, word 0x9A1C, word 0x281E] := by decide +kernel

theorem test_blendAddb :
    blendRow .blendAddb = [word 0xAB1F, word 0xFD3F, word 0xAB1F, word 0xFD3F] := by decide +kernel

theorem test_blendAddbs :
    blendRow .blendAddbs = [word 0xAB1F, word 0x8A90, word 0xAB1F, word 0xFD3F] := by decide +kernel

/-! ## PixelPlotter (2.3) -/

/-- Rows P1, P2, P3 and P6. -/
theorem test_plotN1x1_gate :
    (after (.plotN1x1 4 5 96 96 5 4 9) plotState).sMain = ram [(100, 0x1234)]
      ∧ (after (.plotN1x1 4 5 96 96 5 4 9) plotState).zMain = ram [(100, 9)]
      ∧ (after (.plotN1x1 4 5 96 96 5 3 9) plotState).sMain = ram []
      ∧ (after (.plotN1x1 4 0 96 96 5 255 9) plotState).sMain = ram []
      ∧ (after (.plotN1x1 0xFFFFFFFC 1 104 104 5 4 4) plotState).sMain = ram [(100, 0x1234)] := by
  decide +kernel

/-- The blend inside a plot, with `TARGET` = 1: the peer cell is read before it is written. -/
theorem test_plotN1x1_subTarget :
    let t := after (.plotN1x1 0 1 50 50 1 1 1) { cleared with
      pal := ram [(1, 0xA29F)]
      sSub := ram [(50, 0x7A81)]
      ctx := { Ctx.reset with fixedcol := 0x0883, rsel := ⟨.add, .n1x1⟩, target := .sub } }
    t.sSub = ram [(50, 0xAB1F)] ∧ t.zSub = ram [(50, 1)] ∧ t.sMain = ram [] := by decide +kernel

/-- Row P7. -/
theorem test_plotN2x1 :
    let t := after (.plotN2x1 4 1 96 96 5 1 1) { plotState with zMain := ram [(105, 200)] }
    t.sMain = ram [(104, 0x1234), (105, 0x1234)] ∧ t.zMain = ram [(104, 1), (105, 1)] := by decide +kernel

/-- Row P11. -/
theorem test_plotN2x1_range :
    answer (.plotN2x1 0 0 245759 0 5 1 1) plotState = some (.fault .bufRange) := by decide +kernel

/-- Row P8. -/
theorem test_plotInt :
    let t := after (.plotInt 4 1 96 96 5 1 1) { plotState with zMain := ram [(105, 200)] }
    t.sMain = ram [(104, 0x1234), (105, 0x1234)] ∧ t.zMain = ram [(104, 1), (105, 1)] := by decide +kernel

/-- Row Q1, then row Q2. -/
theorem test_plotHires :
    let t := after (.plotHires 4 1 0 0 5 2 2) hiresState
    t.sMain = ram [(9, 0x1234), (10, 0x0AAA)] ∧ t.zMain = ram [(8, 2), (9, 2)]
      ∧ (after (.plotHires 5 1 0 0 6 2 2) t).sMain
        = ram [(9, 0x1234), (10, 0x0AAA), (11, 0x4321), (12, 0x0BBB)] := by decide +kernel

/-- Row Q6: the SD byte of `a` serves both blends. -/
theorem test_plotHires_sdByte :
    (after (.plotHires 4 1 0 0 5 2 2) { hiresState with
        sSub := ram [(8, 0x0800), (10, 0x0AAA)]
        zSub := ram [(8, 0x20)]
        ctx := { Ctx.reset with fixedcol := 1, rsel := ⟨.add, .hires⟩ } }).sMain
      = ram [(9, 0x1A14), (10, 0x1CBE)] := by decide +kernel

/-- Row Q7, and row Q4 under HIRESINT. -/
theorem test_plotHiresint :
    (after (.plotHiresint 4 1 0 0 5 2 2) hiresState).sMain = ram [(9, 0x1234), (10, 0x0AAA)]
      ∧ (after (.plotHiresint 255 1 0 0 5 2 2) hiresState).sMain = ram [(511, 0x1234)]
      ∧ (after (.plotHiresint 255 1 0 0 5 2 2) hiresState).zMain = ram [(510, 2), (511, 2)] := by
  decide +kernel

/-- Row Q5: both columns while clipping. -/
theorem test_plotHiresint_clip :
    (after (.plotHiresint 4 1 0 0 5 2 2) { hiresState with
        ctx := { Ctx.reset with
          clip := true
          scsel := ⟨.pal, true, 0, 0⟩
          fixedcol := 1
          rsel := ⟨.add, .hiresint⟩ } }).sMain = ram [(9, 1), (10, 1)] := by decide +kernel

/-! ## TileCache (2.4) -/

/-- Rows C1 and C4. -/
theorem test_tcResolve_slot :
    answer (.tcResolve 0x4105)
        (withCtx { Ctx.reset with bpp := .bpp4, tileaddr := 0x2000, namesel := 0x1000 }) = word 0x285B
      ∧ (after (.tcResolve 0x03FF)
        (withCtx { Ctx.reset with bpp := .bpp8, tileaddr := 0xF000 })).ctx.tcsel.tn = 0x3BF := by
  decide +kernel

/-- Row C5, both halves. -/
theorem test_tcResolve_pixels :
    (List.range 8).map (after (.tcResolve 0x0001) tileState).slotByte = [3, 2, 0, 0, 0, 0, 0, 1]
      ∧ (List.range 8).map (after (.tcResolve 0x4001) tileState).slotByte = [1, 0, 0, 0, 0, 0, 2, 3]
      ∧ (after (.tcResolve 0x4001) tileState).ctx.decodecnt = 1
      ∧ (after (.tcResolve 0x4001) tileState).selectedFlag = 1
      ∧ (after (.tcResolve 0x0002) tileState).selectedFlag = 2 := by decide +kernel

/-- Rows C7, C8 and C9. -/
theorem test_tcSelpal :
    answer (.tcSelpal 0x4D05) (withCtx { Ctx.reset with palshift := 6, palmask := 0x70 }) = word 0x0180
      ∧ answer (.tcSelpal 0x4D05)
        (withCtx { Ctx.reset with palshift := 6, palmask := 0x70, clip := true }) = word 0x0184
      ∧ answer (.tcSelpal 0x4D05) (withCtx { Ctx.reset with direct := true }) = word 0x1801 := by
  decide +kernel

/-- Rule R120: with the map bits at 13:11 the reference of row C9 selects map 1. -/
theorem test_tcSelpal_mapBit :
    answer (.tcSelpal 0x4D05)
      { withCtx { Ctx.reset with direct := true } with cfg := { Params.standard with mapBit := 11 } }
      = word 0x0801 := by
  decide +kernel

/-! ## TileRenderer (2.5) -/

/-- Rows T2 and T4. -/
theorem test_trTile_flips :
    (after (.trTile 0x4001 1024 0 1) tileState).sMain
        = ram [(1024, 0x0011), (1030, 0x0022), (1031, 0x0033)]
      ∧ (after (.trTile 0x8001 1024 56 1) tileState).sMain
        = ram [(1024, 0x0033), (1025, 0x0022), (1031, 0x0011)] := by decide +kernel

/-- Program P5, line 4: the interlaced walk. -/
theorem test_trTile_interlaced :
    (after (.trTile 3 4096 0 4) fieldState).sMain.cells.map Prod.fst
      = [4098, 4099, 4614, 4615, 5130, 5131, 5646, 5647] := by decide +kernel

/-- Program P5, line 9: both flips, two columns wide, store depth below test depth. -/
theorem test_trClip_flips :
    (after (.trClip 0xC003 8192 2 3 16 2) { fieldState with
        ctx := { Ctx.reset with z1 := 4, z2 := 2, rsel := ⟨.none, .n2x1⟩ } }).zMain
      = ram [(8196, 2), (8197, 2), (8710, 2), (8711, 2)] := by decide +kernel

/-- Rows T8, T9 and T10. -/
theorem test_trClip_columns :
    (after (.trClip 1 1024 1 3 0 1) tileState).sMain = ram [(1025, 0x0022)]
      ∧ (after (.trClip 1 1024 6 8 0 1) tileState).sMain = ram [(1031, 0x0011)]
      ∧ (after (.trClip 1 1024 0 0 0 1) tileState).sMain = ram [] := by decide +kernel

/-- Rows T12 and T13. -/
theorem test_trMospix :
    (after (.trMospix 1 2048 0 1 3 2) tileState).sMain
        = ram [(2048, 0x22), (2049, 0x22), (2050, 0x22), (2560, 0x22), (2561, 0x22), (2562, 0x22)]
      ∧ (after (.trMospix 1 2048 0 2 3 2) tileState).sMain = ram [] := by decide +kernel

/-- Row T14. -/
theorem test_trBackdrop :
    (after (.trBackdrop 1024 4 7) backdropState).sMain
      = ram [(1028, 0x0841), (1030, 0x0841), (1540, 0x0841), (1541, 0x0841), (1542, 0x0841)] := by
  decide +kernel

/-- Rows T15, T16 and T17. -/
theorem test_trBackdrop_colours :
    ((after (.trBackdrop 1024 4 7) { backdropState with
        ctx := { backdropState.ctx with fbd := ⟨true, 0xF800⟩ } }).sMain.cells.map Prod.snd).head?
        = some 0xF800
      ∧ (after (.trBackdrop 1024 4 7) { backdropState with
        ctx := { backdropState.ctx with clip := true } }).sMain = ram []
      ∧ (after (.trBackdrop 1024 7 4) backdropState).sMain = ram [] := by decide +kernel

/-! ## Mode 7 (2.6) -/

/-- The table of `CLIP_10_BIT_SIGNED`. -/
theorem test_clip10 :
    [0x1FF, 0x200, 0x3FF, 0x3FFF, 0, 0x400, -1, -513].map clip10 = [511, -512, -1, -1, 0, 0, -1, 511] := by
  decide +kernel

/-- Row M1. -/
theorem test_trM7bg1 :
    let t := after (.trM7bg1 8 16 2) rowState
    t.sMain = ram [(9, 0x8585), (522, 0x0505)] ∧ t.zMain = ram [(9, 9), (522, 9)] := by decide +kernel

/-- The repeat-policy table. -/
theorem test_trM7bg1_policy :
    (after (.trM7bg1 1 2 0) (repeatState 0)).sMain = ram []
      ∧ (after (.trM7bg1 1 2 0) (repeatState 1)).sMain = ram [(1, 0x2222)]
      ∧ (after (.trM7bg1 1 2 0) (repeatState 2)).sMain = ram [(1, 0x1111)]
      ∧ (after (.trM7bg1 1 2 0) (repeatState 3)).sMain = ram [(1, 0x1111)]
      ∧ (after (.trM7bg1 1 2 0) (repeatState 3)).zMain = ram [(1, 7)] := by decide +kernel

/-- Row M2. -/
theorem test_trM7bg2 :
    let t := after (.trM7bg2 8 16 2) rowState
    t.sMain = ram [(9, 0x0505), (522, 0x0505)] ∧ t.zMain = ram [(9, 13), (522, 5)] := by decide +kernel

/-- The example of rule R241. -/
theorem test_trM7mbg1 :
    let t := after (.trM7mbg1 9 16 2) mosaicState
    t.sMain = ram [(9, 0x2121), (10, 0x2121), (11, 0x2121), (521, 0x2121), (522, 0x2121), (523, 0x2121)]
      ∧ t.zMain = ram [(9, 9), (10, 9), (11, 9), (521, 9), (522, 9), (523, 9)] := by decide +kernel

/-- The example of rule R242. -/
theorem test_trM7mbg2 :
    let t := after (.trM7mbg2 9 16 2) { mosaicState with vram := ram [(2, 3), (401, 0xA1)] }
    t.sMain.cells.map Prod.snd = [0x2121, 0x2121, 0x2121, 0x2121, 0x2121, 0x2121]
      ∧ t.zMain = ram [(9, 13), (10, 13), (11, 13), (521, 13), (522, 13), (523, 13)] := by decide +kernel

/-- The state of rule R241's example with a screen that ends inside line 1. -/
def shortState : State :=
  { mosaicState with cfg := { Params.standard with bufsz := 522 }, sMain := .drawn 0 }

/-- Rules R243, R305: after `F_BUF_RANGE` the masked columns 8 and 520 keep their value. -/
theorem test_trM7mbg1_footprint :
    let t := after (.trM7mbg1 9 16 2) shortState
    t.response = some (.fault .bufRange) ∧ t.sMain.cells.map Prod.fst = [9, 10, 11, 521] := by
  decide +kernel

/-- Rules R241, R305: with `Left` = `Right` every flag is 0 and the fault leaves every cell as it was. -/
theorem test_trM7mbg1_allMasked :
    let t := after (.trM7mbg1 9 9 2) shortState
    t.response = some (.fault .bufRange) ∧ t.sMain = shortState.sMain ∧ t.zMain = shortState.zMain := by
  decide +kernel

/-- Row T18 with one cell of depth 5: the cells of the footprint are those the gate passes
(assumption 8). -/
theorem test_trTile_footprint :
    let t := after (.trTile 1 245244 0 2) { cleared with
      vram := ram [(16, 0xFF), (18, 0xFF)]
      sMain := .drawn 0
      zMain := ram [(245245, 5)]
      ctx := { Ctx.reset with z1 := 1, z2 := 1 } }
    t.response = some (.fault .bufRange)
      ∧ t.sMain.cells.map Prod.fst = [245244, 245246, 245247, 245248, 245249, 245250, 245251, 245756,
        245757, 245758, 245759] := by decide +kernel

/-! ## CaptureStore (2.8, program P3) -/

/-- Program P3, line 3. -/
theorem test_capture_firstDraw :
    drawnState.ctx.nrefs = 1 ∧ drawnState.ctx.status.capreq = true
      ∧ drawnState.refs
        = [{ id := 0, tileId := 0, shotId := 0, frame := 1, x := 0, y := 2, shape := .tile,
             addr := .n1x1, math := .none, palId := 0 }]
      ∧ drawnState.pals = [{ id := 0, colors := [0, 0x0011, 0x0022, 0x0033], size := 4, frequency := 1 }]
      ∧ drawnState.tiles.map TileRecord.usage = [[(0, 1)]]
      ∧ drawnState.tiles.map TileRecord.mileRef = [[some 0, none, none, none]] := by decide +kernel

/-- Program P3, line 8 after line 3: the flipped draw is the same tile. -/
theorem test_capture_flippedDraw :
    let t := after (.trClip 0x4001 2056 2 4 0 8) drawnState
    t.ctx.ntiles = 1 ∧ t.refs.map RefRecord.x = [0, 8] ∧ t.refs.map RefRecord.y = [2, 4]
      ∧ t.tiles.map TileRecord.sightings = [1]
      ∧ t.tiles.map (fun r => r.orientRef.hflip) = [some 1] := by decide +kernel

/-- Row K1. -/
theorem test_csReset :
    let t := after .csReset drawnState
    t.ctx.ntiles = 0 ∧ t.ctx.npals = 0 ∧ t.ctx.nrefs = 0 ∧ t.ctx.status.capreq = false
      ∧ answer (.csRdtile 0) t = some (.ok .absent) := by decide +kernel

/-- Rows K2 and K3. -/
theorem test_csAck :
    (after .csAck (withCtx { Ctx.reset with shotid := 4, status := ⟨false, true, 0⟩ })).ctx.shotid = 5
      ∧ (after .csAck (withCtx { Ctx.reset with shotid := 4 })).ctx.shotid = 4 := by decide +kernel

/-- Row K4 with one record. -/
theorem test_csRdtile :
    answer (.csRdtile 1) drawnState = some (.ok .absent)
      ∧ answer (.csRdtile 0) drawnState = some (.ok (match drawnState.tiles with
        | r :: _ => .tile r
        | [] => .absent)) := by decide +kernel

/-- The record of program P3, line 3, with the key of rule R83 and the channels of rule R287. -/
theorem test_csRdpal :
    answer (.csRdpal 0) drawnState
      = some (.ok (.pal {
          id := 0
          size := 4
          colors := [0, 0x0011, 0x0022, 0x0033]
          rgb := [⟨0, 0, 0⟩, ⟨0, 0, 17⟩, ⟨0, 0, 2⟩, ⟨0, 0, 19⟩]
          frequency := 1
          key := [0, 0, 0x11, 0, 0x22, 0, 0x33, 0] })) := by decide +kernel

/-- The descriptor strings of rule R289, and the numbers of rules R122 to R124. -/
theorem test_csRdref :
    (match answer (.csRdref 0) drawnState with
      | some (.ok (.ref v)) =>
        some ((v.shapeName, v.addrName, v.mathName), (v.shapeNum, v.addrNum, v.mathNum))
      | _ => none) = some (("TILE", "N1X1", "NONE"), (0, 0, 0)) := by decide +kernel

/-- The column of rule R124. -/
theorem test_shapeNum :
    [Shape.tile, .clip, .mospix, .backdrop, .m7bg1, .m7bg2, .m7mbg1, .m7mbg2].map
        (fun h => (h.num, shapeName h))
      = [(0, "TILE"), (1, "CLIP"), (2, "MOSPIX"), (3, "BACKDROP"), (4, "M7BG1"), (5, "M7BG2"),
        (6, "M7MBG1"), (7, "M7MBG2")] := by decide

/-- Rule R96: a slot decoded in this frame draws its old pixels after `VRAM` has changed. -/
theorem test_trTile_stale :
    (after (.trTile 1 1024 0 1) { after (.tcResolve 1) tileState with vram := ram [] }).sMain
      = ram [(1024, 0x0033), (1025, 0x0022), (1031, 0x0011)] := by decide +kernel

/-! ## Witnesses: the hypotheses of each statement can be met, clause by clause -/

/-- A record that a list holds at an index. -/
theorem exists_at {α : Type} (l : List α) (j : Nat) (P : α → Prop) [DecidablePred P]
    (h : (l[j]?).any (fun r => decide (P r)) = true) : ∃ r, l[j]? = some r ∧ P r := by
  cases hl : l[j]? with
  | none => rw [hl] at h; cases h
  | some r => rw [hl] at h; exact ⟨r, rfl, of_decide_eq_true h⟩

theorem witness_DecodeOfEncode :
    Instr.wf (.trClip 0xFFFF 0xFFFFFFFF 7 8 56 8) = true ∧ Instr.wf (.trTile 0 0 0 0) = true := by
  decide

theorem witness_EncodeOfDecode :
    ∃ i, decode ⟨0x41000000, 0xFFFF, 0xFFFFFFFF, 7, 8, 56, 8, 0⟩ = .ok i := ⟨_, rfl⟩

theorem witness_OpcodeMap :
    headerSelects 0x0500007F (.rdSelect .none .n1x1) ∧ headerSelects 0x02000000 (.sysCtxwr .status 0)
      ∧ ∃ i, decode ⟨0x05000048, 0, 0, 0, 0, 0, 0, 0⟩ = .ok i := ⟨rfl, rfl, _, rfl⟩

theorem witness_StepRunsDecoded :
    let s := withPacket ⟨0x05000036, 0, 0, 0, 0, 0, 0, 0⟩
    s.moves = .packet ⟨0x05000036, 0, 0, 0, 0, 0, 0, 0⟩ :: [] ∧ s.ctx.status.halt = false
      ∧ decode ⟨0x05000036, 0, 0, 0, 0, 0, 0, 0⟩ = .ok (.rdSelect .subs .hires) := ⟨rfl, rfl, rfl⟩

theorem witness_RefusedPacketFaults :
    (let s := withPacket ⟨0x55000000, 0, 0, 0, 0, 0, 0, 0⟩;
      s.moves = .packet ⟨0x55000000, 0, 0, 0, 0, 0, 0, 0⟩ :: [] ∧ s.ctx.status.halt = false
        ∧ decode ⟨0x55000000, 0, 0, 0, 0, 0, 0, 0⟩ = .error .illegalOpcode)
      ∧ (let s := withPacket ⟨0x40000000, 1, 0, 64, 1, 0, 0, 0⟩;
        s.moves = .packet ⟨0x40000000, 1, 0, 64, 1, 0, 0, 0⟩ :: [] ∧ s.ctx.status.halt = false
          ∧ decode ⟨0x40000000, 1, 0, 64, 1, 0, 0, 0⟩ = .error .illegalOperand) :=
  ⟨⟨rfl, rfl, rfl⟩, ⟨rfl, rfl, rfl⟩⟩

/-- A halted block with the given moves. -/
def halted (ms : List HostMove) : State :=
  { withCtx { Ctx.reset with status := ⟨true, false, 1⟩ } with moves := ms }

theorem witness_HaltedBlock :
    (halted [.packet ⟨0, 0, 0, 0, 0, 0, 0, 0⟩]).ctx.status.halt = true
      ∧ (∀ m ∈ (halted [.packet ⟨0, 0, 0, 0, 0, 0, 0, 0⟩]).moves, m.isPacket = true)
      ∧ (∃ t, step (halted [.packet ⟨0, 0, 0, 0, 0, 0, 0, 0⟩, .hardReset]) = .next t)
      ∧ (halted [.packet ⟨0, 0, 0, 0, 0, 0, 0, 0⟩, .read .vram 65535]).moves
        = [.packet ⟨0, 0, 0, 0, 0, 0, 0, 0⟩] ++ .read .vram 65535 :: []
      ∧ 65535 < Space.size (halted []).cfg .vram
      ∧ (halted [.packet ⟨0, 0, 0, 0, 0, 0, 0, 0⟩, .hardReset]).moves
        = [.packet ⟨0, 0, 0, 0, 0, 0, 0, 0⟩] ++ .hardReset :: [] :=
  ⟨rfl, by decide, ⟨_, rfl⟩, rfl, by decide, rfl⟩

theorem witness_HardwareReset : (halted [.hardReset]).moves = .hardReset :: [] := rfl

theorem witness_HostMemoryPort :
    State.reset.moves = [] ∧ 62 < Space.size State.reset.cfg .bcap
      ∧ ¬ 63 < Space.size State.reset.cfg .bcap ∧ 1919 < Space.size State.reset.cfg .lmd
      ∧ ¬ 1920 < Space.size State.reset.cfg .lmd ∧ 245759 < Space.size State.reset.cfg .zSub
      ∧ ¬ 245760 < Space.size State.reset.cfg .zSub
      ∧ (halted [.write .bcap 62 0xFFFF]).moves = .write .bcap 62 0xFFFF :: []
      ∧ (halted [.read .lmd 1920]).moves = .read .lmd 1920 :: [] := by
  refine ⟨rfl, ?_, ?_, ?_, ?_, ?_, ?_, rfl, rfl⟩ <;> decide

theorem witness_SysNopChangesNothing :
    (0x00FFFFFF : Word).toNat < 2 ^ 24 ∧ (0x00FFFFFF : Word) ≠ 0
      ∧ (⟨0, 0, 0, 0, 0, 0, 0, 1⟩ : Packet).w0 = 0
      ∧ (⟨0, 0, 0, 0, 0, 0, 0, 1⟩ : Packet) ≠ ⟨0, 0, 0, 0, 0, 0, 0, 0⟩ := by decide

theorem witness_SoftReset :
    (halted [.packet ⟨0x01000000, 0, 0, 0, 0, 0, 0, 0⟩]).ctx.status.halt = true
      ∧ (halted [.packet ⟨0x01000000, 0, 0, 0, 0, 0, 0, 0⟩]).moves
        = [.packet ⟨0x01000000, 0, 0, 0, 0, 0, 0, 0⟩] := ⟨rfl, rfl⟩

theorem witness_ContextWrite :
    ctxLegal .hmosaic 16 ∧ ¬ ctxLegal .hmosaic 17 ∧ ¬ ctxLegal .hmosaic 0 ∧ ctxLegal .fbd 0x1FFFF
      ∧ ¬ ctxLegal .fbd 0x20000 ∧ ¬ ctxLegal .shotid 0 ∧ ctxLegal .ppl 0x7FFFFFFF
      ∧ ¬ ctxLegal .ppl 0x80000000 ∧ 0x21 < 34 ∧ 34 < 256 ∧ 0x21 < 255 ∧ 255 < 256 := by
  simp [ctxLegal]

theorem witness_ContextRead :
    (0x21 < 34 ∧ 34 < 256 ∧ 0x21 < 255 ∧ 255 < 256)
      ∧ (let s := { drawnState with moves := [.packet ⟨0x03000000, 0, 0, 0, 0, 0, 0, 0⟩] };
        s.moves = .packet ⟨0x03000000, 0, 0, 0, 0, 0, 0, 0⟩ :: [] ∧ s.ctx.status.halt = false
          ∧ s.statusConsistent ∧ s.ctx.status.capreq = true) := by
  refine ⟨by decide, rfl, by decide +kernel, ?_, by decide +kernel⟩
  unfold State.statusConsistent
  decide +kernel

theorem witness_RendererSelection :
    (∃ t, exec .sysFramestart State.reset = .next t ∧ Instr.sysFramestart ≠ .sysRst
        ∧ ∀ m a, Instr.sysFramestart ≠ .rdSelect m a)
      ∧ (9 < 128 ∧ 8 < 9 % 16) ∧ (80 < 128 ∧ 4 < 80 / 16) ∧ (127 < 128 ∧ 8 < 127 % 16)
      ∧ (128 ≤ 128 ∧ 128 < 256
        ∧ (⟨0x05000080, 0, 0, 0, 0, 0, 0, 0⟩ : Packet).w0 = 0x05000000 + BitVec.ofNat 32 128) := by
  refine ⟨⟨_, rfl, by decide, fun _ _ => by simp⟩, ?_⟩
  decide

theorem witness_CmAddbLooksUp :
    ∀ k < 63, (Memory.read State.reset.bcap k).toNat = min k 31 := by decide +kernel

theorem witness_BlendNoneAndSdBit :
    (0xDF : Byte).toNat / 2 ^ State.reset.cfg.sdSelectBit % 2
        = (0x00 : Byte).toNat / 2 ^ State.reset.cfg.sdSelectBit % 2
      ∧ 8 < 9 ∧ 9 < 256
      ∧ (⟨0x16000009, 0, 0, 0, 0, 0, 0, 0⟩ : Packet).w0 = 0x16000000 + BitVec.ofNat 32 9 := by
  decide +kernel

/-- `ORIGIN` = 1024: the first and the last cell, and the addresses beside them. -/
def movedState : State := withCtx { Ctx.reset with origin := 1024 }

theorem witness_PlotN1x1 :
    (¬ movedState.inRange ((0 : Word).toNat + (0xFFFFFBFF : Word).toInt))
      ∧ (movedState.inRange ((0 : Word).toNat + (0xFFFFFC00 : Word).toInt)
        ∧ (movedState.readTZ
            (movedState.index ((0 : Word).toNat + (0xFFFFFC00 : Word).toInt))).toNat
          < (1 : Byte).toNat)
      ∧ (movedState.inRange ((244735 : Word).toNat + (0 : Word).toInt)
        ∧ ¬ movedState.inRange ((244735 : Word).toNat + (1 : Word).toInt))
      ∧ ¬((0 : Word) ≠ 0 ∧ (movedState.readTZ 0).toNat < (1 : Byte).toNat) := by
  unfold State.inRange State.index
  decide +kernel

theorem witness_PlotN2x1AndInt :
    (¬(cleared.inRange 245759 ∧ cleared.inRange (245759 + 1)))
      ∧ (cleared.inRange 245758 ∧ cleared.inRange (245758 + 1)
        ∧ (cleared.readTZ (cleared.index 245758)).toNat < (1 : Byte).toNat)
      ∧ (plotState.inRange 100 ∧ plotState.inRange (100 + 1)
        ∧ ¬((1 : Word) ≠ 0 ∧ (plotState.readTZ (plotState.index 100)).toNat < (3 : Byte).toNat)) := by
  unfold State.inRange State.index
  decide +kernel

/-- The four clauses: a base out of range; gated; the combined column out of range; drawn, at line
positions 0, 8 and 510. -/
theorem witness_PlotHiresAndHiresint :
    (¬(cleared.inRange 245759 ∧ cleared.inRange (245759 + 1)))
      ∧ (plotState.inRange 100 ∧ plotState.inRange (100 + 1)
        ∧ ¬((1 : Word) ≠ 0 ∧ (plotState.readTZ (plotState.index 100)).toNat < (3 : Byte).toNat))
      ∧ (cleared.inRange 245758 ∧ cleared.inRange (245758 + 1)
        ∧ (cleared.readTZ (cleared.index 245758)).toNat < (1 : Byte).toNat
        ∧ ((0 : Word).toNat : Int) + 2 * (4 : Word).toInt ≠ 510
        ∧ ¬ cleared.inRange (245758 + 2))
      ∧ (cleared.inRange 0 ∧ cleared.inRange (0 + 1) ∧ cleared.inRange (0 + 2)
        ∧ (cleared.readTZ (cleared.index 0)).toNat < (1 : Byte).toNat
        ∧ ((0 : Word).toNat : Int) + 2 * (255 : Word).toInt = 510) := by
  unfold State.inRange State.index
  decide +kernel

theorem witness_ResolveNamesSlot :
    (let t := after (.tcResolve 0x4001) tileState;
      t.slotFlag t.ctx.bpp ((0x4001 : Half).getLsbD t.cfg.hflipBit) (tileNumberOf t 0x4001) ≠ 0)
      ∧ tileState.slotFlag tileState.ctx.bpp ((0x4001 : Half).getLsbD tileState.cfg.hflipBit)
        (tileNumberOf tileState 0x4001) = 0 := by decide +kernel

/-- The state T under another converter. -/
def pluggedState : State := { tileState with cfg := { Params.standard with convert := .plugged 3 } }

theorem witness_DecodeUnpacksPlanes :
    tileState.slotFlag tileState.ctx.bpp ((0x4001 : Half).getLsbD tileState.cfg.hflipBit)
        (tileNumberOf tileState 0x4001) = 0
      ∧ (∃ t, exec (.tcResolve 0x4001) tileState = .next t)
      ∧ tileState.cfg.convert = .planar
      ∧ (∃ k < 64, (after (.tcResolve 0x4001) tileState).cacheByte .bpp2 true 1 k ≠ 0)
      ∧ (∀ k < 64, (after (.tcResolve 0x0002) tileState).cacheByte .bpp2 false 2 k = 0)
      ∧ pluggedState.cfg.convert = .plugged 3
      ∧ pluggedState.slotFlag pluggedState.ctx.bpp ((0x4001 : Half).getLsbD pluggedState.cfg.hflipBit)
        (tileNumberOf pluggedState 0x4001) = 0
      ∧ ∃ t, exec (.tcResolve 0x4001) pluggedState = .next t :=
  ⟨by decide +kernel, ⟨_, exec_after _ _⟩, rfl, by decide +kernel, by decide +kernel, rfl,
    by decide +kernel, ⟨_, exec_after _ _⟩⟩

theorem witness_DecodedOncePerFrame :
    (∃ t, exec (.tcResolve 0x4001) tileState = .next t)
      ∧ (∃ t, exec (.trTile 0x4001 1024 0 1) (after (.tcResolve 0x4001) tileState) = .next t)
      ∧ (after (.tcResolve 0x4001) tileState).slotFlag .bpp2 true 1 ≠ 0 :=
  ⟨⟨_, exec_after _ _⟩, ⟨_, exec_after _ _⟩, by decide +kernel⟩

/-- The plots of row T1 and of the rectangle of row T14 are in range. -/
theorem canPlot_n1x1 {s : State} {base oil n : Int} (ha : s.ctx.rsel.addr = .n1x1)
    (h : s.inRange (base + n)) : s.canPlot base oil n := by
  unfold State.canPlot PlotCall.reachable
  rw [ha]
  exact h

/-- `s` with one record at most in each store. -/
def small (s : State) : State :=
  { s with cfg := { s.cfg with capTiles := some 1, capPals := some 1, capRefs := some 1 } }

/-- No room is needed with `CAPEN` = 0, nor in unbounded stores; a store of one record has room for the
first tile, and none is needed for a tile, palette and orientation it holds. -/
theorem catalogRoom_examples :
    tileState.catalogRoom 0x8001 ∧ captureState.catalogRoom 0x8001 ∧ (small captureState).catalogRoom 1
      ∧ ((small drawnState).ctx.capen = true ∧ (small drawnState).catalogRoom 1) := by
  refine ⟨nofun, fun _ _ => ⟨nofun, nofun, nofun⟩,
    fun _ _ => ⟨fun c h => .inl ?_, fun c h => .inl ?_, fun c h => .inl ?_⟩, by decide +kernel,
    fun _ _ => ⟨fun c _ => .inr ?_, fun c _ => .inr ?_, fun c _ => .inr ?_⟩⟩
  · cases h; decide +kernel
  · cases h; decide +kernel
  · cases h; decide +kernel
  · decide +kernel
  · decide +kernel
  · have h : ((small drawnState).recordOf (State.resolve 1 (small drawnState)).tileKey).any
        (fun r => decide (r.lastSeenFrame = (small drawnState).ctx.frame ∧ r.orientSeen.plain = true))
          = true := by decide +kernel
    revert h
    cases (small drawnState).recordOf (State.resolve 1 (small drawnState)).tileKey with
    | none => intro h; cases h
    | some r =>
      intro h
      have h := of_decide_eq_true h
      rintro (h' | h')
      · exact h'.1 r rfl h.1
      · have := h' r rfl
        rw [show orientOf _ _ = Orient.plain from rfl] at this
        exact absurd (h.2.symm.trans this) (by decide)

theorem witness_TileCommandsFrame :
    (∀ k < (1 : BitVec 4).toNat, tileState.rowDrawn 0x8001 56 k) ∧ tileState.catalogRoom 0x8001
      ∧ captureState.catalogRoom 0x8001 ∧ (small captureState).catalogRoom 1
      ∧ (∀ base oil n, tileState.placed 1024 1 (fun c => c < 8) base oil n →
        tileState.canPlot base oil n)
      ∧ (∀ base oil n, tileState.placed 1024 1
          (fun c => (7 : BitVec 3).toNat ≤ c ∧ c < min 8 ((7 : BitVec 3).toNat + (8 : BitVec 4).toNat))
          base oil n → tileState.canPlot base oil n)
      ∧ tileState.rowDrawn 0x8001 56 0
      ∧ ∀ base oil n, tileState.placed 1024 1 (fun c => c < (3 : Half).toNat) base oil n →
        tileState.canPlot base oil n := by
  have hcell : ∀ c : Nat, c < 8 → ∀ k : Nat, k < 1 → tileState.canPlot
      ((1024 : Word).toNat + (k : Int) * tileState.ctx.ppl.toNat)
      (((1024 : Word).toNat : Int) % tileState.ctx.rppl.toNat) (c : Int) := by
    intro c hc k hk
    refine canPlot_n1x1 rfl ?_
    unfold State.inRange
    interval_cases k
    interval_cases c <;> decide +kernel
  refine ⟨by unfold State.rowDrawn; decide +kernel, catalogRoom_examples.1, catalogRoom_examples.2.1,
    catalogRoom_examples.2.2.1, ?_, ?_,
    by unfold State.rowDrawn; decide +kernel, ?_⟩
  · rintro _ _ _ ⟨k, hk, c, hc, rfl, rfl, rfl⟩
    exact hcell c hc k hk
  · rintro _ _ _ ⟨k, hk, c, hc, rfl, rfl, rfl⟩
    exact hcell c (by omega) k hk
  · rintro _ _ _ ⟨k, hk, c, hc, rfl, rfl, rfl⟩
    exact hcell c (Nat.lt_trans hc (by decide)) k hk

theorem witness_FillCommandsFrame :
    rowState.linesInTable ∧ mosaicState.blocksInTable
      ∧ mosaicState.ctx.mosaicstart.toNat < mosaicState.ctx.vmosaic.toNat
      ∧ mosaicState.ctx.mosaicstart.toNat ≤ mosaicState.ctx.starty.toNat
      ∧ 1 ≤ mosaicState.ctx.hmosaic.toNat
      ∧ (∀ base oil n, rowState.placedRows 0 (fun c => 8 ≤ c ∧ c < 16) base oil n →
        rowState.canPlot base oil n)
      ∧ (∀ base oil n, mosaicState.placedRows 0
          (fun c => mosaicState.blockLeft 9 ≤ c ∧ c < mosaicState.blockRight 16) base oil n →
        mosaicState.canPlot base oil n)
      ∧ ∀ base oil n, backdropState.placed 1024 2 (fun c => 4 ≤ c ∧ c < 7) base oil n →
        backdropState.canPlot base oil n := by
  have hr : ∀ {s : State} (x : Int), s.ctx.origin = 0 → s.cfg.bufsz = 245760 → 0 ≤ x → x < 245760 →
      s.inRange x := by
    intro s x h0 hb h1 h2
    unfold State.inRange
    rw [h0, hb]
    exact ⟨by simpa using h1, by simpa using h2⟩
  refine ⟨by unfold State.linesInTable; decide +kernel,
    by unfold State.blocksInTable State.linesInTable; decide +kernel,
    by decide, by decide, by decide, ?_, ?_, ?_⟩
  · rintro _ _ _ ⟨line, _, h, c, ⟨_, hc⟩, rfl, _, rfl⟩
    have h' : line ≤ 1 := h
    have hp : rowState.ctx.ppl.toNat = 512 := rfl
    refine canPlot_n1x1 rfl (hr _ rfl rfl (by positivity) ?_)
    rw [hp]; omega
  · rintro _ _ _ ⟨line, _, h, c, ⟨_, hc⟩, rfl, _, rfl⟩
    have h' : line ≤ 2 := h
    have hc' : c < 16 := hc
    have hp : mosaicState.ctx.ppl.toNat = 512 := rfl
    refine canPlot_n1x1 rfl (hr _ rfl rfl (by positivity) ?_)
    rw [hp]; omega
  · rintro _ _ _ ⟨k, hk, c, ⟨_, hc⟩, rfl, _, rfl⟩
    have hp : backdropState.ctx.ppl.toNat = 512 := rfl
    have ho : (1024 : Word).toNat = 1024 := rfl
    refine canPlot_n1x1 rfl (hr _ rfl rfl (by positivity) ?_)
    rw [hp, ho]; omega

/-- `s` under an addressing mode. -/
def State.mode (s : State) (a : AddrMode) : State :=
  { s with ctx := { s.ctx with rsel := ⟨.none, a⟩ } }

/-- The state T with tile 1 decoded, and `VRAM` overwritten since. -/
def staleState : State := { after (.tcResolve 0x4001) tileState with vram := ram [] }

/-- The low-resolution modes, the shared hypothesis of the statements on drawn pixels. -/
theorem witness_lowRes (s : State) :
    (State.mode s .n1x1).lowRes ∧ (State.mode s .n2x1).lowRes ∧ (State.mode s .int).lowRes := by
  simp [State.mode, State.lowRes]

/-- A sequence of commands that all end without a fault. -/
theorem runs {is : List Instr} {s : State} (h : (runAll is s).isSome = true) : ∃ u, runAll is s = some u :=
  Option.isSome_iff_exists.1 h

/-- The hypotheses shared by the statements on drawn tiles, at the last rows of a tile: not yet decoded and
decoded, in every low-resolution mode, catalogued and not; and a sequence of PLOT commands under HIRES. -/
theorem witness_TileDrawsSourcePixels :
    (8 * (State.mode tileState .n2x1).pixelWidth ≤ (State.mode tileState .n2x1).ctx.ppl.toNat
      ∧ tileState.catalogRoom 0x8001 ∧ (small captureState).catalogRoom 1
      ∧ (∀ k < (8 : BitVec 4).toNat, (State.mode tileState .n2x1).rowDrawn 0x4001 0 k)
      ∧ (∀ k < (4 : BitVec 4).toNat, (State.mode staleState .int).rowDrawn 0x4001 0 k)
      ∧ (∀ k < (8 : BitVec 4).toNat, ∀ c : Nat, c < 8 →
        (State.mode tileState .n2x1).pixelInRange
          ((1024 : Word).toNat + k * tileState.ctx.ppl.toNat) c)
      ∧ ∀ c, (7 : BitVec 3).toNat ≤ c ∧ c < min 8 ((7 : BitVec 3).toNat + (8 : BitVec 4).toNat)
        ↔ c = 7)
    ∧ staleState.tileOpaque 0x4001
    ∧ (∃ u, runAll ([.tcResolve 0x4001, .tcSelpal 0x4001]
        ++ (State.mode staleState .hires).tileInstrs 0x4001 1024 0 (8 : BitVec 4).toNat (between 0 8))
          (State.mode staleState .hires) = some u)
    ∧ (1024 : Word).toNat + (8 : BitVec 4).toNat * tileState.ctx.ppl.toNat ≤ 2 ^ 32 := by
  refine ⟨⟨by decide +kernel, catalogRoom_examples.1, catalogRoom_examples.2.2.1,
    by unfold State.rowDrawn; decide +kernel, by unfold State.rowDrawn; decide +kernel,
    by unfold State.pixelInRange State.inRange; decide +kernel, fun c => ?_⟩,
    by unfold State.tileOpaque; decide +kernel, runs (by decide +kernel), by decide +kernel⟩
  show 7 ≤ c ∧ c < min 8 15 ↔ c = 7
  omega

theorem witness_MospixReplicatesSample :
    ((State.mode tileState .int).pixelWidth * (3 : Half).toNat ≤ tileState.ctx.ppl.toNat
      ∧ (State.mode tileState .int).rowDrawn 0xC001 28 0
      ∧ ∀ k < (2 : Half).toNat, ∀ c < (3 : Half).toNat,
        (State.mode tileState .int).pixelInRange
          ((2048 : Word).toNat + k * tileState.ctx.ppl.toNat) c)
    ∧ tileState.rowDrawn 0xC001 56 0 ∧ tileState.tileOpaque 0xC001
    ∧ (∃ u, runAll ([.tcResolve 0xC001, .tcSelpal 0xC001]
        ++ (State.mode tileState .hires).mospixInstrs 0xC001 2048 56 6 3 2)
          (State.mode tileState .hires) = some u)
    ∧ (2048 : Word).toNat + (2 : Half).toNat * tileState.ctx.ppl.toNat ≤ 2 ^ 32 := by
  refine ⟨⟨by decide +kernel, by unfold State.rowDrawn; decide +kernel,
    by unfold State.pixelInRange State.inRange; decide +kernel⟩,
    by unfold State.rowDrawn; decide +kernel, by unfold State.tileOpaque; decide +kernel,
    runs (by decide +kernel), by decide +kernel⟩

theorem witness_BackdropFillsRectangle :
    (let s := State.mode backdropState .n2x1;
      s.pixelWidth * ((7 : Half).toNat - (4 : Half).toNat) ≤ s.ctx.ppl.toNat
      ∧ ∀ k, s.ctx.starty.toNat + k ≤ s.ctx.endy.toNat →
        ∀ x, (4 : Half).toNat ≤ x → x < (7 : Half).toNat →
          s.pixelInRange ((1024 : Word).toNat + k * s.ctx.ppl.toNat) x)
    ∧ (∃ u, runAll ((State.mode backdropState .hires).backdropInstrs 1024 4 7)
        (State.setScsel ⟨.pal, false, 0, 0⟩ (State.mode backdropState .hires)) = some u)
    ∧ (1024 : Word).toNat + (backdropState.ctx.endy.toNat + 1 - backdropState.ctx.starty.toNat)
        * backdropState.ctx.ppl.toNat ≤ 2 ^ 32 := by
  refine ⟨⟨by decide +kernel, fun k hk x _ hx => ?_⟩, runs (by decide +kernel), by decide +kernel⟩
  have h1 : 2 + k ≤ 3 := hk
  have h2 : x < 7 := hx
  have hk : k < 2 := by omega
  unfold State.pixelInRange State.inRange
  interval_cases k <;> interval_cases x <;> decide +kernel

theorem witness_Mode7RowDraws :
    (let s := State.mode rowState .int;
      s.linesInTable ∧ s.pixelWidth * ((16 : Half).toNat - (8 : Half).toNat) ≤ s.ctx.ppl.toNat
      ∧ ∀ line, s.ctx.starty.toNat ≤ line → line ≤ s.ctx.endy.toNat →
        ∀ x, (8 : Half).toNat ≤ x → x < (16 : Half).toNat →
          s.pixelInRange (line * s.ctx.ppl.toNat) x)
    ∧ 1 ≤ rowState.ctx.rppl.toNat ∧ rowState.ctx.endy.toNat * rowState.ctx.ppl.toNat < 2 ^ 32
    ∧ ∃ u, runAll ((State.mode rowState .hiresint).rowInstrs .bg2 8 16 2)
        (State.setScsel ⟨.pal, false, 0, 0⟩ (State.mode rowState .hiresint)) = some u := by
  refine ⟨⟨by unfold State.linesInTable; decide +kernel, by decide +kernel, fun line _ hl x _ hx => ?_⟩,
    by decide +kernel, by decide +kernel, runs (by decide +kernel)⟩
  have h1 : line ≤ 1 := hl
  have h2 : x < 16 := hx
  unfold State.pixelInRange State.inRange
  interval_cases line <;> interval_cases x <;> decide +kernel

theorem witness_Mode7MosaicDraws :
    (let s := State.mode mosaicState .n2x1;
      s.blocksInTable ∧ 1 ≤ s.ctx.hmosaic.toNat
      ∧ s.ctx.mosaicstart.toNat < s.ctx.vmosaic.toNat
      ∧ s.ctx.mosaicstart.toNat ≤ s.ctx.starty.toNat
      ∧ s.pixelWidth * (s.blockRight 16 - s.blockLeft 9) ≤ s.ctx.ppl.toNat
      ∧ ∀ line, s.ctx.starty.toNat ≤ line → line ≤ s.ctx.endy.toNat →
        ∀ x, s.blockLeft 9 ≤ x → x < s.blockRight 16 → s.pixelInRange (line * s.ctx.ppl.toNat) x)
    ∧ 1 ≤ mosaicState.ctx.rppl.toNat
    ∧ mosaicState.ctx.endy.toNat * mosaicState.ctx.ppl.toNat < 2 ^ 32
    ∧ ∃ u, runAll ((State.mode mosaicState .hires).mosaicInstrs .bg1 9 16 2)
        (State.setScsel ⟨.pal, false, 0, 0⟩ (State.mode mosaicState .hires)) = some u := by
  refine ⟨⟨by unfold State.blocksInTable State.linesInTable; decide +kernel, by decide, by decide,
    by decide, by decide +kernel, fun line _ hl x _ hx => ?_⟩, by decide +kernel, by decide +kernel,
    runs (by decide +kernel)⟩
  have h1 : line ≤ 2 := hl
  have h2 : x < 16 := hx
  unfold State.pixelInRange State.inRange
  interval_cases line <;> interval_cases x <;> decide +kernel

theorem witness_MosaicOfOneIsRow :
    rowState.ctx.hmosaic = 1 ∧ rowState.ctx.vmosaic = 1 ∧ rowState.ctx.mosaicstart = 0
      ∧ answer (.trM7bg1 8 16 2) rowState = some (.ok (.word 0))
      ∧ answer (.trM7bg2 8 16 2) rowState = some (.ok (.word 0))
      ∧ (∃ t, exec (.trM7bg1 8 16 2) rowState = .next t)
      ∧ ∃ t, exec (.trM7bg2 8 16 2) rowState = .next t :=
  ⟨rfl, rfl, rfl, by decide +kernel, by decide +kernel, ⟨_, exec_after _ _⟩, ⟨_, exec_after _ _⟩⟩

/-- Tile 2 is blank: before it is decoded, and after. -/
theorem witness_BlankTileDrawsNothing :
    (∀ k < (8 : BitVec 4).toNat, tileState.rowDrawn 2 0 k)
      ∧ tileState.slotFlag tileState.ctx.bpp ((2 : Half).getLsbD tileState.cfg.hflipBit)
        (tileNumberOf tileState 2) = 0
      ∧ (∀ row < 8, ∀ col < 8, tileState.sourcePixel 2 row col = 0)
      ∧ (let t := after (.tcResolve 2) tileState;
        (∀ k < (8 : BitVec 4).toNat, t.rowDrawn 2 0 k)
          ∧ t.slotFlag t.ctx.bpp ((2 : Half).getLsbD t.cfg.hflipBit) (tileNumberOf t 2) = 2) := by
  unfold State.rowDrawn
  decide +kernel

/-- An empty line range whose first mosaic block, line 240, has no record in a table of 240 lines. -/
def emptyRangeState : State :=
  withCtx { Ctx.reset with vmosaic := 4, mosaicstart := 3, starty := 243, endy := 242 }

/-- Rules R230 and R243: the record of the first block is read although no row is drawn; a row command
reads none. -/
theorem test_m7mosaic_emptyRange :
    answer (.trM7mbg1 0 8 0) emptyRangeState = some (.fault .lineRange)
      ∧ (after (.trM7mbg2 0 8 0) emptyRangeState).ctx.scsel = emptyRangeState.ctx.scsel
      ∧ answer (.trM7bg1 0 8 0) emptyRangeState = some (.ok (.word 0)) := by decide +kernel

/-- Row T5, and the line ranges of rows E5 and R240. -/
theorem witness_PreciseRangeFaults :
    (1 < (2 : BitVec 4).toNat ∧ ¬ tileState.rowDrawn 1 56 1)
      ∧ ¬ fieldState.rowDrawn 3 32 0
      ∧ ¬ (withCtx { Ctx.reset with endy := 240 }).linesInTable
      ∧ (let s := withCtx { Ctx.reset with vmosaic := 2, mosaicstart := 2 };
        s.ctx.vmosaic.toNat ≤ s.ctx.mosaicstart.toNat)
      ∧ (let s := withCtx { Ctx.reset with vmosaic := 2, mosaicstart := 1 };
        s.ctx.mosaicstart.toNat < s.ctx.vmosaic.toNat
          ∧ s.ctx.starty.toNat < s.ctx.mosaicstart.toNat)
      ∧ (let s := withCtx { Ctx.reset with vmosaic := 2, mosaicstart := 1, starty := 1, endy := 240 };
        s.ctx.mosaicstart.toNat < s.ctx.vmosaic.toNat ∧ ¬ s.blocksInTable)
      ∧ emptyRangeState.linesInTable ∧ ¬ emptyRangeState.blocksInTable := by
  unfold State.rowDrawn State.blocksInTable State.linesInTable
  decide +kernel

/-- A record found, with what a Boolean test says of it. -/
theorem exists_of_any {α : Type} {x : Option α} (P : α → Prop) [DecidablePred P]
    (h : x.any (fun r => decide (P r)) = true) : ∃ r, x = some r ∧ P r := by
  cases x with
  | none => cases h
  | some r => exact ⟨r, rfl, of_decide_eq_true h⟩

/-- Row K7, and the two other stores: tile 1 is catalogued, then a tile with other bytes is drawn, or one
with another palette, or the same in another orientation. -/
theorem witness_FullCatalogFaults :
    observedDraw (.trTile 0x4001 1024 0 8) 0x4001 1024 .tile
      ∧ (∀ k < (8 : BitVec 4).toNat, (small drawnState).rowDrawn 0x4001 0 k)
      ∧ (small drawnState).ctx.capen = true
      ∧ (let s := { small drawnState with vram := ram [(16, 0x81), (17, 0xC0), (32, 0xFF)] };
        let u := State.selectPalette 2 (State.resolve 2 s);
        u.selectedFlag ≠ 2 ∧ ∃ c, s.cfg.capTiles = some c ∧ c ≤ s.ctx.ntiles.toNat
          ∧ ∀ r ∈ s.tiles, r.pixels ≠ u.tileKey)
      ∧ (let s := { small drawnState with pal := ram [(5, 0x0044)] };
        let u := State.selectPalette 0x0401 (State.resolve 0x0401 s);
        u.selectedFlag ≠ 2 ∧ ∃ c, s.cfg.capPals = some c ∧ c ≤ s.ctx.npals.toNat
          ∧ ∀ r ∈ s.pals, palKey r.colors ≠ palKey u.palColors)
      ∧ (let s := small drawnState;
        let u := State.selectPalette 0x4001 (State.resolve 0x4001 s);
        u.selectedFlag ≠ 2 ∧ ∃ c, s.cfg.capRefs = some c ∧ c ≤ s.ctx.nrefs.toNat
          ∧ s.firstOfOrientation 0x4001 (s.recordOf u.tileKey)) := by
  refine ⟨Or.inl ⟨_, _, rfl, rfl⟩, by unfold State.rowDrawn; decide +kernel, by decide +kernel,
    ⟨by decide +kernel, 1, rfl, by decide +kernel, by decide +kernel⟩,
    ⟨by decide +kernel, 1, rfl, by decide +kernel, by decide +kernel⟩,
    ⟨by decide +kernel, 1, rfl, by decide +kernel, ?_⟩⟩
  obtain ⟨r, hr, h⟩ := exists_of_any (x := (small drawnState).recordOf
    (State.selectPalette 0x4001 (State.resolve 0x4001 (small drawnState))).tileKey)
    (fun r => r.orientSeen.hflip = false) (by decide +kernel)
  intro r' hr'
  rw [hr] at hr'
  cases hr'
  exact h

/-- Row T19, and a backdrop one cell past the end. -/
theorem witness_OutOfRangePlotFaults :
    (let s := after (.tcResolve 1) tileState;
      s.ctx.capen = false ∧ (∀ k < (1 : BitVec 4).toNat, s.rowDrawn 1 0 k)
        ∧ s.slotFlag s.ctx.bpp ((1 : Half).getLsbD s.cfg.hflipBit) (tileNumberOf s 1) = 1
        ∧ (∃ oil, s.placed 245756 1 (fun c => c < 8) 245756 oil 4)
        ∧ ∀ oil, (cellCall 245756 oil 4).baseOut .n1x1 s)
      ∧ ∃ oil, (withCtx Ctx.reset).placed 245756 1 (fun c => 0 ≤ c ∧ c < 5) 245756 oil 4 := by
  refine ⟨⟨by decide +kernel, by unfold State.rowDrawn; decide +kernel, by decide +kernel,
    ⟨_, 0, by decide, 4, by decide, by decide +kernel, rfl, rfl⟩, fun oil => ?_⟩,
    ⟨_, 0, by decide, 4, by decide, by decide +kernel, rfl, rfl⟩⟩
  show ¬ State.inRange _ (245756 + 4)
  unfold State.inRange
  decide +kernel

theorem witness_CaptureAcknowledge :
    drawnState.ctx.status.capreq = true ∧ State.reset.ctx.status.capreq = false := by decide +kernel

/-- Ids 0, 1, 2, ... of a store of one record. -/
theorem idAt_of_single {α : Type} (l : List α) (idOf : α → Word) (h : l.map idOf = [0]) :
    ∀ i r, l[i]? = some r → idOf r = BitVec.ofNat 32 i := by
  intro i r hr
  have h' : (l.map idOf)[i]? = some (idOf r) := by rw [List.getElem?_map, hr]; rfl
  rw [h] at h'
  match i, h' with
  | 0, h' => exact (Option.some.inj h').symm

theorem witness_CatalogReads :
    drawnState.idsOk ∧ drawnState.tiles.length < 2 ^ 32 ∧ drawnState.pals.length < 2 ^ 32
      ∧ drawnState.refs.length < 2 ^ 32 :=
  ⟨⟨⟨by decide +kernel, idAt_of_single _ _ (by decide +kernel)⟩,
      ⟨by decide +kernel, idAt_of_single _ _ (by decide +kernel)⟩,
      ⟨by decide +kernel, idAt_of_single _ _ (by decide +kernel)⟩⟩,
    by decide +kernel, by decide +kernel, by decide +kernel⟩

/-- The usage maps before a first draw, a second one and one in the next frame; the palette is new, then
found. -/
theorem witness_ObservedDrawCounts_palettes :
    (∀ r ∈ captureState.tiles, r.usageRises) ∧ (∀ r ∈ drawnState.tiles, r.usageRises)
      ∧ (∀ r ∈ (nextFrame drawnState).tiles, r.usageRises)
      ∧ (∀ p ∈ captureState.pals, p.colors ≠ captureState.drawnPalette 1)
      ∧ ∃ p, drawnState.pals[0]? = some p ∧ p.colors = drawnState.drawnPalette 1 := by
  refine ⟨?_, ?_, ?_, by decide +kernel, exists_at _ _ _ (by decide +kernel)⟩ <;>
    · unfold TileRecord.usageRises; decide +kernel

/-- An observed draw: a tile the catalog does not hold, one seen in this frame, one seen in an earlier
frame. -/
theorem witness_ObservedDrawCounts :
    observedDraw (.trTile 1 1024 0 8) 1 1024 .tile
      ∧ observedDraw (.trClip 0x4001 2056 2 4 0 8) 0x4001 2056 .clip
      ∧ (captureState.ctx.capen = true ∧ captureState.keysDistinct
        ∧ answer (.trTile 1 1024 0 8) captureState = some (.ok (.word 0))
        ∧ (State.resolve 1 captureState).selectedFlag ≠ 2
        ∧ ∀ r ∈ captureState.tiles, r.pixels ≠ (State.resolve 1 captureState).tileKey)
      ∧ (drawnState.ctx.capen = true ∧ drawnState.keysDistinct
        ∧ answer (.trTile 1 1024 0 8) drawnState = some (.ok (.word 0))
        ∧ (State.resolve 1 drawnState).selectedFlag ≠ 2
        ∧ ∃ r, drawnState.tiles[0]? = some r ∧ r.pixels = (State.resolve 1 drawnState).tileKey
          ∧ r.lastSeenFrame = drawnState.ctx.frame)
      ∧ (let s := nextFrame drawnState;
        s.ctx.capen = true ∧ s.keysDistinct ∧ answer (.trTile 1 1024 0 8) s = some (.ok (.word 0))
        ∧ (State.resolve 1 s).selectedFlag ≠ 2
        ∧ ∃ r, s.tiles[0]? = some r ∧ r.pixels = (State.resolve 1 s).tileKey
          ∧ r.lastSeenFrame ≠ s.ctx.frame) := by
  refine ⟨Or.inl ⟨_, _, rfl, rfl⟩, Or.inr ⟨_, _, _, _, rfl, rfl⟩,
    ⟨rfl, ?_, by decide +kernel, by decide +kernel, by decide +kernel⟩,
    ⟨by decide +kernel, ?_, by decide +kernel, by decide +kernel, ?_⟩,
    ⟨by decide +kernel, ?_, by decide +kernel, by decide +kernel, ?_⟩⟩
  · unfold State.keysDistinct; decide +kernel
  · unfold State.keysDistinct; decide +kernel
  · exact exists_at _ _ _ (by decide +kernel)
  · unfold State.keysDistinct; decide +kernel
  · exact exists_at _ _ _ (by decide +kernel)

/-- Distinct keys before both draws of the next theorem, the first milestone, and the tile the second draw
finds. -/
theorem witness_ReferenceAtMilestone_stored :
    captureState.keysDistinct ∧ drawnState.keysDistinct ∧ captureState.cfg.milestones[0]? = some 1
      ∧ (∀ r ∈ captureState.tiles, r.pixels ≠ (State.resolve 1 captureState).tileKey)
      ∧ ∃ r, drawnState.tiles[0]? = some r ∧ r.pixels = (State.resolve 1 drawnState).tileKey := by
  refine ⟨?_, ?_, rfl, by decide +kernel, exists_at _ _ _ (by decide +kernel)⟩ <;>
    · unfold State.keysDistinct; decide +kernel

/-- A first draw reaches milestone 1; a second in the same frame reaches none. -/
theorem witness_ReferenceAtMilestone :
    (captureState.reachesMilestone
        (captureState.recordOf (State.resolve 1 captureState).tileKey)
      ∧ captureState.ctx.capen = true
      ∧ answer (.trTile 1 1024 0 8) captureState = some (.ok (.word 0))
      ∧ (State.resolve 1 captureState).selectedFlag ≠ 2)
    ∧ (¬(drawnState.reachesMilestone (drawnState.recordOf (State.resolve 1 drawnState).tileKey)
        ∨ drawnState.firstOfOrientation 1 (drawnState.recordOf (State.resolve 1 drawnState).tileKey))
      ∧ drawnState.ctx.capen = true
      ∧ answer (.trTile 1 1024 0 8) drawnState = some (.ok (.word 0))
      ∧ (State.resolve 1 drawnState).selectedFlag ≠ 2) := by
  refine ⟨⟨⟨?_, by decide +kernel⟩, rfl, by decide +kernel, by decide +kernel⟩,
    ⟨?_, by decide +kernel, by decide +kernel, by decide +kernel⟩⟩
  · intro r h
    rw [show captureState.recordOf _ = none from rfl] at h
    cases h
  · obtain ⟨r, hr, h1, h2⟩ : ∃ r,
        drawnState.recordOf (State.resolve 1 drawnState).tileKey = some r
          ∧ r.lastSeenFrame = drawnState.ctx.frame ∧ r.orientSeen.plain = true :=
      exists_of_any
        (fun r : TileRecord => r.lastSeenFrame = drawnState.ctx.frame ∧ r.orientSeen.plain = true)
        (by decide +kernel)
    rintro (⟨h, _⟩ | h)
    · exact h r hr h1
    · have h' : r.orientSeen.plain = false := h r hr
      rw [h2] at h'
      cases h'

theorem witness_SecondDrawInFrame :
    observedDraw (.trTile 1 1024 0 8) 1 1024 .tile ∧ captureState.ctx.capen = true
      ∧ exec (.trTile 1 1024 0 8) captureState = .next drawnState
      ∧ drawnState.response = some (.ok (.word 0))
      ∧ (∃ u, exec (.trTile 1 1024 0 8) drawnState = .next u)
      ∧ (State.resolve 1 captureState).selectedFlag ≠ 2 :=
  ⟨Or.inl ⟨_, _, rfl, rfl⟩, rfl, exec_after _ _, by decide +kernel, ⟨_, exec_after _ _⟩,
    by decide +kernel⟩

/-- The hypotheses of the invariants meet at reset with a packet pending. -/
theorem witness_Invariants :
    (withPacket ⟨0, 0, 0, 0, 0, 0, 0, 0⟩).memoriesOk ∧ (withPacket ⟨0, 0, 0, 0, 0, 0, 0, 0⟩).registersLegal
      ∧ (withPacket ⟨0, 0, 0, 0, 0, 0, 0, 0⟩).statusConsistent
      ∧ (withPacket ⟨0, 0, 0, 0, 0, 0, 0, 0⟩).slotsConsistent
      ∧ (withPacket ⟨0, 0, 0, 0, 0, 0, 0, 0⟩).catalogConsistent
      ∧ ∃ t, step (withPacket ⟨0, 0, 0, 0, 0, 0, 0, 0⟩) = .next t := by
  refine ⟨?_, ?_, ?_, fun _ _ _ => Or.inl rfl, ⟨⟨⟨rfl, ?_⟩, ⟨rfl, ?_⟩, ⟨rfl, ?_⟩⟩, ⟨?_, ?_⟩, ⟨?_, ?_⟩, ?_,
    ⟨?_, ?_⟩, rfl⟩, ⟨_, rfl⟩⟩
  · unfold State.memoriesOk; decide +kernel
  · unfold State.registersLegal; decide +kernel
  · unfold State.statusConsistent; decide +kernel
  all_goals first
    | exact List.nodup_nil
    | (intro r h; exact absurd h List.not_mem_nil)
    | (intro i r h; cases h)

theorem witness_CommandsKeepInputs :
    (∃ t, exec (.trTile 1 1024 0 8) captureState = .next t) ∧ draws (.trTile 1 1024 0 8) = true
      ∧ (∃ t, exec (.tcResolve 1) captureState = .next t) ∧ draws (.tcResolve 1) = false
      ∧ Instr.tcResolve 1 ≠ .sysRst :=
  ⟨⟨_, exec_after _ _⟩, rfl, ⟨_, exec_after _ _⟩, rfl, by decide⟩

theorem witness_CatalogOnlyGrows :
    (∃ t, exec (.trTile 1 1024 0 8) captureState = .next t)
      ∧ Instr.trTile 1 1024 0 8 ≠ .csReset ∧ Instr.trTile 1 1024 0 8 ≠ .sysRst :=
  ⟨⟨_, exec_after _ _⟩, by decide, by decide⟩

theorem witness_CaptureOffDrawsAlike :
    draws (.trTile 1 1024 0 8) = true ∧ tileState.ctx.capen = false
      ∧ ∃ t, exec (.trTile 1 1024 0 8) tileState = .next t := ⟨rfl, rfl, ⟨_, exec_after _ _⟩⟩

end Sys2Proof.Tests
end

section
/-! SUPPORT and O30. The bits of a decoded tile: the converter's pixels bit by bit, the mirrored half, the
two flag values, and the slots after a TC.RESOLVE that decodes. -/

namespace Sys2Proof.Machine

/-! ## The words of the statements are the model's own -/

theorem tileAddress_eq (s : State) (r : Half) : tileAddress s r = s.tileAddr r := by
  have hindex : r.toNat &&& 0x3FF = tileIndex r := Nat.and_two_pow_sub_one_eq_mod r.toNat 10
  have hselect : r.toNat &&& 0x100 ≠ 0 ↔ nameSelect r = true := by
    have h := Nat.and_two_pow r.toNat 8
    unfold nameSelect
    rw [← BitVec.testBit_toNat]
    cases hb : r.toNat.testBit 8 <;> simp_all
  unfold tileAddress State.tileAddr tileShift
  simp only [hindex, hselect, Nat.shiftLeft_eq]

theorem tileNumberOf_eq (s : State) (r : Half) : tileNumberOf s r = s.tileNumber r := by
  unfold tileNumberOf State.tileNumber tileShift
  rw [tileAddress_eq, Nat.shiftRight_eq_div_pow]

/-! ## The default converter, bit by bit (rule R196) -/

theorem sum_bits_lt (f : Nat → Bool) (n : Nat) :
    ((List.range n).map fun p => bit (f p) * 2 ^ p).sum < 2 ^ n := by
  induction n with
  | zero => simp
  | succ n ih =>
    have hbit : bit (f n) * 2 ^ n ≤ 1 * 2 ^ n := Nat.mul_le_mul_right _ (bit_le (f n))
    simp only [List.range_succ, List.map_append, List.sum_append, List.map_cons, List.map_nil,
      List.sum_singleton, Nat.pow_succ]
    omega

/-- A sum of weighted bits is the number with those bits. -/
theorem testBit_sum_bits (f : Nat → Bool) (n p : Nat) :
    ((List.range n).map fun p => bit (f p) * 2 ^ p).sum.testBit p = (decide (p < n) && f p) := by
  induction n with
  | zero => simp
  | succ n ih =>
    simp only [List.range_succ, List.map_append, List.sum_append, List.map_cons, List.map_nil,
      List.sum_singleton]
    rw [Nat.add_comm, Nat.mul_comm, Nat.testBit_two_pow_mul_add _ (sum_bits_lt f n)]
    obtain h | rfl | h := Nat.lt_trichotomy p n
    · rw [if_pos h, ih]; simp [h, Nat.lt_succ_of_lt h]
    · rw [if_neg (Nat.lt_irrefl p)]; cases f p <;> simp [bit]
    · have hhigh : (bit (f n)).testBit (p - n) = false :=
        Nat.testBit_lt_two_pow (Nat.lt_of_le_of_lt (bit_le _) (Nat.one_lt_two_pow (by omega)))
      rw [if_neg (by omega), hhigh]; simp [show ¬ p < n + 1 by omega]

theorem convertPixel_getLsbD (s : State) (bpp addr y x : Nat) {p : Nat} (hp : p < 8) :
    (s.convertPixel bpp addr y x).getLsbD p
      = (decide (p < bpp) && (s.planeByte addr p y).getLsbD (7 - x)) := by
  unfold State.convertPixel
  rw [BitVec.getLsbD_ofNat, testBit_sum_bits]
  simp [hp]

/-! ## The decoded pixels, by row and column (rule R192) -/

theorem State.flippedColumn_lt (s : State) (r : Half) {x : Nat} (hx : x < 8) :
    s.flippedColumn r x < 8 := by
  unfold State.flippedColumn; split <;> omega

theorem decodedPixels_getElem (s : State) (bank : Bpp) (flip : Bool) (addr : Nat) {y x : Nat}
    (hy : y < 8) (hx : x < 8) (hk : 8 * y + x < (s.decodedPixels bank flip addr).length) :
    (s.decodedPixels bank flip addr)[8 * y + x]
      = s.convertByte (bppOfBank bank) addr (8 * y + if flip then 7 - x else x) := by
  cases flip with
  | false => simp [State.decodedPixels, State.convert]
  | true =>
    have hrow : (8 * y + x) / 8 = y := by omega
    have hcol : (8 * y + x) % 8 = x := by omega
    have hlt : 8 * y + (7 - x) < 64 := by omega
    simp [State.decodedPixels, mirrorH, State.convert, hrow, hcol, hlt]

theorem convertByte_planar {s : State} (h : s.cfg.convert = .planar) (bpp addr : Nat) {y x : Nat}
    (hx : x < 8) : s.convertByte bpp addr (8 * y + x) = s.convertPixel bpp addr y x := by
  unfold State.convertByte
  rw [h]
  simp only [show (8 * y + x) / 8 = y by omega, show (8 * y + x) % 8 = x by omega]

theorem convertByte_plugged {s : State} {id : Nat} (h : s.cfg.convert = .plugged id)
    (bpp addr k : Nat) :
    s.convertByte bpp addr k
      = Config.pluggedPixel id bpp (fun a => Memory.read s.vram (a % 65536)) addr k := by
  unfold State.convertByte
  rw [h]

theorem flagOf_of_blank {px : List Byte} (h : ∀ b ∈ px, b = 0) : flagOf px = 2 := by
  unfold flagOf
  rw [if_pos (by simpa using h)]

theorem flagOf_of_pixel {px : List Byte} {b : Byte} (hb : b ∈ px) (h : b ≠ 0) : flagOf px = 1 := by
  unfold flagOf
  rw [if_neg (by simpa using ⟨b, hb, h⟩)]

/-! ## The slots after a TC.RESOLVE that decodes -/

section Fresh

variable {s t : State} {r : Half}
  (hfresh : s.slotFlag s.ctx.bpp (s.hflip r) (s.tileNumber r) = 0)
  (hexec : exec (.tcResolve r) s = .next t)
include hfresh hexec

/-- The cache after the command is the cache after the decode. -/
theorem tcResolve_fresh_cache :
    let u := State.decodeSlot s.ctx.bpp (s.hflip r) (s.tileNumber r) (s.tileAddr r) s
    t.tcbuf = u.tcbuf ∧ t.tcflag = u.tcflag := by
  obtain rfl : State.done (.word (s.resolved r).word) (State.resolve r s) = t :=
    Host.Outcome.next.inj hexec
  rw [resolve_of_fresh hfresh]
  exact ⟨rfl, rfl⟩

theorem tcResolve_fresh_cacheByte_same {k : Nat} (hk : k < 64) :
    t.cacheByte s.ctx.bpp (s.hflip r) (s.tileNumber r) k
      = (s.decodedPixels s.ctx.bpp (s.hflip r) (s.tileAddr r))[k]'(by
          rw [decodedPixels_length]; exact hk) := by
  rw [← decodeSlot_cacheByte_same s _ _ (s.tileNumber r) _ hk]
  unfold State.cacheByte
  rw [(tcResolve_fresh_cache hfresh hexec).1]

theorem tcResolve_fresh_cacheByte_other {bank : Bpp} {flip : Bool} {tn : BitVec 12}
    (h : ¬(bank = s.ctx.bpp ∧ flip = s.hflip r ∧ tn = s.tileNumber r)) {k : Nat} (hk : k < 64) :
    t.cacheByte bank flip tn k = s.cacheByte bank flip tn k := by
  rw [← decodeSlot_cacheByte_other s (s.tileAddr r) hk h]
  unfold State.cacheByte
  rw [(tcResolve_fresh_cache hfresh hexec).1]

theorem tcResolve_fresh_slotFlag (bank : Bpp) (flip : Bool) (tn : BitVec 12) :
    t.slotFlag bank flip tn
      = if bank = s.ctx.bpp ∧ flip = s.hflip r ∧ tn = s.tileNumber r then
          flagOf (s.decodedPixels s.ctx.bpp (s.hflip r) (s.tileAddr r))
        else s.slotFlag bank flip tn := by
  rw [← decodeSlot_slotFlag]
  unfold State.slotFlag
  rw [(tcResolve_fresh_cache hfresh hexec).2]

/-- Pixel `(y, x)` is the converter's, from the mirrored column in the flipped half. -/
theorem tcResolve_fresh_pixel {y x : Nat} (hy : y < 8) (hx : x < 8) :
    t.cacheByte s.ctx.bpp (s.hflip r) (s.tileNumber r) (8 * y + x)
      = s.convertByte (bppOfBank s.ctx.bpp) (s.tileAddr r)
          (8 * y + s.flippedColumn r x) := by
  rw [tcResolve_fresh_cacheByte_same hfresh hexec (by omega), decodedPixels_getElem s _ _ _ hy hx,
    State.flippedColumn]

theorem tcResolve_fresh_flag_blank
    (h : ∀ k < 64, t.cacheByte s.ctx.bpp (s.hflip r) (s.tileNumber r) k = 0) :
    t.slotFlag s.ctx.bpp (s.hflip r) (s.tileNumber r) = 2 := by
  rw [tcResolve_fresh_slotFlag hfresh hexec, if_pos ⟨rfl, rfl, rfl⟩]
  refine flagOf_of_blank fun b hb => ?_
  obtain ⟨k, hk, rfl⟩ := List.mem_iff_getElem.mp hb
  rw [decodedPixels_length] at hk
  rw [← tcResolve_fresh_cacheByte_same hfresh hexec hk]
  exact h k hk

theorem tcResolve_fresh_flag_pixel
    (h : ∃ k < 64, t.cacheByte s.ctx.bpp (s.hflip r) (s.tileNumber r) k ≠ 0) :
    t.slotFlag s.ctx.bpp (s.hflip r) (s.tileNumber r) = 1 := by
  obtain ⟨k, hk, hne⟩ := h
  rw [tcResolve_fresh_cacheByte_same hfresh hexec hk] at hne
  rw [tcResolve_fresh_slotFlag hfresh hexec, if_pos ⟨rfl, rfl, rfl⟩]
  exact flagOf_of_pixel (List.getElem_mem _) hne

end Fresh

/-- Settles O30: the slot holds the converter's pixels, read bit by bit under the default converter. -/
theorem decodeUnpacksPlanes : Obligations.DecodeUnpacksPlanes := by
  intro s t r flip tn bank
  simp only [flip, tn, bank, tileAddress_eq, tileNumberOf_eq]
  change s.slotFlag s.ctx.bpp (s.hflip r) (s.tileNumber r) = 0 → _
  intro hfresh hexec
  refine ⟨fun hconv y hy x hx p hp => ?_, fun id hconv y hy x hx => ?_,
    tcResolve_fresh_flag_blank hfresh hexec, tcResolve_fresh_flag_pixel hfresh hexec,
    fun bank' flip' tn' hne => ?_⟩
  · have hpixel := tcResolve_fresh_pixel hfresh hexec hy hx
    rw [convertByte_planar hconv _ _ (s.flippedColumn_lt r hx)] at hpixel
    exact (congrArg (·.getLsbD p) hpixel).trans (convertPixel_getLsbD s _ _ y _ hp)
  · exact (tcResolve_fresh_pixel hfresh hexec hy hx).trans (convertByte_plugged hconv _ _ _)
  · have hother : ¬(bank' = s.ctx.bpp ∧ flip' = s.hflip r ∧ tn' = s.tileNumber r) := by
      rintro ⟨hb, hf, ht⟩
      exact hne.elim (· hb) (·.elim (· hf) (· ht))
    exact ⟨(tcResolve_fresh_slotFlag hfresh hexec _ _ _).trans (if_neg hother),
      fun k hk => tcResolve_fresh_cacheByte_other hfresh hexec hother hk⟩

end Sys2Proof.Machine
end

section
/-! SUPPORT. What a command does to the state, said once, and how an invariant that its parts keep is kept
by every step. -/

namespace Sys2Proof.Machine

/-! ## What a command does -/

/-- `u` comes from `s` by the updates a TR command makes before its pixel loop. -/
inductive Readied (s : State) : State → Prop
  | refl : Readied s s
  | setScsel {u : State} (c : Scsel) : Readied s u → Readied s (State.setScsel c u)
  | resolve {u : State} (tile : Half) : Readied s u → Readied s (State.resolve tile u)
  | capture {u : State} (tile : Half) (shape : Shape) (offset : Word) : Readied s u →
      Readied s (u.captureCommit (State.capturePlan tile u) shape offset)

theorem Readied.prepared {s u : State} (h : Readied s u) : Prepared s u := by
  induction h with
  | refl => exact Prepared.refl s
  | setScsel c _ ih => exact ih.trans (prepared_setScsel _ c)
  | resolve tile _ ih => exact ih.trans (prepared_resolve _ tile)
  | capture tile shape offset _ ih => exact ih.trans (prepared_captureCommit _ _ shape offset)

/-- Index `i` is a cell of the screen and depth memories (rule R80). -/
def State.hasCell (s : State) (i : Nat) : Prop := i < s.cfg.bufsz

theorem hasCell_of_screenOfAll {v : AddrMode} {ps : List PlotCall} {s : State} {i : Nat} :
    screenOfAll v ps s i → s.hasCell i := fun ⟨_, _, _, _, _, h⟩ => phys_lt h

theorem hasCell_of_depthOfAll {v : AddrMode} {ps : List PlotCall} {s : State} {i : Nat} :
    depthOfAll v ps s i → s.hasCell i := fun ⟨_, _, _, _, _, h⟩ => phys_lt h

/-- `u` is what command `i` makes of `s` before it responds. A command that faults has done a part of
this, or nothing. -/
inductive Performs : Instr → State → State → Prop
  | nothing (i : Instr) (s : State) : Performs i s s
  | reset (s : State) : Performs .sysRst s s.softReset
  | register {r : CtxReg} {v : Word} (s : State) : regAccepts r v = true →
      Performs (.sysCtxwr r v) s (s.writeReg r v)
  | frame (s : State) : Performs .sysFramestart s s.frameStart
  | select (m : MathMode) (a : AddrMode) (s : State) :
      Performs (.rdSelect m a) s (State.setRsel m a s)
  | resolve (tile : Half) (s : State) : Performs (.tcResolve tile) s (State.resolve tile s)
  | palette (tile : Half) (s : State) : Performs (.tcSelpal tile) s (State.selectPalette tile s)
  | draw {i : Instr} {s u w : State} : draws i = true → Readied s u →
      Draws u.hasCell u.hasCell u w → Performs i s w
  | session (s : State) : Performs .csReset s s.sessionReset
  | acknowledge (s : State) : Performs .csAck s s.acknowledge

/-- `t` is `u` with a response, and with the fault it reports in `STATUS` (rules R118, R302). -/
def Responds (u t : State) : Prop := (∃ v, t = State.done v u) ∨ ∃ c, t = State.raise c u

/-- Command `i` ends in `t`: it has done what it does, and responds. -/
def EndsIn (i : Instr) (s t : State) : Prop := ∃ u, Performs i s u ∧ Responds u t

theorem endsIn_done {i : Instr} {s u : State} (v : RespValue) (h : Performs i s u) :
    EndsIn i s (State.done v u) := ⟨u, h, .inl ⟨v, rfl⟩⟩

theorem endsIn_raise {i : Instr} {s u : State} (c : FaultCode) (h : Performs i s u) :
    EndsIn i s (State.raise c u) := ⟨u, h, .inr ⟨c, rfl⟩⟩

section Drawing

variable {i : Instr} (hdraws : draws i = true)
include hdraws

theorem plotCommand_endsIn (v : AddrMode) (p : PlotCall) (s : State) :
    EndsIn i s (s.plotCommand v p) := by
  obtain ⟨u, hcells, h⟩ := plotCommand_cases v p s
  have hdrawn : Draws s.hasCell s.hasCell s u :=
    hcells.mono (fun _ ⟨_, _, hi⟩ => phys_lt hi) fun _ ⟨_, _, hi⟩ => phys_lt hi
  obtain h | h := h
  · exact h ▸ endsIn_done _ (.draw hdraws .refl hdrawn)
  · exact h ▸ endsIn_raise _ (.draw hdraws .refl hdrawn)

theorem runPlots_endsIn {s u : State} (hready : Readied s u) (ps : List PlotCall) :
    EndsIn i s (u.runPlots ps) := by
  obtain ⟨w, hcells, h⟩ := runPlots_cases ps u
  have hdrawn : Draws u.hasCell u.hasCell u w :=
    hcells.mono (fun _ => hasCell_of_screenOfAll) fun _ => hasCell_of_depthOfAll
  obtain ⟨_, h⟩ | ⟨_, h⟩ := h
  · exact h ▸ endsIn_done _ (.draw hdraws hready hdrawn)
  · exact h ▸ endsIn_raise _ (.draw hdraws hready hdrawn)

theorem tileCommand_endsIn (tile : Half) (shape : Shape) (offset : Word)
    (plots : State → List PlotCall) (s : State) :
    EndsIn i s (State.tileCommand tile shape offset plots s) := by
  have hresolve : Readied s (State.resolve tile s) := .resolve tile .refl
  have hpalette : Readied s (State.selectPalette tile (State.resolve tile s)) :=
    .setScsel _ hresolve
  obtain ⟨_, h⟩ | ⟨_, _, _, _, h⟩ | ⟨u, _, hready, h⟩ :=
    tileCommand_cases tile shape offset plots s
  · exact h ▸ endsIn_done _ (.draw hdraws hresolve .refl)
  · exact h ▸ endsIn_raise _ (.draw hdraws hpalette .refl)
  · rw [h]
    obtain ⟨rfl, _⟩ | ⟨_, _, hcapture⟩ := hready
    · exact runPlots_endsIn hdraws hpalette _
    · rw [(captureObserve_eq_some hcapture).2]
      exact runPlots_endsIn hdraws (.capture tile shape offset hpalette) _

theorem m7Row_endsIn (bg : Bg) (left right : Half) (d : Byte) (s : State) :
    EndsIn i s (State.m7Row bg left right d s) := by
  obtain ⟨_, h⟩ | ⟨_, h⟩ := CaptureLaws.m7Row_cases bg left right d s
  · exact h ▸ endsIn_raise _ (.nothing i s)
  · exact h ▸ runPlots_endsIn hdraws (.setScsel _ .refl) _

theorem m7MosaicRow_endsIn (bg : Bg) (left right : Half) (d : Byte) (s : State) :
    EndsIn i s (State.m7MosaicRow bg left right d s) := by
  obtain ⟨_, h⟩ | ⟨_, _, h⟩ | ⟨_, _, _, h⟩ := CaptureLaws.m7MosaicRow_cases bg left right d s
  · exact h ▸ endsIn_raise _ (.nothing i s)
  · exact h ▸ endsIn_raise _ (.nothing i s)
  · exact h ▸ runPlots_endsIn hdraws (.setScsel _ .refl) _

end Drawing

/-- A command that checks something first faults before any change, or goes on. -/
theorem endsIn_ite {i : Instr} {s t : State} {c : FaultCode} {ok : Prop} [Decidable ok]
    (h : ok → EndsIn i s t) : EndsIn i s (if ok then t else State.raise c s) := by
  split
  · next hok => exact h hok
  · exact endsIn_raise c (.nothing i s)

/-- Everything a command can do. -/
theorem exec_endsIn {i : Instr} {s t : State} (h : exec i s = .next t) : EndsIn i s t := by
  cases i
  case sysRst => cases h; exact endsIn_done _ (.reset s)
  case sysCtxwr r v => cases h; exact endsIn_ite fun hok => endsIn_done _ (.register s hok)
  case sysFramestart => cases h; exact endsIn_done _ (.frame s)
  case rdSelect m a => cases h; exact endsIn_done _ (.select m a s)
  case plotN1x1 | plotN2x1 | plotInt | plotHires | plotHiresint =>
    cases h; exact plotCommand_endsIn rfl _ _ s
  case tcResolve tile => cases h; exact endsIn_done _ (.resolve tile s)
  case tcSelpal tile => cases h; exact endsIn_done _ (.palette tile s)
  case trTile | trClip | trMospix =>
    cases h; exact endsIn_ite fun _ => tileCommand_endsIn rfl _ _ _ _ s
  case trBackdrop => cases h; exact runPlots_endsIn rfl (.setScsel _ .refl) _
  case trM7bg1 | trM7bg2 => cases h; exact m7Row_endsIn rfl _ _ _ _ s
  case trM7mbg1 | trM7mbg2 => cases h; exact m7MosaicRow_endsIn rfl _ _ _ _ s
  case csReset => cases h; exact endsIn_done _ (.session s)
  case csAck => cases h; exact endsIn_done _ (.acknowledge s)
  -- SYS.NOP, SYS.CTXRD, the colour commands and the catalog reads answer and change nothing else.
  all_goals cases h; exact endsIn_done _ (.nothing _ s)

/-! ## What a step keeps -/

/-- Every part of a step keeps `P`: a move is taken, the host uses the memory port or resets the block, a
command does what it does and responds. -/
structure StepKeeps (P : State → Prop) : Prop where
  moves : ∀ s rest, P s → P { s with moves := rest }
  hostWrite : ∀ s sp k v, k < sp.size s.cfg → P s → P (State.hostWrite sp k v s)
  hostRead : ∀ s sp k, P s → P (State.hostRead sp k s)
  hardReset : ∀ s, P s → P s.hardReset
  performs : ∀ {i s u}, Performs i s u → P s → P u
  done : ∀ s v, P s → P (State.done v s)
  raise : ∀ s c, P s → P (State.raise c s)

namespace StepKeeps

variable {P : State → Prop} (hP : StepKeeps P) {s t : State}
include hP

theorem exec {i : Instr} (h : exec i s = .next t) (hs : P s) : P t := by
  obtain ⟨u, hperforms, ⟨v, rfl⟩ | ⟨c, rfl⟩⟩ := exec_endsIn h
  · exact hP.done u v (hP.performs hperforms hs)
  · exact hP.raise u c (hP.performs hperforms hs)

theorem runPacket {p : Packet} (h : runPacket p s = .next t) (hs : P s) : P t := by
  unfold Machine.runPacket at h
  split at h
  · exact hP.exec h hs
  · cases h; exact hP.raise s _ hs

theorem runMove {m : HostMove} (h : runMove m s = .next t) (hs : P s) : P t := by
  cases m with
  | packet p => exact hP.runPacket h hs
  | write sp i v =>
    simp only [Machine.runMove] at h
    split at h
    · next hi => cases h; exact hP.hostWrite s sp i v hi hs
    · cases h
  | read sp i =>
    simp only [Machine.runMove] at h
    split at h
    · cases h; exact hP.hostRead s sp i hs
    · cases h
  | hardReset => cases h; exact hP.hardReset s hs

theorem step (h : step s = .next t) (hs : P s) : P t := by
  unfold Machine.step stepOnce at h
  split at h
  · cases h; exact hs
  · exact hP.runMove h (hP.moves s _ hs)

end StepKeeps

end Sys2Proof.Machine
end

section
/-! SUPPORT, O54 and O55. The legal registers, the consistent `STATUS` and the consistent slots of the tile
cache: the reset values have them and every step keeps them. -/

namespace Sys2Proof.Machine

/-! ## Registers and `STATUS` (rules R40, R41) -/

/-- The two conditions on the context registers that every step keeps. -/
def State.contextLegal (s : State) : Prop := s.registersLegal ∧ s.statusConsistent

theorem contextLegal_of_reset {s : State} (h : s.ctx = Ctx.reset) : s.contextLegal := by
  unfold State.contextLegal State.registersLegal State.statusConsistent
  rw [h]
  decide

theorem FaultCode.num_range (c : FaultCode) : 1 ≤ c.num.toNat ∧ c.num.toNat ≤ 6 := by
  cases c <;> decide

theorem writeReg_status (c : Ctx) (r : CtxReg) (v : Word) : (c.writeReg r v).status = c.status := by
  cases r <;> rfl

/-- An accepted value of `HMOSAIC` or `VMOSAIC` stays itself in its 5-bit field. -/
theorem mosaicSize_fits {v : Word} (h : 1 ≤ v.toNat ∧ v.toNat ≤ 16) :
    1 ≤ (v.setWidth 5).toNat ∧ (v.setWidth 5).toNat ≤ 16 := by
  rw [BitVec.toNat_setWidth]; omega

theorem writeReg_registersLegal {s : State} {r : CtxReg} {v : Word} (hok : regAccepts r v = true)
    (h : s.registersLegal) : (s.writeReg r v).registersLegal := by
  obtain ⟨hh, hv, hp, hr⟩ := h
  cases r
  case hmosaic => exact ⟨mosaicSize_fits (of_decide_eq_true hok), hv, hp, hr⟩
  case vmosaic => exact ⟨hh, mosaicSize_fits (of_decide_eq_true hok), hp, hr⟩
  case ppl => exact ⟨hh, hv, of_decide_eq_true hok, hr⟩
  case rppl => exact ⟨hh, hv, hp, of_decide_eq_true hok⟩
  all_goals exact ⟨hh, hv, hp, hr⟩

theorem Prepared.contextLegal {s u : State} (hp : Prepared s u) (h : s.contextLegal) :
    u.contextLegal := by
  rw [hp]; exact h

theorem contextLegal_congr {s t : State} (hctx : t.ctx = s.ctx) (h : s.contextLegal) :
    t.contextLegal := by
  unfold State.contextLegal State.registersLegal State.statusConsistent at *
  rw [hctx]; exact h

theorem Performs.contextLegal {i : Instr} {s u : State} (hdo : Performs i s u)
    (h : s.contextLegal) : u.contextLegal := by
  cases hdo with
  | nothing => exact h
  | reset => exact contextLegal_of_reset rfl
  | register _ hok =>
    refine ⟨writeReg_registersLegal hok h.1, ?_⟩
    unfold State.statusConsistent State.writeReg
    rw [writeReg_status]
    exact h.2
  | frame => exact h
  | select => exact h
  | resolve tile => exact (prepared_resolve s tile).contextLegal h
  | palette => exact h
  | draw _ hready hdrawn => exact contextLegal_congr hdrawn.ctx (hready.prepared.contextLegal h)
  | session => exact h
  | acknowledge => unfold State.acknowledge; split <;> exact h

theorem stepKeeps_contextLegal : StepKeeps State.contextLegal where
  moves _ _ h := h
  hostWrite s sp i v _ h := contextLegal_congr (State.hostWrite_ctx s sp i v) h
  hostRead _ _ _ h := h
  hardReset _ _ := contextLegal_of_reset rfl
  performs := Performs.contextLegal
  done _ _ h := h
  raise _ c h := ⟨h.1, c.num_range⟩

/-- Settles O54: the register write checks the four narrow registers, and only a fault sets `HALT`. -/
theorem contextStaysLegal : Obligations.ContextStaysLegal :=
  fun _ _ hregs hstatus hstep => stepKeeps_contextLegal.step hstep ⟨hregs, hstatus⟩

/-! ## Slots of the tile cache (rules R36, R190, R192) -/

theorem slotsConsistent_congr {s t : State} (hbuf : t.tcbuf = s.tcbuf) (hflag : t.tcflag = s.tcflag)
    (h : s.slotsConsistent) : t.slotsConsistent := by
  unfold State.slotsConsistent State.slotFlag State.cacheByte at *
  rw [hbuf, hflag]; exact h

/-- With every flag cleared no slot has to agree with its bytes. -/
theorem slotsConsistent_of_zeros {s : State} (h : s.tcflag = .zeros) : s.slotsConsistent := by
  intro bank flip tn
  left
  unfold State.slotFlag
  rw [h]; rfl

/-- A decode gives its slot the flag of its bytes and leaves the others alone. -/
theorem tcResolve_fresh_slotsConsistent {s t : State} {tile : Half}
    (hfresh : s.slotFlag s.ctx.bpp (s.hflip tile) (s.tileNumber tile) = 0)
    (hexec : exec (.tcResolve tile) s = .next t) (h : s.slotsConsistent) : t.slotsConsistent := by
  intro bank flip tn
  by_cases hsame : bank = s.ctx.bpp ∧ flip = s.hflip tile ∧ tn = s.tileNumber tile
  · obtain ⟨rfl, rfl, rfl⟩ := hsame
    refine .inr ⟨(tileNumber_toNat s tile).symm ▸ tileNumber_lt s tile, ?_⟩
    by_cases hblank : ∀ k < 64, t.cacheByte s.ctx.bpp (s.hflip tile) (s.tileNumber tile) k = 0
    · exact .inr ⟨tcResolve_fresh_flag_blank hfresh hexec hblank, hblank⟩
    · push Not at hblank
      exact .inl ⟨tcResolve_fresh_flag_pixel hfresh hexec hblank, hblank⟩
  · have hflag : t.slotFlag bank flip tn = s.slotFlag bank flip tn :=
      (tcResolve_fresh_slotFlag hfresh hexec bank flip tn).trans (if_neg hsame)
    have hbyte : ∀ k < 64, t.cacheByte bank flip tn k = s.cacheByte bank flip tn k :=
      fun k hk => tcResolve_fresh_cacheByte_other hfresh hexec hsame hk
    rw [hflag]
    refine (h bank flip tn).imp_right fun ⟨hbank, htrue⟩ => ⟨hbank, htrue.imp ?_ ?_⟩
    · rintro ⟨hf, k, hk, hne⟩
      exact ⟨hf, k, hk, (hbyte k hk).symm ▸ hne⟩
    · rintro ⟨hf, hzero⟩
      exact ⟨hf, fun k hk => (hbyte k hk).trans (hzero k hk)⟩

theorem resolve_slotsConsistent {s : State} (tile : Half) (h : s.slotsConsistent) :
    (State.resolve tile s).slotsConsistent := by
  by_cases hfresh : s.slotFlag s.ctx.bpp (s.hflip tile) (s.tileNumber tile) = 0
  · have ht : (State.done (.word (s.resolved tile).word) (State.resolve tile s)).slotsConsistent :=
      tcResolve_fresh_slotsConsistent hfresh rfl h
    exact ht
  · rw [resolve_of_decoded hfresh]
    exact h

theorem Readied.slotsConsistent {s u : State} (hready : Readied s u) (h : s.slotsConsistent) :
    u.slotsConsistent := by
  induction hready with
  | refl => exact h
  | setScsel c _ ih => exact ih
  | resolve tile _ ih => exact resolve_slotsConsistent tile ih
  | capture tile shape offset _ ih => exact slotsConsistent_congr (by simp) (by simp) ih

theorem Performs.slotsConsistent {i : Instr} {s u : State} (hdo : Performs i s u)
    (h : s.slotsConsistent) : u.slotsConsistent := by
  cases hdo with
  | nothing => exact h
  | reset => exact slotsConsistent_of_zeros rfl
  | register => exact h
  | frame => exact slotsConsistent_of_zeros rfl
  | select => exact h
  | resolve tile => exact resolve_slotsConsistent tile h
  | palette => exact h
  | draw _ hready hdrawn =>
    rw [hdrawn.rest]; exact hready.slotsConsistent h
  | session => exact h
  | acknowledge => exact slotsConsistent_congr (by simp) (by simp) h

theorem stepKeeps_slotsConsistent : StepKeeps State.slotsConsistent where
  moves _ _ h := h
  hostWrite _ _ _ _ _ h := slotsConsistent_congr (by simp) (by simp) h
  hostRead _ _ _ h := h
  hardReset _ _ := slotsConsistent_of_zeros rfl
  performs := Performs.slotsConsistent
  done _ _ h := h
  raise _ _ h := h

/-- Settles O55: only a decode writes a slot, and it writes the bytes with their flag. -/
theorem slotsStayConsistent : Obligations.SlotsStayConsistent :=
  fun _ _ hslots hstep => stepKeeps_slotsConsistent.step hstep hslots

end Sys2Proof.Machine
end

section
/-! SUPPORT, O58 and O59. What every command leaves alone: the inputs, the screens it does not draw on, and
the records of the catalog. -/

namespace Sys2Proof.Machine

/-! ## Inputs and screens (rules R30 to R35, R80) -/

/-- From `s` to `t` command `i` keeps the inputs, keeps `BCAP` unless it is SYS.RST, and writes of the
screens none, or the target pair when it draws. -/
def KeepsInputs (i : Instr) (s t : State) : Prop :=
  s.sameInputs t ∧ (i ≠ .sysRst → t.bcap = s.bcap)
    ∧ (draws i = false → t.sMain = s.sMain ∧ t.zMain = s.zMain ∧ t.sSub = s.sSub ∧ t.zSub = s.zSub
      ∧ t.freeCount = s.freeCount)
    ∧ (draws i = true → s.samePeer t)

/-- An update of registers, tile cache and catalog alone. -/
theorem keepsInputs_of_rest (i : Instr) {s t : State}
    (h : t = { s with
      ctx := t.ctx
      tcbuf := t.tcbuf
      tcflag := t.tcflag
      tiles := t.tiles
      pals := t.pals
      refs := t.refs }) : KeepsInputs i s t := by
  rw [h]
  refine ⟨⟨rfl, rfl, rfl, rfl, rfl, rfl, rfl⟩, fun _ => rfl, fun _ => ⟨rfl, rfl, rfl, rfl, rfl⟩,
    fun _ => ?_⟩
  unfold State.samePeer
  split <;> exact ⟨rfl, rfl⟩

theorem Prepared.samePeer_draws {s u w : State} {A B : Nat → Prop} (hp : Prepared s u)
    (hdrawn : Draws A B u w) : s.samePeer w := by
  have hpeer := hdrawn.peer
  unfold State.samePeer at hpeer ⊢
  rw [hp] at hpeer
  exact hpeer

theorem Prepared.sameInputs_draws {s u w : State} {A B : Nat → Prop} (hp : Prepared s u)
    (hdrawn : Draws A B u w) : s.sameInputs w ∧ w.bcap = s.bcap := by
  rw [hdrawn.rest, hp]
  exact ⟨⟨rfl, rfl, rfl, rfl, rfl, rfl, rfl⟩, rfl⟩

theorem Performs.keepsInputs {i : Instr} {s u : State} (hdo : Performs i s u) :
    KeepsInputs i s u := by
  cases hdo with
  | nothing => exact keepsInputs_of_rest i rfl
  | reset =>
    exact ⟨⟨rfl, rfl, rfl, rfl, rfl, rfl, rfl⟩, fun hne => absurd rfl hne,
      fun _ => ⟨rfl, rfl, rfl, rfl, rfl⟩, nofun⟩
  | register => exact keepsInputs_of_rest _ rfl
  | frame => exact keepsInputs_of_rest _ rfl
  | select => exact keepsInputs_of_rest _ rfl
  | resolve tile =>
    have hp := prepared_resolve s tile
    exact keepsInputs_of_rest _ (by rw [hp])
  | palette => exact keepsInputs_of_rest _ rfl
  | draw hdraws hready hdrawn =>
    obtain ⟨hinputs, hbcap⟩ := hready.prepared.sameInputs_draws hdrawn
    exact ⟨hinputs, fun _ => hbcap, fun hno => absurd (hdraws.symm.trans hno) (by decide),
      fun _ => hready.prepared.samePeer_draws hdrawn⟩
  | session => exact keepsInputs_of_rest _ rfl
  | acknowledge => exact keepsInputs_of_rest _ (by unfold State.acknowledge; split <;> rfl)

/-- Settles O58: a response changes no memory, and of what comes before it only drawing and the soft reset
write a memory other than the tile cache. -/
theorem commandsKeepInputs : Obligations.CommandsKeepInputs := by
  intro i s t hexec
  obtain ⟨u, hdo, ⟨v, rfl⟩ | ⟨c, rfl⟩⟩ := exec_endsIn hexec
  · exact hdo.keepsInputs
  · exact hdo.keepsInputs

/-! ## The catalog between session resets (rules R63, R281, R282) -/

/-- Every record of `s` is in `t`, in its place and with its identity; `t` may hold more behind them. -/
def CatalogGrows (s t : State) : Prop :=
  (s.tiles.map fun r => (r.id, r.pixels, r.palsize))
      <+: (t.tiles.map fun r => (r.id, r.pixels, r.palsize))
    ∧ (s.pals.map fun r => (r.id, r.colors, r.size)) <+: (t.pals.map fun r => (r.id, r.colors, r.size))
    ∧ s.refs <+: t.refs

theorem CatalogGrows.trans {s t u : State} (h : CatalogGrows s t) (h' : CatalogGrows t u) :
    CatalogGrows s u :=
  ⟨h.1.trans h'.1, h.2.1.trans h'.2.1, h.2.2.trans h'.2.2⟩

theorem catalogGrows_of_same {s t : State} (htiles : t.tiles = s.tiles) (hpals : t.pals = s.pals)
    (hrefs : t.refs = s.refs) : CatalogGrows s t := by
  unfold CatalogGrows
  rw [htiles, hpals, hrefs]
  exact ⟨List.prefix_rfl, List.prefix_rfl, List.prefix_rfl⟩

/-- Replacing a member by one of the same image leaves the images as they were. -/
theorem map_set_of_image_eq {α β : Type} (f : α → β) {l : List α} {i : Nat} {x y : α}
    (hx : l[i]? = some x) (h : f y = f x) : (l.set i y).map f = l.map f := by
  obtain ⟨hi, rfl⟩ := List.getElem?_eq_some_iff.mp hx
  rw [List.map_set, h, ← List.getElem_map f (h := by simpa using hi), List.set_getElem_self]

theorem captureCommit_tiles_grow (s : State) (tile : Half) (shape : Shape) (offset : Word) :
    (s.tiles.map fun r => (r.id, r.pixels, r.palsize))
      <+: ((s.captureCommit (State.capturePlan tile s) shape offset).tiles.map
        fun r => (r.id, r.pixels, r.palsize)) := by
  rw [CaptureLaws.captureCommit_tiles]
  split
  · next i hat =>
    obtain ⟨r, hr, _⟩ := CaptureLaws.capturePlan_tileAt tile s hat
    have hbase : s.captureBase (State.capturePlan tile s) = r := by
      simp [State.captureBase, State.tileFound, hat, hr]
    obtain ⟨hid, hpixels, hsize⟩ := CaptureLaws.captureTile_identity s (State.capturePlan tile s)
    rw [map_set_of_image_eq _ hr (by rw [hid, hpixels, hsize, hbase])]
  · simp

/-- A found palette counts once more and keeps its identity; another is appended. -/
theorem capturePals_grow (s : State) (p : CapturePlan) :
    (s.pals.map fun r => (r.id, r.colors, r.size))
      <+: ((s.capturePals p).map fun r => (r.id, r.colors, r.size)) := by
  unfold State.capturePals
  split
  · next i _ =>
    rw [List.modify_eq_set_getElem?]
    cases hr : s.pals[i]? with
    | none => exact List.prefix_rfl
    | some r =>
      rw [Option.map_eq_map, Option.map_some, Option.getD_some,
        map_set_of_image_eq (y := { r with frequency := r.frequency + 1 }) _ hr rfl]
  · simp

theorem captureCommit_catalogGrows (s : State) (tile : Half) (shape : Shape) (offset : Word) :
    CatalogGrows s (s.captureCommit (State.capturePlan tile s) shape offset) := by
  refine ⟨captureCommit_tiles_grow s tile shape offset, ?_, ?_⟩
  · rw [CaptureLaws.captureCommit_pals]
    exact capturePals_grow s _
  · rw [CaptureLaws.captureCommit_refs]
    split <;> simp

theorem Readied.catalogGrows {s u : State} (hready : Readied s u) : CatalogGrows s u := by
  induction hready with
  | refl => exact catalogGrows_of_same rfl rfl rfl
  | setScsel c _ ih => exact ih
  | resolve tile _ ih => exact ih.trans (catalogGrows_of_same (by simp) (by simp) (by simp))
  | capture tile shape offset _ ih => exact ih.trans (captureCommit_catalogGrows _ tile shape offset)

theorem Performs.catalogGrows {i : Instr} {s u : State} (hdo : Performs i s u) (hcs : i ≠ .csReset)
    (hrst : i ≠ .sysRst) : CatalogGrows s u := by
  cases hdo with
  | nothing => exact catalogGrows_of_same rfl rfl rfl
  | reset => exact absurd rfl hrst
  | register => exact catalogGrows_of_same rfl rfl rfl
  | frame => exact catalogGrows_of_same rfl rfl rfl
  | select => exact catalogGrows_of_same rfl rfl rfl
  | resolve => exact catalogGrows_of_same (by simp) (by simp) (by simp)
  | palette => exact catalogGrows_of_same rfl rfl rfl
  | draw _ hready hdrawn => rw [hdrawn.rest]; exact hready.catalogGrows
  | session => exact absurd rfl hcs
  | acknowledge => exact catalogGrows_of_same (by simp) (by simp) (by simp)

/-- Settles O59: a capture sets a record it found with the identity it had, and appends the others. -/
theorem catalogOnlyGrows : Obligations.CatalogOnlyGrows := by
  intro i s t hexec hcs hrst
  obtain ⟨u, hdo, ⟨v, rfl⟩ | ⟨c, rfl⟩⟩ := exec_endsIn hexec
  · exact hdo.catalogGrows hcs hrst
  · exact hdo.catalogGrows hcs hrst

end Sys2Proof.Machine
end

section
/-! SUPPORT, O8 and O52. The state a hardware reset leaves (rules R75, R320), from which State.reset is the
case of the default parameters. -/

namespace Sys2Proof.Machine

theorem readReg_reset (r : CtxReg) : Ctx.reset.readReg r = resetWord r := by
  cases r <;> decide

theorem poweredOn_afterReset (P : Params) (moves : List HostMove) (n : Nat) :
    (State.poweredOn P moves n).afterReset :=
  ⟨readReg_reset, fun _ _ _ => rfl, MemoryLaws.read_bcapReset, rfl, rfl, rfl⟩

theorem poweredOn_memoriesOk (P : Params) (moves : List HostMove) (n : Nat) :
    (State.poweredOn P moves n).memoriesOk :=
  have hbcap := And.intro MemoryLaws.bcapReset_wf MemoryLaws.bcapReset_below
  ⟨⟨rfl, rfl⟩, ⟨rfl, rfl⟩, ⟨rfl, rfl⟩, ⟨rfl, rfl⟩, hbcap, ⟨rfl, rfl⟩, ⟨rfl, rfl⟩, ⟨rfl, rfl⟩,
    ⟨rfl, rfl⟩, ⟨rfl, rfl⟩, ⟨rfl, rfl⟩⟩

/-- The empty catalog with counts 0 is consistent. -/
theorem catalogConsistent_of_empty {s : State} (htiles : s.tiles = []) (hpals : s.pals = [])
    (hrefs : s.refs = []) (hntiles : s.ctx.ntiles = 0) (hnpals : s.ctx.npals = 0)
    (hnrefs : s.ctx.nrefs = 0) : s.catalogConsistent := by
  unfold State.catalogConsistent State.idsOk State.keysDistinct State.namesExist
    State.orientationsOk State.recordsShaped State.countsBalance
  simp [htiles, hpals, hrefs, hntiles, hnpals, hnrefs]

/-- A hardware reset at the head of the moves is taken, whether the block is halted or not. -/
theorem step_hardReset {s : State} {rest : List HostMove} (h : s.moves = .hardReset :: rest) :
    step s = .next (State.poweredOn s.cfg rest s.freeCount) := by
  have hnext : s.nextMove = some (.hardReset, rest) := by
    simp [State.nextMove, h, firstEnabled, HostMove.isPacket]
  unfold step stepOnce
  rw [hnext]
  rfl

/-- Settles O8: the step takes the reset and powers the block on; State.reset is a block powered on. -/
theorem hardwareReset : Obligations.HardwareReset :=
  ⟨poweredOn_afterReset _ _ _, fun _ _ hmoves =>
    ⟨_, step_hardReset hmoves, poweredOn_afterReset _ _ _, readReg_reset .status, rfl, rfl⟩⟩

/-- Settles O52: State.reset is a block powered on, with the reset registers and nothing decoded. -/
theorem resetMeetsInvariants : Obligations.ResetMeetsInvariants :=
  have hctx : State.reset.contextLegal := contextLegal_of_reset rfl
  ⟨poweredOn_memoriesOk _ _ _, hctx.1, hctx.2, slotsConsistent_of_zeros rfl,
    catalogConsistent_of_empty rfl rfl rfl rfl rfl rfl⟩

end Sys2Proof.Machine
end

section
/-! SUPPORT and O53. Every memory is in canonical form and lists no index outside its range: every write a
step makes is inside the memory it writes (rules R30 to R36, R80, R88). -/

namespace Sys2Proof.Machine

theorem write_ok {w n i : Nat} {m : Memory w} (v : BitVec w) (hi : i < n)
    (h : m.wf = true ∧ m.below n = true) :
    (m.write i v).wf = true ∧ (m.write i v).below n = true :=
  ⟨MemoryLaws.write_wf i v h.1, MemoryLaws.write_below v hi h.2⟩

theorem hostWrite_memoriesOk {s : State} {sp : Space} {i : Nat} (v : Half)
    (hi : i < sp.size s.cfg) (h : s.memoriesOk) : (State.hostWrite sp i v s).memoriesOk := by
  obtain ⟨hvram, hpal, hdcm, hlmd, hbcap, hsMain, hzMain, hsSub, hzSub, hcache⟩ := h
  cases sp with
  | vram =>
    exact ⟨write_ok _ hi hvram, hpal, hdcm, hlmd, hbcap, hsMain, hzMain, hsSub, hzSub, hcache⟩
  | pal =>
    exact ⟨hvram, write_ok _ hi hpal, hdcm, hlmd, hbcap, hsMain, hzMain, hsSub, hzSub, hcache⟩
  | dcm =>
    exact ⟨hvram, hpal, write_ok _ hi hdcm, hlmd, hbcap, hsMain, hzMain, hsSub, hzSub, hcache⟩
  | lmd =>
    exact ⟨hvram, hpal, hdcm, write_ok _ hi hlmd, hbcap, hsMain, hzMain, hsSub, hzSub, hcache⟩
  | bcap =>
    exact ⟨hvram, hpal, hdcm, hlmd, write_ok _ hi hbcap, hsMain, hzMain, hsSub, hzSub, hcache⟩
  | sMain =>
    exact ⟨hvram, hpal, hdcm, hlmd, hbcap, write_ok _ hi hsMain, hzMain, hsSub, hzSub, hcache⟩
  | zMain =>
    exact ⟨hvram, hpal, hdcm, hlmd, hbcap, hsMain, write_ok _ hi hzMain, hsSub, hzSub, hcache⟩
  | sSub =>
    exact ⟨hvram, hpal, hdcm, hlmd, hbcap, hsMain, hzMain, write_ok _ hi hsSub, hzSub, hcache⟩
  | zSub =>
    exact ⟨hvram, hpal, hdcm, hlmd, hbcap, hsMain, hzMain, hsSub, write_ok _ hi hzSub, hcache⟩

/-- A slot has its 64 bytes inside the tile cache (rule R36). -/
theorem slot_end_le (bank : Bpp) (flip : Bool) (tn : BitVec 12) :
    64 * slotKey bank flip tn + 64 ≤ 1572864 := by
  have := slotKey_lt bank flip tn
  omega

theorem decodeSlot_memoriesOk {s : State} (bank : Bpp) (flip : Bool) (tn : BitVec 12) (addr : Nat)
    (h : s.memoriesOk) : (State.decodeSlot bank flip tn addr s).memoriesOk := by
  obtain ⟨hvram, hpal, hdcm, hlmd, hbcap, hsMain, hzMain, hsSub, hzSub, htcbuf, htcflag⟩ := h
  have hbytes : 64 * slotKey bank flip tn + (s.decodedPixels bank flip addr).length ≤ 1572864 := by
    rw [decodedPixels_length]; exact slot_end_le bank flip tn
  exact ⟨hvram, hpal, hdcm, hlmd, hbcap, hsMain, hzMain, hsSub, hzSub,
    ⟨MemoryLaws.writeMany_wf _ _ htcbuf.1, MemoryLaws.writeMany_below _ hbytes htcbuf.2⟩,
    write_ok _ (slotKey_lt bank flip tn) htcflag⟩

theorem resolve_memoriesOk {s : State} (tile : Half) (h : s.memoriesOk) :
    (State.resolve tile s).memoriesOk := by
  by_cases hfresh : s.slotFlag s.ctx.bpp (s.hflip tile) (s.tileNumber tile) = 0
  · rw [resolve_of_fresh hfresh]
    exact decodeSlot_memoriesOk _ _ _ _ h
  · rw [resolve_of_decoded hfresh]
    exact h

/-- What a capture changes holds no memory cell. -/
theorem captureCommit_memoriesOk {s : State} (p : CapturePlan) (shape : Shape) (offset : Word)
    (h : s.memoriesOk) : (s.captureCommit p shape offset).memoriesOk := by
  rw [CaptureLaws.captureCommit_rest]
  exact h

theorem Readied.memoriesOk {s u : State} (hready : Readied s u) (h : s.memoriesOk) :
    u.memoriesOk := by
  induction hready with
  | refl => exact h
  | setScsel c _ ih => exact ih
  | resolve tile _ ih => exact resolve_memoriesOk tile ih
  | capture tile shape offset _ ih => exact captureCommit_memoriesOk _ shape offset ih

/-- Plots write the screen and depth memories alone, and only cells they have. -/
theorem Draws.memoriesOk {s t : State} (hdrawn : Draws s.hasCell s.hasCell s t)
    (h : s.memoriesOk) : t.memoriesOk := by
  obtain ⟨hvram, hpal, hdcm, hlmd, hbcap, hsMain, hzMain, hsSub, hzSub, hcache⟩ := h
  obtain ⟨hsMain', hzMain', hsSub', hzSub'⟩ :=
    hdrawn.screensOk (fun _ hi => hi) (fun _ hi => hi) ⟨hsMain, hzMain, hsSub, hzSub⟩
  rw [hdrawn.rest]
  exact ⟨hvram, hpal, hdcm, hlmd, hbcap, hsMain', hzMain', hsSub', hzSub', hcache⟩

/-- The soft reset clears the flags, gives `BCAP` its table and leaves the other memories (rule R252). -/
theorem softReset_memoriesOk {s : State} (h : s.memoriesOk) : s.softReset.memoriesOk := by
  obtain ⟨hvram, hpal, hdcm, hlmd, _, hsMain, hzMain, hsSub, hzSub, htcbuf, _⟩ := h
  exact ⟨hvram, hpal, hdcm, hlmd, ⟨MemoryLaws.bcapReset_wf, MemoryLaws.bcapReset_below⟩, hsMain,
    hzMain, hsSub, hzSub, htcbuf, ⟨rfl, rfl⟩⟩

theorem frameStart_memoriesOk {s : State} (h : s.memoriesOk) : s.frameStart.memoriesOk := by
  obtain ⟨hvram, hpal, hdcm, hlmd, hbcap, hsMain, hzMain, hsSub, hzSub, htcbuf, _⟩ := h
  exact ⟨hvram, hpal, hdcm, hlmd, hbcap, hsMain, hzMain, hsSub, hzSub, htcbuf, ⟨rfl, rfl⟩⟩

theorem Performs.memoriesOk {i : Instr} {s u : State} (hdo : Performs i s u) (h : s.memoriesOk) :
    u.memoriesOk := by
  cases hdo with
  | nothing => exact h
  | reset => exact softReset_memoriesOk h
  | register => exact h
  | frame => exact frameStart_memoriesOk h
  | select => exact h
  | resolve tile => exact resolve_memoriesOk tile h
  | palette => exact h
  | draw _ hready hdrawn => exact hdrawn.memoriesOk (hready.memoriesOk h)
  | session => exact h
  | acknowledge => unfold State.acknowledge; split <;> exact h

theorem stepKeeps_memoriesOk : StepKeeps State.memoriesOk where
  moves _ _ h := h
  hostWrite _ _ _ v hi h := hostWrite_memoriesOk v hi h
  hostRead _ _ _ h := h
  hardReset _ _ := poweredOn_memoriesOk _ _ _
  performs := Performs.memoriesOk
  done _ _ h := h
  raise _ _ h := h

/-- Settles O53: the host port, the decoder and the plots write inside their memories, and the resets leave
nothing listed but the table of `BCAP`. -/
theorem memoriesStayCanonical : Obligations.MemoriesStayCanonical :=
  fun _ _ hmemories hstep => stepKeeps_memoriesOk.step hstep hmemories

end Sys2Proof.Machine
end

section
/-! SUPPORT and O9. The memory port (rules R80, R90, R335): what a host write changes, cell by cell, and the
step that takes an access. -/

namespace Sys2Proof.Machine

/-- The written cell holds the value, cut to the width of the memory. -/
theorem hostCell_hostWrite_same (s : State) (sp : Space) (i : Nat) (v : Half) :
    (State.hostWrite sp i v s).hostCell sp i = (v.setWidth sp.width).setWidth 16 := by
  cases sp <;> simp [State.hostCell, State.hostWrite, Space.width]

theorem hostCell_hostWrite_other_cell (s : State) (sp : Space) {i j : Nat} (v : Half) (h : j ≠ i) :
    (State.hostWrite sp i v s).hostCell sp j = s.hostCell sp j := by
  cases sp <;> simp only [State.hostCell, State.hostWrite, MemoryLaws.read_write_other _ _ h]

theorem hostCell_hostWrite_other_space (s : State) {sp sp' : Space} (i j : Nat) (v : Half)
    (h : sp' ≠ sp) : (State.hostWrite sp i v s).hostCell sp' j = s.hostCell sp' j := by
  cases sp <;> cases sp' <;> simp_all [State.hostCell, State.hostWrite]

/-- A move that is no packet is taken, whether the block is halted or not (rule R303). -/
theorem step_of_access {s : State} {m : HostMove} {rest : List HostMove}
    (hmoves : s.moves = m :: rest) (hm : m.isPacket = false) :
    step s = runMove m { s with moves := rest } := by
  have hnext : s.nextMove = some (m, rest) := by simp [State.nextMove, hmoves, firstEnabled, hm]
  unfold step stepOnce
  rw [hnext]

theorem step_of_no_move {s : State} (hmoves : s.moves = []) : step s = .next s := by
  have hnext : s.nextMove = none := by simp [State.nextMove, hmoves, firstEnabled]
  unfold step stepOnce
  rw [hnext]

theorem step_hostWrite {s : State} {sp : Space} {k : Nat} {v : Half} {rest : List HostMove}
    (hmoves : s.moves = .write sp k v :: rest) :
    step s = if k < sp.size s.cfg then .next (State.hostWrite sp k v { s with moves := rest })
      else .fault .noSuchCell :=
  step_of_access hmoves rfl

theorem step_hostRead {s : State} {sp : Space} {k : Nat} {rest : List HostMove}
    (hmoves : s.moves = .read sp k :: rest) :
    step s = if k < sp.size s.cfg then .next (State.hostRead sp k { s with moves := rest })
      else .fault .noSuchCell :=
  step_of_access hmoves rfl

theorem Space.width_le (sp : Space) : sp.width ≤ 16 := by cases sp <;> decide

/-- A value cut to a cell passes the port whole. -/
theorem toNat_throughPort (sp : Space) (v : Half) :
    ((v.setWidth sp.width).setWidth 16).toNat = v.toNat % 2 ^ sp.width := by
  rw [BitVec.toNat_setWidth_of_le sp.width_le, BitVec.toNat_setWidth]

/-- Settles O9: an access is the next move of a block halted or not, and a write is told apart from the
other cells by memory and index. -/
theorem hostMemoryPort : Obligations.HostMemoryPort := by
  intro s
  refine ⟨step_of_no_move, fun sp k v rest hmoves hk => ?_, fun sp k rest hmoves hk => ?_,
    fun sp k v rest hmoves hk => ?_, fun sp k rest hmoves hk => ?_⟩
  · refine ⟨_, (step_hostWrite hmoves).trans (if_pos hk), ?_, fun sp' k' hne => ?_, by simp, by simp,
      by simp, by simp, by simp, by simp, by simp, by simp, by simp⟩
    · rw [hostCell_hostWrite_same, toNat_throughPort]
    · by_cases hsp : sp' = sp
      · subst hsp
        exact hostCell_hostWrite_other_cell _ _ v (hne.resolve_left (not_not_intro rfl))
      · exact hostCell_hostWrite_other_space _ k k' v hsp
  · exact (step_hostRead hmoves).trans (if_pos hk)
  · exact (step_hostWrite hmoves).trans (if_neg hk)
  · exact (step_hostRead hmoves).trans (if_neg hk)

end Sys2Proof.Machine
end

section
/-! SUPPORT. PLOT commands one after another draw what one pixel loop draws (rules R179, R210, R217): a plot
neither reads nor writes the catalog and the response, and the operands of a PLOT command carry the
arguments of its plot. -/

namespace Sys2Proof.Machine

/-! ## Plots and the catalog (rule R314) -/

/-- `s` with the catalog and the response of `c`. -/
def State.borrow (s c : State) : State := { s.withCatalogOf c with response := c.response }

theorem borrow_self (s : State) : s.borrow s = s := rfl

theorem done_borrow (v : RespValue) (s c : State) :
    State.done v (s.borrow c) = State.done v (s.withCatalogOf c) := rfl

theorem borrow_done (v : RespValue) (s c : State) : (State.done v s).borrow c = s.borrow c := rfl

theorem slotByte_borrow (s c : State) (k : Nat) : (s.borrow c).slotByte k = s.slotByte k := rfl

theorem screenColor_borrow (s c : State) (p : Byte) :
    (s.borrow c).screenColor p = s.screenColor p := rfl

/-- The result of a plot with the end state changed. -/
def PlotResult.map (f : State → State) : PlotResult → PlotResult
  | .ended s => .ended (f s)
  | .outAtBase => .outAtBase
  | .outAtCombined => .outAtCombined

theorem writeTS_borrow (i : Nat) (v : Half) (s c : State) :
    State.writeTS i v (s.borrow c) = (State.writeTS i v s).borrow c := by
  have htarget : (s.borrow c).ctx.target = s.ctx.target := rfl
  unfold State.writeTS
  rw [htarget]
  cases s.ctx.target <;> rfl

theorem writeTZ_borrow (i : Nat) (v : Byte) (s c : State) :
    State.writeTZ i v (s.borrow c) = (State.writeTZ i v s).borrow c := by
  have htarget : (s.borrow c).ctx.target = s.ctx.target := rfl
  unfold State.writeTZ
  rw [htarget]
  cases s.ctx.target <;> rfl

theorem freeTS_borrow (i : Nat) (s c : State) :
    State.freeTS i (s.borrow c) = (State.freeTS i s).borrow c :=
  congrArg (fun t : State => { t with freeCount := s.freeCount + 1 }) (writeTS_borrow i _ s c)

theorem draw1_borrow (p : PlotCall) (i : Nat) (s c : State) :
    (s.borrow c).draw1 p i = (s.draw1 p i).borrow c := by
  unfold State.draw1
  rw [writeTS_borrow, writeTZ_borrow]
  rfl

theorem draw2_borrow (p : PlotCall) (i j : Nat) (s c : State) :
    (s.borrow c).draw2 p i j = (s.draw2 p i j).borrow c := by
  unfold State.draw2
  simp only [writeTS_borrow, writeTZ_borrow]
  rfl

theorem drawMain_borrow (p : PlotCall) (i j : Nat) (s c : State) :
    (s.borrow c).drawMain p i j = (s.drawMain p i j).borrow c :=
  writeTS_borrow j _ s c

theorem drawCombined_borrow (p : PlotCall) (sd : Byte) (k : Nat) (s c : State) :
    (s.borrow c).drawCombined p sd k = (s.drawCombined p sd k).borrow c :=
  writeTS_borrow k _ s c

theorem finishHires_borrow (p : PlotCall) (i j : Nat) (s c : State) :
    (s.borrow c).finishHires p i j = (s.finishHires p i j).borrow c := by
  have hfirst : p.firstOfLine (s.borrow c) = p.firstOfLine s := rfl
  unfold State.finishHires
  simp only [hfirst]
  split <;> simp only [freeTS_borrow, writeTZ_borrow]

theorem plotN1x1_borrow (p : PlotCall) (s c : State) :
    plotN1x1 p (s.borrow c) = (plotN1x1 p s).map (·.borrow c) := by
  have hphys : (s.borrow c).phys p.base1 = s.phys p.base1 := rfl
  unfold plotN1x1
  rw [hphys]
  cases s.phys p.base1 with
  | none => rfl
  | some i =>
    have hgate : (s.borrow c).passes p i = s.passes p i := rfl
    simp only [hgate, draw1_borrow, PlotResult.map]
    split <;> rfl

theorem plotN2x1_borrow (p : PlotCall) (s c : State) :
    plotN2x1 p (s.borrow c) = (plotN2x1 p s).map (·.borrow c) := by
  have hphys : (s.borrow c).phys2 p.base2 (p.base2 + 1) = s.phys2 p.base2 (p.base2 + 1) := rfl
  unfold plotN2x1
  rw [hphys]
  cases s.phys2 p.base2 (p.base2 + 1) with
  | none => rfl
  | some ij =>
    obtain ⟨i, j⟩ := ij
    have hgate : (s.borrow c).passes p i = s.passes p i := rfl
    simp only [hgate, draw2_borrow, PlotResult.map]
    split <;> rfl

theorem plotHires_borrow (p : PlotCall) (s c : State) :
    plotHires p (s.borrow c) = (plotHires p s).map (·.borrow c) := by
  have hphys : (s.borrow c).phys2 p.base2 (p.base2 + 1) = s.phys2 p.base2 (p.base2 + 1) := rfl
  have hthird : (s.borrow c).phys (p.base2 + 2) = s.phys (p.base2 + 2) := rfl
  have hsd : ∀ i, Memory.read (s.borrow c).zSub i = Memory.read s.zSub i := fun _ => rfl
  unfold plotHires
  rw [hphys, hthird]
  cases s.phys2 p.base2 (p.base2 + 1) with
  | none => rfl
  | some ij =>
    obtain ⟨i, j⟩ := ij
    have hgate : (s.borrow c).passes p i = s.passes p i := rfl
    simp only [hgate, hsd, drawMain_borrow, drawCombined_borrow, finishHires_borrow]
    cases s.passes p i with
    | false => rfl
    | true =>
      cases p.combines with
      | false => rfl
      | true => cases s.phys (p.base2 + 2) <;> rfl

theorem plotVariant_borrow (v : AddrMode) (p : PlotCall) (s c : State) :
    plotVariant v p (s.borrow c) = (plotVariant v p s).map (·.borrow c) := by
  cases v with
  | n1x1 => exact plotN1x1_borrow p s c
  | n2x1 | int => exact plotN2x1_borrow p s c
  | hires | hiresint => exact plotHires_borrow p s c

/-- A plot that ends leaves the catalog as it was. -/
theorem plotVariant_withCatalogOf {v : AddrMode} {p : PlotCall} {s t : State}
    (h : plotVariant v p s = .ended t) : t.withCatalogOf s = t := by
  rw [(plotVariant_draws h).rest]
  rfl

/-! ## PLOT commands (rule R114) -/

/-- The plot of the PLOT command `State.plotAt` gives for the same arguments. -/
def callAt (base oil n : Nat) (on : Bool) (pix z1 z2 : Byte) : PlotCall :=
  ⟨n, on, base, oil, pix, z1, z2⟩

theorem exec_plotInstr (v : AddrMode) (n m offset oil : Word) (pix z1 z2 : Byte) (s : State) :
    exec (plotInstr v n m offset oil pix z1 z2) s
      = .next (s.plotCommand v (plotArgs n m offset oil pix z1 z2)) := by
  cases v <;> rfl

theorem plotArgs_ofNat {base oil n : Nat} (hbase : base < 2 ^ 32) (hoil : oil < 2 ^ 32)
    (hn : n < 2 ^ 31) (on : Bool) (pix z1 z2 : Byte) :
    plotArgs (BitVec.ofNat 32 n) (if on then 1 else 0) (BitVec.ofNat 32 base) (BitVec.ofNat 32 oil)
      pix z1 z2 = callAt base oil n on pix z1 z2 := by
  have hsigned : (BitVec.ofNat 32 n).toInt = n := by
    rw [BitVec.toInt_eq_toNat_of_lt] <;> rw [BitVec.toNat_ofNat, Nat.mod_eq_of_lt (by omega)]
    omega
  unfold plotArgs callAt
  rw [hsigned, BitVec.toNat_ofNat, BitVec.toNat_ofNat, Nat.mod_eq_of_lt hbase, Nat.mod_eq_of_lt hoil]
  cases on <;> rfl

theorem exec_plotAt {base oil n : Nat} (hbase : base < 2 ^ 32) (hoil : oil < 2 ^ 32) (hn : n < 2 ^ 31)
    (on : Bool) (pix z1 z2 : Byte) (s x : State) :
    exec (s.plotAt base oil n on pix z1 z2) x
      = .next (x.plotCommand s.ctx.rsel.addr (callAt base oil n on pix z1 z2)) := by
  unfold State.plotAt
  rw [exec_plotInstr, plotArgs_ofNat hbase hoil hn]

/-! ## Commands one after another -/

/-- A PLOT command at the head of a run has ended without a fault, and the run goes on. -/
theorem runAll_plot_cons {i : Instr} {is : List Instr} {v : AddrMode} {p : PlotCall} {s u : State}
    (hi : exec i s = .next (s.plotCommand v p)) (h : runAll (i :: is) s = some u) :
    ∃ t, plotVariant v p s = .ended t ∧ runAll is (t.done (.word 0)) = some u := by
  rw [runAll, hi] at h
  unfold State.plotCommand at h
  cases hp : plotVariant v p s with
  | ended t => rw [hp] at h; exact ⟨t, rfl, h⟩
  | outAtBase => rw [hp] at h; cases h
  | outAtCombined => rw [hp] at h; cases h

section Runs

variable {α : Type} {f : α → Instr} {g : α → PlotCall} {v : AddrMode} {l : List α} {s u : State}

/-- Where PLOT commands run to their end, a pixel loop over their plots does the same, from the same state
with any catalog and response. -/
theorem plotAll_of_runAll (hv : s.ctx.rsel.addr = v)
    (hfg : ∀ a ∈ l, ∀ x, exec (f a) x = .next (x.plotCommand v (g a)))
    (h : runAll (l.map f) s = some u) (c : State) :
    plotAll (l.map g) (s.borrow c) = some (u.borrow c) := by
  induction l generalizing s with
  | nil => exact congrArg (fun t => some (State.borrow t c)) (Option.some.inj h)
  | cons a l ih =>
    obtain ⟨t, ht, hrest⟩ := runAll_plot_cons (hfg a List.mem_cons_self s) h
    have hhead : plot (g a) (s.borrow c) = .ended (t.borrow c) := by
      have hmode : (s.borrow c).ctx.rsel.addr = v := hv
      rw [plot, hmode, plotVariant_borrow, ht]
      rfl
    have htmode : (t.done (.word 0)).ctx.rsel.addr = v := by
      rw [State.done_ctx, (plotVariant_draws ht).ctx, hv]
    rw [List.map_cons, plotAll, hhead]
    exact ih (s := t.done (.word 0)) htmode (fun b hb => hfg b (List.mem_cons_of_mem a hb)) hrest

/-- PLOT commands that run to their end leave the catalog as it was. -/
theorem runAll_withCatalogOf (hfg : ∀ a ∈ l, ∀ x, exec (f a) x = .next (x.plotCommand v (g a)))
    (h : runAll (l.map f) s = some u) : u.withCatalogOf s = u := by
  induction l generalizing s with
  | nil => cases h; rfl
  | cons a l ih =>
    obtain ⟨t, ht, hrest⟩ := runAll_plot_cons (hfg a List.mem_cons_self s) h
    have htail := ih (fun b hb => hfg b (List.mem_cons_of_mem a hb)) hrest
    rw [← plotVariant_withCatalogOf ht] at htail
    exact htail

end Runs

end Sys2Proof.Machine
end

section
/-! SUPPORT. What a tile reference shows: the source row of a line, the pixels of the slot that `Resolve`
leaves selected, and the palette (rules R52, R178, R191, R192, R194, R211, R215). -/

namespace Sys2Proof.Machine

/-! ## Source rows (rules R178, R215) -/

theorem interlaced_iff (v : AddrMode) : interlaced v = true ↔ v = .int ∨ v = .hiresint := by
  cases v <;> decide

theorem bit_eq_toNat (b : Bool) : bit b = b.toNat := by cases b <;> rfl

/-- The check of a source row is the statement's. -/
theorem rowOk_srcOfs (s : State) (t : Half) (sl : BitVec 6) (k : Nat) :
    rowOk (s.srcOfs t sl k) = true ↔ s.rowDrawn t sl k := by
  unfold rowOk State.rowDrawn State.srcOfs State.bpStart State.srcPitch State.vflip
  simp only [interlaced_iff, decide_eq_true_eq, bit_eq_toNat]
  split <;> split <;> ring_nf

theorem rowsOk_iff (s : State) (t : Half) (sl : BitVec 6) (lines : Nat) :
    s.rowsOk t sl lines = true ↔ ∀ k < lines, s.rowDrawn t sl k := by
  simp [State.rowsOk, rowOk_srcOfs]

/-- The byte offset of a source row that exists, and the row. -/
theorem srcOfs_of_rowDrawn {s : State} {t : Half} {sl : BitVec 6} {k : Nat}
    (h : s.rowDrawn t sl k) :
    (s.srcOfs t sl k).toNat = 8 * s.drawnRow t sl k ∧ s.drawnRow t sl k < 8 := by
  have hrow := (rowOk_srcOfs s t sl k).mpr h
  unfold rowOk at hrow
  unfold State.srcOfs State.bpStart State.srcPitch at hrow ⊢
  unfold State.drawnRow
  simp only [interlaced_iff, decide_eq_true_eq, bit_eq_toNat] at hrow ⊢
  by_cases hfield : s.ctx.rsel.addr = .int ∨ s.ctx.rsel.addr = .hiresint <;>
    by_cases hflip : s.vflip t = true <;>
    simp only [hfield, hflip, if_true, if_false, Bool.false_eq_true] at hrow ⊢ <;>
    omega

/-! ## The selected slot (rules R191, R192, R211) -/

theorem sourcePixel_eq (s : State) (t : Half) {row col : Nat} (hrow : row < 8) (hcol : col < 8) :
    s.sourcePixel t row col
      = s.convertByte (bppOfBank s.ctx.bpp) (s.tileAddr t) (8 * row + col) := by
  have hk : 8 * row + col < 64 := by omega
  simp [State.sourcePixel, State.convert, hk]

/-- The slot that `Resolve` selects. -/
theorem resolve_slotByte (s : State) (t : Half) (k : Nat) :
    (State.resolve t s).slotByte k
      = (State.resolve t s).cacheByte s.ctx.bpp (s.hflip t) (s.tileNumber t) k := by
  unfold State.slotByte
  rw [State.resolve_ctx_tcsel]
  rfl

section Fresh

variable {s : State} {t : Half} (hfresh : s.slotFlag s.ctx.bpp (s.hflip t) (s.tileNumber t) = 0)
include hfresh

/-- A slot decoded now holds the source pixels, mirrored under H-flip. -/
theorem resolve_fresh_slotByte {row c : Nat} (hrow : row < 8) (hc : c < 8) :
    (State.resolve t s).slotByte (8 * row + c) = s.sourcePixel t row (s.flippedColumn t c) := by
  rw [resolve_slotByte, sourcePixel_eq s t hrow (s.flippedColumn_lt t hc)]
  exact tcResolve_fresh_pixel (t := State.done (.word (s.resolved t).word) (State.resolve t s))
    hfresh rfl hrow hc

/-- It is flagged blank exactly when every source pixel is 0. -/
theorem resolve_fresh_blank_iff :
    (State.resolve t s).selectedFlag = 2 ↔ ∀ row < 8, ∀ col < 8, s.sourcePixel t row col = 0 := by
  have hexec : exec (.tcResolve t) s
      = .next (State.done (.word (s.resolved t).word) (State.resolve t s)) := rfl
  rw [selectedFlag_resolve]
  constructor
  · intro hflag row hrow col hcol
    by_contra hne
    have hback : s.flippedColumn t (s.flippedColumn t col) = col := by
      unfold State.flippedColumn; split <;> omega
    have hbyte := resolve_fresh_slotByte hfresh hrow (s.flippedColumn_lt t hcol)
    rw [hback, resolve_slotByte] at hbyte
    have hone := tcResolve_fresh_flag_pixel hfresh hexec
      ⟨8 * row + s.flippedColumn t col, by have := s.flippedColumn_lt t hcol; omega,
        fun h => hne (hbyte.symm.trans h)⟩
    exact absurd (hone.symm.trans hflag) (by decide)
  · intro hzero
    have hbytes : ∀ k < 64,
        (State.resolve t s).cacheByte s.ctx.bpp (s.hflip t) (s.tileNumber t) k = 0 := fun k hk => by
      have hbyte := resolve_fresh_slotByte hfresh (row := k / 8) (c := k % 8) (by omega) (by omega)
      rwa [Nat.div_add_mod, resolve_slotByte,
        hzero _ (by omega) _ (s.flippedColumn_lt t (by omega))] at hbyte
    have hflag := tcResolve_fresh_flag_blank hfresh hexec hbytes
    exact hflag

end Fresh

/-- A slot decoded earlier in the frame keeps its flag. -/
theorem resolve_decoded_selectedFlag {s : State} {t : Half}
    (h : s.slotFlag s.ctx.bpp (s.hflip t) (s.tileNumber t) ≠ 0) :
    (State.resolve t s).selectedFlag = s.slotFlag s.ctx.bpp (s.hflip t) (s.tileNumber t) := by
  rw [selectedFlag_resolve]
  exact (resolve_keeps_slot s t h).1

theorem tileOpaque_iff (s : State) (t : Half) :
    s.tileOpaque t ↔ (State.resolve t s).selectedFlag ≠ 2 := by
  have hflag : s.slotFlag s.ctx.bpp (t.getLsbD s.cfg.hflipBit) (tileNumberOf s t)
      = s.slotFlag s.ctx.bpp (s.hflip t) (s.tileNumber t) := by rw [tileNumberOf_eq]; rfl
  unfold State.tileOpaque
  rw [hflag]
  by_cases hfresh : s.slotFlag s.ctx.bpp (s.hflip t) (s.tileNumber t) = 0
  · rw [Ne, resolve_fresh_blank_iff hfresh]
    simp [hfresh]
  · rw [resolve_decoded_selectedFlag hfresh]
    simp only [ne_eq, hfresh, not_false_eq_true, true_and, false_and, or_false]

/-- The pixel of the statement, by the flag of the slot that the reference names. -/
theorem drawnPixel_eq (s : State) (t : Half) (row c : Nat) :
    s.drawnPixel t row c
      = if s.slotFlag s.ctx.bpp (s.hflip t) (s.tileNumber t) = 0 then
          s.sourcePixel t row (s.flippedColumn t c)
        else if s.slotFlag s.ctx.bpp (s.hflip t) (s.tileNumber t) = 2 then 0
        else s.cacheByte s.ctx.bpp (s.hflip t) (s.tileNumber t) (8 * row + c) := by
  rw [← tileNumberOf_eq]
  rfl

/-- The bytes of the selected slot are the pixels of the statement. -/
theorem resolve_drawnPixel (s : State) (t : Half) {row c : Nat} (hrow : row < 8) (hc : c < 8)
    (hopaque : (State.resolve t s).selectedFlag ≠ 2) :
    (State.resolve t s).slotByte (8 * row + c) = s.drawnPixel t row c := by
  rw [drawnPixel_eq]
  split
  · next hfresh => exact resolve_fresh_slotByte hfresh hrow hc
  · next hdecoded =>
    rw [resolve_decoded_selectedFlag hdecoded] at hopaque
    rw [if_neg hopaque, resolve_slotByte]
    exact (resolve_keeps_slot s t hdecoded).2 _ (by omega)

/-- A blank tile shows no pixel. -/
theorem drawnPixel_blank {s : State} {t : Half} {row c : Nat} (hrow : row < 8) (hc : c < 8)
    (hblank : (State.resolve t s).selectedFlag = 2) : s.drawnPixel t row c = 0 := by
  rw [drawnPixel_eq]
  split
  · next hfresh =>
    exact (resolve_fresh_blank_iff hfresh).mp hblank row hrow _ (s.flippedColumn_lt t hc)
  · next hdecoded =>
    rw [resolve_decoded_selectedFlag hdecoded] at hblank
    rw [if_pos hblank]

/-! ## The palette (rules R52, R194) -/

/-- The slice start in the words of the statements. -/
theorem paletteBase_eq (s : State) (t : Half) :
    s.paletteBase t
      = ((t >>> s.ctx.palshift.toNat).setWidth 8 &&& s.ctx.palmask) + s.ctx.startpal := by
  have hmask : t.toNat / 2 ^ s.ctx.palshift.toNat &&& s.ctx.palmask.toNat
      = t.toNat / 2 ^ s.ctx.palshift.toNat % 2 ^ 8 &&& s.ctx.palmask.toNat := by
    have hlt := Nat.and_lt_two_pow (t.toNat / 2 ^ s.ctx.palshift.toNat) s.ctx.palmask.isLt
    rw [← Nat.mod_eq_of_lt hlt, Nat.and_mod_two_pow, Nat.mod_eq_of_lt s.ctx.palmask.isLt]
  apply BitVec.eq_of_toNat_eq
  rw [State.paletteBase, hmask, BitVec.toNat_ofNat, BitVec.toNat_add, BitVec.toNat_and,
    BitVec.toNat_setWidth, BitVec.toNat_ushiftRight, Nat.shiftRight_eq_div_pow]

/-- The real colours of the palette that a tile reference selects. -/
theorem selectPalette_realColor (s : State) (t : Half) (p : Byte) :
    (State.selectPalette t s).realColor p = s.tileRealColor t p := by
  unfold State.realColor State.tileRealColor State.selectPalette State.setScsel State.selected
  cases s.ctx.direct with
  | true => rfl
  | false =>
    rw [← paletteBase_eq, BitVec.toNat_add]
    rfl

theorem selectPalette_screenColor (s : State) (t : Half) (p : Byte) :
    (State.selectPalette t s).screenColor p = s.tileColor t p := by
  have hblack : (State.selectPalette t s).ctx.scsel.black = s.ctx.clip := by
    unfold State.selectPalette State.setScsel State.selected
    cases s.ctx.direct <;> rfl
  unfold State.screenColor State.tileColor
  rw [hblack, selectPalette_realColor]

theorem selectPalette_slotByte (s : State) (t : Half) (k : Nat) :
    (State.selectPalette t s).slotByte k = s.slotByte k := rfl

/-- The palette selected after a `Resolve` is that of the command's start state. -/
theorem resolve_tileColor (s : State) (t : Half) (p : Byte) :
    (State.resolve t s).tileColor t p = s.tileColor t p := by
  unfold State.tileColor State.tileRealColor
  simp

end Sys2Proof.Machine
end

section
/-! SUPPORT. The prologue of an observed draw (rules R211, R271 to R273, R277, R278, R281): the keys, the
record found, the milestone and the orientation are the statements' own, and with room in the catalog the
draw goes on to its plots. -/

namespace Sys2Proof.Machine

theorem prepared_selected (s : State) (t : Half) :
    Prepared s (State.selectPalette t (State.resolve t s)) :=
  (prepared_resolve s t).trans (prepared_selectPalette _ t)

/-! ## What a plan finds and needs -/

/-- The palette an observed draw records, real even while clipping (rule R271). -/
theorem selectPalette_palColors (s : State) (t : Half) :
    (State.selectPalette t (State.resolve t s)).palColors = s.drawnPalette t := by
  have hsize : (State.selectPalette t (State.resolve t s)).palSize = s.drawnPalSize := by
    unfold State.palSize State.drawnPalSize bppOfBank
    simp only [State.selectPalette_ctx_tcsel, State.resolve_ctx_tcsel]
    unfold State.selectPalette State.setScsel State.selected
    simp only [State.resolve_ctx_direct]
    cases s.ctx.direct <;> rfl
  have hcolor : ∀ p, (State.selectPalette t (State.resolve t s)).realColor p = s.tileRealColor t p := by
    intro p
    rw [selectPalette_realColor]
    unfold State.tileRealColor
    simp
  unfold State.palColors State.drawnPalette
  simp only [hsize, hcolor]

/-- The record a plan finds is the catalog's record of the key (rule R275). -/
theorem capturePlan_tileFound (t : Half) (s : State) :
    s.tileFound (State.capturePlan t s).tileAt = s.recordOf s.tileKey :=
  List.find?_eq_bind_findIdx?_getElem?.symm

/-- A plan has a milestone exactly when the draw reaches one (rule R277). -/
theorem milestoneOf_isSome_iff (s : State) (old : Option TileRecord) :
    (s.milestoneOf (s.isNewSight old) (sightingsAfter (s.isNewSight old) old)).isSome = true
      ↔ s.reachesMilestone old := by
  unfold State.milestoneOf State.reachesMilestone
  cases old with
  | none => simp [State.isNewSight, sightingsAfter, State.countAfter, List.findIdx?_isSome]
  | some r =>
    by_cases hseen : r.lastSeenFrame = s.ctx.frame <;>
      simp [State.isNewSight, sightingsAfter, State.countAfter, List.findIdx?_isSome, hseen]

/-- A plan has an orientation exactly when the draw is the first of it (rule R278). -/
theorem firstOrient_isSome_iff (s : State) (t : Half) (old : Option TileRecord) :
    (firstOrient (orientOf (s.hflip t) (s.vflip t)) old).isSome = true
      ↔ s.firstOfOrientation t old := by
  unfold State.firstOfOrientation
  change _ ↔ ∀ r, old = some r → r.orientSeen.get (orientOf (s.hflip t) (s.vflip t)) = false
  cases old with
  | none => simp [firstOrient]
  | some r => cases hseen : r.orientSeen.get (orientOf (s.hflip t) (s.vflip t)) <;> simp [firstOrient, hseen]

/-- A plan makes a reference at a milestone or a first orientation (rule R279). -/
theorem needsRef_capturePlan_iff (t : Half) (s : State) :
    (State.capturePlan t s).needsRef = true
      ↔ s.reachesMilestone (s.recordOf s.tileKey)
        ∨ s.firstOfOrientation t (s.recordOf s.tileKey) := by
  rw [← milestoneOf_isSome_iff, ← firstOrient_isSome_iff s t, ← capturePlan_tileFound t s]
  unfold CapturePlan.needsRef
  rw [Bool.or_eq_true]
  rfl

theorem atCap_eq_true_iff (cap : Option Nat) (n : Word) :
    atCap cap n = true ↔ ∃ c, cap = some c ∧ c ≤ n.toNat := by
  cases cap <;> simp [atCap]

/-- A plan that makes a tile record has not found the key. -/
theorem tileKey_new {t : Half} {s : State} (h : (State.capturePlan t s).tileAt.isNone = true) :
    ¬ ∃ r ∈ s.tiles, r.pixels = s.tileKey := by
  change (s.tiles.findIdx? fun r => r.pixels == s.tileKey).isNone = true at h
  simpa [List.findIdx?_isNone] using h

/-- A plan that makes a palette record has not found the colours. -/
theorem palColors_new {t : Half} {s : State} (h : (State.capturePlan t s).palAt.isNone = true) :
    ¬ ∃ p ∈ s.pals, p.colors = s.palColors := by
  change (s.pals.findIdx? fun r => palKey r.colors == palKey s.palColors).isNone = true at h
  rintro ⟨p, hp, hcolors⟩
  rw [List.findIdx?_isNone, List.all_eq_true] at h
  simpa [hcolors] using h p hp

/-- Where every record the draw needs has room no store is full (rule R281). -/
theorem captureFull_of_room {s : State} {t : Half} (hroom : s.catalogRoom t)
    (hcapture : s.ctx.capen = true) (hopaque : (State.resolve t s).selectedFlag ≠ 2) :
    let u := State.selectPalette t (State.resolve t s)
    u.captureFull (State.capturePlan t u) = false := by
  intro u
  obtain ⟨htiles, hpals, hrefs⟩ := hroom hcapture ((tileOpaque_iff s t).mpr hopaque)
  have hprepared : Prepared s u := prepared_selected s t
  have hcfg : u.cfg = s.cfg := hprepared.cfg
  have hframe : u.ctx.frame = s.ctx.frame := by rw [hprepared]
  have hkey : u.tileKey = (State.resolve t s).tileKey := rfl
  have hrecord : u.recordOf u.tileKey = s.recordOf u.tileKey := by simp [State.recordOf, u]
  have hneeds : (State.capturePlan t u).needsRef = true
      ↔ s.reachesMilestone (s.recordOf u.tileKey) ∨ s.firstOfOrientation t (s.recordOf u.tileKey) := by
    rw [needsRef_capturePlan_iff, hrecord]
    unfold State.reachesMilestone State.countAfter State.firstOfOrientation
    rw [hcfg, hframe]
  rw [← Bool.not_eq_true]
  unfold State.captureFull
  simp only [Bool.or_eq_true, Bool.and_eq_true, not_or, not_and, atCap_eq_true_iff, hcfg]
  have hnpals : u.ctx.npals = s.ctx.npals := by simp [u]
  have hntiles : u.ctx.ntiles = s.ctx.ntiles := by simp [u]
  have hnrefs : u.ctx.nrefs = s.ctx.nrefs := by simp [u]
  refine ⟨⟨?_, ?_⟩, ?_⟩
  · rintro hnew ⟨c, hc, hle⟩
    have habsent := palColors_new hnew
    rw [selectPalette_palColors, show u.pals = s.pals by simp [u]] at habsent
    rw [hnpals] at hle
    exact absurd hle (Nat.not_le_of_lt ((hpals c hc).resolve_right habsent))
  · rintro hnew ⟨c, hc, hle⟩
    have habsent := tileKey_new hnew
    rw [hkey, show u.tiles = s.tiles by simp [u]] at habsent
    rw [hntiles] at hle
    exact absurd hle (Nat.not_le_of_lt ((htiles c hc).resolve_right habsent))
  · rintro hneed ⟨c, hc, hle⟩
    rw [hnrefs] at hle
    exact absurd hle (Nat.not_le_of_lt ((hrefs c hc).resolve_right (not_not_intro (hneeds.mp hneed))))

/-! ## The prologue -/

theorem captureCommit_borrow (s : State) (p : CapturePlan) (shape : Shape) (offset : Word) :
    s.borrow (s.captureCommit p shape offset) = s.captureCommit p shape offset := by
  rw [CaptureLaws.captureCommit_rest]
  rfl

/-- A tile that is not blank, its catalog having room, is drawn: the plots run from a state that has the slot
and the palette selected, whatever the catalog became (rule R211). -/
theorem tileCommand_ready {s : State} {tile : Half} (shape : Shape) (offset : Word)
    (plots : State → List PlotCall) (hopaque : (State.resolve tile s).selectedFlag ≠ 2)
    (hroom : s.catalogRoom tile) :
    ∃ u, Prepared s u ∧ (State.selectPalette tile (State.resolve tile s)).borrow u = u
      ∧ State.tileCommand tile shape offset plots s = u.runPlots (plots u) := by
  obtain ⟨hblank, _⟩ | ⟨_, hcapture, _, hnone, _⟩ | ⟨u, _, hready, h⟩ :=
    tileCommand_cases tile shape offset plots s
  · exact absurd hblank hopaque
  · have hfull := captureObserve_eq_none hnone
    rw [captureFull_of_room hroom hcapture hopaque] at hfull
    cases hfull
  · refine ⟨u, prepared_prologue hready, ?_, h⟩
    obtain ⟨rfl, _⟩ | ⟨_, _, hcapture⟩ := hready
    · exact borrow_self _
    · rw [(captureObserve_eq_some hcapture).2]
      exact captureCommit_borrow _ _ shape offset

/-- A tile that is not blank is drawn without a capture by a command that does not observe (rule R272). -/
theorem tileCommand_unobserved {s : State} {tile : Half} {shape : Shape} (offset : Word)
    (plots : State → List PlotCall) (hopaque : (State.resolve tile s).selectedFlag ≠ 2)
    (hshape : observed shape = false) :
    State.tileCommand tile shape offset plots s
      = (State.selectPalette tile (State.resolve tile s)).runPlots
          (plots (State.selectPalette tile (State.resolve tile s))) := by
  obtain ⟨hblank, _⟩ | ⟨_, _, hobserved, _⟩ | ⟨u, _, ⟨rfl, _⟩ | ⟨_, hobserved, _⟩, h⟩ :=
    tileCommand_cases tile shape offset plots s
  · exact absurd hblank hopaque
  · exact absurd (hshape.symm.trans hobserved) (by decide)
  · exact h
  · exact absurd (hshape.symm.trans hobserved) (by decide)

/-- A blank tile ends the command at once (rule R211). -/
theorem tileCommand_blank {s : State} {tile : Half} (shape : Shape) (offset : Word)
    (plots : State → List PlotCall) (hblank : (State.resolve tile s).selectedFlag = 2) :
    State.tileCommand tile shape offset plots s = State.done (.word 0) (State.resolve tile s) := by
  obtain ⟨_, h⟩ | ⟨hopaque, _⟩ | ⟨_, hopaque, _⟩ := tileCommand_cases tile shape offset plots s
  · exact h
  · exact absurd hblank hopaque
  · exact absurd hblank hopaque

end Sys2Proof.Machine
end

section
/-! SUPPORT. The pixels of a rectangle (rules R172 to R175, R210, R217): under N1X1, N2X1 and INT the plots
of lines that do not overlap each show their own pixel, and their PLOT commands have the same arguments. -/

namespace Sys2Proof.Machine

/-! ## Pixels as plots -/

/-- What a plot shows is its logical pixel. -/
theorem shown_callAt (s t : State) (base oil n : Nat) (on : Bool) (pix z1 z2 : Byte) :
    (callAt base oil n on pix z1 z2).shown s t
      ↔ s.pixelDrawn t (on = true) (s.screenColor pix) z1 z2 base n := by
  unfold PlotCall.shown State.pixelDrawn
  simp [callAt, PlotCall.base1, PlotCall.base2]

theorem pixelWidth_cases {s : State} (hlow : s.lowRes) :
    (s.ctx.rsel.addr = .n1x1 ∧ s.pixelWidth = 1)
      ∨ ((s.ctx.rsel.addr = .n2x1 ∨ s.ctx.rsel.addr = .int) ∧ s.pixelWidth = 2) := by
  unfold State.pixelWidth
  obtain h | h | h := lowRes_cases hlow <;> simp [h]

theorem reachable_callAt {s : State} (hlow : s.lowRes) {base n : Nat} (h : s.pixelInRange base n)
    (oil : Nat) (on : Bool) (pix z1 z2 : Byte) :
    (callAt base oil n on pix z1 z2).reachable s.ctx.rsel.addr s := by
  unfold State.pixelInRange at h
  obtain ⟨hmode, hwidth⟩ | ⟨hmode | hmode, hwidth⟩ := pixelWidth_cases hlow <;>
    rw [hwidth] at h <;> rw [hmode]
  · simpa [PlotCall.reachable, callAt, PlotCall.base1] using h 0 (by decide)
  all_goals
    simpa [PlotCall.reachable, callAt, PlotCall.base2] using
      And.intro (h 0 (by decide)) (h 1 (by decide))

/-- The cells of a plot are those of its logical pixel. -/
theorem of_mem_depthAddrs_callAt {s : State} (hlow : s.lowRes) {base oil n : Nat} {on : Bool}
    {pix z1 z2 : Byte} {a : Int}
    (h : a ∈ (callAt base oil n on pix z1 z2).depthAddrs s.ctx.rsel.addr) :
    ∃ d < s.pixelWidth, a = ((base + s.pixelWidth * n + d : Nat) : Int) := by
  obtain ⟨hmode, hwidth⟩ | ⟨hmode | hmode, hwidth⟩ := pixelWidth_cases hlow <;>
    rw [hmode] at h <;> rw [hwidth] <;>
    simp only [PlotCall.depthAddrs, callAt, PlotCall.base1, PlotCall.base2, List.mem_cons,
      List.not_mem_nil, or_false] at h
  · exact ⟨0, by decide, by simpa using h⟩
  all_goals
    obtain rfl | rfl := h
    · exact ⟨0, by decide, by simp⟩
    · exact ⟨1, by decide, by simp⟩

/-! ## Lines apart -/

/-- Quotient and remainder are determined. -/
theorem mul_add_injective {m a a' e e' : Nat} (he : e < m) (he' : e' < m)
    (h : m * a + e = m * a' + e') : a = a' ∧ e = e' := by
  have hpos := Nat.zero_lt_of_lt he
  obtain ⟨hquot, hrem⟩ := (Nat.div_mod_unique (a := m * a + e) hpos).mpr ⟨Nat.add_comm _ _, he⟩
  obtain ⟨hquot', hrem'⟩ := (Nat.div_mod_unique (a := m * a + e) hpos).mpr
    ⟨(Nat.add_comm _ _).trans h.symm, he'⟩
  exact ⟨hquot.symm.trans hquot', hrem.symm.trans hrem'⟩

/-- Where the columns `lo` to `hi` of a line fit in the stride, a cell belongs to one pixel. -/
theorem pixel_unique {width stride lo hi base k k' c c' d d' : Nat}
    (hfit : width * (hi - lo) ≤ stride) (hc : lo ≤ c ∧ c < hi) (hc' : lo ≤ c' ∧ c' < hi)
    (hd : d < width) (hd' : d' < width)
    (h : base + k * stride + width * c + d = base + k' * stride + width * c' + d') :
    k = k' ∧ c = c' := by
  have hsplit : ∀ x, lo ≤ x → width * x = width * lo + width * (x - lo) := fun x hx => by
    rw [← Nat.mul_add, Nat.add_sub_cancel' hx]
  have hsmall : ∀ {x e}, lo ≤ x ∧ x < hi → e < width → width * (x - lo) + e < stride := by
    intro x e hx he
    have hnext : width * (x - lo + 1) ≤ width * (hi - lo) := Nat.mul_le_mul_left _ (by omega)
    rw [Nat.mul_succ] at hnext
    omega
  rw [hsplit c hc.1, hsplit c' hc'.1, Nat.mul_comm k, Nat.mul_comm k'] at h
  have hlines : stride * k + (width * (c - lo) + d) = stride * k' + (width * (c' - lo) + d') := by
    omega
  obtain ⟨hk, hrest⟩ := mul_add_injective (hsmall hc hd) (hsmall hc' hd') hlines
  have hcol := (mul_add_injective hd hd' hrest).1
  exact ⟨hk, by omega⟩

/-! ## A rectangle of plots -/

/-- The plot of column `a.2` of line `a.1` of a command that draws from `offset` (rule R210). -/
def State.gridCall (s : State) (offset : Word) (on : Bool) (pix z1 z2 : Byte) (a : Nat × Nat) :
    PlotCall :=
  callAt (offset.toNat + a.1 * s.ctx.ppl.toNat) (offset.toNat % s.ctx.rppl.toNat) a.2 on pix z1 z2

/-- Its PLOT command. -/
def State.gridInstr (s : State) (offset : Word) (on : Bool) (pix z1 z2 : Byte) (a : Nat × Nat) :
    Instr :=
  s.plotAt (offset.toNat + a.1 * s.ctx.ppl.toNat) (offset.toNat % s.ctx.rppl.toNat) a.2 on pix z1 z2

theorem exec_gridInstr {s : State} {offset : Word} {lines : Nat} {a : Nat × Nat}
    (hfit : offset.toNat + lines * s.ctx.ppl.toNat ≤ 2 ^ 32) (hline : a.1 < lines)
    (hcol : a.2 < 2 ^ 31) (on : Bool) (pix z1 z2 : Byte) (x : State) :
    exec (s.gridInstr offset on pix z1 z2 a) x
      = .next (x.plotCommand s.ctx.rsel.addr (s.gridCall offset on pix z1 z2 a)) := by
  have hoffset := offset.isLt
  have hbase : offset.toNat + a.1 * s.ctx.ppl.toNat < 2 ^ 32 := by
    have hnext : (a.1 + 1) * s.ctx.ppl.toNat ≤ lines * s.ctx.ppl.toNat :=
      Nat.mul_le_mul_right _ hline
    rw [Nat.succ_mul] at hnext
    obtain hstride | hstride := Nat.eq_zero_or_pos s.ctx.ppl.toNat
    · simpa [hstride] using hoffset
    · omega
  exact exec_plotAt hbase (Nat.lt_of_le_of_lt (Nat.mod_le _ _) hoffset) hcol on pix z1 z2 s x

/-- Lines top to bottom and their columns, as one list of positions. -/
theorem flatMap_map_eq_product {α : Type} (f : Nat → Nat → α) (lines cols : List Nat) :
    (lines.flatMap fun k => cols.map fun c => f k c)
      = (lines ×ˢ cols).map fun a => f a.1 a.2 := by
  simp [SProd.sprod, List.product, List.map_flatMap, Function.comp_def]

theorem nothingDrawn {s t : State} (hts : ∀ i, t.readTS i = s.readTS i)
    (htz : ∀ i, t.readTZ i = s.readTZ i) {on : Prop} (hon : ¬ on) (v : Half) (z1 z2 : Byte)
    (base n : Nat) : s.pixelDrawn t on v z1 z2 base n := by
  unfold State.pixelDrawn State.cellDrawn State.pairDrawn
  simp [hon, hts, htz]

theorem Prepared.pixelDrawn {s u t : State} (hp : Prepared s u) {on : Prop} {v : Half} {z1 z2 : Byte}
    {base n : Nat} (h : u.pixelDrawn t on v z1 z2 base n) : s.pixelDrawn t on v z1 z2 base n := by
  unfold State.pixelDrawn at h ⊢
  rw [hp.rsel] at h
  simp only [hp.index] at h
  split
  · next hmode => rw [if_pos hmode] at h; exact hp.cellDrawn h
  · next hmode => rw [if_neg hmode] at h; exact hp.pairDrawn h

theorem Prepared.endedOk_done {s u : State} (hp : Prepared s u) : s.endedOk (u.done (.word 0)) :=
  ⟨rfl, by rw [State.done_ctx, hp], by rw [State.done_ctx, hp]⟩

theorem Prepared.lowRes {s u : State} (hp : Prepared s u) (h : s.lowRes) : u.lowRes := by
  unfold State.lowRes
  rw [hp.rsel]
  exact h

/-- The pixel loop of plots with cells of their own ends, and each plot shows its pixel. -/
theorem runPlots_lowRes {s u : State} {ps : List PlotCall} (hp : Prepared s u) (hlow : s.lowRes)
    (hreach : ∀ p ∈ ps, p.reachable s.ctx.rsel.addr s)
    (hapart : ps.Pairwise fun p q =>
      ∀ a ∈ p.depthAddrs s.ctx.rsel.addr, a ∉ q.depthAddrs s.ctx.rsel.addr) :
    s.endedOk (u.runPlots ps) ∧ ∀ p ∈ ps, p.shown u (u.runPlots ps) := by
  obtain ⟨t, ht, hshown⟩ := plotAll_lowRes (hp.lowRes hlow)
    (fun p hmem => by rw [hp.rsel, hp.reachable]; exact hreach p hmem) (by rw [hp.rsel]; exact hapart)
  have hrun : u.runPlots ps = t.done (.word 0) := by unfold State.runPlots; rw [ht]
  have hctx := (plotAll_draws ht).ctx
  rw [hrun]
  exact ⟨⟨rfl, by rw [State.done_ctx, hctx, hp], by rw [State.done_ctx, hctx, hp]⟩, hshown⟩

/-- A rectangle whose columns fit in the line is drawn pixel by pixel (rules R173 to R175, R217). -/
theorem runPlots_grid {s u : State} (hp : Prepared s u) (hlow : s.lowRes) {offset : Word}
    {lines lo hi : Nat} {cols : List Nat} (hnodup : cols.Nodup) (hcols : ∀ c ∈ cols, lo ≤ c ∧ c < hi)
    (hfit : s.pixelWidth * (hi - lo) ≤ s.ctx.ppl.toNat)
    (hrange : ∀ k < lines, ∀ c ∈ cols, s.pixelInRange (offset.toNat + k * s.ctx.ppl.toNat) c)
    {on : Nat × Nat → Bool} {pix : Nat × Nat → Byte} {z1 z2 : Byte} {ps : List PlotCall}
    (hps : ps = (List.range lines ×ˢ cols).map fun a => s.gridCall offset (on a) (pix a) z1 z2 a) :
    s.endedOk (u.runPlots ps) ∧ ∀ k < lines, ∀ c ∈ cols,
      s.pixelDrawn (u.runPlots ps) (on (k, c) = true) (u.screenColor (pix (k, c))) z1 z2
        (offset.toNat + k * s.ctx.ppl.toNat) c := by
  subst hps
  have hcell : ∀ a ∈ List.range lines ×ˢ cols, a.1 < lines ∧ a.2 ∈ cols := fun a ha =>
    (List.mem_product.mp ha).imp_left List.mem_range.mp
  have hreach : ∀ p ∈ (List.range lines ×ˢ cols).map
      fun a => s.gridCall offset (on a) (pix a) z1 z2 a, p.reachable s.ctx.rsel.addr s := by
    intro p hmem
    obtain ⟨a, ha, rfl⟩ := List.mem_map.mp hmem
    exact reachable_callAt hlow (hrange a.1 (hcell a ha).1 a.2 (hcell a ha).2) _ _ _ _ _
  have hapart : ((List.range lines ×ˢ cols).map
      fun a => s.gridCall offset (on a) (pix a) z1 z2 a).Pairwise fun p q =>
        ∀ x ∈ p.depthAddrs s.ctx.rsel.addr, x ∉ q.depthAddrs s.ctx.rsel.addr := by
    rw [List.pairwise_map]
    refine (List.nodup_range.product hnodup).imp_of_mem fun {a b} ha hb hne x hx hx' => ?_
    obtain ⟨d, hd, rfl⟩ := of_mem_depthAddrs_callAt hlow hx
    obtain ⟨d', hd', heq⟩ := of_mem_depthAddrs_callAt hlow hx'
    obtain ⟨hline, hcol⟩ := pixel_unique hfit (hcols _ (hcell a ha).2) (hcols _ (hcell b hb).2) hd hd'
      (Int.ofNat_inj.mp heq)
    exact hne (Prod.ext hline hcol)
  obtain ⟨hended, hshown⟩ := runPlots_lowRes hp hlow hreach hapart
  refine ⟨hended, fun k hk c hc => hp.pixelDrawn ?_⟩
  exact (shown_callAt u _ _ _ c _ _ z1 z2).mp
    (hshown _ (List.mem_map_of_mem (List.mem_product.mpr ⟨List.mem_range.mpr hk, hc⟩)))

end Sys2Proof.Machine
end

section
/-! SUPPORT, O35 and O36. What the tile commands draw (rules R96, R178, R211 to R215, R217): the plots of
TR.TILE, TR.CLIP and TR.MOSPIX are a rectangle of the statement's pixels, drawn pixel by pixel under the
low-resolution modes, and as TC.RESOLVE, TC.SELPAL and one PLOT command for each pixel under every mode. -/

namespace Sys2Proof.Machine

/-! ## Columns -/

theorem between_eq_Ico (a b : Nat) : between a b = List.Ico a b := by
  unfold between
  rw [← List.Ico.zero_bot, List.Ico.filter_le, Nat.zero_max]

theorem mem_between {a b c : Nat} : c ∈ between a b ↔ a ≤ c ∧ c < b := by
  rw [between_eq_Ico, List.Ico.mem]

theorem between_nodup (a b : Nat) : (between a b).Nodup := by
  rw [between_eq_Ico]; exact List.Ico.nodup a b

theorem range_eq_between (n : Nat) : List.range n = between 0 n := by
  rw [between_eq_Ico, List.Ico.zero_bot]

theorem clipColumns_eq_between (sp : BitVec 3) (w : BitVec 4) :
    clipColumns sp w = between sp.toNat (min 8 (sp.toNat + w.toNat)) := by
  have hsp := sp.isLt
  rw [between_eq_Ico, clipColumns, List.Ico, List.range'_eq_map_range]
  congr 2
  omega

/-! ## The plots of a tile command -/

/-- The pixel at column `a.2` of destination line `a.1`. -/
def State.shownPixel (s : State) (tile : Half) (sl : BitVec 6) (a : Nat × Nat) : Byte :=
  s.drawnPixel tile (s.drawnRow tile sl a.1) a.2

/-- The positions of the block of TR.MOSPIX, none when its sample is transparent (rule R214). -/
def State.mospixCells (s : State) (tile : Half) (sl : BitVec 6) (sp : BitVec 3) (w lines : Nat) :
    List (Nat × Nat) :=
  if s.shownPixel tile sl (0, sp.toNat) = 0 then [] else List.range lines ×ˢ (List.range w).reverse

theorem lt_of_mem_mospixCells {s : State} {tile : Half} {sl : BitVec 6} {sp : BitVec 3}
    {w lines : Nat} {a : Nat × Nat} (h : a ∈ s.mospixCells tile sl sp w lines) :
    a.1 < lines ∧ a.2 < w := by
  unfold State.mospixCells at h
  split at h
  · cases h
  · obtain ⟨hk, hc⟩ := List.mem_product.mp h
    exact ⟨List.mem_range.mp hk, by simpa using hc⟩

theorem gridCall_eq {s u : State} (hp : Prepared s u) (offset : Word) (on : Bool) (pix : Byte)
    (a : Nat × Nat) :
    (⟨a.2, on, u.lineAddr offset a.1, u.lineOffset offset, pix, u.ctx.z1, u.ctx.z2⟩ : PlotCall)
      = s.gridCall offset on pix s.ctx.z1 s.ctx.z2 a := by
  have hz : u.ctx.z1 = s.ctx.z1 ∧ u.ctx.z2 = s.ctx.z2 := by rw [hp]; exact ⟨rfl, rfl⟩
  unfold State.gridCall callAt State.lineAddr State.lineOffset
  rw [hp.ppl, hp.rppl, hz.1, hz.2]
  push_cast
  rfl

section Ready

variable {s u : State} {tile : Half} (hp : Prepared s u)
  (hready : (State.selectPalette tile (State.resolve tile s)).borrow u = u)

include hready in
theorem ready_screenColor (p : Byte) : u.screenColor p = s.tileColor tile p := by
  rw [← hready, screenColor_borrow, selectPalette_screenColor, resolve_tileColor]

include hp hready

theorem ready_tilePixel (hopaque : (State.resolve tile s).selectedFlag ≠ 2) {sl : BitVec 6}
    {k c : Nat} (hrow : s.rowDrawn tile sl k) (hc : c < 8) :
    u.tilePixel tile sl k c = s.shownPixel tile sl (k, c) := by
  obtain ⟨hofs, hlt⟩ := srcOfs_of_rowDrawn hrow
  have hsame : u.srcOfs tile sl k = s.srcOfs tile sl k := by rw [hp]; rfl
  have hbyte : ∀ j, u.slotByte j = (State.resolve tile s).slotByte j := fun j => by
    rw [← hready, slotByte_borrow, selectPalette_slotByte]
  rw [State.tilePixel, hsame, hofs, hbyte, resolve_drawnPixel s tile hlt hc hopaque]
  rfl

theorem ready_tilePlots (hopaque : (State.resolve tile s).selectedFlag ≠ 2) (offset : Word)
    {sl : BitVec 6} {lines : Nat} {cols : List Nat} (hrows : ∀ k < lines, s.rowDrawn tile sl k)
    (hcols : ∀ c ∈ cols, c < 8) :
    State.tilePlots tile offset sl lines cols u
      = (List.range lines ×ˢ cols).map fun a =>
          s.gridCall offset (decide (s.shownPixel tile sl a ≠ 0)) (s.shownPixel tile sl a) s.ctx.z1
            s.ctx.z2 a := by
  rw [State.tilePlots, flatMap_map_eq_product]
  refine List.map_congr_left fun a ha => ?_
  obtain ⟨hk, hc⟩ := List.mem_product.mp ha
  rw [← gridCall_eq hp, ← ready_tilePixel hp hready hopaque (hrows _ (List.mem_range.mp hk))
    (hcols _ hc)]
  rfl

theorem ready_mospixPlots (hopaque : (State.resolve tile s).selectedFlag ≠ 2) (offset : Word)
    {sl : BitVec 6} (sp : BitVec 3) (w lines : Nat) (hrow : s.rowDrawn tile sl 0) :
    State.mospixPlots tile offset sl sp w lines u
      = (s.mospixCells tile sl sp w lines).map
          (s.gridCall offset true (s.shownPixel tile sl (0, sp.toNat)) s.ctx.z1 s.ctx.z2) := by
  unfold State.mospixPlots State.mospixCells
  rw [ready_tilePixel hp hready hopaque hrow sp.isLt]
  simp only [flatMap_map_eq_product]
  split
  · rfl
  · exact List.map_congr_left fun a _ => gridCall_eq hp offset true _ a

end Ready

/-! ## The commands once their rows are checked -/

/-- TR.TILE and TR.CLIP with every source row differ in their columns and in the shape they record. -/
theorem exec_tile_of_rows {i : Instr} {s : State} {tile : Half} {offset : Word} {sl : BitVec 6}
    {lc : BitVec 4} {cols : List Nat}
    (hi : (i = .trTile tile offset sl lc ∧ cols = between 0 8)
      ∨ ∃ (sp : BitVec 3) (w : BitVec 4), i = .trClip tile offset sp w sl lc
          ∧ cols = between sp.toNat (min 8 (sp.toNat + w.toNat)))
    (hrows : ∀ k < lc.toNat, s.rowDrawn tile sl k) :
    (∃ shape, exec i s
        = .next (State.tileCommand tile shape offset (State.tilePlots tile offset sl lc.toNat cols) s))
      ∧ cols.Nodup ∧ ∀ c ∈ cols, c < 8 := by
  have hok := (rowsOk_iff s tile sl lc.toNat).mpr hrows
  obtain ⟨rfl, rfl⟩ | ⟨sp, w, rfl, rfl⟩ := hi
  · refine ⟨⟨.tile, ?_⟩, between_nodup _ _, fun c hc => (mem_between.mp hc).2⟩
    rw [← range_eq_between]
    exact congrArg _ (if_pos hok)
  · refine ⟨⟨.clip, ?_⟩, between_nodup _ _, fun c hc => ?_⟩
    · rw [← clipColumns_eq_between]
      exact congrArg _ (if_pos hok)
    · have := (mem_between.mp hc).2
      omega

theorem exec_mospix_of_row {s : State} {tile : Half} {offset : Word} {sl : BitVec 6} {sp : BitVec 3}
    {w lc : Half} (hrow : s.rowDrawn tile sl 0) :
    exec (.trMospix tile offset sl sp w lc) s
      = .next (State.tileCommand tile .mospix offset
          (State.mospixPlots tile offset sl sp w.toNat lc.toNat) s) :=
  congrArg _ (if_pos ((rowOk_srcOfs s tile sl 0).mpr hrow))

/-! ## Pixel by pixel -/

/-- A blank tile leaves every cell as it was. -/
theorem blank_nothingDrawn {s : State} (tile : Half) {on : Prop} (hon : ¬ on) (v : Half)
    (z1 z2 : Byte) (base n : Nat) :
    s.pixelDrawn (State.done (.word 0) (State.resolve tile s)) on v z1 z2 base n :=
  nothingDrawn (prepared_resolve s tile).readTS (prepared_resolve s tile).readTZ hon v z1 z2 base n

theorem tileCommand_lowRes {s : State} {tile : Half} (shape : Shape) {offset : Word} {sl : BitVec 6}
    {lines : Nat} {cols : List Nat} (hlow : s.lowRes) (hfit : 8 * s.pixelWidth ≤ s.ctx.ppl.toNat)
    (hroom : s.catalogRoom tile) (hrows : ∀ k < lines, s.rowDrawn tile sl k)
    (hnodup : cols.Nodup) (hcols : ∀ c ∈ cols, c < 8)
    (hrange : ∀ k < lines, ∀ c ∈ cols, s.pixelInRange (offset.toNat + k * s.ctx.ppl.toNat) c) :
    let t := State.tileCommand tile shape offset (State.tilePlots tile offset sl lines cols) s
    s.endedOk t ∧ ∀ k < lines, ∀ c ∈ cols,
      s.pixelDrawn t (s.shownPixel tile sl (k, c) ≠ 0)
        (s.tileColor tile (s.shownPixel tile sl (k, c))) s.ctx.z1 s.ctx.z2
        (offset.toNat + k * s.ctx.ppl.toNat) c := by
  intro t
  by_cases hblank : (State.resolve tile s).selectedFlag = 2
  · have ht : t = State.done (.word 0) (State.resolve tile s) :=
      tileCommand_blank shape offset _ hblank
    rw [ht]
    refine ⟨(prepared_resolve s tile).endedOk_done, fun k hk c hc => ?_⟩
    have hrow := (srcOfs_of_rowDrawn (hrows k hk)).2
    exact blank_nothingDrawn tile (not_not_intro (drawnPixel_blank hrow (hcols c hc) hblank)) _ _ _ _ _
  · obtain ⟨u, hp, hready, ht⟩ := tileCommand_ready shape offset
      (State.tilePlots tile offset sl lines cols) hblank hroom
    have hgrid := runPlots_grid hp hlow hnodup (lo := 0) (hi := 8)
      (fun c hc => ⟨Nat.zero_le c, hcols c hc⟩) (by omega) hrange
      (ready_tilePlots hp hready hblank offset hrows hcols)
    rw [← ht] at hgrid
    simpa only [decide_eq_true_eq, ready_screenColor hready] using hgrid

theorem mospix_lowRes {s : State} {tile : Half} {offset : Word} {sl : BitVec 6} (sp : BitVec 3)
    {w lines : Nat} (hlow : s.lowRes) (hfit : s.pixelWidth * w ≤ s.ctx.ppl.toNat)
    (hrow : s.rowDrawn tile sl 0)
    (hrange : ∀ k < lines, ∀ c < w, s.pixelInRange (offset.toNat + k * s.ctx.ppl.toNat) c) :
    let t := State.tileCommand tile .mospix offset (State.mospixPlots tile offset sl sp w lines) s
    let pix := s.shownPixel tile sl (0, sp.toNat)
    s.endedOk t ∧ ∀ k < lines, ∀ c < w,
      s.pixelDrawn t (pix ≠ 0) (s.tileColor tile pix) s.ctx.z1 s.ctx.z2
        (offset.toNat + k * s.ctx.ppl.toNat) c := by
  intro t pix
  by_cases hblank : (State.resolve tile s).selectedFlag = 2
  · have ht : t = State.done (.word 0) (State.resolve tile s) :=
      tileCommand_blank .mospix offset _ hblank
    rw [ht]
    refine ⟨(prepared_resolve s tile).endedOk_done, fun k hk c hc => ?_⟩
    exact blank_nothingDrawn tile
      (not_not_intro (drawnPixel_blank (srcOfs_of_rowDrawn hrow).2 sp.isLt hblank)) _ _ _ _ _
  · have hp := prepared_selected s tile
    have ht : t = _ := tileCommand_unobserved offset
      (State.mospixPlots tile offset sl sp w lines) hblank rfl
    have hplots := ready_mospixPlots hp (borrow_self _) hblank offset sp w lines hrow
    by_cases hpix : pix = 0
    · rw [State.mospixCells, if_pos hpix] at hplots
      rw [ht, hplots]
      exact ⟨hp.endedOk_done, fun k hk c hc =>
        nothingDrawn hp.readTS hp.readTZ (not_not_intro hpix) _ _ _ _ _⟩
    · rw [State.mospixCells, if_neg hpix] at hplots
      have hgrid := runPlots_grid hp hlow (List.nodup_reverse.mpr List.nodup_range) (lo := 0) (hi := w)
        (fun c hc => ⟨Nat.zero_le c, by simpa using hc⟩) hfit
        (fun k hk c hc => hrange k hk c (by simpa using hc)) (on := fun _ => true)
        (pix := fun _ => pix) hplots
      rw [← ht] at hgrid
      simpa only [ne_eq, hpix, not_false_eq_true, eq_self, List.mem_reverse, List.mem_range,
        ready_screenColor (borrow_self _)] using hgrid

/-! ## As PLOT commands -/

/-- A command that ends without a fault at the head of a run. -/
theorem runAll_cons_done {i : Instr} {s t : State} {v : RespValue} (h : exec i s = .next (t.done v))
    (is : List Instr) : runAll (i :: is) s = runAll is (t.done v) := by
  rw [runAll, h]
  rfl

theorem selectPalette_done (tile : Half) (v : RespValue) (s : State) :
    State.selectPalette tile (State.done v s) = State.done v (State.selectPalette tile s) := rfl

theorem done_done (v v' : RespValue) (s : State) :
    State.done v (State.done v' s) = State.done v s := rfl

theorem exec_tcSelpal (tile : Half) (s : State) :
    exec (.tcSelpal tile) s
      = .next (State.done (.word (s.selected tile).word) (State.selectPalette tile s)) := rfl

/-- TC.RESOLVE and TC.SELPAL select the slot and the palette. -/
theorem runAll_prologue (tile : Half) (is : List Instr) (s : State) :
    ∃ v, runAll (.tcResolve tile :: .tcSelpal tile :: is) s
      = runAll is (State.done v (State.selectPalette tile (State.resolve tile s))) := by
  have hresolve : exec (.tcResolve tile) s = .next (State.done _ (State.resolve tile s)) := rfl
  rw [runAll_cons_done hresolve, runAll_cons_done (exec_tcSelpal tile _)]
  exact ⟨_, by rw [selectPalette_done, done_done]⟩

/-- Where TC.RESOLVE, TC.SELPAL and PLOT commands run to their end, a pixel loop over the plots does the same
from any state with the slot and the palette selected, whatever its catalog. -/
theorem runPlots_of_runAll {s u w : State} {tile : Half} {f : Nat × Nat → Instr}
    {g : Nat × Nat → PlotCall} {l : List (Nat × Nat)}
    (hready : (State.selectPalette tile (State.resolve tile s)).borrow w = w)
    (hfg : ∀ a ∈ l, ∀ x, exec (f a) x = .next (x.plotCommand s.ctx.rsel.addr (g a)))
    (h : runAll ([Instr.tcResolve tile, Instr.tcSelpal tile] ++ l.map f) s = some u) :
    w.runPlots (l.map g) = (u.borrow w).done (.word 0)
      ∧ u.withCatalogOf (State.selectPalette tile (State.resolve tile s)) = u := by
  obtain ⟨v, hstart⟩ := runAll_prologue tile (l.map f) s
  rw [List.cons_append, List.cons_append, List.nil_append, hstart] at h
  have hplots := plotAll_of_runAll (by simp) hfg h w
  rw [borrow_done, hready] at hplots
  have hcatalog := runAll_withCatalogOf hfg h
  refine ⟨?_, hcatalog⟩
  unfold State.runPlots
  rw [hplots]

theorem tileInstrs_eq (s : State) (tile : Half) (offset : Word) (sl : BitVec 6) (lines : Nat)
    (cols : List Nat) :
    s.tileInstrs tile offset sl lines cols
      = (List.range lines ×ˢ cols).map fun a =>
          s.gridInstr offset (decide (s.shownPixel tile sl a ≠ 0)) (s.shownPixel tile sl a) s.ctx.z1
            s.ctx.z2 a :=
  flatMap_map_eq_product _ _ _

theorem mospixInstrs_eq (s : State) (tile : Half) (offset : Word) (sl : BitVec 6) (sp : BitVec 3)
    (w lines : Nat) :
    s.mospixInstrs tile offset sl sp w lines
      = (s.mospixCells tile sl sp w lines).map
          (s.gridInstr offset true (s.shownPixel tile sl (0, sp.toNat)) s.ctx.z1 s.ctx.z2) := by
  unfold State.mospixInstrs State.mospixCells
  simp only [flatMap_map_eq_product]
  change (if s.shownPixel tile sl (0, sp.toNat) = 0 then [] else _) = _
  split <;> rfl

theorem tileCommand_of_runAll {s u : State} {tile : Half} (shape : Shape) {offset : Word}
    {sl : BitVec 6} {lines : Nat} {cols : List Nat} (hrows : ∀ k < lines, s.rowDrawn tile sl k)
    (hroom : s.catalogRoom tile) (hopaque : s.tileOpaque tile) (hcols : ∀ c ∈ cols, c < 8)
    (hfit : offset.toNat + lines * s.ctx.ppl.toNat ≤ 2 ^ 32)
    (h : runAll ([Instr.tcResolve tile, Instr.tcSelpal tile] ++ s.tileInstrs tile offset sl lines cols) s
      = some u) :
    ∃ w, State.tileCommand tile shape offset (State.tilePlots tile offset sl lines cols) s
      = (u.borrow w).done (.word 0) := by
  rw [tileOpaque_iff] at hopaque
  obtain ⟨w, hp, hready, ht⟩ := tileCommand_ready shape offset
    (State.tilePlots tile offset sl lines cols) hopaque hroom
  refine ⟨w, ?_⟩
  rw [tileInstrs_eq] at h
  rw [ht, ready_tilePlots hp hready hopaque offset hrows hcols]
  refine (runPlots_of_runAll hready (fun a ha x => ?_) h).1
  obtain ⟨hk, hc⟩ := List.mem_product.mp ha
  exact exec_gridInstr hfit (List.mem_range.mp hk) ((hcols _ hc).trans (by decide)) _ _ _ _ x

theorem mospix_of_runAll {s u : State} {tile : Half} {offset : Word} {sl : BitVec 6}
    {sp : BitVec 3} {w : Half} {lines : Nat} (hrow : s.rowDrawn tile sl 0)
    (hopaque : s.tileOpaque tile) (hfit : offset.toNat + lines * s.ctx.ppl.toNat ≤ 2 ^ 32)
    (h : runAll ([Instr.tcResolve tile, Instr.tcSelpal tile]
      ++ s.mospixInstrs tile offset sl sp w.toNat lines) s = some u) :
    State.tileCommand tile .mospix offset (State.mospixPlots tile offset sl sp w.toNat lines) s
      = u.done (.word 0) := by
  rw [tileOpaque_iff] at hopaque
  rw [tileCommand_unobserved offset _ hopaque rfl,
    ready_mospixPlots (prepared_selected s tile) (borrow_self _) hopaque offset sp w.toNat lines hrow]
  rw [mospixInstrs_eq] at h
  obtain ⟨hrun, hcatalog⟩ := runPlots_of_runAll (borrow_self _)
    (fun a ha x => by
      obtain ⟨hk, hc⟩ := lt_of_mem_mospixCells ha
      exact exec_gridInstr hfit hk (hc.trans (w.isLt.trans (by decide))) _ _ _ _ x) h
  rw [hrun, done_borrow, hcatalog]

/-- Settles O35: a blank tile shows no pixel; another is drawn from the slot and the palette it selects, in
plots with cells of their own or one PLOT command after another. -/
theorem tileDrawsSourcePixels : Obligations.TileDrawsSourcePixels := by
  refine ⟨fun i s tile offset sl lc cols hi hlow hfit hroom hrows hrange => ?_,
    fun i s u tile offset sl lc cols hi hrows hroom hopaque hfit hrun => ?_⟩
  · obtain ⟨list, hi', hmem⟩ : ∃ list : List Nat,
        ((i = .trTile tile offset sl lc ∧ list = between 0 8)
          ∨ ∃ (sp : BitVec 3) (w : BitVec 4), i = .trClip tile offset sp w sl lc
            ∧ list = between sp.toNat (min 8 (sp.toNat + w.toNat)))
        ∧ ∀ c, cols c ↔ c ∈ list := by
      obtain ⟨h, hcols⟩ | ⟨sp, w, h, hcols⟩ := hi
      · exact ⟨_, .inl ⟨h, rfl⟩, fun c => by simp [hcols, mem_between]⟩
      · exact ⟨_, .inr ⟨sp, w, h, rfl⟩, fun c => by rw [hcols, mem_between]⟩
    obtain ⟨⟨shape, hexec⟩, hnodup, hlt⟩ := exec_tile_of_rows hi' hrows
    obtain ⟨hended, hdrawn⟩ := tileCommand_lowRes shape hlow hfit hroom hrows hnodup hlt
      fun k hk c hc => hrange k hk c ((hmem c).mpr hc)
    exact ⟨_, hexec, hended, fun k hk c hc => hdrawn k hk c ((hmem c).mp hc)⟩
  · obtain ⟨⟨shape, hexec⟩, _, hlt⟩ := exec_tile_of_rows hi hrows
    obtain ⟨w, ht⟩ := tileCommand_of_runAll shape hrows hroom hopaque hlt hfit hrun
    rw [ht] at hexec
    exact ⟨_, hexec, rfl⟩

/-- Settles O36: the block is a rectangle of one pixel, drawn as O35 draws a tile. -/
theorem mospixReplicatesSample : Obligations.MospixReplicatesSample := by
  refine ⟨fun s tile offset sl sp w lc hlow hfit hrow hrange =>
      ⟨_, exec_mospix_of_row hrow, mospix_lowRes sp hlow hfit hrow hrange⟩,
    fun s u tile offset sl sp w lc hrow hopaque hfit hrun => ?_⟩
  rw [exec_mospix_of_row hrow, mospix_of_runAll hrow hopaque hfit hrun]
  rfl

end Sys2Proof.Machine
end

section
/-! SUPPORT, O1, O2 and O3. The two round trips of the encoding (rules R110 to R116): the decoder on the packets of
each format, and the packets that each format accepts. -/

namespace Sys2Proof

open EncodingLaws

/-! ## Headers -/

/-- A packet whose header is well formed is decoded by its opcode. -/
theorem decode_of_header {p : Packet} {opc imm : BitVec 8} (hw : p.w0 = header opc imm) :
    decode p = decodeOpc opc.toNat p := by
  unfold decode Packet.rsvd Packet.opc
  rw [hw, header_rsvd, header_opc]
  rfl

theorem imm_of_header {p : Packet} {opc imm : BitVec 8} (hw : p.w0 = header opc imm) :
    p.imm = imm := by
  rw [Packet.imm, hw, header_imm]

/-- A packet is refused for its reserved field, or is decoded by its opcode (rule R111). -/
theorem decode_cases (p : Packet) :
    decode p = .error .illegalOpcode
      ∨ (p.w0 = header (BitVec.ofNat 8 p.opc.toNat) p.imm ∧ decode p = decodeOpc p.opc.toNat p) := by
  by_cases hrsvd : p.rsvd = 0
  · refine .inr ⟨?_, if_pos hrsvd⟩
    rw [BitVec.ofNat_toNat, BitVec.setWidth_eq]
    exact header_of_fields _ hrsvd
  · exact .inl (if_neg hrsvd)

/-! ## Operand words (rule R114) -/

theorem operandsOk_eq_ok {ok : Bool} {i j : Instr} :
    operandsOk ok i = .ok j ↔ ok = true ∧ i = j := by
  cases ok <;> simp [operandsOk]

/-- An operand zero-extended to a word and cut again is itself. -/
@[simp] theorem setWidth_operand {n : Nat} (v : BitVec n) (hn : n ≤ 32 := by decide) :
    (v.setWidth 32).setWidth n = v := setWidth_setWidth hn v

@[simp] theorem startLineWord_setWidth (sl : BitVec 6) :
    startLineWord (sl.setWidth 32) = startLineOk sl := by
  have := sl.isLt
  simp only [startLineWord, startLineOk, BitVec.toNat_setWidth, decide_eq_decide]
  omega

@[simp] theorem upTo8Word_setWidth (v : BitVec 4) : upTo8Word (v.setWidth 32) = upTo8 v := by
  have := v.isLt
  simp only [upTo8Word, upTo8, BitVec.toNat_setWidth, decide_eq_decide]
  omega

/-- A word that fits an operand is an operand zero-extended. -/
theorem exists_operand {n : Nat} {w : Word} (h : fits n w = true) :
    ∃ v : BitVec n, w = v.setWidth 32 :=
  ⟨w.setWidth n, (setWidth_of_fits h).symm⟩

theorem exists_startLine {w : Word} (h : startLineWord w = true) :
    ∃ sl : BitVec 6, w = sl.setWidth 32 := by
  refine exists_operand ?_
  simp only [startLineWord, fits, decide_eq_true_eq] at h ⊢
  omega

theorem exists_upTo8 {w : Word} (h : upTo8Word w = true) : ∃ v : BitVec 4, w = v.setWidth 32 := by
  refine exists_operand ?_
  simp only [upTo8Word, fits, decide_eq_true_eq] at h ⊢
  omega

/-! ## What each format accepts (rule R112)

Under a header of its opcode a format decodes exactly its own packets. -/

section Formats

variable {p : Packet} {opc imm : BitVec 8} {i : Instr}

/-- A format without an immediate decodes legal operand words under the header of its opcode alone. -/
theorem noImmediate_eq_ok {ok : Bool} {j : Instr} (hw : p.w0 = header opc imm) :
    (if p.imm = 0 then operandsOk ok j else .error .illegalOpcode) = .ok i
      ↔ p.w0 = header opc 0 ∧ ok = true ∧ j = i := by
  rw [imm_of_header hw, hw]
  split
  · next himm => simp [operandsOk_eq_ok, himm]
  · next himm =>
    have hne : header opc imm ≠ header opc 0 := fun h =>
      himm (by simpa using congrArg (·.extractLsb' 0 8) h)
    exact iff_of_false nofun fun h => hne h.1

theorem decodeZ_eq_ok {j : Instr} (hw : p.w0 = header opc imm) :
    decodeZ p j = .ok i ↔ p = packet0 (header opc 0) ∧ j = i := by
  refine (noImmediate_eq_ok hw).trans ?_
  obtain ⟨w0, w1, w2, w3, w4, w5, w6, w7⟩ := p
  simp [packet0, and_assoc]

theorem decodeC_eq_ok {mk : Half → Half → Instr} (hw : p.w0 = header opc imm) :
    decodeC p mk = .ok i ↔ ∃ c1 c2, p = packetC opc c1 c2 ∧ mk c1 c2 = i := by
  refine (noImmediate_eq_ok hw).trans ?_
  obtain ⟨w0, w1, w2, w3, w4, w5, w6, w7⟩ := p
  constructor
  · rintro ⟨rfl, hok, rfl⟩
    exact ⟨_, _, by simp_all [packetC, setWidth_of_fits], rfl⟩
  · rintro ⟨c1, c2, hp, rfl⟩
    simp_all [packetC, fits_setWidth]

theorem decodeP_eq_ok {mk : Word → Word → Word → Word → Byte → Byte → Byte → Instr}
    (hw : p.w0 = header opc imm) :
    decodeP p mk = .ok i ↔ ∃ n m offset oil pix z1 z2, p = packetP opc n m offset oil pix z1 z2
      ∧ mk n m offset oil pix z1 z2 = i := by
  refine (noImmediate_eq_ok hw).trans ?_
  obtain ⟨w0, w1, w2, w3, w4, w5, w6, w7⟩ := p
  constructor
  · rintro ⟨rfl, hok, rfl⟩
    exact ⟨_, _, _, _, _, _, _, by simp_all [packetP, setWidth_of_fits], rfl⟩
  · rintro ⟨n, m, offset, oil, pix, z1, z2, hp, rfl⟩
    simp_all [packetP, fits_setWidth]

theorem decodeT1_eq_ok {mk : Half → Instr} (hw : p.w0 = header opc imm) :
    decodeT1 p mk = .ok i
      ↔ ∃ t : Half, p = packet1 (header opc 0) (t.setWidth 32) ∧ mk t = i := by
  refine (noImmediate_eq_ok hw).trans ?_
  obtain ⟨w0, w1, w2, w3, w4, w5, w6, w7⟩ := p
  constructor
  · rintro ⟨rfl, hok, rfl⟩
    exact ⟨_, by simp_all [packet1, setWidth_of_fits], rfl⟩
  · rintro ⟨t, hp, rfl⟩
    simp_all [packet1, fits_setWidth]

theorem decodeM7_eq_ok {mk : Half → Half → Byte → Instr} (hw : p.w0 = header opc imm) :
    decodeM7 p mk = .ok i ↔ ∃ left right d, p = packetM7 opc left right d ∧ mk left right d = i := by
  refine (noImmediate_eq_ok hw).trans ?_
  obtain ⟨w0, w1, w2, w3, w4, w5, w6, w7⟩ := p
  constructor
  · rintro ⟨rfl, hok, rfl⟩
    exact ⟨_, _, _, by simp_all [packetM7, setWidth_of_fits], rfl⟩
  · rintro ⟨left, right, d, hp, rfl⟩
    simp_all [packetM7, fits_setWidth]

theorem decodeQ_eq_ok {mk : Word → Instr} (hw : p.w0 = header opc imm) :
    decodeQ p mk = .ok i ↔ ∃ id, p = packet1 (header opc 0) id ∧ mk id = i := by
  refine (noImmediate_eq_ok hw).trans ?_
  obtain ⟨w0, w1, w2, w3, w4, w5, w6, w7⟩ := p
  simp [packet1, and_assoc]

theorem decodeTile_eq_ok (hw : p.w0 = header 0x40 imm) :
    decodeTile p = .ok i
      ↔ i.wf = true ∧ encode i = p ∧ ∃ t offset sl lc, i = .trTile t offset sl lc := by
  refine (noImmediate_eq_ok hw).trans ?_
  obtain ⟨w0, w1, w2, w3, w4, w5, w6, w7⟩ := p
  constructor
  · rintro ⟨rfl, hok, rfl⟩
    simp only [Bool.and_eq_true, beq_iff_eq] at hok
    obtain ⟨⟨⟨⟨⟨ht, hsl⟩, hlc⟩, rfl⟩, rfl⟩, rfl⟩ := hok
    obtain ⟨t, rfl⟩ := exists_operand ht
    obtain ⟨sl, rfl⟩ := exists_startLine hsl
    obtain ⟨lc, rfl⟩ := exists_upTo8 hlc
    exact ⟨by simp_all [Instr.wf], by simp [encode], _, _, _, _, rfl⟩
  · rintro ⟨hwf, hp, t, offset, sl, lc, rfl⟩
    cases hp
    simpa [Instr.wf, fits_setWidth] using hwf

theorem decodeClip_eq_ok (hw : p.w0 = header 0x41 imm) :
    decodeClip p = .ok i
      ↔ i.wf = true ∧ encode i = p ∧ ∃ t offset sp w sl lc, i = .trClip t offset sp w sl lc := by
  refine (noImmediate_eq_ok hw).trans ?_
  obtain ⟨w0, w1, w2, w3, w4, w5, w6, w7⟩ := p
  constructor
  · rintro ⟨rfl, hok, rfl⟩
    simp only [Bool.and_eq_true, beq_iff_eq] at hok
    obtain ⟨⟨⟨⟨⟨ht, hsp⟩, hwidth⟩, hsl⟩, hlc⟩, rfl⟩ := hok
    obtain ⟨t, rfl⟩ := exists_operand ht
    obtain ⟨sp, rfl⟩ := exists_operand hsp
    obtain ⟨w, rfl⟩ := exists_upTo8 hwidth
    obtain ⟨sl, rfl⟩ := exists_startLine hsl
    obtain ⟨lc, rfl⟩ := exists_upTo8 hlc
    exact ⟨by simp_all [Instr.wf], by simp [encode], _, _, _, _, _, _, rfl⟩
  · rintro ⟨hwf, hp, t, offset, sp, w, sl, lc, rfl⟩
    cases hp
    simpa [Instr.wf, fits_setWidth] using hwf

theorem decodeMospix_eq_ok (hw : p.w0 = header 0x42 imm) :
    decodeMospix p = .ok i
      ↔ i.wf = true ∧ encode i = p ∧ ∃ t offset sl sp w lc, i = .trMospix t offset sl sp w lc := by
  refine (noImmediate_eq_ok hw).trans ?_
  obtain ⟨w0, w1, w2, w3, w4, w5, w6, w7⟩ := p
  constructor
  · rintro ⟨rfl, hok, rfl⟩
    simp only [Bool.and_eq_true, beq_iff_eq] at hok
    obtain ⟨⟨⟨⟨⟨ht, hsl⟩, hsp⟩, hwidth⟩, hlc⟩, rfl⟩ := hok
    obtain ⟨t, rfl⟩ := exists_operand ht
    obtain ⟨sl, rfl⟩ := exists_startLine hsl
    obtain ⟨sp, rfl⟩ := exists_operand hsp
    obtain ⟨w, rfl⟩ := exists_operand hwidth
    obtain ⟨lc, rfl⟩ := exists_operand hlc
    exact ⟨by simp_all [Instr.wf], by simp [encode], _, _, _, _, _, _, rfl⟩
  · rintro ⟨hwf, hp, t, offset, sl, sp, w, lc, rfl⟩
    cases hp
    simpa [Instr.wf, fits_setWidth] using hwf

theorem decodeBackdrop_eq_ok (hw : p.w0 = header 0x43 imm) :
    decodeBackdrop p = .ok i
      ↔ encode i = p ∧ ∃ offset left right, i = .trBackdrop offset left right := by
  refine (noImmediate_eq_ok hw).trans ?_
  obtain ⟨w0, w1, w2, w3, w4, w5, w6, w7⟩ := p
  constructor
  · rintro ⟨rfl, hok, rfl⟩
    exact ⟨by simp_all [encode, setWidth_of_fits], _, _, _, rfl⟩
  · rintro ⟨hp, offset, left, right, rfl⟩
    cases hp
    simp [fits_setWidth]

theorem decodeCtxwr_eq_ok (hw : p.w0 = header 0x02 imm) :
    decodeCtxwr p = .ok i ↔ encode i = p ∧ ∃ r v, i = .sysCtxwr r v := by
  unfold decodeCtxwr
  constructor
  · intro h
    rw [imm_of_header hw] at h
    obtain ⟨w0, w1, w2, w3, w4, w5, w6, w7⟩ := p
    split at h
    · next r hr =>
      obtain ⟨hok, rfl⟩ := operandsOk_eq_ok.mp h
      exact ⟨by simp_all [encode, packet1, num_of_ctxRegOf hr], _, _, rfl⟩
    · cases h
  · rintro ⟨rfl, r, v, rfl⟩
    have himm : (encode (.sysCtxwr r v)).imm = BitVec.ofNat 8 r.num := imm_of_header rfl
    rw [himm]
    simp [encode, packet1, ctxRegOf_num, Nat.mod_eq_of_lt (ctxReg_num_lt r), operandsOk]

theorem decodeCtxrd_eq_ok (hw : p.w0 = header 0x03 imm) :
    decodeCtxrd p = .ok i ↔ encode i = p ∧ ∃ r, i = .sysCtxrd r := by
  unfold decodeCtxrd
  constructor
  · intro h
    rw [imm_of_header hw] at h
    obtain ⟨w0, w1, w2, w3, w4, w5, w6, w7⟩ := p
    split at h
    · next r hr =>
      obtain ⟨hok, rfl⟩ := operandsOk_eq_ok.mp h
      exact ⟨by simp_all [encode, packet0, num_of_ctxRegOf hr], _, rfl⟩
    · cases h
  · rintro ⟨rfl, r, rfl⟩
    have himm : (encode (.sysCtxrd r)).imm = BitVec.ofNat 8 r.num := imm_of_header rfl
    rw [himm]
    simp [encode, packet0, ctxRegOf_num, Nat.mod_eq_of_lt (ctxReg_num_lt r), operandsOk]

theorem mathMode_num_lt (m : MathMode) : m.num < 16 := by cases m <;> decide

theorem addrMode_num_lt (a : AddrMode) : a.num < 8 := by cases a <;> decide

theorem decodeSelect_eq_ok (hw : p.w0 = header 0x05 imm) :
    decodeSelect p = .ok i ↔ encode i = p ∧ ∃ m a, i = .rdSelect m a := by
  unfold decodeSelect
  constructor
  · intro h
    rw [imm_of_header hw] at h
    obtain ⟨w0, w1, w2, w3, w4, w5, w6, w7⟩ := p
    split at h
    · split at h
      · next m a hm ha =>
        obtain ⟨hok, rfl⟩ := operandsOk_eq_ok.mp h
        have himm : a.num * 16 + m.num = imm.toNat := by
          rw [num_of_mathModeOf hm, num_of_addrModeOf ha]
          omega
        exact ⟨by simp_all [encode, packet0], _, _, rfl⟩
      · cases h
    · cases h
  · rintro ⟨rfl, m, a, rfl⟩
    have himm : (encode (.rdSelect m a)).imm = BitVec.ofNat 8 (a.num * 16 + m.num) := imm_of_header rfl
    have hm := mathMode_num_lt m
    have ha := addrMode_num_lt a
    have hnum : (BitVec.ofNat 8 (a.num * 16 + m.num)).toNat = a.num * 16 + m.num :=
      Nat.mod_eq_of_lt (by omega)
    rw [himm, hnum, if_pos (by omega), show (a.num * 16 + m.num) % 16 = m.num by omega,
      show (a.num * 16 + m.num) / 16 = a.num by omega, mathModeOf_num, addrModeOf_num]
    rfl

theorem encode_blendInstr (m : MathMode) (main sub : Half) (sd : Byte) :
    encode (blendInstr m main sub sd) = packetB (BitVec.ofNat 8 m.num) main sub sd := by
  cases m <;> rfl

theorem decodeB_eq_ok (hw : p.w0 = header 0x16 imm) :
    decodeB p = .ok i ↔ encode i = p ∧ ∃ m main sub sd, i = blendInstr m main sub sd := by
  unfold decodeB
  constructor
  · intro h
    rw [imm_of_header hw] at h
    obtain ⟨w0, w1, w2, w3, w4, w5, w6, w7⟩ := p
    split at h
    · next m hm =>
      obtain ⟨hok, rfl⟩ := operandsOk_eq_ok.mp h
      refine ⟨?_, _, _, _, _, rfl⟩
      simp_all [encode_blendInstr, packetB, num_of_mathModeOf hm, setWidth_of_fits]
    · cases h
  · rintro ⟨rfl, m, main, sub, sd, rfl⟩
    have hm := mathMode_num_lt m
    have himm : (packetB (BitVec.ofNat 8 m.num) main sub sd).imm = BitVec.ofNat 8 m.num :=
      imm_of_header rfl
    rw [encode_blendInstr, himm, BitVec.toNat_ofNat, Nat.mod_eq_of_lt (by omega), mathModeOf_num]
    simp [packetB, fits_setWidth, operandsOk]

end Formats

/-! ## The two round trips -/

/-- What an opcode decodes is well formed and encodes to the packet, format by format in the order of the
opcode map; the last case is a reserved opcode. -/
theorem encode_of_decodeOpc {n : Nat} {p : Packet} {i : Instr} {imm : BitVec 8}
    (hw : p.w0 = header (BitVec.ofNat 8 n) imm) (h : decodeOpc n p = .ok i) :
    i.wf = true ∧ encode i = p := by
  unfold decodeOpc at h
  split at h
  case h_1 | h_2 | h_5 | h_29 | h_30 => -- format Z
    obtain ⟨rfl, rfl⟩ := (decodeZ_eq_ok hw).mp h
    exact ⟨rfl, rfl⟩
  case h_3 =>
    obtain ⟨hp, _, _, rfl⟩ := (decodeCtxwr_eq_ok hw).mp h
    exact ⟨rfl, hp⟩
  case h_4 =>
    obtain ⟨hp, _, rfl⟩ := (decodeCtxrd_eq_ok hw).mp h
    exact ⟨rfl, hp⟩
  case h_6 =>
    obtain ⟨hp, _, _, rfl⟩ := (decodeSelect_eq_ok hw).mp h
    exact ⟨rfl, hp⟩
  case h_7 | h_8 | h_9 | h_10 | h_11 | h_12 => -- format C
    obtain ⟨_, _, rfl, rfl⟩ := (decodeC_eq_ok hw).mp h
    exact ⟨rfl, rfl⟩
  case h_13 =>
    obtain ⟨hp, m, _, _, _, rfl⟩ := (decodeB_eq_ok hw).mp h
    exact ⟨by cases m <;> rfl, hp⟩
  case h_14 | h_15 | h_16 | h_17 | h_18 => -- format P
    obtain ⟨_, _, _, _, _, _, _, rfl, rfl⟩ := (decodeP_eq_ok hw).mp h
    exact ⟨rfl, rfl⟩
  case h_19 | h_20 => -- format T1
    obtain ⟨_, rfl, rfl⟩ := (decodeT1_eq_ok hw).mp h
    exact ⟨rfl, rfl⟩
  case h_21 =>
    obtain ⟨hwf, hp, _⟩ := (decodeTile_eq_ok hw).mp h
    exact ⟨hwf, hp⟩
  case h_22 =>
    obtain ⟨hwf, hp, _⟩ := (decodeClip_eq_ok hw).mp h
    exact ⟨hwf, hp⟩
  case h_23 =>
    obtain ⟨hwf, hp, _⟩ := (decodeMospix_eq_ok hw).mp h
    exact ⟨hwf, hp⟩
  case h_24 =>
    obtain ⟨hp, _, _, _, rfl⟩ := (decodeBackdrop_eq_ok hw).mp h
    exact ⟨rfl, hp⟩
  case h_25 | h_26 | h_27 | h_28 => -- the four Mode-7 commands
    obtain ⟨_, _, _, rfl, rfl⟩ := (decodeM7_eq_ok hw).mp h
    exact ⟨rfl, rfl⟩
  case h_31 | h_32 | h_33 => -- format Q
    obtain ⟨_, rfl, rfl⟩ := (decodeQ_eq_ok hw).mp h
    exact ⟨rfl, rfl⟩
  case h_34 => cases h

theorem decode_encode_blend (m : MathMode) (main sub : Half) (sd : Byte) :
    decode (encode (blendInstr m main sub sd)) = .ok (blendInstr m main sub sd) := by
  have hw : (encode (blendInstr m main sub sd)).w0 = header 0x16 (BitVec.ofNat 8 m.num) := by
    rw [encode_blendInstr]; rfl
  exact (decode_of_header hw).trans ((decodeB_eq_ok hw).mpr ⟨rfl, m, main, sub, sd, rfl⟩)

/-- Settles O2: the header names the format, and each format decodes its own packets. -/
theorem decodeOfEncode : Obligations.DecodeOfEncode := by
  intro i hwf
  cases i
  case blendNone main sub sd => exact decode_encode_blend .none main sub sd
  case blendAdd main sub sd => exact decode_encode_blend .add main sub sd
  case blendAddf main sub sd => exact decode_encode_blend .addf main sub sd
  case blendAdds main sub sd => exact decode_encode_blend .adds main sub sd
  case blendSub main sub sd => exact decode_encode_blend .sub main sub sd
  case blendSubf main sub sd => exact decode_encode_blend .subf main sub sd
  case blendSubs main sub sd => exact decode_encode_blend .subs main sub sd
  case blendAddb main sub sd => exact decode_encode_blend .addb main sub sd
  case blendAddbs main sub sd => exact decode_encode_blend .addbs main sub sd
  all_goals refine (decode_of_header rfl).trans ?_
  case sysNop | sysRst | sysFramestart | csReset | csAck => exact (decodeZ_eq_ok rfl).mpr ⟨rfl, rfl⟩
  case sysCtxwr => exact (decodeCtxwr_eq_ok rfl).mpr ⟨rfl, _, _, rfl⟩
  case sysCtxrd => exact (decodeCtxrd_eq_ok rfl).mpr ⟨rfl, _, rfl⟩
  case rdSelect => exact (decodeSelect_eq_ok rfl).mpr ⟨rfl, _, _, rfl⟩
  case cmAdd | cmAddh | cmSub | cmSubh | cmAddb | cmAddbh =>
    exact (decodeC_eq_ok rfl).mpr ⟨_, _, rfl, rfl⟩
  case plotN1x1 | plotN2x1 | plotInt | plotHires | plotHiresint =>
    exact (decodeP_eq_ok rfl).mpr ⟨_, _, _, _, _, _, _, rfl, rfl⟩
  case tcResolve | tcSelpal => exact (decodeT1_eq_ok rfl).mpr ⟨_, rfl, rfl⟩
  case trTile => exact (decodeTile_eq_ok rfl).mpr ⟨hwf, rfl, _, _, _, _, rfl⟩
  case trClip => exact (decodeClip_eq_ok rfl).mpr ⟨hwf, rfl, _, _, _, _, _, _, rfl⟩
  case trMospix => exact (decodeMospix_eq_ok rfl).mpr ⟨hwf, rfl, _, _, _, _, _, _, rfl⟩
  case trBackdrop => exact (decodeBackdrop_eq_ok rfl).mpr ⟨rfl, _, _, _, rfl⟩
  case trM7bg1 | trM7bg2 | trM7mbg1 | trM7mbg2 => exact (decodeM7_eq_ok rfl).mpr ⟨_, _, _, rfl, rfl⟩
  case csRdtile | csRdpal | csRdref => exact (decodeQ_eq_ok rfl).mpr ⟨_, rfl, rfl⟩

/-- Settles O3: a packet that decodes has a well-formed header, and its format accepts only its own packets. -/
theorem encodeOfDecode : Obligations.EncodeOfDecode := by
  intro p i h
  obtain hrefused | ⟨hw, hdecode⟩ := decode_cases p
  · cases hrefused.symm.trans h
  · exact encode_of_decodeOpc hw (hdecode.symm.trans h)

/-- Settles O1: the ten packets are those the encoder writes. -/
theorem encodingSamples : Obligations.EncodingSamples :=
  ⟨decodeOfEncode .sysNop rfl, decodeOfEncode (.sysCtxwr .fbd 0x0001F800) rfl,
    decodeOfEncode (.rdSelect .subs .hires) rfl, decodeOfEncode (.cmAdd 0xA29F 0x7A81) rfl,
    decodeOfEncode (.blendAdds 0xA29F 0x7A81 0x20) rfl,
    decodeOfEncode (.plotN1x1 4 5 0x60 0x60 5 4 9) rfl, decodeOfEncode (.tcResolve 0x4105) rfl,
    decodeOfEncode (.trClip 0x4001 0x808 2 4 0 8) rfl, decodeOfEncode (.trM7bg2 8 16 2) rfl,
    decodeOfEncode (.csRdref 3) rfl⟩

end Sys2Proof
end

section
/-! SUPPORT and O4. The opcode map (rule R113): a header selects a row field by field, and the decoder refuses
the opcode of exactly the headers that select none. -/

namespace Sys2Proof

open EncodingLaws Machine

/-! ## The table of rows -/

/-- One command of each row of the opcode map. -/
def rowCommands : List Instr :=
  [.sysNop, .sysRst, .sysCtxwr .status 0, .sysCtxrd .status, .sysFramestart, .rdSelect .none .n1x1,
    .cmAdd 0 0, .cmAddh 0 0, .cmSub 0 0, .cmSubh 0 0, .cmAddb 0 0, .cmAddbh 0 0, .blendNone 0 0 0,
    .blendAdd 0 0 0, .blendAddf 0 0 0, .blendAdds 0 0 0, .blendSub 0 0 0, .blendSubf 0 0 0,
    .blendSubs 0 0 0, .blendAddb 0 0 0, .blendAddbs 0 0 0, .plotN1x1 0 0 0 0 0 0 0,
    .plotN2x1 0 0 0 0 0 0 0, .plotInt 0 0 0 0 0 0 0, .plotHires 0 0 0 0 0 0 0,
    .plotHiresint 0 0 0 0 0 0 0, .tcResolve 0, .tcSelpal 0, .trTile 0 0 0 0, .trClip 0 0 0 0 0 0,
    .trMospix 0 0 0 0 0 0, .trBackdrop 0 0 0, .trM7bg1 0 0 0, .trM7bg2 0 0 0, .trM7mbg1 0 0 0,
    .trM7mbg2 0 0 0, .csReset, .csAck, .csRdtile 0, .csRdpal 0, .csRdref 0]

/-- The rows of the opcode map. -/
def headerRows : List (Word × Word) := rowCommands.map headerRow

theorem headerRow_mem (i : Instr) : headerRow i ∈ headerRows := by
  cases i <;> simp [headerRows, rowCommands, headerRow]

/-- Rows that agree where their masks overlap are the same. -/
theorem headerRows_apart {r r' : Word × Word} (hr : r ∈ headerRows) (hr' : r' ∈ headerRows)
    (h : r.1 &&& r'.2 = r'.1 &&& r.2) : r = r' := by
  have hall : (headerRows.all fun r => headerRows.all fun r' =>
      decide (r.1 &&& r'.2 = r'.1 &&& r.2 → r = r')) = true := by decide +kernel
  simp only [List.all_eq_true, decide_eq_true_eq] at hall
  exact hall r hr r' hr' h

theorem headerRow_unique {w : Word} {i j : Instr} (hi : headerSelects w i) (hj : headerSelects w j) :
    headerRow i = headerRow j := by
  refine headerRows_apart (headerRow_mem i) (headerRow_mem j) ?_
  unfold headerSelects at hi hj
  rw [← hi, ← hj, BitVec.and_assoc, BitVec.and_assoc, BitVec.and_comm (headerRow i).2]

/-- The encoder writes a header of the command's own row. -/
theorem headerSelects_encode (i : Instr) : headerSelects (encode i).w0 i := by
  cases i
  case sysCtxwr => exact (Laws.HeaderWord.sysCtxwr _ _).1
  case sysCtxrd => exact (Laws.HeaderWord.sysCtxrd _).1
  case rdSelect => exact (Laws.HeaderWord.rdSelect _ _).1
  -- The other masks are full, and the header is the match.
  all_goals exact BitVec.and_allOnes

/-! ## Which opcodes a format refuses (rules R111, R112, R116) -/

section Formats

variable {p : Packet}

theorem operandsOk_legal (ok : Bool) (i : Instr) : operandsOk ok i ≠ .error .illegalOpcode := by
  cases ok <;> simp [operandsOk]

theorem noImmediate_legal_iff {ok : Bool} {i : Instr} :
    (if p.imm = 0 then operandsOk ok i else .error .illegalOpcode) ≠ .error .illegalOpcode
      ↔ p.imm = 0 := by
  split
  · next himm => exact iff_of_true (operandsOk_legal ok i) himm
  · next himm => exact iff_of_false (not_not_intro rfl) himm

theorem decodeZ_legal_iff {i : Instr} : decodeZ p i ≠ .error .illegalOpcode ↔ p.imm = 0 :=
  noImmediate_legal_iff

theorem decodeC_legal_iff {mk : Half → Half → Instr} :
    decodeC p mk ≠ .error .illegalOpcode ↔ p.imm = 0 :=
  noImmediate_legal_iff

theorem decodeP_legal_iff {mk : Word → Word → Word → Word → Byte → Byte → Byte → Instr} :
    decodeP p mk ≠ .error .illegalOpcode ↔ p.imm = 0 :=
  noImmediate_legal_iff

theorem decodeT1_legal_iff {mk : Half → Instr} :
    decodeT1 p mk ≠ .error .illegalOpcode ↔ p.imm = 0 :=
  noImmediate_legal_iff

theorem decodeTile_legal_iff : decodeTile p ≠ .error .illegalOpcode ↔ p.imm = 0 :=
  noImmediate_legal_iff

theorem decodeClip_legal_iff : decodeClip p ≠ .error .illegalOpcode ↔ p.imm = 0 :=
  noImmediate_legal_iff

theorem decodeMospix_legal_iff : decodeMospix p ≠ .error .illegalOpcode ↔ p.imm = 0 :=
  noImmediate_legal_iff

theorem decodeBackdrop_legal_iff : decodeBackdrop p ≠ .error .illegalOpcode ↔ p.imm = 0 :=
  noImmediate_legal_iff

theorem decodeM7_legal_iff {mk : Half → Half → Byte → Instr} :
    decodeM7 p mk ≠ .error .illegalOpcode ↔ p.imm = 0 :=
  noImmediate_legal_iff

theorem decodeQ_legal_iff {mk : Word → Instr} :
    decodeQ p mk ≠ .error .illegalOpcode ↔ p.imm = 0 :=
  noImmediate_legal_iff

theorem decodeCtxwr_legal (p : Packet) : decodeCtxwr p ≠ .error .illegalOpcode := by
  unfold decodeCtxwr
  split
  · exact operandsOk_legal _ _
  · nofun

theorem decodeCtxrd_legal (p : Packet) : decodeCtxrd p ≠ .error .illegalOpcode := by
  unfold decodeCtxrd
  split
  · exact operandsOk_legal _ _
  · nofun

theorem decodeSelect_legal_iff : decodeSelect p ≠ .error .illegalOpcode ↔ p.imm.toNat < 128 := by
  unfold decodeSelect
  split
  · next himm =>
    refine iff_of_true ?_ himm
    split
    · exact operandsOk_legal _ _
    · nofun
  · next himm => exact iff_of_false (not_not_intro rfl) himm

theorem decodeB_legal_iff :
    decodeB p ≠ .error .illegalOpcode ↔ (mathModeOf p.imm.toNat).isSome = true := by
  unfold decodeB
  split
  · next m hm => exact iff_of_true (operandsOk_legal _ _) (by rw [hm]; rfl)
  · next hm => exact iff_of_false (not_not_intro rfl) (by simp [hm])

end Formats

/-! ## Rows, field by field (rules R110, R113) -/

section Masked

variable {p : Packet} {mask row : Word} (h : p.w0 &&& mask = row)
include h

/-- A row whose mask keeps the opcode and the reserved zeros gives the opcode. -/
theorem decode_of_masked (hopc : mask.extractLsb' 24 8 = BitVec.allOnes 8)
    (hrsvd : mask.extractLsb' 8 16 = BitVec.allOnes 16) (hrow : row.extractLsb' 8 16 = 0) :
    decode p = decodeOpc (row.extractLsb' 24 8).toNat p := by
  have hfield : ∀ n len, row.extractLsb' n len = p.w0.extractLsb' n len &&& mask.extractLsb' n len :=
    fun n len => h ▸ BitVec.extractLsb'_and
  rw [hfield, hopc, BitVec.and_allOnes]
  rw [hfield, hrsvd, BitVec.and_allOnes] at hrow
  exact if_pos hrow

theorem imm_of_masked : p.imm &&& mask.extractLsb' 0 8 = row.extractLsb' 0 8 := by
  rw [← h, BitVec.extractLsb'_and]
  rfl

end Masked

/-- The immediate of a row whose mask is full. -/
theorem imm_of_whole {p : Packet} {row : Word} (h : p.w0 &&& 0xFFFFFFFF = row) :
    p.imm = row.extractLsb' 0 8 :=
  BitVec.and_allOnes.symm.trans (imm_of_masked h)

theorem imm_and_eq_zero_iff {imm : BitVec 8} : imm &&& 0x80 = 0 ↔ imm.toNat < 128 := by
  revert imm; decide

/-- A header that selects a row is no opcode fault. -/
theorem decode_legal_of_selects {p : Packet} {i : Instr} (h : headerSelects p.w0 i) :
    decode p ≠ .error .illegalOpcode := by
  cases i <;> simp only [headerSelects, headerRow] at h <;> rw [decode_of_masked h rfl rfl rfl]
  case sysNop | sysRst | sysFramestart | csReset | csAck =>
    exact decodeZ_legal_iff.mpr (imm_of_whole h)
  case sysCtxwr => exact decodeCtxwr_legal p
  case sysCtxrd => exact decodeCtxrd_legal p
  case rdSelect => exact decodeSelect_legal_iff.mpr (imm_and_eq_zero_iff.mp (imm_of_masked h))
  case cmAdd | cmAddh | cmSub | cmSubh | cmAddb | cmAddbh =>
    exact decodeC_legal_iff.mpr (imm_of_whole h)
  case blendNone | blendAdd | blendAddf | blendAdds | blendSub | blendSubf | blendSubs | blendAddb
    | blendAddbs =>
    refine decodeB_legal_iff.mpr ?_
    rw [imm_of_whole h]
    decide
  case plotN1x1 | plotN2x1 | plotInt | plotHires | plotHiresint =>
    exact decodeP_legal_iff.mpr (imm_of_whole h)
  case tcResolve | tcSelpal => exact decodeT1_legal_iff.mpr (imm_of_whole h)
  case trTile => exact decodeTile_legal_iff.mpr (imm_of_whole h)
  case trClip => exact decodeClip_legal_iff.mpr (imm_of_whole h)
  case trMospix => exact decodeMospix_legal_iff.mpr (imm_of_whole h)
  case trBackdrop => exact decodeBackdrop_legal_iff.mpr (imm_of_whole h)
  case trM7bg1 | trM7bg2 | trM7mbg1 | trM7mbg2 => exact decodeM7_legal_iff.mpr (imm_of_whole h)
  case csRdtile | csRdpal | csRdref => exact decodeQ_legal_iff.mpr (imm_of_whole h)

theorem header_and (opc imm keep : BitVec 8) :
    header opc imm &&& (0xFF#8 ++ 0xFFFF#16 ++ keep) = header opc (imm &&& keep) := by
  unfold header
  rw [BitVec.and_append, BitVec.and_append]
  exact congrArg (· ++ _ ++ _) BitVec.and_allOnes

/-- A command whose packet has the header selects a row. -/
theorem exists_selected {p q : Packet} {n : Nat} {imm : BitVec 8} {i : Instr}
    (hw : p.w0 = header (BitVec.ofNat 8 n) imm) (hq : q.w0 = header (BitVec.ofNat 8 n) imm)
    (h : decodeOpc n q = .ok i) : ∃ i, headerSelects p.w0 i := by
  obtain ⟨_, rfl⟩ := encode_of_decodeOpc hq h
  exact ⟨i, (hw.trans hq.symm) ▸ headerSelects_encode i⟩

/-- A format without an immediate that does not refuse the opcode decodes the packet of zero operands. -/
theorem exists_selected_of_imm {p : Packet} {n : Nat} {imm : BitVec 8} {i : Instr}
    (hw : p.w0 = header (BitVec.ofNat 8 n) imm) (himm : p.imm = 0)
    (h : decodeOpc n (packet0 (header (BitVec.ofNat 8 n) 0)) = .ok i) : ∃ i, headerSelects p.w0 i := by
  obtain rfl : imm = 0 := (imm_of_header hw).symm.trans himm
  exact exists_selected hw rfl h

theorem exists_selected_of_legal {p : Packet} {n : Nat} {imm : BitVec 8}
    (hw : p.w0 = header (BitVec.ofNat 8 n) imm) (h : decodeOpc n p ≠ .error .illegalOpcode) :
    ∃ i, headerSelects p.w0 i := by
  unfold decodeOpc at h
  split at h
  case h_1 | h_2 | h_5 | h_29 | h_30 => -- format Z
    exact exists_selected_of_imm hw (decodeZ_legal_iff.mp h) ((decodeZ_eq_ok rfl).mpr ⟨rfl, rfl⟩)
  case h_3 =>
    exact ⟨.sysCtxwr .status 0,
      hw ▸ (header_and 0x02 imm 0).trans (congrArg (header 0x02) BitVec.and_zero)⟩
  case h_4 =>
    exact ⟨.sysCtxrd .status,
      hw ▸ (header_and 0x03 imm 0).trans (congrArg (header 0x03) BitVec.and_zero)⟩
  case h_6 =>
    have hlow := imm_and_eq_zero_iff.mpr (imm_of_header hw ▸ decodeSelect_legal_iff.mp h)
    exact ⟨.rdSelect .none .n1x1, hw ▸ (header_and 0x05 imm 0x80).trans (congrArg (header 0x05) hlow)⟩
  case h_7 | h_8 | h_9 | h_10 | h_11 | h_12 => -- format C
    exact exists_selected_of_imm hw (decodeC_legal_iff.mp h) ((decodeC_eq_ok rfl).mpr ⟨0, 0, rfl, rfl⟩)
  case h_13 =>
    obtain ⟨m, hm⟩ := Option.isSome_iff_exists.mp (decodeB_legal_iff.mp h)
    rw [imm_of_header hw] at hm
    have himm : BitVec.ofNat 8 m.num = imm := by
      rw [num_of_mathModeOf hm, BitVec.ofNat_toNat, BitVec.setWidth_eq]
    have hq : (packetB (BitVec.ofNat 8 m.num) 0 0 0).w0 = header 0x16 imm := congrArg (header 0x16) himm
    exact exists_selected hw hq
      ((decodeB_eq_ok hq).mpr ⟨encode_blendInstr m 0 0 0, m, 0, 0, 0, rfl⟩)
  case h_14 | h_15 | h_16 | h_17 | h_18 => -- format P
    exact exists_selected_of_imm hw (decodeP_legal_iff.mp h)
      ((decodeP_eq_ok rfl).mpr ⟨0, 0, 0, 0, 0, 0, 0, rfl, rfl⟩)
  case h_19 | h_20 => -- format T1
    exact exists_selected_of_imm hw (decodeT1_legal_iff.mp h) ((decodeT1_eq_ok rfl).mpr ⟨0, rfl, rfl⟩)
  case h_21 =>
    exact exists_selected_of_imm hw (decodeTile_legal_iff.mp h)
      ((decodeTile_eq_ok rfl).mpr ⟨rfl, rfl, 0, 0, 0, 0, rfl⟩)
  case h_22 =>
    exact exists_selected_of_imm hw (decodeClip_legal_iff.mp h)
      ((decodeClip_eq_ok rfl).mpr ⟨rfl, rfl, 0, 0, 0, 0, 0, 0, rfl⟩)
  case h_23 =>
    exact exists_selected_of_imm hw (decodeMospix_legal_iff.mp h)
      ((decodeMospix_eq_ok rfl).mpr ⟨rfl, rfl, 0, 0, 0, 0, 0, 0, rfl⟩)
  case h_24 =>
    exact exists_selected_of_imm hw (decodeBackdrop_legal_iff.mp h)
      ((decodeBackdrop_eq_ok rfl).mpr ⟨rfl, 0, 0, 0, rfl⟩)
  case h_25 | h_26 | h_27 | h_28 => -- the four Mode-7 commands
    exact exists_selected_of_imm hw (decodeM7_legal_iff.mp h)
      ((decodeM7_eq_ok rfl).mpr ⟨0, 0, 0, rfl, rfl⟩)
  case h_31 | h_32 | h_33 => -- format Q
    exact exists_selected_of_imm hw (decodeQ_legal_iff.mp h) ((decodeQ_eq_ok rfl).mpr ⟨0, rfl, rfl⟩)
  case h_34 => exact absurd rfl h

/-- Settles O4: the decoder names the opcode by the fields a row keeps, and no two rows keep the same. -/
theorem opcodeMap : Obligations.OpcodeMap := by
  refine ⟨fun p => ⟨fun h i hi => decode_legal_of_selects hi h, fun h => ?_⟩, fun p i h => ?_,
    fun w i j => headerRow_unique⟩
  · obtain hrefused | ⟨hw, hdecode⟩ := decode_cases p
    · exact hrefused
    · by_contra hlegal
      obtain ⟨i, hi⟩ := exists_selected_of_legal hw (hdecode ▸ hlegal)
      exact h i hi
  · obtain ⟨_, rfl⟩ := encodeOfDecode p i h
    exact headerSelects_encode i

end Sys2Proof
end

section
/-! SUPPORT, O5, O6, O32 and O48. A packet on the command port (rule R111), the palette TC.SELPAL selects (rules
R194, R195) and the catalog reads (rules R286 to R289). -/

namespace Sys2Proof.Machine

open EncodingLaws

/-! ## A packet on the command port -/

/-- A block that is not halted takes the packet at the head of the moves. -/
theorem step_of_packet {s : State} {p : Packet} {rest : List HostMove}
    (hmoves : s.moves = .packet p :: rest) (hhalt : s.ctx.status.halt = false) :
    step s = runPacket p { s with moves := rest } := by
  have hnext : s.nextMove = some (.packet p, rest) := by
    simp [State.nextMove, hmoves, firstEnabled, hhalt]
  unfold step stepOnce
  rw [hnext]
  rfl

theorem runPacket_of_ok {p : Packet} {i : Instr} (h : decode p = .ok i) (s : State) :
    runPacket p s = exec i s := by
  unfold runPacket
  rw [h]

theorem runPacket_of_error {p : Packet} {e : DecodeError} (h : decode p = .error e) (s : State) :
    runPacket p s = .next (s.raise (decodeFault e)) := by
  unfold runPacket
  rw [h]

/-- Settles O5: the block takes the packet, and runs what it decodes to. -/
theorem stepRunsDecoded : Obligations.StepRunsDecoded :=
  fun _ _ _ _ hmoves hhalt hdecode => (step_of_packet hmoves hhalt).trans (runPacket_of_ok hdecode _)

/-- Settles O6: the block takes the packet, and raises the fault of its refusal. -/
theorem refusedPacketFaults : Obligations.RefusedPacketFaults :=
  fun _ _ _ hmoves hhalt =>
    ⟨fun hdecode => (step_of_packet hmoves hhalt).trans (runPacket_of_error hdecode _),
      fun hdecode => (step_of_packet hmoves hhalt).trans (runPacket_of_error hdecode _)⟩

/-! ## TC.SELPAL -/

/-- A format T1 packet under its own header is legal when its one word is a tile reference (rule R114). -/
theorem decodesTileRef_of_opcode {opc : BitVec 8} {mk : Half → Instr}
    (hopc : ∀ p, decodeOpc opc.toNat p = decodeT1 p mk) : decodesTileRef (header opc 0) mk := by
  intro w1
  have himm : Packet.imm ⟨header opc 0, w1, 0, 0, 0, 0, 0, 0⟩ = 0 := imm_of_header rfl
  have hfits : fits 16 w1 = decide (w1.toNat ≤ 0xFFFF) := decide_eq_decide.mpr Nat.lt_succ_iff
  rw [decode_of_header rfl, hopc, decodeT1, if_pos himm]
  simp [operandsOk, hfits]

/-- Settles O32: SCSEL takes the map or the slice of the reference, and is the response. -/
theorem selectPalette : Obligations.SelectPalette := by
  refine ⟨decodesTileRef_of_opcode (opc := 0x31) fun _ => rfl, fun s r => ?_⟩
  rw [exec_tcSelpal]
  unfold State.selectPalette State.selected
  rw [paletteBase_eq]
  rfl

/-! ## The catalog reads -/

/-- In a store of ids 0, 1, 2, ... the record of an id stands at that position (rule R282a). -/
theorem lookupId_eq_getElem? {α : Type} {idOf : α → Word} {l : List α} {count : Word}
    (hcount : count = BitVec.ofNat 32 l.length)
    (hids : ∀ i r, l[i]? = some r → idOf r = BitVec.ofNat 32 i) (hlen : l.length < 2 ^ 32) (id : Word) :
    lookupId count id idOf l = l[id.toNat]? := by
  have hn : count.toNat = l.length := by rw [hcount, BitVec.toNat_ofNat, Nat.mod_eq_of_lt hlen]
  have hat : ∀ j (hj : j < l.length), (idOf l[j] == id) = decide (j = id.toNat) := by
    intro j hj
    rw [hids j _ (List.getElem?_eq_getElem hj), Bool.beq_eq_decide_eq, decide_eq_decide,
      ← BitVec.toNat_inj, BitVec.toNat_ofNat, Nat.mod_eq_of_lt (hj.trans hlen)]
  unfold lookupId
  rw [hn]
  split
  · next hlt =>
    rw [List.getElem?_eq_getElem hlt, List.find?_eq_some_iff_getElem]
    refine ⟨by simp [hat], id.toNat, hlt, rfl, fun j hj => ?_⟩
    simp [hat, Nat.ne_of_lt hj]
  · next hge => exact (List.getElem?_eq_none (Nat.le_of_not_lt hge)).symm

theorem exec_csRdtile (id : Word) (s : State) :
    exec (.csRdtile id) s
      = .next (s.done (recordOr (lookupId s.ctx.ntiles id TileRecord.id s.tiles) .tile)) := rfl

theorem exec_csRdpal (id : Word) (s : State) :
    exec (.csRdpal id) s
      = .next (s.done (recordOr (lookupId s.ctx.npals id PalRecord.id s.pals)
          fun r => .pal (r.view s.cfg.pixfmt))) := rfl

theorem exec_csRdref (id : Word) (s : State) :
    exec (.csRdref id) s
      = .next (s.done (recordOr (lookupId s.ctx.nrefs id RefRecord.id s.refs) fun r => .ref r.view)) :=
  rfl

/-- Settles O48: each read looks its id up in its store, and shows the record it finds. -/
theorem catalogReads : Obligations.CatalogReads := by
  intro s hids htiles hpals hrefs id
  obtain ⟨⟨hntiles, htileIds⟩, ⟨hnpals, hpalIds⟩, hnrefs, hrefIds⟩ := hids
  refine ⟨?_, ?_, ?_⟩
  · rw [exec_csRdtile, lookupId_eq_getElem? hntiles htileIds htiles]
    cases s.tiles[id.toNat]? <;> rfl
  · rw [exec_csRdpal, lookupId_eq_getElem? hnpals hpalIds hpals]
    cases s.pals[id.toNat]? <;> rfl
  · rw [exec_csRdref, lookupId_eq_getElem? hnrefs hrefIds hrefs]
    cases s.refs[id.toNat]? <;> rfl

end Sys2Proof.Machine
end

section
/-! SUPPORT and O57. The response of a command (rules R118, R302): one lemma on `STATUS`, one on the value. -/

namespace Sys2Proof.Machine

/-! ## `STATUS` -/

/-- What a command does before it responds leaves the halt as it was; only SYS.RST resets it. -/
theorem Performs.keepsHalt {i : Instr} {s u : State} (hdo : Performs i s u) (hrst : i ≠ .sysRst) :
    u.ctx.status.halt = s.ctx.status.halt ∧ u.ctx.status.faultCode = s.ctx.status.faultCode := by
  cases hdo with
  | nothing => exact ⟨rfl, rfl⟩
  | reset => exact absurd rfl hrst
  | register => simp [State.writeReg, writeReg_status]
  | frame => simp
  | select => simp
  | resolve tile => rw [prepared_resolve s tile]; exact ⟨rfl, rfl⟩
  | palette => exact ⟨rfl, rfl⟩
  | draw _ hready hdrawn => rw [hdrawn.ctx, hready.prepared]; exact ⟨rfl, rfl⟩
  | session => exact ⟨rfl, rfl⟩
  | acknowledge => unfold State.acknowledge; split <;> exact ⟨rfl, rfl⟩

/-! ## The value -/

/-- A response `OK` of `t` has the value 0. -/
def State.answersZero (t : State) : Prop := ∀ v, t.response = some (.ok v) → v = .word 0

theorem answersZero_done (s : State) : (s.done (.word 0)).answersZero := fun _ h => by cases h; rfl

theorem answersZero_raise (s : State) (c : FaultCode) : (s.raise c).answersZero := fun _ h => by cases h

theorem answersZero_ite {ok : Prop} [Decidable ok] {s t : State} {c : FaultCode} (h : t.answersZero) :
    (if ok then t else s.raise c).answersZero := by
  split
  · exact h
  · exact answersZero_raise s c

theorem plotCommand_answersZero (v : AddrMode) (p : PlotCall) (s : State) :
    (s.plotCommand v p).answersZero := by
  obtain ⟨u, _, h | h⟩ := plotCommand_cases v p s
  · exact h ▸ answersZero_done u
  · exact h ▸ answersZero_raise u _

theorem runPlots_answersZero (ps : List PlotCall) (s : State) : (s.runPlots ps).answersZero := by
  obtain ⟨u, _, ⟨_, h⟩ | ⟨_, h⟩⟩ := runPlots_cases ps s
  · exact h ▸ answersZero_done u
  · exact h ▸ answersZero_raise u _

theorem tileCommand_answersZero (tile : Half) (shape : Shape) (offset : Word)
    (plots : State → List PlotCall) (s : State) :
    (State.tileCommand tile shape offset plots s).answersZero := by
  obtain ⟨_, h⟩ | ⟨_, _, _, _, h⟩ | ⟨u, _, _, h⟩ := tileCommand_cases tile shape offset plots s
  · exact h ▸ answersZero_done _
  · exact h ▸ answersZero_raise _ _
  · exact h ▸ runPlots_answersZero _ u

theorem m7Row_answersZero (bg : Bg) (left right : Half) (d : Byte) (s : State) :
    (State.m7Row bg left right d s).answersZero := by
  obtain ⟨_, h⟩ | ⟨_, h⟩ := CaptureLaws.m7Row_cases bg left right d s
  · exact h ▸ answersZero_raise s _
  · exact h ▸ runPlots_answersZero _ _

theorem m7MosaicRow_answersZero (bg : Bg) (left right : Half) (d : Byte) (s : State) :
    (State.m7MosaicRow bg left right d s).answersZero := by
  obtain ⟨_, h⟩ | ⟨_, _, h⟩ | ⟨_, _, _, h⟩ := CaptureLaws.m7MosaicRow_cases bg left right d s
  · exact h ▸ answersZero_raise s _
  · exact h ▸ answersZero_raise s _
  · exact h ▸ runPlots_answersZero _ _

/-- A catalog read answers a record of its store, or `ABSENT`. -/
theorem recordOr_lookupId {α : Type} (count id : Word) (idOf : α → Word) (l : List α)
    (mk : α → RespValue) :
    recordOr (lookupId count id idOf l) mk = .absent
      ∨ ∃ r ∈ l, recordOr (lookupId count id idOf l) mk = mk r := by
  unfold lookupId
  split
  · cases hfound : l.find? fun r => idOf r == id with
    | none => exact .inl rfl
    | some r => exact .inr ⟨r, List.mem_of_find?_eq_some hfound, rfl⟩
  · exact .inl rfl

/-- A response `OK` has the value its command's kind names (rule R118). -/
theorem exec_answers {i : Instr} {s t : State} {v : RespValue} (h : exec i s = .next t)
    (hv : t.response = some (.ok v)) : answers i s t v := by
  cases i
  case cmAdd | cmAddh | cmSub | cmSubh | cmAddb | cmAddbh | blendNone | blendAdd | blendAddf | blendAdds
    | blendSub | blendSubf | blendSubs | blendAddb | blendAddbs =>
    cases h; cases hv; exact ⟨_, rfl⟩
  case sysCtxwr => cases h; exact answersZero_ite (answersZero_done _) v hv
  case plotN1x1 | plotN2x1 | plotInt | plotHires | plotHiresint =>
    cases h; exact plotCommand_answersZero _ _ s v hv
  case trTile | trClip | trMospix =>
    cases h; exact answersZero_ite (tileCommand_answersZero _ _ _ _ s) v hv
  case trBackdrop => cases h; exact runPlots_answersZero _ _ v hv
  case trM7bg1 | trM7bg2 => cases h; exact m7Row_answersZero _ _ _ _ s v hv
  case trM7mbg1 | trM7mbg2 => cases h; exact m7MosaicRow_answersZero _ _ _ _ s v hv
  case csRdtile | csRdpal | csRdref => cases h; cases hv; exact recordOr_lookupId _ _ _ _ _
  -- SYS.CTXRD, TC.RESOLVE and TC.SELPAL answer the register, the others 0.
  all_goals cases h; cases hv; rfl

/-- Settles O57: a command does its work, which leaves the halt alone, and responds; `OK` with its value. -/
theorem everyCommandResponds : Obligations.EveryCommandResponds := by
  intro i s
  obtain ⟨t, ht⟩ : ∃ t, exec i s = .next t := by cases i <;> exact ⟨_, rfl⟩
  refine ⟨t, ht, ?_⟩
  obtain ⟨u, hdo, ⟨v, rfl⟩ | ⟨c, rfl⟩⟩ := exec_endsIn ht
  · exact .inl ⟨v, rfl, exec_answers ht rfl, hdo.keepsHalt⟩
  · exact .inr ⟨c, rfl, rfl, rfl⟩

end Sys2Proof.Machine
end

section
/-! SUPPORT and O50. What an observed draw leaves in the catalog (rules R271 to R280): the state its capture
commits to, the plan of that capture in the words of the statements, and the records it makes. -/

namespace Sys2Proof.Machine

/-! ## The capture of an observed draw -/

/-- TR.TILE and TR.CLIP go on as tile commands once every source row exists. -/
theorem exec_observedDraw {i : Instr} {tile : Half} {offset : Word} {shape : Shape}
    (hdraw : observedDraw i tile offset shape) (s : State) :
    observed shape = true ∧ ∃ (ok : Bool) (plots : State → List PlotCall),
      exec i s = .next (if ok then State.tileCommand tile shape offset plots s else s.raise .tileRange) := by
  obtain ⟨sl, lc, rfl, rfl⟩ | ⟨sp, w, sl, lc, rfl, rfl⟩ := hdraw
  · exact ⟨rfl, _, _, rfl⟩
  · exact ⟨rfl, _, _, rfl⟩

/-- The state an observed draw captures from: slot and palette selected. -/
def State.drawnFrom (s : State) (tile : Half) : State :=
  State.selectPalette tile (State.resolve tile s)

/-- The state its capture commits to. -/
def State.captured (s : State) (tile : Half) (shape : Shape) (offset : Word) : State :=
  (s.drawnFrom tile).captureCommit (State.capturePlan tile (s.drawnFrom tile)) shape offset

/-- An observed draw that ends without a fault, its tile not being blank, has committed its capture, and drawn. -/
theorem observedDraw_captured {i : Instr} {s t : State} {tile : Half} {offset : Word} {shape : Shape}
    (hdraw : observedDraw i tile offset shape) (hcapture : s.ctx.capen = true)
    (hexec : exec i s = .next t) (hresponse : t.response = some (.ok (.word 0)))
    (hopaque : (State.resolve tile s).selectedFlag ≠ 2) :
    t.tiles = (s.captured tile shape offset).tiles ∧ t.pals = (s.captured tile shape offset).pals
      ∧ t.refs = (s.captured tile shape offset).refs
      ∧ t.ctx = (s.captured tile shape offset).ctx := by
  obtain ⟨hobserved, ok, plots, hi⟩ := exec_observedDraw hdraw s
  obtain rfl := Host.Outcome.next.inj (hi.symm.trans hexec)
  cases ok with
  | false => cases hresponse
  | true =>
    simp only [if_true] at hresponse ⊢
    obtain ⟨hblank, _⟩ | ⟨_, _, _, _, h⟩ | ⟨u, _, ⟨_, hoff | hoff⟩ | ⟨_, _, hcommit⟩, h⟩ :=
      tileCommand_cases tile shape offset plots s
    · exact absurd hblank hopaque
    · rw [h] at hresponse; cases hresponse
    · cases hcapture.symm.trans hoff
    · cases hobserved.symm.trans hoff
    · have hu : u = s.captured tile shape offset := (captureObserve_eq_some hcommit).2
      obtain ⟨w, hdrawn, ⟨_, hrun⟩ | ⟨_, hrun⟩⟩ := runPlots_cases (plots u) u
      · rw [h, hrun, ← hu, hdrawn.rest]
        exact ⟨rfl, rfl, rfl, rfl⟩
      · rw [h, hrun] at hresponse; cases hresponse

/-- Selecting the slot and the palette leaves the catalog and the other registers as they were. -/
theorem drawnFrom_rest (s : State) (tile : Half) :
    s.drawnFrom tile = { s with
      tcbuf := (s.drawnFrom tile).tcbuf
      tcflag := (s.drawnFrom tile).tcflag
      ctx := { s.ctx with
        scsel := (s.drawnFrom tile).ctx.scsel
        tcsel := (s.drawnFrom tile).ctx.tcsel
        decodecnt := (s.drawnFrom tile).ctx.decodecnt } } := by
  unfold State.drawnFrom
  by_cases hfresh : s.slotFlag s.ctx.bpp (s.hflip tile) (s.tileNumber tile) = 0
  · rw [resolve_of_fresh hfresh]; rfl
  · rw [resolve_of_decoded hfresh]; rfl

/-! ## Palettes (rules R271, R274) -/

theorem palKey_cons (c : Half) (cs : List Half) :
    palKey (c :: cs) = c.setWidth 8 :: c.extractLsb' 8 8 :: palKey cs := rfl

/-- A palette key holds both bytes of every colour. -/
theorem palKey_injective : Function.Injective palKey := by
  intro xs
  induction xs with
  | nil =>
    rintro (_ | ⟨y, ys⟩) h
    · rfl
    · cases h
  | cons x xs ih =>
    rintro (_ | ⟨y, ys⟩) h
    · cases h
    · rw [palKey_cons, palKey_cons, List.cons.injEq, List.cons.injEq] at h
      obtain ⟨hlow, hhigh, hrest⟩ := h
      have hlow := congrArg BitVec.toNat hlow
      have hhigh := congrArg BitVec.toNat hhigh
      rw [BitVec.toNat_setWidth, BitVec.toNat_setWidth] at hlow
      rw [BitVec.extractLsb'_toNat, BitVec.extractLsb'_toNat, Nat.shiftRight_eq_div_pow,
        Nat.shiftRight_eq_div_pow] at hhigh
      have hxy : x = y := BitVec.eq_of_toNat_eq (by have := x.isLt; have := y.isLt; omega)
      rw [hxy, ih hrest]

/-- The palette a capture uses is the one the statements name. -/
theorem drawnFrom_capturePalId (s : State) (tile : Half) :
    (s.drawnFrom tile).capturePalId (State.capturePlan tile (s.drawnFrom tile)) = s.drawnPalId tile := by
  have hcolors : (s.drawnFrom tile).palColors = s.drawnPalette tile := selectPalette_palColors s tile
  have hkey : ∀ p : PalRecord, (palKey p.colors == palKey (s.drawnFrom tile).palColors)
      = (p.colors == s.drawnPalette tile) := fun p => by
    rw [hcolors, Bool.beq_eq_decide_eq, Bool.beq_eq_decide_eq, decide_eq_decide, palKey_injective.eq_iff]
  have hfound : ((State.capturePlan tile (s.drawnFrom tile)).palAt.bind
      fun i => (s.drawnFrom tile).pals[i]?) = s.pals.find? fun p => p.colors == s.drawnPalette tile := by
    rw [← funext hkey, show s.pals = (s.drawnFrom tile).pals by rw [drawnFrom_rest]]
    exact List.find?_eq_bind_findIdx?_getElem?.symm
  unfold State.capturePalId State.drawnPalId
  rw [hfound]
  cases s.pals.find? fun p => p.colors == s.drawnPalette tile with
  | some p => rfl
  | none => rw [drawnFrom_rest]

/-! ## The plan (rules R275 to R278) -/

/-- The count a plan establishes is the statements'. -/
theorem sightingsAfter_eq (s : State) (old : Option TileRecord) :
    sightingsAfter (s.isNewSight old) old = s.countAfter old := by
  cases old with
  | none => rfl
  | some r =>
    by_cases hseen : r.lastSeenFrame = s.ctx.frame <;>
      simp [State.isNewSight, sightingsAfter, State.countAfter, hseen]

theorem isNewSight_of_reachesMilestone {s : State} {old : Option TileRecord}
    (h : s.reachesMilestone old) : s.isNewSight old = true := by
  cases old with
  | none => rfl
  | some r => exact decide_eq_true (h.1 r rfl)

/-- A milestone the plan reaches is the first entry of the list that is the count. -/
theorem milestoneOf_eq_some {s : State} {old : Option TileRecord} (h : s.reachesMilestone old) {i : Nat}
    (hi : s.cfg.milestones[i]? = some (s.countAfter old).toNat)
    (hfirst : ∀ j < i, s.cfg.milestones[j]? ≠ some (s.countAfter old).toNat) :
    s.milestoneOf (s.isNewSight old) (sightingsAfter (s.isNewSight old) old) = some i := by
  rw [sightingsAfter_eq]
  unfold State.milestoneOf
  rw [isNewSight_of_reachesMilestone h, if_pos rfl, List.findIdx?_eq_some_iff_getElem]
  obtain ⟨hlt, hget⟩ := List.getElem?_eq_some_iff.mp hi
  refine ⟨hlt, by simpa using hget, fun j hj => ?_⟩
  have hne := hfirst j hj
  rw [List.getElem?_eq_getElem (hj.trans hlt), Option.some_inj.ne] at hne
  simpa using hne

theorem milestoneOf_eq_none {s : State} {old : Option TileRecord} (h : ¬ s.reachesMilestone old) :
    s.milestoneOf (s.isNewSight old) (sightingsAfter (s.isNewSight old) old) = none := by
  rwa [← milestoneOf_isSome_iff, Bool.not_eq_true, Option.isSome_eq_false_iff, Option.isNone_iff_eq_none] at h

/-- The orientation of a draw (rule R278). -/
def State.orientation (s : State) (tile : Half) : Orient := orientOf (s.hflip tile) (s.vflip tile)

theorem firstOrient_eq_some {s : State} {tile : Half} {old : Option TileRecord}
    (h : s.firstOfOrientation tile old) :
    firstOrient (s.orientation tile) old = some (s.orientation tile) := by
  cases old with
  | none => rfl
  | some r =>
    have hseen : r.orientSeen.get (s.orientation tile) = false := h r rfl
    exact if_neg (by rw [hseen]; decide)

theorem firstOrient_eq_none {s : State} {tile : Half} {old : Option TileRecord}
    (h : ¬ s.firstOfOrientation tile old) : firstOrient (s.orientation tile) old = none := by
  rwa [← firstOrient_isSome_iff, Bool.not_eq_true, Option.isSome_eq_false_iff, Option.isNone_iff_eq_none] at h

@[simp] theorem PerOrient.get_set_same {α : Type} (p : PerOrient α) (o : Orient) (x : α) :
    (p.set o x).get o = x := by
  cases o <;> rfl

theorem PerOrient.get_set_other {α : Type} (p : PerOrient α) {o o' : Orient} (x : α) (h : o' ≠ o) :
    (p.set o x).get o' = p.get o' := by
  cases o <;> cases o' <;> simp_all [PerOrient.get, PerOrient.set]

/-! ## The records a capture makes (rules R275 to R280) -/

/-- A capture starts from the record it finds. -/
theorem captureBase_of_found {t : Half} {s : State} {r : TileRecord} (h : s.recordOf s.tileKey = some r) :
    s.captureBase (State.capturePlan t s) = r := by
  rw [← capturePlan_tileFound t s] at h
  unfold State.captureBase
  rw [h]

/-- A new record has no references. -/
theorem captureBase_of_new {t : Half} {s : State} (h : s.recordOf s.tileKey = none) :
    (s.captureBase (State.capturePlan t s)).id = s.ctx.ntiles
      ∧ (s.captureBase (State.capturePlan t s)).mileRef = s.cfg.milestones.map (fun _ => none)
      ∧ (∀ o, (s.captureBase (State.capturePlan t s)).orientSeen.get o = false)
      ∧ ∀ o, (s.captureBase (State.capturePlan t s)).orientRef.get o = none := by
  rw [← capturePlan_tileFound t s] at h
  unfold State.captureBase
  rw [h]
  exact ⟨rfl, rfl, fun o => by cases o <;> rfl, fun o => by cases o <;> rfl⟩

theorem capturePlan_mile (t : Half) (s : State) :
    (State.capturePlan t s).mile = s.milestoneOf (s.isNewSight (s.recordOf s.tileKey))
      (sightingsAfter (s.isNewSight (s.recordOf s.tileKey)) (s.recordOf s.tileKey)) := by
  rw [← capturePlan_tileFound t s]; rfl

theorem capturePlan_orient (t : Half) (s : State) :
    (State.capturePlan t s).orient = firstOrient (s.orientation t) (s.recordOf s.tileKey) := by
  rw [← capturePlan_tileFound t s]; rfl

theorem captureTile_of_milestone {s : State} {p : CapturePlan} {i : Nat} (h : p.mile = some i) :
    (s.captureTile p).mileRef = (s.captureBase p).mileRef.set i (some s.ctx.nrefs) := by
  unfold State.captureTile
  rw [h]; rfl

theorem captureTile_of_no_milestone {s : State} {p : CapturePlan} (h : p.mile = none) :
    (s.captureTile p).mileRef = (s.captureBase p).mileRef := by
  unfold State.captureTile
  rw [h]; rfl

theorem captureTile_of_orient {s : State} {p : CapturePlan} {o : Orient} (h : p.orient = some o) :
    (s.captureTile p).orientSeen = (s.captureBase p).orientSeen.set o true
      ∧ (s.captureTile p).orientRef = (s.captureBase p).orientRef.set o (some s.ctx.nrefs) := by
  unfold State.captureTile
  rw [h]; exact ⟨rfl, rfl⟩

theorem captureTile_of_no_orient {s : State} {p : CapturePlan} (h : p.orient = none) :
    (s.captureTile p).orientSeen = (s.captureBase p).orientSeen
      ∧ (s.captureTile p).orientRef = (s.captureBase p).orientRef := by
  unfold State.captureTile
  rw [h]; exact ⟨rfl, rfl⟩

/-- Orientations other than the draw's keep what they had (rule R278). -/
theorem captureTile_other_orient {t : Half} {s : State} {o : Orient} (h : o ≠ s.orientation t) :
    (s.captureTile (State.capturePlan t s)).orientSeen.get o
        = (s.captureBase (State.capturePlan t s)).orientSeen.get o
      ∧ (s.captureTile (State.capturePlan t s)).orientRef.get o
        = (s.captureBase (State.capturePlan t s)).orientRef.get o := by
  by_cases hfirst : s.firstOfOrientation t (s.recordOf s.tileKey)
  · obtain ⟨hseen, href⟩ :=
      captureTile_of_orient (s := s) ((capturePlan_orient t s).trans (firstOrient_eq_some hfirst))
    rw [hseen, href, PerOrient.get_set_other _ _ h, PerOrient.get_set_other _ _ h]
    exact ⟨rfl, rfl⟩
  · obtain ⟨hseen, href⟩ :=
      captureTile_of_no_orient (s := s) ((capturePlan_orient t s).trans (firstOrient_eq_none hfirst))
    rw [hseen, href]
    exact ⟨rfl, rfl⟩

/-- The record a capture makes has the reference where the statements say, and nowhere else. -/
theorem captureTile_referencesStored (t : Half) (s : State) :
    s.referencesStored t (s.recordOf s.tileKey) (s.captureTile (State.capturePlan t s)) := by
  have hmile := capturePlan_mile t s
  have horient := capturePlan_orient t s
  have hother := fun o => captureTile_other_orient (t := t) (s := s) (o := o)
  cases hold : s.recordOf s.tileKey with
  | some r =>
    rw [hold] at hmile horient
    rw [captureBase_of_found hold] at hother
    refine ⟨fun h i hi hfirst => ?_, fun h => ?_, fun h => ?_, fun h => ?_, hother⟩
    · rw [captureTile_of_milestone (hmile.trans (milestoneOf_eq_some h hi hfirst)), captureBase_of_found hold]
    · rw [captureTile_of_no_milestone (hmile.trans (milestoneOf_eq_none h)), captureBase_of_found hold]
    · obtain ⟨hseen, href⟩ := captureTile_of_orient (s := s) (horient.trans (firstOrient_eq_some h))
      rw [hseen, href]
      exact ⟨PerOrient.get_set_same _ _ _, PerOrient.get_set_same _ _ _⟩
    · obtain ⟨hseen, href⟩ := captureTile_of_no_orient (s := s) (horient.trans (firstOrient_eq_none h))
      rw [hseen, href, captureBase_of_found hold]
      exact ⟨rfl, rfl⟩
  | none =>
    rw [hold] at hmile horient
    obtain ⟨_, hmileRef, hseenBase, hrefBase⟩ := captureBase_of_new (t := t) hold
    refine ⟨fun h i hi hfirst => ?_, fun h => ?_, fun h => ?_, fun h => absurd nofun h, fun o ho => ?_⟩
    · rw [captureTile_of_milestone (hmile.trans (milestoneOf_eq_some h hi hfirst)), hmileRef]
    · rw [captureTile_of_no_milestone (hmile.trans (milestoneOf_eq_none h)), hmileRef]
    · obtain ⟨hseen, href⟩ := captureTile_of_orient (s := s) (horient.trans (firstOrient_eq_some h))
      rw [hseen, href]
      exact ⟨PerOrient.get_set_same _ _ _, PerOrient.get_set_same _ _ _⟩
    · obtain ⟨hseen, href⟩ := hother o ho
      rw [hseen, href]
      exact ⟨hseenBase o, hrefBase o⟩

/-- The record of the tile is in the store where a record of that key was, or at its end (rule R275). -/
theorem captureCommit_tile_found {t : Half} {s : State} (shape : Shape) (offset : Word)
    (hdistinct : s.keysDistinct) {j : Nat} {r : TileRecord} (hj : s.tiles[j]? = some r)
    (hkey : r.pixels = s.tileKey) :
    (s.captureCommit (State.capturePlan t s) shape offset).tiles[j]?
      = some (s.captureTile (State.capturePlan t s)) := by
  rw [CaptureLaws.captureCommit_tiles]
  cases hat : (State.capturePlan t s).tileAt with
  | none => exact absurd ⟨r, List.mem_of_getElem? hj, hkey⟩ (tileKey_new (t := t) (by rw [hat]; rfl))
  | some k =>
    obtain ⟨q, hk, hqkey⟩ := CaptureLaws.capturePlan_tileAt t s hat
    obtain ⟨hlt, _⟩ := List.getElem?_eq_some_iff.mp hk
    have hjk : k = j := by
      refine (List.getElem?_inj (by rwa [List.length_map]) hdistinct.1).mp ?_
      rw [List.getElem?_map, List.getElem?_map, hk, hj, Option.map_some, Option.map_some, hqkey, hkey]
    subst hjk
    simp [hlt]

theorem captureCommit_tile_new {t : Half} {s : State} (shape : Shape) (offset : Word)
    (hnew : ∀ r ∈ s.tiles, r.pixels ≠ s.tileKey) :
    (s.captureCommit (State.capturePlan t s) shape offset).tiles[s.tiles.length]?
      = some (s.captureTile (State.capturePlan t s)) := by
  rw [CaptureLaws.captureCommit_tiles]
  cases hat : (State.capturePlan t s).tileAt with
  | none => simp
  | some i =>
    obtain ⟨r, hr, hkey⟩ := CaptureLaws.capturePlan_tileAt t s hat
    exact absurd hkey (hnew r (List.mem_of_getElem? hr))

theorem captureCommit_nrefs (s : State) (p : CapturePlan) (shape : Shape) (offset : Word) :
    (s.captureCommit p shape offset).ctx.nrefs
      = if p.needsRef then s.ctx.nrefs + 1 else s.ctx.nrefs := by
  have h : (s.captureCommit p shape offset).ctx.nrefs = (s.captureStores p shape offset).ctx.nrefs := by
    unfold State.captureCommit
    split <;> rfl
  exact h

/-! ## The statement -/

/-- The plan of a capture makes a reference exactly where the statements say. -/
theorem needsRef_drawnFrom_iff (s : State) (tile : Half) :
    (State.capturePlan tile (s.drawnFrom tile)).needsRef = true
      ↔ s.reachesMilestone (s.recordOf (State.resolve tile s).tileKey)
        ∨ s.firstOfOrientation tile (s.recordOf (State.resolve tile s).tileKey) := by
  rw [needsRef_capturePlan_iff, show (s.drawnFrom tile).tileKey = (State.resolve tile s).tileKey from rfl,
    drawnFrom_rest]
  exact Iff.rfl

/-- The record of a capture has the reference where the statements say. -/
theorem captureTile_drawnFrom (s : State) (tile : Half) :
    s.referencesStored tile (s.recordOf (State.resolve tile s).tileKey)
      ((s.drawnFrom tile).captureTile (State.capturePlan tile (s.drawnFrom tile))) := by
  have h := captureTile_referencesStored tile (s.drawnFrom tile)
  rw [show (s.drawnFrom tile).tileKey = (State.resolve tile s).tileKey from rfl] at h
  generalize (s.drawnFrom tile).captureTile (State.capturePlan tile (s.drawnFrom tile)) = r at h ⊢
  rw [drawnFrom_rest] at h
  exact h

/-- The tile id of a reference is that of the record found or made (rule R279). -/
theorem captureBase_drawnFrom_id (s : State) (tile : Half) :
    ((s.drawnFrom tile).captureBase (State.capturePlan tile (s.drawnFrom tile))).id
      = match s.recordOf (State.resolve tile s).tileKey with
        | some r => r.id
        | none => s.ctx.ntiles := by
  have hsame : (s.drawnFrom tile).recordOf (s.drawnFrom tile).tileKey
      = s.recordOf (State.resolve tile s).tileKey := by
    rw [show (s.drawnFrom tile).tileKey = (State.resolve tile s).tileKey from rfl, drawnFrom_rest]
    rfl
  cases hold : s.recordOf (State.resolve tile s).tileKey with
  | some r => rw [captureBase_of_found (hsame.trans hold)]
  | none => rw [(captureBase_of_new (hsame.trans hold)).1, drawnFrom_rest]

/-- The shape number of a reference is the low half of the opcode (rule R279). -/
theorem observedDraw_shape {i : Instr} {tile : Half} {offset : Word} {shape : Shape}
    (h : observedDraw i tile offset shape) : shape.num = (encode i).w0.toNat / 2 ^ 24 % 16 := by
  obtain ⟨sl, lc, rfl, rfl⟩ | ⟨sp, w, sl, lc, rfl, rfl⟩ := h
  · rw [show (encode (.trTile tile offset sl lc)).w0 = header 0x40 0 from rfl]; decide
  · rw [show (encode (.trClip tile offset sp w sl lc)).w0 = header 0x41 0 from rfl]; decide

/-- The record an observed draw of `s` appends has the fields of rule R279. -/
theorem captureRef_drawnFrom (s : State) (tile : Half) (shape : Shape) (offset : Word) :
    (s.drawnFrom tile).captureRef (State.capturePlan tile (s.drawnFrom tile)) shape offset
      = { id := s.ctx.nrefs
          tileId := ((s.drawnFrom tile).captureBase (State.capturePlan tile (s.drawnFrom tile))).id
          shotId := s.ctx.shotid
          frame := s.ctx.frame
          x := BitVec.ofNat 32 (offset.toNat % s.ctx.rppl.toNat)
          y := BitVec.ofNat 32 (offset.toNat / s.ctx.rppl.toNat)
          shape := shape
          addr := s.ctx.rsel.addr
          math := s.ctx.rsel.math
          palId := s.drawnPalId tile } := by
  rw [← drawnFrom_capturePalId]
  unfold State.captureRef
  have hctx := congrArg State.ctx (drawnFrom_rest s tile)
  rw [hctx]

/-- Settles O50: the draw ends in the commit of its capture, whose plan reads the catalog as the statement
does, and whose records and reference are those of rules R275 to R280. -/
theorem referenceAtMilestone : Obligations.ReferenceAtMilestone := by
  intro i s t tile offset shape hdraw hcapture hdistinct hexec hresponse u old hopaque
  obtain ⟨htiles, _, hrefs, hctx⟩ := observedDraw_captured hdraw hcapture hexec hresponse hopaque
  have hneeds := needsRef_drawnFrom_iff s tile
  rw [htiles, hrefs, hctx]
  unfold State.captured
  rw [CaptureLaws.captureCommit_refs, captureCommit_nrefs, CaptureLaws.captureCommit_capreq]
  refine ⟨fun h => ?_, fun h => ?_, fun j r hj hkey => ?_, fun hnew => ?_⟩
  · rw [hneeds.mpr h]
    refine ⟨(s.drawnFrom tile).captureRef (State.capturePlan tile (s.drawnFrom tile)) shape offset, ?_⟩
    have hx : offset.toNat % s.ctx.rppl.toNat < 2 ^ 32 := (Nat.mod_le _ _).trans_lt offset.isLt
    have hy : offset.toNat / s.ctx.rppl.toNat < 2 ^ 32 := (Nat.div_le_self _ _).trans_lt offset.isLt
    rw [captureRef_drawnFrom]
    refine ⟨?_, rfl, captureBase_drawnFrom_id s tile, rfl, rfl, ?_, ?_, rfl, rfl, rfl,
      observedDraw_shape hdraw, rfl, ?_, rfl⟩
    · rw [if_pos rfl, drawnFrom_rest]
    · exact Nat.mod_eq_of_lt hx
    · exact Nat.mod_eq_of_lt hy
    · rw [if_pos rfl, drawnFrom_rest]
  · rw [← hneeds, Bool.not_eq_true] at h
    rw [h, drawnFrom_rest]
    exact ⟨rfl, rfl, rfl⟩
  · refine ⟨_, captureCommit_tile_found shape offset ?_ (j := j) (r := r) ?_ hkey, captureTile_drawnFrom s tile⟩
    · rw [drawnFrom_rest]; exact hdistinct
    · rw [drawnFrom_rest]; exact hj
  · refine ⟨_, ?_, captureTile_drawnFrom s tile⟩
    rw [show s.tiles = (s.drawnFrom tile).tiles by rw [drawnFrom_rest]] at hnew ⊢
    exact captureCommit_tile_new shape offset hnew

end Sys2Proof.Machine
end

section
/-! SUPPORT and O16 to O25. ColorMath and the blend modes (rules R140 to R159): packed colours as lanes of
bits, the operators lane by lane, and the packets of formats C and B. -/

namespace Sys2Proof.Machine

open EncodingLaws

/-! ## Packets of formats C and B (rules R112 to R115) -/

theorem fits_half (w : Word) : fits 16 w = decide (w.toNat ≤ 0xFFFF) :=
  decide_eq_decide.mpr Nat.lt_succ_iff

theorem fits_byte (w : Word) : fits 8 w = decide (w.toNat ≤ 0xFF) :=
  decide_eq_decide.mpr Nat.lt_succ_iff

/-- A format C packet under its own header is legal when its two words are colours. -/
theorem decodesColours_of_opcode {opc : BitVec 8} {mk : Half → Half → Instr}
    (hopc : ∀ p, decodeOpc opc.toNat p = decodeC p mk) : decodesColours (header opc 0) mk := by
  intro w1 w2
  have himm : Packet.imm ⟨header opc 0, w1, w2, 0, 0, 0, 0, 0⟩ = 0 := imm_of_header rfl
  rw [decode_of_header rfl, hopc, decodeC, if_pos himm]
  simp [operandsOk, fits_half]

/-- The opcode word of a BLEND command and an immediate are a header. -/
theorem blendHeader {n : Nat} (hn : n < 256) :
    (0x16000000 + BitVec.ofNat 32 n : Word) = header 0x16 (BitVec.ofNat 8 n) := by
  apply BitVec.eq_of_toNat_eq
  rw [header_toNat, BitVec.toNat_add, BitVec.toNat_ofNat, BitVec.toNat_ofNat]
  show (0x16000000 + n % 2 ^ 32) % 2 ^ 32 = 0x16 * 16777216 + n % 2 ^ 8
  omega

theorem mathMode_num_le (m : MathMode) : m.num ≤ 8 := by cases m <;> decide

/-- A format B packet under the header of a math mode is legal when its words are two colours and a byte. -/
theorem decodesBlend_of_mode (m : MathMode) :
    decodesBlend (BitVec.ofNat 32 m.num) (blendInstr m) := by
  intro w1 w2 w3
  have hm : m.num < 256 := (mathMode_num_le m).trans_lt (by decide)
  have himm : Packet.imm ⟨header 0x16 (BitVec.ofNat 8 m.num), w1, w2, w3, 0, 0, 0, 0⟩
      = BitVec.ofNat 8 m.num := imm_of_header rfl
  rw [blendHeader hm, decode_of_header rfl]
  show decodeB _ = _
  rw [decodeB, himm, BitVec.toNat_ofNat, Nat.mod_eq_of_lt hm, mathModeOf_num]
  simp [operandsOk, fits_half, fits_byte, and_assoc]

/-- An immediate above 8 selects no BLEND command (rules R115, R116). -/
theorem decode_blend_illegal {p : Packet} {n : Nat} (h8 : 8 < n) (h256 : n < 256)
    (hw : p.w0 = 0x16000000 + BitVec.ofNat 32 n) : decode p = .error .illegalOpcode := by
  rw [blendHeader h256] at hw
  have hnone : mathModeOf n = none := by
    refine Option.eq_none_iff_forall_ne_some.mpr fun m hm => ?_
    have hnum := num_of_mathModeOf hm
    have hle := mathMode_num_le m
    omega
  rw [decode_of_header hw]
  show decodeB p = _
  rw [decodeB, imm_of_header hw, BitVec.toNat_ofNat, Nat.mod_eq_of_lt h256, hnone]

/-! ## Channels (rules R140, R141) -/

theorem chan_lt (fmt : PixFmt) (c : Half) :
    (chan fmt c).r < 32 ∧ (chan fmt c).g < 32 ∧ (chan fmt c).b < 32 := by
  cases fmt <;> exact ⟨Nat.mod_lt _ (by decide), Nat.mod_lt _ (by decide), Nat.mod_lt _ (by decide)⟩

/-- A packed colour has the channels it was packed from. -/
theorem chan_pack (fmt : PixFmt) {x : Rgb} (hr : x.r < 32) (hg : x.g < 32) (hb : x.b < 32) :
    chan fmt (pack fmt x) = x := by
  obtain ⟨r, g, b⟩ := x
  cases fmt <;> simp only [chan, pack, BitVec.toNat_ofNat, Rgb.mk.injEq] at *
  case rgb555 => omega
  case rgb565 =>
    have hcopy : g / 16 % 2 < 2 := Nat.mod_lt _ (by decide)
    generalize g / 16 % 2 = copy at hcopy ⊢
    omega

/-- An operator that keeps 5 bits is read back channel by channel. -/
theorem chan_pack_lanes (fmt : PixFmt) {f : Nat → Nat → Nat}
    (hf : ∀ x < 32, ∀ y < 32, f x y < 32) (c1 c2 : Half) :
    chan fmt (pack fmt (lanes f (chan fmt c1) (chan fmt c2)))
      = lanes f (chan fmt c1) (chan fmt c2) := by
  obtain ⟨hr1, hg1, hb1⟩ := chan_lt fmt c1
  obtain ⟨hr2, hg2, hb2⟩ := chan_lt fmt c2
  exact chan_pack fmt (hf _ hr1 _ hr2) (hf _ hg1 _ hg2) (hf _ hb1 _ hb2)

theorem chan_colorAdd (fmt : PixFmt) (c1 c2 : Half) :
    chan fmt (colorAdd fmt c1 c2)
      = lanes (fun x y => min 31 (x + y)) (chan fmt c1) (chan fmt c2) :=
  chan_pack_lanes fmt (fun _ _ _ _ => Nat.lt_succ_of_le (Nat.min_le_left 31 _)) c1 c2

theorem chan_colorSub (fmt : PixFmt) (c1 c2 : Half) :
    chan fmt (colorSub fmt c1 c2) = lanes (fun x y => x - y) (chan fmt c1) (chan fmt c2) :=
  chan_pack_lanes fmt (fun _ hx _ _ => (Nat.sub_le _ _).trans_lt hx) c1 c2

theorem chan_colorAddB (fmt : PixFmt) (bcap : Memory 5) (c1 c2 : Half) :
    chan fmt (colorAddB fmt bcap c1 c2)
      = lanes (fun x y => (Memory.read bcap (x + y)).toNat) (chan fmt c1) (chan fmt c2) :=
  chan_pack_lanes fmt (fun _ _ _ _ => (Memory.read bcap _).isLt) c1 c2

/-- Operators that agree below 32 agree on channels. -/
theorem lanes_chan_congr (fmt : PixFmt) {f f' : Nat → Nat → Nat}
    (h : ∀ x < 32, ∀ y < 32, f x y = f' x y) (c1 c2 : Half) :
    lanes f (chan fmt c1) (chan fmt c2) = lanes f' (chan fmt c1) (chan fmt c2) := by
  obtain ⟨hr1, hg1, hb1⟩ := chan_lt fmt c1
  obtain ⟨hr2, hg2, hb2⟩ := chan_lt fmt c2
  unfold lanes
  rw [h _ hr1 _ hr2, h _ hg1 _ hg2, h _ hb1 _ hb2]

/-- With the reset table `AddB` is `Add` (rule R146): two channels sum to at most 62. -/
theorem colorAddB_of_saturating (fmt : PixFmt) {bcap : Memory 5}
    (h : ∀ k < 63, (Memory.read bcap k).toNat = min k 31) (c1 c2 : Half) :
    colorAddB fmt bcap c1 c2 = colorAdd fmt c1 c2 :=
  congrArg (pack fmt) (lanes_chan_congr fmt
    (fun x hx y hy => (h (x + y) (by omega)).trans (Nat.min_comm _ _)) c1 c2)

theorem cast_sub_eq_max (x y : Nat) : ((x - y : Nat) : Int) = max 0 ((x : Int) - y) := by omega

/-! ## Fields as lanes of a word (rules R140, R141, R161) -/

/-- The width of the green field. -/
def greenWidth : PixFmt → Nat
  | .rgb555 => 5
  | .rgb565 => 6

/-- The number whose lanes are the three fields. -/
def fieldWord (fmt : PixFmt) (x : Rgb) : Nat := (x.r * 2 ^ greenWidth fmt + x.g) * 2 ^ 5 + x.b

/-- Green and blue stay inside their lanes. -/
def lanesFit (fmt : PixFmt) (x : Rgb) : Prop := x.g < 2 ^ greenWidth fmt ∧ x.b < 2 ^ 5

/-- The bits of a colour that its format uses: all but bit 15 of RGB555. -/
def colourBits (fmt : PixFmt) (c : Half) : Nat :=
  if fmt = .rgb555 then c.toNat % 32768 else c.toNat

theorem fields_r_lt (fmt : PixFmt) (c : Half) : (fields fmt c).r < 32 := by
  cases fmt <;> exact Nat.mod_lt _ (by decide)

theorem lanesFit_fields (fmt : PixFmt) (c : Half) : lanesFit fmt (fields fmt c) := by
  cases fmt <;> exact ⟨Nat.mod_lt _ (by decide), Nat.mod_lt _ (by decide)⟩

theorem fieldWord_fields (fmt : PixFmt) (c : Half) : fieldWord fmt (fields fmt c) = colourBits fmt c := by
  have hc := c.isLt
  cases fmt <;> simp only [fieldWord, fields, colourBits, greenWidth, reduceCtorEq, if_true, if_false] <;>
    omega

theorem packf_toNat (fmt : PixFmt) {x : Rgb} (hr : x.r < 32) (hx : lanesFit fmt x) :
    (packf fmt x).toNat = fieldWord fmt x := by
  obtain ⟨hg, hb⟩ := hx
  cases fmt <;> simp only [packf, fieldWord, greenWidth, BitVec.toNat_ofNat] at * <;> omega

/-- A packed colour has the fields it was packed from. -/
theorem fields_packf (fmt : PixFmt) {x : Rgb} (hr : x.r < 32) (hx : lanesFit fmt x) :
    fields fmt (packf fmt x) = x := by
  have hword := packf_toNat fmt hr hx
  obtain ⟨r, g, b⟩ := x
  obtain ⟨hg, hb⟩ := hx
  cases fmt <;> simp only [fields, hword, fieldWord, greenWidth, Rgb.mk.injEq] at * <;> omega

/-- An operator bounded by its operands keeps every field inside its lane. -/
theorem lanes_fields_fit (fmt : PixFmt) {f : Nat → Nat → Nat} (hf : ∀ x y, f x y ≤ max x y)
    (c1 c2 : Half) :
    (lanes f (fields fmt c1) (fields fmt c2)).r < 32
      ∧ lanesFit fmt (lanes f (fields fmt c1) (fields fmt c2)) := by
  obtain ⟨hg1, hb1⟩ := lanesFit_fields fmt c1
  obtain ⟨hg2, hb2⟩ := lanesFit_fields fmt c2
  exact ⟨(hf _ _).trans_lt (max_lt (fields_r_lt fmt c1) (fields_r_lt fmt c2)),
    (hf _ _).trans_lt (max_lt hg1 hg2), (hf _ _).trans_lt (max_lt hb1 hb2)⟩

theorem average_le_max (x y : Nat) : (x + y) / 2 ≤ max x y := by omega

theorem halfDifference_le_max (x y : Nat) : x / 2 - y / 2 ≤ max x y := by omega

theorem fields_colorAddH (fmt : PixFmt) (c1 c2 : Half) :
    fields fmt (colorAddH fmt c1 c2)
      = lanes (fun x y => (x + y) / 2) (fields fmt c1) (fields fmt c2) := by
  obtain ⟨hr, hfit⟩ := lanes_fields_fit fmt average_le_max c1 c2
  exact fields_packf fmt hr hfit

theorem fields_colorSubH (fmt : PixFmt) (c1 c2 : Half) :
    fields fmt (colorSubH fmt c1 c2)
      = lanes (fun x y => x / 2 - y / 2) (fields fmt c1) (fields fmt c2) := by
  obtain ⟨hr, hfit⟩ := lanes_fields_fit fmt halfDifference_le_max c1 c2
  exact fields_packf fmt hr hfit

/-! ## Masks lane by lane (rules R143, R147) -/

section Lanes

variable {n b d : Nat} (hb : b < 2 ^ n) (hd : d < 2 ^ n) (a c : Nat)
include hb

theorem lane_div : (a * 2 ^ n + b) / 2 ^ n = a := by
  rw [Nat.mul_comm, Nat.mul_add_div (Nat.two_pow_pos n), Nat.div_eq_of_lt hb, Nat.add_zero]

theorem lane_mod : (a * 2 ^ n + b) % 2 ^ n = b := by
  rw [Nat.mul_add_mod_self_right, Nat.mod_eq_of_lt hb]

include hd

theorem land_lane : (a * 2 ^ n + b) &&& (c * 2 ^ n + d) = (a &&& c) * 2 ^ n + (b &&& d) := by
  rw [← Nat.div_add_mod' ((a * 2 ^ n + b) &&& (c * 2 ^ n + d)) (2 ^ n), Nat.and_div_two_pow,
    Nat.and_mod_two_pow, lane_div hb, lane_div hd, lane_mod hb, lane_mod hd]

theorem lor_lane : (a * 2 ^ n + b) ||| (c * 2 ^ n + d) = (a ||| c) * 2 ^ n + (b ||| d) := by
  rw [← Nat.div_add_mod' ((a * 2 ^ n + b) ||| (c * 2 ^ n + d)) (2 ^ n), Nat.or_div_two_pow,
    Nat.or_mod_two_pow, lane_div hb, lane_div hd, lane_mod hb, lane_mod hd]

end Lanes

section Masks

variable {fmt : PixFmt} {x y : Rgb} (hx : lanesFit fmt x) (hy : lanesFit fmt y)
include hx hy

theorem fieldWord_land :
    fieldWord fmt x &&& fieldWord fmt y = fieldWord fmt (lanes (· &&& ·) x y) := by
  obtain ⟨hg, hb⟩ := hx
  obtain ⟨hg', hb'⟩ := hy
  unfold fieldWord lanes
  rw [land_lane hb hb', land_lane hg hg']

theorem fieldWord_lor :
    fieldWord fmt x ||| fieldWord fmt y = fieldWord fmt (lanes (· ||| ·) x y) := by
  obtain ⟨hg, hb⟩ := hx
  obtain ⟨hg', hb'⟩ := hy
  unfold fieldWord lanes
  rw [lor_lane hb hb', lor_lane hg hg']

end Masks

/-- Each field without its low bit. -/
def halves (x : Rgb) : Rgb := ⟨x.r / 2, x.g / 2, x.b / 2⟩

theorem land_30 : ∀ v < 32, v &&& 30 = v / 2 * 2 := by decide

theorem land_62 : ∀ v < 64, v &&& 62 = v / 2 * 2 := by decide

/-- A mask that clears the low bit of each field leaves twice the halves. -/
theorem fieldWord_land_even {fmt : PixFmt} {x : Rgb} {m : Nat} (hx : lanesFit fmt x)
    (hr : x.r &&& m = x.r / 2 * 2) :
    fieldWord fmt x &&& fieldWord fmt ⟨m, 2 ^ greenWidth fmt - 2, 30⟩ = 2 * fieldWord fmt (halves x) := by
  have hmask : lanesFit fmt ⟨m, 2 ^ greenWidth fmt - 2, 30⟩ :=
    ⟨Nat.sub_lt (Nat.two_pow_pos _) (by decide), show 30 < 2 ^ 5 by decide⟩
  rw [fieldWord_land hx hmask]
  obtain ⟨hg, hb⟩ := hx
  have hgreen : x.g &&& (2 ^ greenWidth fmt - 2) = x.g / 2 * 2 := by
    cases fmt
    case rgb555 => exact land_30 _ hg
    case rgb565 => exact land_62 _ hg
  simp only [fieldWord, lanes, halves, hr, hgreen, land_30 _ hb]
  ring

/-- Halving before the sum loses the carry of the two low bits, which the mask form adds back. -/
theorem average_eq_halves (x y : Nat) : (x + y) / 2 = x / 2 + y / 2 + (x &&& y &&& 1) := by
  have hlow : ∀ v < 2, ∀ w < 2, v &&& w = v * w := by decide
  have hcarry : (x &&& y) % 2 = x % 2 * (y % 2) := by
    rw [← hlow _ (Nat.mod_lt x (by decide)) _ (Nat.mod_lt y (by decide))]
    exact Nat.and_mod_two_pow (n := 1)
  rw [Nat.and_one_is_mod, hcarry]
  obtain hx | hx := Nat.mod_two_eq_zero_or_one x <;> rw [hx] <;> omega

theorem lowBits_eq (fmt : PixFmt) : lowBits fmt = fieldWord fmt ⟨1, 1, 1⟩ := by cases fmt <;> rfl

/-- The complement of `LOW` keeps twice the halves of a colour. -/
theorem colourBits_land_even (fmt : PixFmt) (c : Half) :
    colourBits fmt c &&& (0xFFFF ^^^ lowBits fmt) = 2 * fieldWord fmt (halves (fields fmt c)) := by
  have hfit := lanesFit_fields fmt c
  have hred := fields_r_lt fmt c
  rw [← fieldWord_fields]
  cases fmt
  case rgb555 => exact fieldWord_land_even hfit (land_62 _ (hred.trans (by decide)))
  case rgb565 => exact fieldWord_land_even hfit (land_30 _ hred)

/-- `AddH` is the carry-preserving mask form of rule R143. -/
theorem colorAddH_eq_masks (fmt : PixFmt) (c1 c2 : Half) :
    (colorAddH fmt c1 c2).toNat
      = ((colourBits fmt c1 &&& (0xFFFF ^^^ lowBits fmt))
          + (colourBits fmt c2 &&& (0xFFFF ^^^ lowBits fmt))) / 2
        + (colourBits fmt c1 &&& colourBits fmt c2 &&& lowBits fmt) := by
  obtain ⟨hr, hfit⟩ := lanes_fields_fit fmt average_le_max c1 c2
  have h1 := lanesFit_fields fmt c1
  have h2 := lanesFit_fields fmt c2
  obtain ⟨_, hand⟩ := lanes_fields_fit fmt (f := (· &&& ·))
    (fun x y => Nat.and_le_left.trans (le_max_left x y)) c1 c2
  have hone : lanesFit fmt ⟨1, 1, 1⟩ := by cases fmt <;> exact ⟨by decide, by decide⟩
  have hsum : (colorAddH fmt c1 c2).toNat
      = fieldWord fmt (halves (fields fmt c1)) + fieldWord fmt (halves (fields fmt c2))
        + (colourBits fmt c1 &&& colourBits fmt c2 &&& lowBits fmt) := by
    rw [colorAddH, packf_toNat fmt hr hfit, ← fieldWord_fields, ← fieldWord_fields,
      fieldWord_land h1 h2, lowBits_eq, fieldWord_land hand hone]
    simp only [fieldWord, lanes, halves, average_eq_halves]
    ring
  rw [hsum, colourBits_land_even, colourBits_land_even, ← Nat.mul_add,
    Nat.mul_div_cancel_left _ (by decide)]

/-! ## The subtract-half table (rule R147) -/

/-- `HI2`: a guard bit above each field, in place of the low bit of the next. -/
def guardBits : Rgb := ⟨33, 1, 0⟩

theorem lor_33 : ∀ v < 32, v ||| 33 = v / 2 * 2 + 33 := by decide

theorem lor_1 : ∀ v < 64, v ||| 1 = v / 2 * 2 + 1 := by decide

/-- What the table gives for a field of the index: a set top bit cleared, else 0. -/
def clearTop (top v : Nat) : Nat := if v ≥ top then v - top else 0

theorem clearTop_guarded {top x y : Nat} (hy : y / 2 ≤ top) :
    clearTop top (top + x / 2 - y / 2) = x / 2 - y / 2 := by
  unfold clearTop
  split <;> omega

/-- The index of the subtract-half table. -/
def subtractHalfIndex (fmt : PixFmt) (c1 c2 : Half) : Nat :=
  ((colourBits fmt c1 ||| fieldWord fmt guardBits)
    - (colourBits fmt c2 &&& fieldWord fmt ⟨30, 2 ^ greenWidth fmt - 2, 30⟩)) / 2 % 65536

/-- The differences of the halved fields, each above a guard bit that keeps it from borrowing. -/
def guardedHalves (fmt : PixFmt) (x y : Rgb) : Rgb :=
  ⟨16 + x.r / 2 - y.r / 2, 2 ^ greenWidth fmt / 2 + x.g / 2 - y.g / 2, 16 + x.b / 2 - y.b / 2⟩

theorem guardedHalves_fit (fmt : PixFmt) (c1 c2 : Half) :
    (guardedHalves fmt (fields fmt c1) (fields fmt c2)).r < 32
      ∧ lanesFit fmt (guardedHalves fmt (fields fmt c1) (fields fmt c2)) := by
  have hr1 := fields_r_lt fmt c1
  obtain ⟨hg1, hb1⟩ := lanesFit_fields fmt c1
  have heven : 2 ^ greenWidth fmt / 2 * 2 = 2 ^ greenWidth fmt := by cases fmt <;> rfl
  refine ⟨?_, ?_, ?_⟩ <;> simp only [guardedHalves] <;> omega

/-- The fields of the index are the guarded differences. -/
theorem subtractHalfIndex_eq (fmt : PixFmt) (c1 c2 : Half) :
    subtractHalfIndex fmt c1 c2
      = fieldWord fmt (guardedHalves fmt (fields fmt c1) (fields fmt c2)) := by
  have hr1 := fields_r_lt fmt c1
  have hr2 := fields_r_lt fmt c2
  have h1 := lanesFit_fields fmt c1
  have h2 := lanesFit_fields fmt c2
  have hguard : lanesFit fmt guardBits := by cases fmt <;> exact ⟨by decide, by decide⟩
  rw [subtractHalfIndex, ← fieldWord_fields, ← fieldWord_fields, fieldWord_land_even h2 (land_30 _ hr2),
    fieldWord_lor h1 hguard]
  obtain ⟨hg1, hb1⟩ := h1
  obtain ⟨hg2, hb2⟩ := h2
  have hgreen : (fields fmt c1).g ||| 1 = (fields fmt c1).g / 2 * 2 + 1 :=
    lor_1 _ (by cases fmt <;> simp only [greenWidth] at hg1 <;> omega)
  simp only [fieldWord, guardedHalves, lanes, halves, guardBits, lor_33 _ hr1, hgreen, Nat.or_zero]
  cases fmt <;> simp only [greenWidth] at * <;> omega

/-- A word of lanes has its fields at their places. -/
theorem fields_of_fieldWord (fmt : PixFmt) {x : Rgb} (hr : x.r < 32) (hx : lanesFit fmt x) :
    fieldWord fmt x / (2 ^ greenWidth fmt * 32) % 32 = x.r
      ∧ fieldWord fmt x / 32 % 2 ^ greenWidth fmt = x.g ∧ fieldWord fmt x % 32 = x.b := by
  obtain ⟨hg, hb⟩ := hx
  cases fmt <;> simp only [fieldWord, greenWidth] at * <;> omega

/-- `SubH` is the subtract-half table at the fields of its index. -/
theorem colorSubH_eq_table (fmt : PixFmt) (c1 c2 : Half) :
    colorSubH fmt c1 c2 = packf fmt
      ⟨clearTop 16 (subtractHalfIndex fmt c1 c2 / (2 ^ greenWidth fmt * 32) % 32),
        clearTop (2 ^ greenWidth fmt / 2) (subtractHalfIndex fmt c1 c2 / 32 % 2 ^ greenWidth fmt),
        clearTop 16 (subtractHalfIndex fmt c1 c2 % 32)⟩ := by
  have hr2 := fields_r_lt fmt c2
  obtain ⟨hg2, hb2⟩ := lanesFit_fields fmt c2
  obtain ⟨hred, hfit⟩ := guardedHalves_fit fmt c1 c2
  obtain ⟨hr, hg, hb⟩ := fields_of_fieldWord fmt hred hfit
  rw [subtractHalfIndex_eq, hr, hg, hb]
  unfold guardedHalves
  rw [clearTop_guarded (by omega), clearTop_guarded (by omega), clearTop_guarded (by omega)]
  rfl

/-! ## Blend modes (rule R150) -/

theorem sdSelect_eq (s : State) (sd : Byte) :
    s.sdSelect sd = decide (sd.toNat / 2 ^ s.cfg.sdSelectBit % 2 = 1) :=
  Nat.testBit_eq_decide_div_mod_eq

theorem op2_eq (s : State) (sub : Half) (sd : Byte) :
    s.op2 sub sd
      = if sd.toNat / 2 ^ s.cfg.sdSelectBit % 2 = 1 then sub else s.ctx.fixedcol := by
  rw [State.op2, sdSelect_eq]
  simp only [decide_eq_true_eq]

theorem exec_blendInstr (m : MathMode) (main sub : Half) (sd : Byte) (s : State) :
    exec (blendInstr m main sub sd) s = .next (s.respondColor (s.calc m main sub sd)) := by
  cases m <;> rfl

/-- A conditional half mode halves in one case: `CLIP` clear and the peer pixel selected. -/
theorem respondsColour_conditionalHalf {i : Instr} {s : State} {sub : Half} {sd : Byte}
    (half full : Half → Half)
    (h : respondsColour i s
      (if s.ctx.clip then full (s.op2 sub sd)
        else if s.sdSelect sd then half sub else full s.ctx.fixedcol)) :
    respondsColour i s
      (if ¬ s.ctx.clip = true ∧ sd.toNat / 2 ^ s.cfg.sdSelectBit % 2 = 1 then half sub
        else full (if sd.toNat / 2 ^ s.cfg.sdSelectBit % 2 = 1 then sub else s.ctx.fixedcol)) := by
  rw [op2_eq, sdSelect_eq] at h
  by_cases hclip : s.ctx.clip = true
  · simpa [hclip] using h
  · by_cases hpeer : sd.toNat / 2 ^ s.cfg.sdSelectBit % 2 = 1 <;> simpa [hclip, hpeer] using h

/-- `Calc` reads the SD byte through its select bit alone. -/
theorem calc_congr_sd {s : State} {sd sd' : Byte} (h : s.sdSelect sd = s.sdSelect sd') (m : MathMode)
    (main sub : Half) : s.calc m main sub sd = s.calc m main sub sd' := by
  cases m <;>
    simp only [State.calc, State.blendAdd, State.blendAdds, State.blendSub, State.blendSubs,
      State.blendAddb, State.blendAddbs, State.op2, h]


/-! ## The statements -/

/-- Settles O16: the operator keeps 5 bits a channel, so its channels are read back from the result. -/
theorem cmAddSaturates : Obligations.CmAddSaturates := by
  refine ⟨decodesColours_of_opcode (opc := 0x10) fun _ => rfl,
    fun s c1 c2 => ⟨colorAdd s.cfg.pixfmt c1 c2, rfl, ?_⟩⟩
  rw [chan_colorAdd]
  exact ⟨rfl, rfl, rfl, rfl⟩

/-- Settles O17: the fields are read back from the result, and the masks act on them lane by lane. -/
theorem cmAddhAverages : Obligations.CmAddhAverages := by
  refine ⟨decodesColours_of_opcode (opc := 0x11) fun _ => rfl,
    decodesColours_of_opcode (opc := 0x15) fun _ => rfl,
    fun s c1 c2 => ⟨colorAddH s.cfg.pixfmt c1 c2, rfl, rfl, ?_⟩⟩
  have hmasks := colorAddH_eq_masks s.cfg.pixfmt c1 c2
  rw [fields_colorAddH]
  exact ⟨rfl, rfl, rfl, rfl, hmasks⟩

/-- Settles O18: natural subtraction clamps each channel, and the channels are read back. -/
theorem cmSubClamps : Obligations.CmSubClamps := by
  refine ⟨decodesColours_of_opcode (opc := 0x12) fun _ => rfl,
    fun s c1 c2 => ⟨colorSub s.cfg.pixfmt c1 c2, rfl, ?_⟩⟩
  rw [chan_colorSub]
  exact ⟨cast_sub_eq_max _ _, cast_sub_eq_max _ _, cast_sub_eq_max _ _, rfl⟩

/-- Settles O19: natural subtraction clamps each halved field, and the fields are read back. -/
theorem cmSubhHalves : Obligations.CmSubhHalves := by
  refine ⟨decodesColours_of_opcode (opc := 0x13) fun _ => rfl,
    fun s c1 c2 => ⟨colorSubH s.cfg.pixfmt c1 c2, rfl, ?_⟩⟩
  rw [fields_colorSubH]
  exact ⟨cast_sub_eq_max _ _, cast_sub_eq_max _ _, cast_sub_eq_max _ _, rfl⟩

/-- Settles O20: an entry of `BCAP` is 5 bits, and the sum of two channels is an index of the table. -/
theorem cmAddbLooksUp : Obligations.CmAddbLooksUp := by
  refine ⟨decodesColours_of_opcode (opc := 0x14) fun _ => rfl,
    fun s c1 c2 => ⟨colorAddB s.cfg.pixfmt s.bcap c1 c2, rfl, ?_⟩, fun s c1 c2 hbcap => ?_⟩
  · rw [chan_colorAddB]
    exact ⟨rfl, rfl, rfl, rfl⟩
  · exact congrArg (fun c => Host.Outcome.next (s.respondColor c))
      (colorAddB_of_saturating s.cfg.pixfmt hbcap c1 c2)

/-- Settles O21: with the guard bits the fields of the index are the halves' differences, unclamped. -/
theorem subtractHalfTable : Obligations.SubtractHalfTable :=
  ⟨fun _ _ _ => rfl, colorSubH_eq_table .rgb565, colorSubH_eq_table .rgb555⟩

/-- Settles O22: the three modes read the SD bit through `Op2` alone. -/
theorem blendFullModes : Obligations.BlendFullModes := by
  refine ⟨decodesBlend_of_mode .add, decodesBlend_of_mode .sub, decodesBlend_of_mode .addb,
    fun s main sub sd => ?_⟩
  rw [← op2_eq]
  exact ⟨rfl, rfl, rfl⟩

/-- Settles O23: the two modes branch on `CLIP` as the statement does. -/
theorem blendFixedHalfModes : Obligations.BlendFixedHalfModes :=
  ⟨decodesBlend_of_mode .addf, decodesBlend_of_mode .subf, fun _ _ _ _ => ⟨rfl, rfl⟩⟩

/-- Settles O24: the three modes are one branch on `CLIP` and the SD bit. -/
theorem blendConditionalHalfModes : Obligations.BlendConditionalHalfModes := by
  refine ⟨decodesBlend_of_mode .adds, decodesBlend_of_mode .subs, decodesBlend_of_mode .addbs,
    fun s main sub sd => ?_⟩
  exact ⟨respondsColour_conditionalHalf (colorAddH _ main) (colorAdd _ main) rfl,
    respondsColour_conditionalHalf (colorSubH _ main) (colorSub _ main) rfl,
    respondsColour_conditionalHalf (colorAddH _ main) (colorAddB _ s.bcap main) rfl⟩

/-- Settles O25: every mode reads the SD byte through its select bit, and there are nine modes. -/
theorem blendNoneAndSdBit : Obligations.BlendNoneAndSdBit := by
  refine ⟨decodesBlend_of_mode .none, fun _ _ _ _ => rfl, fun s m main sub sd sd' hsd => ?_,
    fun _ _ h8 h256 hw => decode_blend_illegal h8 h256 hw⟩
  have hsel : s.sdSelect sd = s.sdSelect sd' := by rw [sdSelect_eq, sdSelect_eq, hsd]
  rw [exec_blendInstr, exec_blendInstr, calc_congr_sd hsel]

end Sys2Proof.Machine
end

section
/-! SUPPORT, O26 to O28 and O44. What the PLOT commands draw cell by cell (rules R171 to R177), and the fault of
a plot whose base address is out of range, by itself and in a pixel loop (rules R172, R302, R305). -/

namespace Sys2Proof.Machine

open EncodingLaws

/-! ## Packets of format P (rules R112, R114) -/

/-- A format P packet under its own header is legal when its last three words are bytes. -/
theorem decodesPlot_of_opcode {opc : BitVec 8}
    {mk : Word → Word → Word → Word → Byte → Byte → Byte → Instr}
    (hopc : ∀ p, decodeOpc opc.toNat p = decodeP p mk) : decodesPlot (header opc 0) mk := by
  intro n m offset oil w5 w6 w7
  have himm : Packet.imm ⟨header opc 0, n, m, offset, oil, w5, w6, w7⟩ = 0 := imm_of_header rfl
  rw [decode_of_header rfl, hopc, decodeP, if_pos himm]
  simp [operandsOk, fits_byte, and_assoc]

/-! ## The fault and the gate (rules R170, R172, R302) -/

theorem raise_eq_faultState (c : FaultCode) (s : State) : s.raise c = faultState c s := rfl

/-- In range, the gate decides what a plot does. -/
theorem plotVariant_gated {v : AddrMode} {p : PlotCall} {s : State} (hbase : ¬ p.baseOut v s)
    (hgate : s.passes p (s.index (p.base v)) = false) : plotVariant v p s = .ended s := by
  have hno : ¬ s.passes p (s.index (p.base v)) = true := Bool.eq_false_iff.mp hgate
  cases v with
  | n1x1 =>
    rw [plotVariant, plotN1x1, phys_of_inRange (not_not.mp hbase)]
    exact congrArg _ (if_neg hno)
  | n2x1 | int =>
    obtain ⟨ha, hb⟩ := not_not.mp hbase
    show plotN2x1 p s = _
    rw [plotN2x1, phys2_of_inRange ha hb]
    exact congrArg _ (if_neg hno)
  | hires | hiresint =>
    obtain ⟨ha, hb⟩ := not_not.mp hbase
    show plotHires p s = _
    rw [plotHires, phys2_of_inRange ha hb]
    exact if_neg hno

theorem onlyTarget_done {s u : State} (h : s.onlyTarget u) (v : RespValue) :
    s.onlyTarget (u.done v) := by
  unfold State.onlyTarget at h ⊢
  split at h <;> (rw [h]; rfl)

section Command

variable {v : AddrMode} {s u : State} {n m offset oil : Word} {pix z1 z2 : Byte}

/-- A base address out of range is the precise fault `F_BUF_RANGE`. -/
theorem exec_plot_baseOut (h : (plotArgs n m offset oil pix z1 z2).baseOut v s) :
    exec (plotInstr v n m offset oil pix z1 z2) s = .next (faultState .bufRange s) := by
  rw [exec_plotInstr, State.plotCommand, plotVariant_baseOut h, ← raise_eq_faultState]

theorem exec_plot_ended (h : plotVariant v (plotArgs n m offset oil pix z1 z2) s = .ended u) :
    exec (plotInstr v n m offset oil pix z1 z2) s = .next (u.done (.word 0)) := by
  rw [exec_plotInstr, State.plotCommand, h]

/-- The gate in the words of the statements. -/
theorem passes_plotArgs (i : Nat) :
    s.passes (plotArgs n m offset oil pix z1 z2) i = true ↔ m ≠ 0 ∧ (s.readTZ i).toNat < z1.toNat := by
  rw [passes_iff]
  exact and_congr_left fun _ => decide_eq_true_iff

/-- A transparent or gated pixel in range changes nothing but the response. -/
theorem exec_plot_gated (hbase : ¬ (plotArgs n m offset oil pix z1 z2).baseOut v s)
    (hgate : ¬(m ≠ 0
      ∧ (s.readTZ (s.index ((plotArgs n m offset oil pix z1 z2).base v))).toNat < z1.toNat)) :
    exec (plotInstr v n m offset oil pix z1 z2) s
      = .next { s with response := some (.ok (.word 0)) } :=
  exec_plot_ended (plotVariant_gated hbase (Bool.eq_false_iff.mpr (mt (passes_plotArgs _).mp hgate)))

end Command

/-! ## PLOT.N1X1 (rule R173) -/

theorem readTS_draw1 (s : State) (p : PlotCall) (i l : Nat) :
    (s.draw1 p i).readTS l = if l = i then s.blendAt i p.pix else s.readTS l := by
  rw [State.draw1, Draws.readTS_writeTZ, Draws.readTS_writeTS]

theorem readTZ_draw1 (s : State) (p : PlotCall) (i l : Nat) :
    (s.draw1 p i).readTZ l = if l = i then p.z2 else s.readTZ l := by
  rw [State.draw1, Draws.readTZ_writeTZ, Draws.readTZ_writeTS]

theorem draw1_freeCount (s : State) (p : PlotCall) (i : Nat) :
    (s.draw1 p i).freeCount = s.freeCount := by
  simp [State.draw1]

theorem plotN1x1_drawn {p : PlotCall} {s : State} (ha : s.inRange p.base1)
    (hgate : s.passes p (s.index p.base1) = true) :
    plotN1x1 p s = .ended (s.draw1 p (s.index p.base1)) := by
  rw [plotN1x1, phys_of_inRange ha]
  exact congrArg _ (if_pos hgate)

/-! ## PLOT.N2X1 and PLOT.INT (rules R174, R175) -/

theorem readTS_draw2 (s : State) (p : PlotCall) (i j l : Nat) :
    (s.draw2 p i j).readTS l = if l = j ∨ l = i then s.blendAt i p.pix else s.readTS l := by
  rw [State.draw2, Draws.readTS_writeTZ, Draws.readTS_writeTZ, Draws.readTS_writeTS,
    Draws.readTS_writeTS, ite_or]

theorem readTZ_draw2 (s : State) (p : PlotCall) (i j l : Nat) :
    (s.draw2 p i j).readTZ l = if l = j ∨ l = i then p.z2 else s.readTZ l := by
  rw [State.draw2, Draws.readTZ_writeTZ, Draws.readTZ_writeTZ, Draws.readTZ_writeTS,
    Draws.readTZ_writeTS, ite_or]

theorem draw2_freeCount (s : State) (p : PlotCall) (i j : Nat) :
    (s.draw2 p i j).freeCount = s.freeCount := by
  simp [State.draw2]

theorem plotN2x1_drawn {p : PlotCall} {s : State} (ha : s.inRange p.base2)
    (hb : s.inRange (p.base2 + 1)) (hgate : s.passes p (s.index p.base2) = true) :
    plotN2x1 p s = .ended (s.draw2 p (s.index p.base2) (s.index (p.base2 + 1))) := by
  rw [plotN2x1, phys2_of_inRange ha hb]
  exact congrArg _ (if_pos hgate)

theorem exec_plotInt (n m offset oil : Word) (pix z1 z2 : Byte) (s : State) :
    exec (.plotInt n m offset oil pix z1 z2) s = exec (.plotN2x1 n m offset oil pix z1 z2) s := rfl

theorem plotN2x1_plotsTwoColumns : plotsTwoColumns .plotN2x1 := by
  intro s n m offset oil pix z1 z2
  refine ⟨fun hout => exec_plot_baseOut (v := .n2x1) hout,
    fun ha hb hgate => exec_plot_gated (v := .n2x1) (not_not_intro ⟨ha, hb⟩) hgate,
    fun ha hb hm hz => ?_⟩
  have hplot := plotN2x1_drawn (p := plotArgs n m offset oil pix z1 z2) ha hb
    ((passes_plotArgs _).mpr ⟨hm, hz⟩)
  have hcolumn : ∀ {i j l : Nat}, l = j ∨ l = i →
      (s.draw2 (plotArgs n m offset oil pix z1 z2) i j).readTS l = s.blendAt i pix :=
    fun hl => (readTS_draw2 s _ _ _ _).trans (if_pos hl)
  refine ⟨_, exec_plot_ended (v := .n2x1) hplot, hcolumn (.inr rfl),
    (hcolumn (.inl rfl)).trans (hcolumn (.inr rfl)).symm,
    (readTZ_draw2 s _ _ _ _).trans (if_pos (.inr rfl)),
    (readTZ_draw2 s _ _ _ _).trans (if_pos (.inl rfl)), fun l hli hlj => ?_,
    onlyTarget_done (plotVariant_draws (v := .n2x1) hplot).onlyTarget _, draw2_freeCount s _ _ _, rfl⟩
  have hl := not_or_intro hlj hli
  exact ⟨(readTS_draw2 s _ _ _ l).trans (if_neg hl), (readTZ_draw2 s _ _ _ l).trans (if_neg hl)⟩

theorem plotInt_plotsTwoColumns : plotsTwoColumns .plotInt := by
  unfold plotsTwoColumns
  simp only [exec_plotInt]
  exact plotN2x1_plotsTwoColumns

/-! ## PLOT.HIRES and PLOT.HIRESINT (rules R176, R177) -/

theorem index_add {s : State} {a : Int} (h : s.inRange a) (d : Nat) :
    s.index (a + d) = s.index a + d := by
  obtain ⟨hlow, _⟩ := h
  unfold State.index
  omega

/-- The three columns of a hi-res pixel are three cells. -/
theorem hires_columns_apart {s : State} {a : Int} (h : s.inRange a) :
    s.index (a + 1) ≠ s.index a ∧ s.index (a + 2) ≠ s.index a ∧ s.index (a + 2) ≠ s.index (a + 1) := by
  have hone := index_add h 1
  have htwo := index_add h 2
  push_cast at hone htwo
  omega

/-- The screen cells of a hi-res plot: the first column only at the start of a line, the combined column only
where the pixel combines and the column is in range. -/
theorem screenOf_hires {p : PlotCall} {s : State} {l : Nat} (h : p.screenOf .hires s l) :
    (l = s.index p.base2 ∧ p.firstOfLine s = true) ∨ l = s.index (p.base2 + 1)
      ∨ (l = s.index (p.base2 + 2) ∧ p.combines = true ∧ s.inRange (p.base2 + 2)) := by
  obtain ⟨a, ha, hl⟩ := h
  obtain ⟨hin, rfl⟩ := (phys_eq_some s a l).mp hl
  simp only [PlotCall.screenAddrs, List.mem_append, List.mem_ite_nil_right, List.mem_singleton] at ha
  obtain (⟨hfirst, rfl⟩ | rfl) | ⟨hcombines, rfl⟩ := ha
  · exact .inl ⟨rfl, hfirst⟩
  · exact .inr (.inl rfl)
  · exact .inr (.inr ⟨rfl, hcombines, hin⟩)

theorem depthOf_hires {p : PlotCall} {s : State} {l : Nat} (h : p.depthOf .hires s l) :
    l = s.index p.base2 ∨ l = s.index (p.base2 + 1) := by
  obtain ⟨a, ha, hl⟩ := h
  obtain ⟨_, rfl⟩ := (phys_eq_some s a l).mp hl
  obtain rfl | rfl := List.mem_pair.mp ha
  · exact .inl rfl
  · exact .inr rfl

theorem readTS_drawMain (s : State) (p : PlotCall) (i j l : Nat) :
    (s.drawMain p i j).readTS l = if l = j then s.blendAt i p.pix else s.readTS l :=
  Draws.readTS_writeTS s j l _

/-- The main column is no operand of the combined one. -/
theorem readTS_combined {k j : Nat} (hkj : k ≠ j) (s : State) (p : PlotCall) (i : Nat) (sd : Byte)
    (l : Nat) :
    ((s.drawMain p i j).drawCombined p sd k).readTS l
      = if l = k then s.calc s.ctx.rsel.math (if s.ctx.clip then 0 else Memory.read s.sSub k)
          (s.realColor p.pix) sd
        else (s.drawMain p i j).readTS l := by
  have hmain : Draws (· = j) (fun _ => False) s (s.drawMain p i j) := .screen j _ .refl rfl
  have hreal : (s.drawMain p i j).realColor p.pix = s.realColor p.pix := by rw [hmain.rest]; rfl
  rw [State.drawCombined, Draws.readTS_writeTS, calc_of_draws hmain, hmain.ctx, hreal,
    (peer_outside hmain hkj not_false).1]

theorem readTS_finishHires {i l : Nat} (hl : l ≠ i) (s : State) (p : PlotCall) (j : Nat) :
    (s.finishHires p i j).readTS l = s.readTS l := by
  rw [State.finishHires, Draws.readTS_writeTZ, Draws.readTS_writeTZ]
  split
  · rw [State.freeTS, Draws.readTS_count, Draws.readTS_writeTS, if_neg hl]
  · rfl

theorem readTZ_finishHires {i j l : Nat} (hl : l = j ∨ l = i) (s : State) (p : PlotCall) :
    (s.finishHires p i j).readTZ l = p.z2 := by
  rw [State.finishHires, Draws.readTZ_writeTZ, Draws.readTZ_writeTZ, ← ite_or, if_pos hl]

/-- The cells a hi-res plot writes when it passes the gate and its columns are in range. -/
theorem plotHires_drawn {p : PlotCall} {s : State} (ha : s.inRange p.base2)
    (hb : s.inRange (p.base2 + 1)) (hgate : s.passes p (s.index p.base2) = true)
    (hcolumn : p.combines = true → s.inRange (p.base2 + 2)) :
    ∃ u, plotHires p s = .ended u
      ∧ u.readTS (s.index (p.base2 + 1)) = s.blendAt (s.index p.base2) p.pix
      ∧ (p.combines = true → u.readTS (s.index (p.base2 + 2))
          = s.calc s.ctx.rsel.math
              (if s.ctx.clip then 0 else Memory.read s.sSub (s.index (p.base2 + 2)))
              (s.realColor p.pix) (Memory.read s.zSub (s.index p.base2)))
      ∧ u.readTZ (s.index p.base2) = p.z2 ∧ u.readTZ (s.index (p.base2 + 1)) = p.z2 := by
  obtain ⟨hji, hki, hkj⟩ := hires_columns_apart ha
  obtain ⟨hout, _⟩ | ⟨_, _, hno, _⟩ | ⟨_, _, _, hc, hout, _⟩ | ⟨_, _, _, _, _, hplot⟩
    | ⟨_, _, _, hc, hplot⟩ := plotHires_cases p s
  · exact absurd ⟨ha, hb⟩ hout
  · exact absurd (hgate.symm.trans hno) (by decide)
  · exact absurd (hcolumn hc) hout
  · refine ⟨_, hplot, ?_, fun _ => ?_, readTZ_finishHires (.inr rfl) _ _,
      readTZ_finishHires (.inl rfl) _ _⟩
    · rw [State.hiresCombined, readTS_finishHires hji, readTS_combined hkj, if_neg hkj.symm,
        readTS_drawMain, if_pos rfl]
    · rw [State.hiresCombined, readTS_finishHires hki, readTS_combined hkj, if_pos rfl]
  · refine ⟨_, hplot, ?_, fun hyes => absurd (hyes.symm.trans hc) (by decide),
      readTZ_finishHires (.inr rfl) _ _, readTZ_finishHires (.inl rfl) _ _⟩
    rw [State.hiresLast, readTS_finishHires hji, readTS_drawMain, if_pos rfl]

/-- The combined column out of range stops the plot, and leaves its footprint unspecified (rule R305). -/
theorem plotHires_outAtCombined {p : PlotCall} {s : State} (ha : s.inRange p.base2)
    (hb : s.inRange (p.base2 + 1)) (hgate : s.passes p (s.index p.base2) = true)
    (hcombines : p.combines = true) (hout : ¬ s.inRange (p.base2 + 2)) :
    ∃ u, s.plotCommand .hires p = u.raise .bufRange
      ∧ Draws (p.screenOf .hires s) (p.depthOf .hires s) s u := by
  have hplot : plotHires p s = .outAtCombined := by
    rw [plotHires, phys2_of_inRange ha hb, (phys_eq_none s _).mpr hout]
    simp only [hgate, hcombines, if_true]
  obtain ⟨u, hdrawn, hdone | hraise⟩ := plotCommand_cases .hires p s
  · rw [State.plotCommand, plotVariant, hplot] at hdone
    exact absurd (congrArg State.response hdone) (by simp)
  · exact ⟨u, hraise, hdrawn⟩

/-- What a fault after drawing leaves alone. -/
theorem Draws.raise_frame {A B : Nat → Prop} {s u : State} (h : Draws A B s u) (c : FaultCode) :
    (u.raise c).ctx = (faultState c s).ctx ∧ s.sameInputs (u.raise c) ∧ s.sameCatalog (u.raise c)
      ∧ (u.raise c).bcap = s.bcap ∧ (u.raise c).tcbuf = s.tcbuf ∧ (u.raise c).tcflag = s.tcflag := by
  rw [h.rest]
  exact ⟨rfl, ⟨rfl, rfl, rfl, rfl, rfl, rfl, rfl⟩, ⟨rfl, rfl, rfl, rfl, rfl, rfl, rfl, rfl⟩, rfl, rfl,
    rfl⟩

theorem exec_plotHiresint (n m offset oil : Word) (pix z1 z2 : Byte) (s : State) :
    exec (.plotHiresint n m offset oil pix z1 z2) s = exec (.plotHires n m offset oil pix z1 z2) s := rfl

theorem plotHires_plotsHires : plotsHires .plotHires := by
  intro s n m offset oil pix z1 z2
  refine ⟨fun hout => exec_plot_baseOut (v := .hires) hout,
    fun ha hb hgate => exec_plot_gated (v := .hires) (not_not_intro ⟨ha, hb⟩) hgate,
    fun ha hb hm hz hpos hout => ?_, fun ha hb hm hz hcolumn => ?_⟩
  · obtain ⟨u, hraise, hdrawn⟩ := plotHires_outAtCombined (p := plotArgs n m offset oil pix z1 z2) ha hb
      ((passes_plotArgs _).mpr ⟨hm, hz⟩) (decide_eq_true hpos) hout
    obtain ⟨hctx, hinputs, hcatalog, hbcap, htcbuf, htcflag⟩ := hdrawn.raise_frame .bufRange
    refine ⟨_, congrArg Host.Outcome.next hraise, rfl, hctx, fun l hli hlj =>
      ⟨hdrawn.readTS_outside fun hl => ?_, hdrawn.readTZ_outside fun hl => ?_⟩,
      hdrawn.peer, hinputs, hcatalog, hbcap, htcbuf, htcflag⟩
    · obtain ⟨hi, _⟩ | hj | ⟨_, _, hk⟩ := screenOf_hires hl
      exacts [hli hi, hlj hj, hout hk]
    · exact (depthOf_hires hl).elim hli hlj
  · obtain ⟨u, hplot, hmain, hcombined, hzi, hzj⟩ :=
      plotHires_drawn (p := plotArgs n m offset oil pix z1 z2) ha hb
        ((passes_plotArgs _).mpr ⟨hm, hz⟩) fun hc => hcolumn (of_decide_eq_true hc)
    have hdrawn := plotVariant_draws (v := .hires) hplot
    obtain ⟨hji, hki, hkj⟩ := hires_columns_apart ha
    refine ⟨_, exec_plot_ended (v := .hires) hplot, hmain, fun hpos => hcombined (decide_eq_true hpos),
      fun hpos => hdrawn.readTS_outside fun hl => ?_, fun hpos => hdrawn.readTS_outside fun hl => ?_,
      hzi, hzj, fun l hli hlj hlk => hdrawn.readTS_outside fun hl => ?_,
      fun l hli hlj => hdrawn.readTZ_outside fun hl => (depthOf_hires hl).elim hli hlj,
      onlyTarget_done hdrawn.onlyTarget _, rfl⟩
    · obtain ⟨hi, _⟩ | hj | ⟨_, hc, _⟩ := screenOf_hires hl
      exacts [hki hi, hkj hj, of_decide_eq_true hc hpos]
    · obtain ⟨_, hfirst⟩ | hj | ⟨hk, _⟩ := screenOf_hires hl
      exacts [hpos (of_decide_eq_true hfirst), hji hj.symm, hki hk.symm]
    · obtain ⟨hi, _⟩ | hj | ⟨hk, _⟩ := screenOf_hires hl
      exacts [hli hi, hlj hj, hlk hk]

theorem plotHiresint_plotsHires : plotsHires .plotHiresint := by
  unfold plotsHires
  simp only [exec_plotHiresint]
  exact plotHires_plotsHires

/-! ## A plot out of range in a pixel loop (rules R172, R302, R305) -/

/-- The check of the base address reads the line address and the column alone. -/
theorem baseOut_congr {p q : PlotCall} (hoffset : p.offset = q.offset) (hn : p.n = q.n) (v : AddrMode)
    (s : State) : p.baseOut v s ↔ q.baseOut v s := by
  unfold PlotCall.baseOut PlotCall.base1 PlotCall.base2
  rw [hoffset, hn]

/-- The response and `STATUS` of `F_BUF_RANGE`, `CAPREQ` kept. -/
def State.endedOutOfRange (s t : State) : Prop :=
  t.response = some (.fault .bufRange)
    ∧ t.ctx.status = { halt := true, capreq := s.ctx.status.capreq, faultCode := 3 }

theorem runPlots_baseOut {ps : List PlotCall} {p : PlotCall} {u : State} (hmem : p ∈ ps)
    (hout : p.baseOut u.ctx.rsel.addr u) : u.endedOutOfRange (u.runPlots ps) := by
  obtain ⟨w, hdrawn, ⟨hall, _⟩ | ⟨_, hraise⟩⟩ := runPlots_cases ps u
  · exact absurd (hall.symm.trans (plotAll_baseOut hmem hout)) (by simp)
  · rw [hraise]
    refine ⟨rfl, ?_⟩
    rw [State.raise_ctx_status, hdrawn.ctx]
    rfl

/-- The plots of a rectangle, one of whose positions has its base address out of range. -/
theorem runPlots_grid_baseOut {s u : State} (hp : Prepared s u)
    (hcapreq : u.ctx.status.capreq = s.ctx.status.capreq) {offset : Word} {lines : Nat}
    {cols : List Nat} {base oil n : Int} (hplaced : s.placed offset lines (· ∈ cols) base oil n)
    (hout : (cellCall base oil n).baseOut s.ctx.rsel.addr s) {f : Nat → Nat → PlotCall}
    (hoffset : ∀ k c, (f k c).offset = u.lineAddr offset k) (hn : ∀ k c, (f k c).n = c) :
    s.endedOutOfRange (u.runPlots ((List.range lines).flatMap fun k => cols.map fun c => f k c)) := by
  obtain ⟨k, hk, c, hc, rfl, rfl, rfl⟩ := hplaced
  have hmem : f k c ∈ (List.range lines).flatMap fun k => cols.map fun c => f k c :=
    List.mem_flatMap.mpr ⟨k, List.mem_range.mpr hk, List.mem_map_of_mem hc⟩
  have haddr : (f k c).offset = offset.toNat + (k : Int) * s.ctx.ppl.toNat := by
    rw [hoffset, State.lineAddr, hp.ppl]
  have hbase : (f k c).baseOut u.ctx.rsel.addr u := by
    rw [hp.rsel, hp.baseOut]
    exact (baseOut_congr haddr (hn k c) _ s).mpr hout
  have hended := runPlots_baseOut hmem hbase
  unfold State.endedOutOfRange at hended ⊢
  rwa [hcapreq] at hended

/-- With `CAPEN` = 0 a tile that is not blank is drawn with no record made (rules R211, R272). -/
theorem tileCommand_captureOff {s : State} {tile : Half} (shape : Shape) (offset : Word)
    (plots : State → List PlotCall) (hopaque : (State.resolve tile s).selectedFlag ≠ 2)
    (hcapen : s.ctx.capen = false) :
    State.tileCommand tile shape offset plots s
      = (State.selectPalette tile (State.resolve tile s)).runPlots
          (plots (State.selectPalette tile (State.resolve tile s))) := by
  obtain ⟨hblank, _⟩ | ⟨_, hon, _⟩ | ⟨u, _, ⟨rfl, _⟩ | ⟨hon, _⟩, h⟩ :=
    tileCommand_cases tile shape offset plots s
  · exact absurd hblank hopaque
  · exact absurd (hcapen.symm.trans hon) (by decide)
  · exact h
  · exact absurd (hcapen.symm.trans hon) (by decide)

theorem mem_columns {left right : Half} {c : Nat} :
    c ∈ columns left right ↔ left.toNat ≤ c ∧ c < right.toNat := by
  unfold columns
  simp only [List.mem_map, List.mem_range]
  constructor
  · rintro ⟨i, hi, rfl⟩
    omega
  · rintro ⟨hleft, hright⟩
    exact ⟨c - left.toNat, by omega, by omega⟩

theorem trTile_baseOut {s : State} {tile : Half} {offset : Word} {sl : BitVec 6} {lc : BitVec 4}
    {base oil n : Int} (hcapen : s.ctx.capen = false) (hrows : ∀ k < lc.toNat, s.rowDrawn tile sl k)
    (hflag : s.slotFlag s.ctx.bpp (s.hflip tile) (s.tileNumber tile) = 1)
    (hplaced : s.placed offset lc.toNat (fun c => c < 8) base oil n)
    (hout : (cellCall base oil n).baseOut s.ctx.rsel.addr s) :
    ∃ t, exec (.trTile tile offset sl lc) s = .next t ∧ s.endedOutOfRange t := by
  have hopaque : (State.resolve tile s).selectedFlag ≠ 2 := by
    rw [resolve_decoded_selectedFlag (by rw [hflag]; decide), hflag]
    decide
  have hrow := (rowsOk_iff s tile sl lc.toNat).mpr hrows
  refine ⟨_, congrArg Host.Outcome.next (if_pos hrow), ?_⟩
  rw [tileCommand_captureOff .tile offset _ hopaque hcapen]
  refine runPlots_grid_baseOut (cols := List.range 8) (prepared_selected s tile) (by simp) ?_ hout
    (fun _ _ => rfl) fun _ _ => rfl
  simpa only [List.mem_range] using hplaced

theorem trBackdrop_baseOut {s : State} {offset : Word} {left right : Half} {base oil n : Int}
    (hplaced : s.placed offset s.lineCount (fun c => left.toNat ≤ c ∧ c < right.toNat) base oil n)
    (hout : (cellCall base oil n).baseOut s.ctx.rsel.addr s) :
    ∃ t, exec (.trBackdrop offset left right) s = .next t ∧ s.endedOutOfRange t := by
  refine ⟨_, rfl, runPlots_grid_baseOut (cols := columns left right)
    (prepared_setScsel s s.backdropScsel) rfl ?_ hout (fun _ _ => rfl) fun _ _ => rfl⟩
  show s.placed offset s.lineCount (· ∈ columns left right) base oil n
  simpa only [mem_columns] using hplaced

/-! ## The statements -/

namespace PlotCommands

/-- Settles O26: the plot is out of range, gated or drawn, and a pixel drawn is two writes at one index. -/
theorem plotN1x1 : Obligations.PlotN1x1 := by
  refine ⟨decodesPlot_of_opcode (opc := 0x20) fun _ => rfl, fun s n m offset oil pix z1 z2 =>
    ⟨fun hout => exec_plot_baseOut (v := .n1x1) hout,
      fun ha hgate => exec_plot_gated (v := .n1x1) (not_not_intro ha) hgate, fun ha hm hz => ?_⟩⟩
  have hplot := plotN1x1_drawn (p := plotArgs n m offset oil pix z1 z2) ha
    ((passes_plotArgs _).mpr ⟨hm, hz⟩)
  exact ⟨_, exec_plot_ended (v := .n1x1) hplot, (readTS_draw1 s _ _ _).trans (if_pos rfl),
    (readTZ_draw1 s _ _ _).trans (if_pos rfl),
    fun l hl => ⟨(readTS_draw1 s _ _ l).trans (if_neg hl), (readTZ_draw1 s _ _ l).trans (if_neg hl)⟩,
    onlyTarget_done (plotVariant_draws (v := .n1x1) hplot).onlyTarget _, draw1_freeCount s _ _, rfl⟩

/-- Settles O27: a pixel drawn is one blend written to two columns, and PLOT.INT does the same. -/
theorem plotN2x1AndInt : Obligations.PlotN2x1AndInt :=
  ⟨decodesPlot_of_opcode (opc := 0x21) fun _ => rfl, decodesPlot_of_opcode (opc := 0x22) fun _ => rfl,
    plotN2x1_plotsTwoColumns, plotInt_plotsTwoColumns⟩

/-- Settles O28: a hi-res plot writes inside its columns, those in range when it faults, and PLOT.HIRESINT does
the same. -/
theorem plotHiresAndHiresint : Obligations.PlotHiresAndHiresint :=
  ⟨decodesPlot_of_opcode (opc := 0x23) fun _ => rfl, decodesPlot_of_opcode (opc := 0x24) fun _ => rfl,
    plotHires_plotsHires, plotHiresint_plotsHires⟩

end PlotCommands

/-- Settles O44: the plots of both commands are a rectangle, and a loop over it does not complete. -/
theorem outOfRangePlotFaults : Obligations.OutOfRangePlotFaults := by
  refine ⟨fun s tile offset sl lc base oil n hcapen hrows hflag hplaced hout => ?_,
    fun _ _ _ _ _ _ _ hplaced hout => trBackdrop_baseOut hplaced hout⟩
  rw [tileNumberOf_eq] at hflag
  exact trTile_baseOut hcapen hrows hflag hplaced hout

end Sys2Proof.Machine
end

section
/-! SUPPORT, O29 and O31. The slot that TC.RESOLVE names and decodes (rules R190 to R193), and the decoded slots,
which every command but the frame start and the soft reset keeps (rules R192, R197, R198). -/

namespace Sys2Proof.Machine

/-! ## TC.RESOLVE -/

theorem exec_tcResolve (r : Half) (s : State) :
    exec (.tcResolve r) s
      = .next (State.done (.word (s.resolved r).word) (State.resolve r s)) := rfl

/-- `Resolve` neither reads nor writes the response. -/
theorem resolve_done (r : Half) (v : RespValue) (s : State) :
    State.resolve r (State.done v s) = State.done v (State.resolve r s) := by
  by_cases h : s.slotFlag s.ctx.bpp (s.hflip r) (s.tileNumber r) = 0
  · have hdone : State.resolve r (State.done v s) = _ := resolve_of_fresh h
    rw [hdone, resolve_of_fresh h]
    rfl
  · have hdone : State.resolve r (State.done v s) = _ := resolve_of_decoded h
    rw [hdone, resolve_of_decoded h]
    rfl

/-- A reference names the same slot before and after its `Resolve`: the latch of the second is that of the
first. -/
theorem resolved_resolve (r : Half) (s : State) :
    (State.resolve r s).resolved r = s.resolved r := by
  rw [← State.resolve_ctx_tcsel (State.resolve r s), resolve_idempotent, State.resolve_ctx_tcsel]

/-- The tile number of every bank fits its 12 bits (rule R190). -/
theorem tileAddress_shift_lt (s : State) (r : Half) :
    tileAddress s r >>> (4 + s.ctx.bpp.num) < 4096 := by
  have hnumber : (s.tileNumber r).toNat = tileAddress s r >>> (4 + s.ctx.bpp.num) := by
    rw [tileNumber_toNat, tileAddress_eq, Nat.shiftRight_eq_div_pow, tileShift]
  exact hnumber ▸ (s.tileNumber r).isLt

/-- Settles O29: on a decoded slot `Resolve` writes the latch alone, on a fresh one also the cache and its
counter. -/
theorem resolveNamesSlot : Obligations.ResolveNamesSlot := by
  refine ⟨decodesTileRef_of_opcode (opc := 0x30) fun _ => rfl, fun s r => ?_⟩
  simp only [tileNumberOf_eq]
  refine ⟨tileAddress_shift_lt s r, fun hdecoded => ?_, fun hfresh => ⟨_, exec_tcResolve r s, ?_⟩⟩
  · rw [exec_tcResolve, resolve_of_decoded hdecoded]
    rfl
  · rw [resolve_of_fresh hfresh]
    rfl

/-! ## What keeps the decoded slots -/

/-- Every slot decoded in `s` has the same flag and the same bytes in `t`. -/
def KeepsDecoded (s t : State) : Prop :=
  ∀ (bank : Bpp) (flip : Bool) (tn : BitVec 12), s.slotFlag bank flip tn ≠ 0 →
    t.slotFlag bank flip tn = s.slotFlag bank flip tn
      ∧ ∀ k < 64, t.cacheByte bank flip tn k = s.cacheByte bank flip tn k

theorem KeepsDecoded.trans {s t u : State} (h : KeepsDecoded s t) (h' : KeepsDecoded t u) :
    KeepsDecoded s u := by
  intro bank flip tn hdecoded
  obtain ⟨hflag, hbytes⟩ := h bank flip tn hdecoded
  obtain ⟨hflag', hbytes'⟩ := h' bank flip tn (hflag ▸ hdecoded)
  exact ⟨hflag'.trans hflag, fun k hk => (hbytes' k hk).trans (hbytes k hk)⟩

theorem keepsDecoded_of_same {s t : State} (hbuf : t.tcbuf = s.tcbuf) (hflag : t.tcflag = s.tcflag) :
    KeepsDecoded s t := by
  unfold KeepsDecoded State.slotFlag State.cacheByte
  rw [hbuf, hflag]
  exact fun _ _ _ _ => ⟨rfl, fun _ _ => rfl⟩

theorem resolve_keepsDecoded (s : State) (tile : Half) : KeepsDecoded s (State.resolve tile s) :=
  fun _ _ _ hdecoded => resolve_keeps_slot s tile hdecoded

theorem Readied.keepsDecoded {s u : State} (hready : Readied s u) : KeepsDecoded s u := by
  induction hready with
  | refl => exact keepsDecoded_of_same rfl rfl
  | setScsel c _ ih => exact ih
  | resolve tile _ ih => exact ih.trans (resolve_keepsDecoded _ tile)
  | capture tile shape offset _ ih => exact ih.trans (keepsDecoded_of_same (by simp) (by simp))

theorem Performs.keepsDecoded {i : Instr} {s u : State} (hdo : Performs i s u)
    (hframe : i ≠ .sysFramestart) (hrst : i ≠ .sysRst) : KeepsDecoded s u := by
  cases hdo with
  | nothing => exact keepsDecoded_of_same rfl rfl
  | reset => exact absurd rfl hrst
  | register => exact keepsDecoded_of_same rfl rfl
  | frame => exact absurd rfl hframe
  | select => exact keepsDecoded_of_same rfl rfl
  | resolve tile => exact resolve_keepsDecoded s tile
  | palette => exact keepsDecoded_of_same rfl rfl
  | draw _ hready hdrawn => rw [hdrawn.rest]; exact hready.keepsDecoded
  | session => exact keepsDecoded_of_same rfl rfl
  | acknowledge => exact keepsDecoded_of_same (by simp) (by simp)

theorem exec_keepsDecoded {i : Instr} {s t : State} (hexec : exec i s = .next t)
    (hframe : i ≠ .sysFramestart) (hrst : i ≠ .sysRst) : KeepsDecoded s t := by
  obtain ⟨u, hdo, ⟨v, rfl⟩ | ⟨c, rfl⟩⟩ := exec_endsIn hexec
  · exact hdo.keepsDecoded hframe hrst
  · exact hdo.keepsDecoded hframe hrst

/-- Settles O31: the second `Resolve` finds the slot decoded and the latch set, and a decode writes a slot only
while its flag is 0. -/
theorem decodedOncePerFrame : Obligations.DecodedOncePerFrame := by
  refine ⟨fun s t r hexec => ?_, fun i s t bank flip tn hexec hframe hrst =>
    exec_keepsDecoded hexec hframe hrst bank flip tn⟩
  obtain rfl := Host.Outcome.next.inj ((exec_tcResolve r s).symm.trans hexec)
  have hlatch : (State.done (.word (s.resolved r).word) (State.resolve r s)).resolved r
      = s.resolved r := resolved_resolve r s
  rw [exec_tcResolve, hlatch, resolve_done, resolve_idempotent, done_done]

end Sys2Proof.Machine
end

section
/-! SUPPORT, O33 and O41. The tile commands as frames (rules R210 to R214, R217): the plots of TR.TILE, TR.CLIP
and TR.MOSPIX lie in their lines and columns, the pixel loop changes the cells of those plots alone, and a fault
before the loop or a blank tile changes none. -/

namespace Sys2Proof.Machine

/-! ## What a command keeps besides its cells -/

theorem sameCatalog_trans {s t u : State} (h : s.sameCatalog t) (h' : t.sameCatalog u) :
    s.sameCatalog u := by
  obtain ⟨htiles, hpals, hrefs, hntiles, hnpals, hnrefs, hshot, hcapreq⟩ := h
  unfold State.sameCatalog at h'
  rwa [htiles, hpals, hrefs, hntiles, hnpals, hnrefs, hshot, hcapreq] at h'

theorem sameCatalog_selected (s : State) (tile : Half) :
    s.sameCatalog (State.selectPalette tile (State.resolve tile s)) := by
  simp [State.sameCatalog]

/-- A pixel loop leaves the catalog, the tile cache and the palette latch as it found them. -/
theorem runPlots_keeps (ps : List PlotCall) (u : State) :
    u.sameCatalog (u.runPlots ps) ∧ u.sameCache (u.runPlots ps)
      ∧ (u.runPlots ps).ctx.scsel = u.ctx.scsel := by
  obtain ⟨w, ⟨_, _, hdrawn⟩, hend | hend⟩ := runPlots_rest ps u <;> rw [hend, hdrawn.rest] <;>
    exact ⟨⟨rfl, rfl, rfl, rfl, rfl, rfl, rfl, rfl⟩, ⟨rfl, rfl, rfl, rfl⟩, rfl⟩

/-- A command that faults before its pixel loop changes no cell. -/
theorem Prepared.changesOnly_raise {s u : State} (hp : Prepared s u) (c : FaultCode)
    (plots : Int → Int → Int → Prop) : s.changesOnly (u.raise c) plots :=
  changesOnly_of_draws (A := fun _ => False) (B := fun _ => False) hp .refl (fun _ => False.elim)
    (fun _ => False.elim) (.inr ⟨c, rfl⟩)

/-- A command that ends before its pixel loop changes no cell. -/
theorem Prepared.changesOnly_done {s u : State} (hp : Prepared s u)
    (plots : Int → Int → Int → Prop) : s.changesOnly (u.done (.word 0)) plots :=
  changesOnly_of_draws (A := fun _ => False) (B := fun _ => False) hp .refl (fun _ => False.elim)
    (fun _ => False.elim) (.inl rfl)

theorem sameCatalog_raise (s : State) (c : FaultCode) : s.sameCatalog (s.raise c) :=
  ⟨rfl, rfl, rfl, rfl, rfl, rfl, rfl, rfl⟩

theorem sameCache_raise (s : State) (c : FaultCode) : s.sameCache (s.raise c) := ⟨rfl, rfl, rfl, rfl⟩

/-! ## Plots of a command that draws from `Offset` (rule R210) -/

/-- The plots of lines and columns lie at the positions of the statements. -/
theorem placed_of_mem_grid {s u : State} (hp : Prepared s u) {offset : Word} {lines : Nat}
    {cols : List Nat} {inside : Nat → Prop} (hcols : ∀ c ∈ cols, inside c)
    {f : Nat → Nat → PlotCall} (hoffset : ∀ k c, (f k c).offset = u.lineAddr offset k)
    (hoil : ∀ k c, (f k c).oil = u.lineOffset offset) (hn : ∀ k c, (f k c).n = c) {p : PlotCall}
    (hmem : p ∈ (List.range lines).flatMap fun k => cols.map fun c => f k c) :
    s.placed offset lines inside p.offset p.oil p.n := by
  obtain ⟨k, hk, hline⟩ := List.mem_flatMap.mp hmem
  obtain ⟨c, hc, rfl⟩ := List.mem_map.mp hline
  refine ⟨k, List.mem_range.mp hk, c, hcols c hc, ?_, ?_, hn k c⟩
  · rw [hoffset, State.lineAddr, hp.ppl]
  · rw [hoil, State.lineOffset, hp.rppl, Int.natCast_mod]

theorem tilePlots_placed {s u : State} (hp : Prepared s u) {tile : Half} {offset : Word}
    {sl : BitVec 6} {lines : Nat} {cols : List Nat} {inside : Nat → Prop}
    (hcols : ∀ c ∈ cols, inside c) :
    ∀ p ∈ State.tilePlots tile offset sl lines cols u,
      s.placed offset lines inside p.offset p.oil p.n :=
  fun _ => placed_of_mem_grid hp hcols (fun _ _ => rfl) (fun _ _ => rfl) fun _ _ => rfl

theorem mospixPlots_placed {s u : State} (hp : Prepared s u) {tile : Half} {offset : Word}
    {sl : BitVec 6} {sp : BitVec 3} {w lines : Nat} :
    ∀ p ∈ State.mospixPlots tile offset sl sp w lines u,
      s.placed offset lines (fun c => c < w) p.offset p.oil p.n := by
  intro p hmem
  unfold State.mospixPlots at hmem
  simp only at hmem
  split at hmem
  · cases hmem
  · exact placed_of_mem_grid hp (fun c hc => by simpa using hc) (fun _ _ => rfl) (fun _ _ => rfl)
      (fun _ _ => rfl) hmem

theorem backdropPlots_placed {s u : State} (hp : Prepared s u) (offset : Word) (left right : Half) :
    ∀ p ∈ State.backdropPlots offset left right u,
      s.placed offset u.lineCount (fun c => left.toNat ≤ c ∧ c < right.toNat) p.offset p.oil p.n :=
  fun _ => placed_of_mem_grid hp (fun _ => mem_columns.mp) (fun _ _ => rfl) (fun _ _ => rfl)
    fun _ _ => rfl

/-! ## TR.TILE, TR.CLIP and TR.MOSPIX (rules R211 to R214, R217) -/

/-- A tile command past its row check: blank, refused by a full catalog, or drawn. -/
theorem tileCommand_frame {s : State} (tile : Half) (shape : Shape) (offset : Word)
    {plots : State → List PlotCall} {placed : Int → Int → Int → Prop}
    (hplots : ∀ u, Prepared s u → ∀ p ∈ plots u, placed p.offset p.oil p.n) :
    let t := State.tileCommand tile shape offset plots s
    s.changesOnly t placed
      ∧ (s.ctx.capen = false ∨ observed shape = false → s.sameCatalog t)
      ∧ ((observed shape = true → s.catalogRoom tile) →
          (∀ base oil n, placed base oil n → s.canPlot base oil n) → s.endedOk t) := by
  intro t
  obtain ⟨_, ht⟩ | ⟨hopaque, hcapture, hobserved, hnone, ht⟩ | ⟨u, _, hready, ht⟩ :=
    tileCommand_cases tile shape offset plots s <;> rw [show t = _ from ht]
  · have hp := prepared_resolve s tile
    exact ⟨hp.changesOnly_done placed, fun _ => by simp [State.sameCatalog],
      fun _ _ => hp.endedOk_done⟩
  · have hfull := captureObserve_eq_none hnone
    refine ⟨(prepared_selected s tile).changesOnly_raise .csFull placed,
      fun _ => sameCatalog_trans (sameCatalog_selected s tile) (sameCatalog_raise _ _),
      fun hroom _ => ?_⟩
    rw [captureFull_of_room (hroom hobserved) hcapture hopaque] at hfull
    cases hfull
  · have hp := prepared_prologue hready
    obtain ⟨hframe, hended⟩ := runPlots_frame hp (hplots u hp)
    refine ⟨hframe, fun hoff => ?_, fun _ => hended⟩
    obtain ⟨rfl, _⟩ | ⟨hcapture, hobserved, _⟩ := hready
    · exact sameCatalog_trans (sameCatalog_selected s tile) (runPlots_keeps _ _).1
    · rw [hcapture, hobserved] at hoff
      exact absurd hoff (by decide)

/-- A tile command with its row check, which faults before any change. -/
theorem checkedTile_frame {s : State} (tile : Half) (shape : Shape) (offset : Word)
    {plots : State → List PlotCall} {placed : Int → Int → Int → Prop} {rows : Bool}
    (hplots : ∀ u, Prepared s u → ∀ p ∈ plots u, placed p.offset p.oil p.n) :
    let t := if rows then State.tileCommand tile shape offset plots s else s.raise .tileRange
    s.changesOnly t placed
      ∧ (s.ctx.capen = false ∨ observed shape = false → s.sameCatalog t)
      ∧ (rows = true → (observed shape = true → s.catalogRoom tile) →
          (∀ base oil n, placed base oil n → s.canPlot base oil n) → s.endedOk t) := by
  cases rows with
  | true =>
    obtain ⟨hframe, hcatalog, hended⟩ := tileCommand_frame tile shape offset hplots
    exact ⟨hframe, hcatalog, fun _ => hended⟩
  | false =>
    exact ⟨(Prepared.refl s).changesOnly_raise .tileRange placed,
      fun _ => sameCatalog_raise s .tileRange, nofun⟩

/-- Settles O33: the plots of each command lie in its lines and columns, and its loop changes no other cell. -/
theorem tileCommandsFrame : Obligations.TileCommandsFrame := by
  refine ⟨fun s tile offset sl lc => ⟨_, rfl, ?_⟩, fun s tile offset sp w sl lc => ⟨_, rfl, ?_⟩,
    fun s tile offset sl sp w lc => ⟨_, rfl, ?_⟩⟩
  · obtain ⟨hframe, hcatalog, hended⟩ := checkedTile_frame (rows := s.rowsOk tile sl lc.toNat) tile
      .tile offset (fun u hp => tilePlots_placed (lines := lc.toNat) hp fun c => List.mem_range.mp)
    exact ⟨hframe, fun hoff => hcatalog (.inl hoff),
      fun hrows hroom => hended ((rowsOk_iff s tile sl _).mpr hrows) fun _ => hroom⟩
  · have hcols : ∀ c ∈ clipColumns sp w, sp.toNat ≤ c ∧ c < min 8 (sp.toNat + w.toNat) := by
      rw [clipColumns_eq_between]
      exact fun c => mem_between.mp
    obtain ⟨hframe, hcatalog, hended⟩ := checkedTile_frame (rows := s.rowsOk tile sl lc.toNat) tile
      .clip offset (fun u hp => tilePlots_placed (lines := lc.toNat) hp hcols)
    exact ⟨hframe, fun hoff => hcatalog (.inl hoff),
      fun hrows hroom => hended ((rowsOk_iff s tile sl _).mpr hrows) fun _ => hroom⟩
  · obtain ⟨hframe, hcatalog, hended⟩ := checkedTile_frame (rows := rowOk (s.srcOfs tile sl 0)) tile
      .mospix offset (fun u hp => mospixPlots_placed (lines := lc.toNat) hp)
    exact ⟨hframe, hcatalog (.inr rfl), fun hrow => hended ((rowOk_srcOfs s tile sl 0).mpr hrow) nofun⟩

/-! ## A blank tile (rules R211, R217) -/

/-- The three tile commands past their row check. -/
theorem exec_tileCommand_of_rows {i : Instr} {s : State} {tile : Half} {offset : Word} {sl : BitVec 6}
    (hi : (∃ lc : BitVec 4, i = .trTile tile offset sl lc ∧ ∀ k < lc.toNat, s.rowDrawn tile sl k)
      ∨ (∃ (sp : BitVec 3) (w lc : BitVec 4), i = .trClip tile offset sp w sl lc
          ∧ ∀ k < lc.toNat, s.rowDrawn tile sl k)
      ∨ ∃ (sp : BitVec 3) (w lc : Half), i = .trMospix tile offset sl sp w lc
          ∧ s.rowDrawn tile sl 0) :
    ∃ shape plots, exec i s = .next (State.tileCommand tile shape offset plots s) := by
  obtain ⟨lc, rfl, hrows⟩ | ⟨sp, w, lc, rfl, hrows⟩ | ⟨sp, w, lc, rfl, hrow⟩ := hi
  · obtain ⟨⟨shape, h⟩, _⟩ := exec_tile_of_rows (.inl ⟨rfl, rfl⟩) hrows
    exact ⟨shape, _, h⟩
  · obtain ⟨⟨shape, h⟩, _⟩ := exec_tile_of_rows (.inr ⟨sp, w, rfl, rfl⟩) hrows
    exact ⟨shape, _, h⟩
  · exact ⟨.mospix, _, exec_mospix_of_row hrow⟩

/-- Settles O41: `Resolve` selects a slot flagged blank, or decodes one whose pixels are all 0 and flags it so,
and the command ends at once. -/
theorem blankTileDrawsNothing : Obligations.BlankTileDrawsNothing := by
  intro i s tile offset sl hi
  obtain ⟨shape, plots, hexec⟩ := exec_tileCommand_of_rows hi
  simp only [tileNumberOf_eq]
  change (s.slotFlag s.ctx.bpp (s.hflip tile) (s.tileNumber tile) = 2 → _)
    ∧ (s.slotFlag s.ctx.bpp (s.hflip tile) (s.tileNumber tile) = 0 → _)
  refine ⟨fun hblank => ?_, fun hfresh hzero => ⟨_, hexec, ?_⟩⟩
  · have hdecoded : s.slotFlag s.ctx.bpp (s.hflip tile) (s.tileNumber tile) ≠ 0 := by
      rw [hblank]; decide
    rw [hexec, tileCommand_blank shape offset plots
      ((resolve_decoded_selectedFlag hdecoded).trans hblank), resolve_of_decoded hdecoded]
    rfl
  · rw [tileCommand_blank shape offset plots ((resolve_fresh_blank_iff hfresh).mpr hzero),
      resolve_of_fresh hfresh]
    rfl

end Sys2Proof.Machine
end

section
/-! SUPPORT, O34 and O37. The commands that fill (rules R216, R230, R235 to R243, R305): TR.BACKDROP and the
Mode-7 commands fault before any change, or select a palette and run the plots of their rectangle; what TR.BACKDROP
leaves in each of its pixels. -/

namespace Sys2Proof.Machine

/-! ## A palette, then a pixel loop (rules R216, R238, R243) -/

/-- The loop runs under the palette the command selects. -/
theorem fill_frame (s : State) (c : Scsel) {ps : List PlotCall}
    {plots shown : Int → Int → Int → Prop} (hps : ∀ p ∈ ps, plots p.offset p.oil p.n)
    (hshown : ∀ p ∈ ps, p.flag = true → shown p.offset p.oil p.n) :
    let t := (State.setScsel c s).runPlots ps
    s.changesOnly t shown ∧ s.sameCatalog t ∧ s.sameCache t ∧ t.ctx.scsel = c
      ∧ ((∀ base oil n, plots base oil n → s.canPlot base oil n) → s.endedOk t) := by
  obtain ⟨hframe, hended⟩ := runPlots_masked (prepared_setScsel s c) hps hshown
  obtain ⟨hcatalog, hcache, hscsel⟩ := runPlots_keeps ps (State.setScsel c s)
  exact ⟨hframe, hcatalog, hcache, hscsel, hended⟩

theorem backdropScsel_eq (s : State) :
    s.backdropScsel = ⟨if s.ctx.fbd.en then .forced else .pal, s.ctx.clip, 0, 0⟩ := by
  unfold State.backdropScsel
  split <;> rfl

theorem m7Scsel_eq (s : State) (bg : Bg) :
    s.m7Scsel bg = ⟨if bg = .bg1 ∧ s.ctx.direct then .direct else .pal, s.ctx.clip, 0, 0⟩ := by
  cases bg with
  | bg1 => cases hdirect : s.ctx.direct <;> simp [State.m7Scsel, hdirect]
  | bg2 => rfl

theorem linesOk_iff (s : State) : s.linesOk = true ↔ s.linesInTable := decide_eq_true_iff

theorem mosaicLinesOk_iff_blocksInTable (s : State) : s.mosaicLinesOk = true ↔ s.blocksInTable := by
  unfold State.mosaicLinesOk State.blocksInTable
  rw [Bool.and_eq_true, linesOk_iff, decide_eq_true_iff]
  rfl

/-! ## Mode-7 rows (rule R238) -/

theorem m7RowPlots_placed (s : State) (bg : Bg) (left right : Half) (d : Byte) :
    ∀ p ∈ State.m7RowPlots bg left right d s,
      s.placedRows s.ctx.starty.toNat (fun c => left.toNat ≤ c ∧ c < right.toNat)
        p.offset p.oil p.n := by
  intro p hmem
  obtain ⟨k, hk, hline⟩ := List.mem_flatMap.mp hmem
  obtain ⟨x, hx, hplot⟩ := List.mem_filterMap.mp hline
  obtain ⟨b, _, rfl⟩ := Option.map_eq_some_iff.mp hplot
  have hcount : k < s.ctx.endy.toNat + 1 - s.ctx.starty.toNat := List.mem_range.mp hk
  exact ⟨s.ctx.starty.toNat + k, by omega, by omega, x, mem_columns.mp hx, rfl, Int.natCast_mod _ _,
    rfl⟩

theorem m7Row_frame (bg : Bg) (s : State) (left right : Half) (d : Byte) :
    let t := State.m7Row bg left right d s
    let placed := s.placedRows s.ctx.starty.toNat fun c => left.toNat ≤ c ∧ c < right.toNat
    s.changesOnly t placed ∧ s.sameCatalog t ∧ s.sameCache t
      ∧ (s.linesInTable → t.ctx.scsel = s.m7Scsel bg)
      ∧ (s.linesInTable → (∀ base oil n, placed base oil n → s.canPlot base oil n) →
          s.endedOk t) := by
  intro t placed
  obtain ⟨hlines, ht⟩ | ⟨_, ht⟩ := CaptureLaws.m7Row_cases bg left right d s <;>
    rw [show t = _ from ht]
  · have hout : ¬ s.linesInTable := mt (linesOk_iff s).mpr (Bool.eq_false_iff.mp hlines)
    exact ⟨(Prepared.refl s).changesOnly_raise .lineRange placed, sameCatalog_raise s .lineRange,
      sameCache_raise s .lineRange, fun hin => absurd hin hout, fun hin => absurd hin hout⟩
  · have hplaced : ∀ p ∈ State.m7RowPlots bg left right d (State.setScsel (s.m7Scsel bg) s),
        placed p.offset p.oil p.n := m7RowPlots_placed (State.setScsel (s.m7Scsel bg) s) bg left right d
    obtain ⟨hframe, hcatalog, hcache, hscsel, hended⟩ :=
      fill_frame s (s.m7Scsel bg) hplaced fun p hp _ => hplaced p hp
    exact ⟨hframe, hcatalog, hcache, fun _ => hscsel, fun _ => hended⟩

/-! ## Mode-7 mosaics (rules R240, R243) -/

/-- A row of a block is a line in `STARTY..ENDY`: the first block skips the rows above `STARTY`, and a later
block begins below it. -/
theorem mosaicRow_line {s : State} (hphase : s.ctx.mosaicstart.toNat < s.ctx.vmosaic.toNat)
    (hstart : s.ctx.mosaicstart.toNat ≤ s.ctx.starty.toNat) {j r : Nat}
    (hr : r ∈ s.mosaicRows j (s.mosaicLine0 + s.ctx.vmosaic.toNat * j)) :
    let line := s.mosaicLine0 + s.ctx.vmosaic.toNat * j + r
    s.ctx.starty.toNat ≤ line ∧ line ≤ s.ctx.endy.toNat := by
  obtain ⟨i, hi, rfl⟩ := List.mem_map.mp hr
  rw [List.mem_range] at hi
  unfold State.mosaicLine0 at hi ⊢
  obtain rfl | hj := Nat.eq_zero_or_pos j
  · rw [if_pos rfl] at hi ⊢
    omega
  · rw [if_neg (Nat.pos_iff_ne_zero.mp hj)] at hi ⊢
    have hbelow := Nat.le_mul_of_pos_right s.ctx.vmosaic.toNat hj
    omega

/-- A cell of a block column lies in the columns of the blocks. -/
theorem mosaicColumn_cell {left right h x i : Nat} (hx : x ∈ mosaicColumns left right h) (hi : i < h) :
    mosaicLeft left h ≤ x + i ∧ x + i < mosaicRight right h := by
  obtain ⟨q, hq, rfl⟩ := List.mem_map.mp hx
  have hblock : h * (q + 1) ≤ mosaicRight right h - mosaicLeft left h :=
    (Nat.mul_le_mul_left h (List.mem_range.mp hq)).trans (Nat.mul_div_le _ _)
  rw [Nat.mul_succ] at hblock
  omega

/-- The plots of a block are cells of one colour at one depth, or there are none. -/
theorem mem_mosaicBlock {s : State} {bg : Bg} {left right : Half} {d : Byte} {oil : Int}
    {j top x : Nat} {p : PlotCall} (h : p ∈ s.mosaicBlock bg left right d oil j top x) :
    ∃ pix z, p ∈ s.mosaicCells left right oil top x (s.mosaicRows j top) pix z := by
  unfold State.mosaicBlock at h
  simp only at h
  split at h
  · cases h
  · split at h
    · cases h
    · exact ⟨_, _, h⟩

/-- The plots of a mosaic command lie in its blocks, and those that are not masked in `[Left, Right)`. -/
theorem m7MosaicPlots_placed {s : State} (bg : Bg) (left right : Half) (d : Byte)
    (hphase : s.ctx.mosaicstart.toNat < s.ctx.vmosaic.toNat)
    (hstart : s.ctx.mosaicstart.toNat ≤ s.ctx.starty.toNat) :
    ∀ p ∈ State.m7MosaicPlots bg left right d s,
      s.placedRows s.firstTop (fun c => s.blockLeft left ≤ c ∧ c < s.blockRight right)
          p.offset p.oil p.n
        ∧ (p.flag = true → s.placedRows s.firstTop (fun c => left.toNat ≤ c ∧ c < right.toNat)
            p.offset p.oil p.n) := by
  intro p hmem
  obtain ⟨j, _, hblocks⟩ := List.mem_flatMap.mp hmem
  obtain ⟨x, hx, hblock⟩ := List.mem_flatMap.mp hblocks
  obtain ⟨_, _, hcells⟩ := mem_mosaicBlock hblock
  obtain ⟨r, hr, hcells⟩ := List.mem_flatMap.mp hcells
  obtain ⟨i, hi, rfl⟩ := List.mem_map.mp hcells
  have hi : i < s.ctx.hmosaic.toNat := by simpa using hi
  obtain ⟨habove, hbelow⟩ := mosaicRow_line hphase hstart hr
  exact ⟨⟨_, habove, hbelow, x + i, mosaicColumn_cell hx hi, rfl, Int.natCast_mod _ _, rfl⟩,
    fun hflag => ⟨_, habove, hbelow, x + i, of_decide_eq_true hflag, rfl, Int.natCast_mod _ _, rfl⟩⟩

theorem m7MosaicRow_frame (bg : Bg) (s : State) (left right : Half) (d : Byte) :
    let t := State.m7MosaicRow bg left right d s
    let placed := s.placedRows s.firstTop fun c => s.blockLeft left ≤ c ∧ c < s.blockRight right
    let shown := s.placedRows s.firstTop fun c => left.toNat ≤ c ∧ c < right.toNat
    s.changesOnly t shown ∧ s.sameCatalog t ∧ s.sameCache t
      ∧ (s.ctx.mosaicstart.toNat < s.ctx.vmosaic.toNat →
          s.ctx.mosaicstart.toNat ≤ s.ctx.starty.toNat → s.blocksInTable →
          t.ctx.scsel = s.m7Scsel bg
            ∧ ((∀ base oil n, placed base oil n → s.canPlot base oil n) → s.endedOk t)) := by
  intro t placed shown
  have hfault : ∀ c, s.changesOnly (s.raise c) shown ∧ s.sameCatalog (s.raise c)
      ∧ s.sameCache (s.raise c) := fun c =>
    ⟨(Prepared.refl s).changesOnly_raise c shown, sameCatalog_raise s c, sameCache_raise s c⟩
  obtain ⟨hflat, ht⟩ | ⟨_, hlines, ht⟩ | ⟨hphase, hstart, _, ht⟩ :=
    CaptureLaws.m7MosaicRow_cases bg left right d s <;> rw [show t = _ from ht]
  · obtain ⟨hframe, hcatalog, hcache⟩ := hfault .illegalOperand
    exact ⟨hframe, hcatalog, hcache, fun hphase => absurd hphase (Nat.not_lt.mpr hflat)⟩
  · obtain ⟨hframe, hcatalog, hcache⟩ := hfault .lineRange
    refine ⟨hframe, hcatalog, hcache, fun _ hstart hblocks => ?_⟩
    rw [(mosaicLinesOk_iff_blocksInTable s).mpr hblocks] at hlines
    exact absurd hstart (Nat.not_le.mpr (hlines.resolve_right nofun))
  · have hplaced := m7MosaicPlots_placed (s := State.setScsel (s.m7Scsel bg) s) bg left right d
      hphase hstart
    obtain ⟨hframe, hcatalog, hcache, hscsel, hended⟩ := fill_frame s (s.m7Scsel bg)
      (plots := placed) (shown := shown) (fun p hp => (hplaced p hp).1) fun p hp => (hplaced p hp).2
    exact ⟨hframe, hcatalog, hcache, fun _ _ _ => ⟨hscsel, hended⟩⟩

/-- Settles O34: each command faults before any change, or selects its palette and runs plots that lie in its
rectangle; a masked mosaic plot writes nothing. -/
theorem fillCommandsFrame : Obligations.FillCommandsFrame := by
  refine ⟨fun s offset left right => ⟨_, rfl, ?_⟩, ?_, ?_⟩
  · rw [← backdropScsel_eq]
    have hplaced := backdropPlots_placed (prepared_setScsel s s.backdropScsel) offset left right
    exact fill_frame s s.backdropScsel hplaced fun p hp _ => hplaced p hp
  · intro i s left right d cols hi
    obtain ⟨bg, hexec, hbg⟩ : ∃ bg, exec i s = .next (State.m7Row bg left right d s)
        ∧ (i = .trM7bg1 left right d ↔ bg = .bg1) := by
      obtain rfl | rfl := hi
      · exact ⟨.bg1, rfl, by simp⟩
      · exact ⟨.bg2, rfl, by simp⟩
    simp only [hbg, ← m7Scsel_eq]
    exact ⟨_, hexec, m7Row_frame bg s left right d⟩
  · intro i s left right d cols shown hi
    obtain ⟨bg, hexec, hbg⟩ : ∃ bg, exec i s = .next (State.m7MosaicRow bg left right d s)
        ∧ (i = .trM7mbg1 left right d ↔ bg = .bg1) := by
      obtain rfl | rfl := hi
      · exact ⟨.bg1, rfl, by simp⟩
      · exact ⟨.bg2, rfl, by simp⟩
    simp only [hbg, ← m7Scsel_eq]
    obtain ⟨hframe, hcatalog, hcache, hlegal⟩ := m7MosaicRow_frame bg s left right d
    exact ⟨_, hexec, hframe, hcatalog, hcache,
      fun hphase hstart hblocks => (hlegal hphase hstart hblocks).1,
      fun hphase hstart _ hblocks => (hlegal hphase hstart hblocks).2⟩

/-! ## The rectangle of TR.BACKDROP (rule R216) -/

theorem columns_eq_between (left right : Half) :
    columns left right = between left.toNat right.toNat := by
  rw [between_eq_Ico, List.Ico, List.range'_eq_map_range]
  rfl

theorem lt_lineCount_iff (s : State) (k : Nat) :
    k < s.lineCount ↔ s.ctx.starty.toNat + k ≤ s.ctx.endy.toNat := by
  unfold State.lineCount
  omega

theorem backdropPlots_eq (s : State) (offset : Word) (left right : Half) :
    State.backdropPlots offset left right s
      = (List.range s.lineCount ×ˢ columns left right).map (s.gridCall offset true 0 1 1) := by
  rw [State.backdropPlots, flatMap_map_eq_product]
  refine List.map_congr_left fun a _ => ?_
  unfold State.gridCall callAt State.lineAddr State.lineOffset
  push_cast
  rfl

theorem backdropInstrs_eq (s : State) (offset : Word) (left right : Half) :
    s.backdropInstrs offset left right
      = (List.range s.lineCount ×ˢ columns left right).map (s.gridInstr offset true 0 1 1) := by
  have hlines : between s.ctx.starty.toNat (s.ctx.endy.toNat + 1)
      = (List.range s.lineCount).map (s.ctx.starty.toNat + ·) := by
    rw [between_eq_Ico, List.Ico, List.range'_eq_map_range]
    rfl
  rw [State.backdropInstrs, hlines, ← columns_eq_between, List.flatMap_map]
  simp only [Nat.add_sub_cancel_left]
  exact flatMap_map_eq_product _ _ _

/-- Black while clipping, else the forced colour, else entry 0 of the palette. -/
theorem backdrop_screenColor (s : State) :
    (State.setScsel s.backdropScsel s).screenColor 0
      = if s.ctx.clip then 0
        else if s.ctx.fbd.en then s.ctx.fbd.color else Memory.read s.pal 0 := by
  rw [backdropScsel_eq]
  unfold State.screenColor State.realColor State.setScsel
  cases s.ctx.fbd.en <;> rfl

/-- Where PLOT commands run to their end, a pixel loop over their plots does the same. -/
theorem runPlots_of_plotCommands {α : Type} {f : α → Instr} {g : α → PlotCall} {l : List α}
    {s u : State} (hfg : ∀ a ∈ l, ∀ x, exec (f a) x = .next (x.plotCommand s.ctx.rsel.addr (g a)))
    (h : runAll (l.map f) s = some u) : s.runPlots (l.map g) = u.done (.word 0) := by
  have hplots := plotAll_of_runAll rfl hfg h s
  rw [borrow_self] at hplots
  unfold State.runPlots
  rw [hplots]
  exact (done_borrow _ u s).trans (congrArg _ (runAll_withCatalogOf hfg h))

/-- Settles O37: the plots are a rectangle of index 0 at depth 1, each with cells of its own under the
low-resolution modes, and one PLOT command after another under every mode. -/
theorem backdropFillsRectangle : Obligations.BackdropFillsRectangle := by
  refine ⟨fun s offset left right hlow hfit hrange => ⟨_, rfl, ?_⟩,
    fun s u offset left right hfit hrun => congrArg Host.Outcome.next ?_⟩
  · have hnodup : (columns left right).Nodup := columns_eq_between left right ▸ between_nodup _ _
    obtain ⟨hended, hdrawn⟩ := runPlots_grid (prepared_setScsel s s.backdropScsel) hlow hnodup
      (lines := s.lineCount) (fun c => mem_columns.mp) hfit
      (fun k hk c hc => hrange k ((lt_lineCount_iff s k).mp hk) c (mem_columns.mp hc).1
        (mem_columns.mp hc).2) (on := fun _ => true) (pix := fun _ => 0)
      (backdropPlots_eq (State.setScsel s.backdropScsel s) offset left right)
    refine ⟨hended, fun k hk x hleft hright => ?_⟩
    have hpixel := hdrawn k ((lt_lineCount_iff s k).mpr hk) x (mem_columns.mpr ⟨hleft, hright⟩)
    rwa [backdrop_screenColor, eq_self] at hpixel
  · rw [← backdropScsel_eq, backdropInstrs_eq] at hrun
    show (State.setScsel s.backdropScsel s).runPlots _ = u.done (.word 0)
    rw [backdropPlots_eq]
    refine runPlots_of_plotCommands (fun a ha x => ?_) hrun
    obtain ⟨hk, hc⟩ := List.mem_product.mp ha
    have hcol := (mem_columns.mp hc).2.trans right.isLt
    exact exec_gridInstr hfit (List.mem_range.mp hk) (hcol.trans (by decide)) _ _ _ _ x

end Sys2Proof.Machine
end

section
/-! SUPPORT and O45. The sample of a Mode-7 position (rules R230 to R235): the model's transform, map, policy and
parameterisations are those of the statements, and a sample's plot has the arguments of its PLOT command. -/

namespace Sys2Proof.Machine

/-! ## Integers (rules R11, R231) -/

/-- Settles O45: the remainder mod 1024, less 1024 in its upper half. -/
theorem clip10SignExtends : Obligations.Clip10SignExtends := by
  refine ⟨fun x => ?_, by decide, by decide, by decide, by decide⟩
  unfold clip10
  have hdiv := Int.emod_add_mul_ediv x 1024
  split
  · exact ⟨by omega, by omega, x / 1024, by omega⟩
  · exact ⟨by omega, by omega, x / 1024 + 1, by omega⟩

theorem andNot63_eq (n : Int) : andNot63 n = 64 * (n / 64) := by
  unfold andNot63
  omega

/-! ## The transform, the map and the repeat policy (rules R230 to R234) -/

theorem lineRecord_srcX (s : State) (line x : Nat) :
    (s.lineRecord line).srcX line x = s.mode7X line x := by
  unfold LineRecord.srcX LineRecord.bb LineRecord.xx LineRecord.yy State.mode7X mode7Source
  simp only [andNot63_eq, shr8, add_assoc]
  rfl

theorem lineRecord_srcY (s : State) (line x : Nat) :
    (s.lineRecord line).srcY line x = s.mode7Y line x := by
  unfold LineRecord.srcY LineRecord.dd LineRecord.xx LineRecord.yy State.mode7Y mode7Source
  simp only [andNot63_eq, shr8, add_assoc]
  rfl

theorem m7FetchTile0_eq (s : State) (x y : Int) :
    s.m7FetchTile0 x y
      = Memory.read s.vram (2 * (8 * (y % 8).toNat + (x % 8).toNat) + 1) := by
  unfold State.m7FetchTile0
  congr 1
  omega

theorem repeatPolicy_eq_policy (s : State) : s.repeatPolicy = s.policy := by
  unfold State.repeatPolicy State.policy
  generalize s.ctx.m7repeat = r
  match r with
  | 0 | 1 | 2 | 3 => rfl

theorem m7Sample_eq_mode7Byte (s : State) (x y : Int) : s.m7Sample x y = s.mode7Byte x y := by
  have hinside : (inMap x && inMap y) = true ↔ 0 ≤ x ∧ x ≤ 1023 ∧ 0 ≤ y ∧ y ≤ 1023 := by
    simp [inMap, and_assoc]
  unfold State.m7Sample State.mode7Byte
  by_cases h : 0 ≤ x ∧ x ≤ 1023 ∧ 0 ≤ y ∧ y ≤ 1023
  · rw [if_pos (hinside.mpr h), if_pos h]
    rfl
  · rw [if_neg (mt hinside.mp h), if_neg h, repeatPolicy_eq_policy]
    cases s.policy with
    | transparent | edge | wrap => rfl
    | fixedTile => exact congrArg some (m7FetchTile0_eq s x y)

/-- The byte a row command samples at column `a.2` of line `a.1`, `none` where it skips it. -/
def State.rowSample (s : State) (a : Nat × Nat) : Option Byte :=
  s.mode7Byte (s.mode7X a.1 a.2) (s.mode7Y a.1 a.2)

theorem m7Sample_eq_rowSample (s : State) (line x : Nat) :
    s.m7Sample ((s.lineRecord line).srcX line x) ((s.lineRecord line).srcY line x)
      = s.rowSample (line, x) := by
  rw [lineRecord_srcX, lineRecord_srcY, m7Sample_eq_mode7Byte]
  rfl

/-! ## The parameterisations (rule R235) -/

theorem toNat_low_seven (b : Byte) : (b &&& 0x7F).toNat = b.toNat % 128 := by
  rw [BitVec.toNat_and]
  exact Nat.and_two_pow_sub_one_eq_mod b.toNat 7

theorem getLsbD_seven (b : Byte) : b.getLsbD 7 = decide (128 ≤ b.toNat) := by
  simpa [BitVec.msb_eq_getLsbD_last] using BitVec.msb_eq_decide b

theorem m7Pix_bg2_eq_zero_iff (b : Byte) : m7Pix .bg2 b = 0 ↔ b.toNat % 128 = 0 := by
  rw [← toNat_low_seven, ← BitVec.toNat_inj]
  rfl

theorem m7Pix_bg2 (b : Byte) : m7Pix .bg2 b = BitVec.ofNat 8 (b.toNat % 128) := by
  rw [← toNat_low_seven, BitVec.ofNat_toNat, BitVec.setWidth_eq]
  rfl

theorem m7Z_bg2 (s : State) (b d : Byte) :
    s.m7Z .bg2 b d = d + if 128 ≤ b.toNat then 11 else 3 := by
  unfold State.m7Z
  simp only [getLsbD_seven, decide_eq_true_eq]

theorem m7Pix_zero (bg : Bg) : m7Pix bg 0 = 0 := by cases bg <;> rfl

/-- The plot of a sample: the pixel and the depths of its background, drawn where `shown`. -/
def State.sampleCall (s : State) (bg : Bg) (d : Byte) (base oil n : Nat) (shown : Bool) (b : Byte) :
    PlotCall :=
  callAt base oil n (shown && decide (m7Pix bg b ≠ 0)) (m7Pix bg b) (s.m7Z bg b d) (s.m7Z bg b d)

theorem sampleInstr_eq_plotAt (s : State) (bg : Bg) (d : Byte) (base oil n : Nat) (shown : Bool)
    (b : Byte) :
    s.sampleInstr bg d base oil n shown b
      = s.plotAt base oil n (shown && decide (m7Pix bg b ≠ 0)) (m7Pix bg b) (s.m7Z bg b d)
          (s.m7Z bg b d) := by
  cases bg with
  | bg1 => rfl
  | bg2 =>
    have hflag : decide (m7Pix .bg2 b ≠ 0) = decide (b.toNat % 128 ≠ 0) :=
      decide_eq_decide.mpr (not_congr (m7Pix_bg2_eq_zero_iff b))
    rw [hflag, m7Pix_bg2, m7Z_bg2]
    rfl

theorem exec_sampleInstr {base oil n : Nat} (hbase : base < 2 ^ 32) (hoil : oil < 2 ^ 32)
    (hn : n < 2 ^ 31) (s : State) (bg : Bg) (d : Byte) (shown : Bool) (b : Byte) (x : State) :
    exec (s.sampleInstr bg d base oil n shown b) x
      = .next (x.plotCommand s.ctx.rsel.addr (s.sampleCall bg d base oil n shown b)) := by
  rw [sampleInstr_eq_plotAt, exec_plotAt hbase hoil hn]
  rfl

theorem zero_toNat_add (b : Byte) : ((0 : Byte).toNat + b.toNat) % 256 = b.toNat :=
  (congrArg (· % 256) (Nat.zero_add _)).trans (Nat.mod_eq_of_lt b.isLt)

/-- The colour of a BG1 pixel: its byte through the direct map or the palette. -/
theorem screenColor_bg1 (s : State) (b : Byte) :
    (State.setScsel (s.m7Scsel .bg1) s).screenColor b
      = if s.ctx.clip then 0
        else if s.ctx.direct then Memory.read s.dcm b.toNat else Memory.read s.pal b.toNat := by
  have hmap : 256 * (0 : BitVec 3).toNat + b.toNat = b.toNat := Nat.zero_add _
  unfold State.screenColor State.realColor State.m7Scsel State.setScsel
  cases s.ctx.direct with
  | true => exact congrArg (if s.ctx.clip then 0 else Memory.read s.dcm ·) hmap
  | false => exact congrArg (if s.ctx.clip then 0 else Memory.read s.pal ·) (zero_toNat_add b)

/-- The colour of a BG2 pixel: its byte's low seven bits through the palette. -/
theorem screenColor_bg2 (s : State) (b : Byte) :
    (State.setScsel (s.m7Scsel .bg2) s).screenColor (m7Pix .bg2 b)
      = if s.ctx.clip then 0 else Memory.read s.pal (b.toNat % 128) := by
  exact congrArg (if s.ctx.clip then 0 else Memory.read s.pal ·)
    ((zero_toNat_add _).trans (toNat_low_seven b))

/-- Logical pixel `n` of the line at `base` after a sample of the background. -/
def State.showsSample (s t : State) (bg : Bg) (d : Byte) (sample : Option Byte) (base n : Nat) : Prop :=
  match bg with
  | .bg1 => s.showsBg1 t d sample base n
  | .bg2 => s.showsBg2 t d sample base n

/-- A pixel that is not drawn shows the same whatever its colour and depths. -/
theorem pixelDrawn_off {s t : State} {on on' : Prop} (hon : ¬ on) (hon' : ¬ on') {v v' : Half}
    {z1 z1' z2 z2' : Byte} {base n : Nat} (h : s.pixelDrawn t on v z1 z2 base n) :
    s.pixelDrawn t on' v' z1' z2' base n := by
  unfold State.pixelDrawn State.cellDrawn State.pairDrawn at h ⊢
  simpa [hon, hon'] using h

/-- A skipped sample shows what a transparent one does, and another its byte's pixel. -/
theorem showsSample_of_pixelDrawn {s t : State} {bg : Bg} {d : Byte} {sample : Option Byte}
    {base n : Nat}
    (h : s.pixelDrawn t (m7Pix bg (sample.getD 0) ≠ 0)
      ((State.setScsel (s.m7Scsel bg) s).screenColor (m7Pix bg (sample.getD 0)))
      (s.m7Z bg (sample.getD 0) d) (s.m7Z bg (sample.getD 0) d) base n) :
    s.showsSample t bg d sample base n := by
  cases sample with
  | none =>
    have hskip := pixelDrawn_off (not_not_intro (m7Pix_zero bg)) not_false h (v' := 0) (z1' := 0) (z2' := 0)
    cases bg <;> exact hskip
  | some b =>
    cases bg with
    | bg1 =>
      rw [Option.getD_some, show m7Pix .bg1 b = b from rfl, screenColor_bg1] at h
      exact h
    | bg2 =>
      simp only [Option.getD_some, screenColor_bg2, m7Z_bg2, ne_eq, m7Pix_bg2_eq_zero_iff] at h
      exact h

end Sys2Proof.Machine
end

section
/-! SUPPORT and O38. A Mode-7 command as a list of positions and a sample of each (rules R230, R235, R238): under
N1X1, N2X1 and INT each position shows its sample, whether or not the transparent ones are plotted. -/

namespace Sys2Proof.Machine

/-! ## Transparent plots (rule R180) -/

section Filter

variable {α : Type} {keep : α → Bool} {g : α → PlotCall} {l : List α} {s t : State}
  (hflag : ∀ a ∈ l, keep a = false → (g a).flag = false)

include hflag

/-- A sequence of plots that completes does the same without plots whose truth flag is 0. -/
theorem plotAll_filter (h : plotAll (l.map g) s = some t) :
    plotAll ((l.filter keep).map g) s = some t := by
  induction l generalizing s with
  | nil => exact h
  | cons a l ih =>
    rw [List.map_cons, plotAll] at h
    cases hplot : plot (g a) s with
    | outAtBase | outAtCombined => rw [hplot] at h; cases h
    | ended u =>
      rw [hplot] at h
      have hrest := ih (fun b hb => hflag b (List.mem_cons_of_mem a hb)) h
      cases hkeep : keep a with
      | false =>
        have hsame : u = s := plotVariant_unflagged (hflag a List.mem_cons_self hkeep) hplot
        rw [List.filter_cons_of_neg (by simp [hkeep])]
        rwa [hsame] at hrest
      | true =>
        rw [List.filter_cons_of_pos hkeep, List.map_cons, plotAll, hplot]
        exact hrest

theorem runPlots_filter (h : (s.runPlots (l.map g)).response = some (.ok (.word 0))) :
    s.runPlots ((l.filter keep).map g) = s.runPlots (l.map g) := by
  unfold State.runPlots at h ⊢
  cases hall : plotAll (l.map g) s with
  | none => rw [hall] at h; cases h
  | some u => rw [plotAll_filter hflag hall]

end Filter

/-! ## Positions and their samples -/

/-- The plot of a sample at column `a.2` of line `a.1`, masked outside `[left, right)`; a skipped sample is
taken as the transparent byte 0. -/
def State.positionCall (s : State) (bg : Bg) (left right : Half) (d : Byte) (oil : Nat)
    (sample : Option Byte) (a : Nat × Nat) : PlotCall :=
  s.sampleCall bg d (a.1 * s.ctx.ppl.toNat) oil a.2 (decide (left.toNat ≤ a.2 ∧ a.2 < right.toNat))
    (sample.getD 0)

/-- Its PLOT command. -/
def State.positionInstr (s : State) (bg : Bg) (left right : Half) (d : Byte) (oil : Nat)
    (sample : Option Byte) (a : Nat × Nat) : Instr :=
  s.sampleInstr bg d (a.1 * s.ctx.ppl.toNat) oil a.2 (decide (left.toNat ≤ a.2 ∧ a.2 < right.toNat))
    (sample.getD 0)

/-- A sample of a pixel that is not 0: neither skipped nor transparent (rule R243). -/
def opaqueSample (bg : Bg) (sample : Option Byte) : Bool := decide (m7Pix bg (sample.getD 0) ≠ 0)

theorem opaqueSample_none (bg : Bg) : opaqueSample bg none = false :=
  decide_eq_false (not_not_intro (m7Pix_zero bg))

theorem isSome_of_opaqueSample {bg : Bg} {sample : Option Byte} (h : opaqueSample bg sample = true) :
    sample.isSome = true := by
  cases sample with
  | none => rw [opaqueSample_none] at h; exact h
  | some b => rfl

section Positions

variable {s : State} {bg : Bg} {left right : Half} {d : Byte} {oil : Nat}

theorem positionCall_flag_of_not_opaque {sample : Option Byte} (h : opaqueSample bg sample = false)
    (a : Nat × Nat) : (s.positionCall bg left right d oil sample a).flag = false :=
  (congrArg _ h).trans (Bool.and_false _)

variable {positions : List (Nat × Nat)} {sample : Nat × Nat → Option Byte}

/-- Under the low-resolution modes each position shows its sample, where the plots kept are at least those
of the pixels that are not 0 (rules R170 to R175, R180, R235). -/
theorem runPlots_positions (hlow : s.lowRes) (hnodup : positions.Nodup) {lo hi : Nat}
    (hcols : ∀ a ∈ positions, lo ≤ a.2 ∧ a.2 < hi)
    (hfit : s.pixelWidth * (hi - lo) ≤ s.ctx.ppl.toNat)
    (hrange : ∀ a ∈ positions, s.pixelInRange (a.1 * s.ctx.ppl.toNat) a.2)
    {keep : Option Byte → Bool} (hkeep : ∀ o, opaqueSample bg o = true → keep o = true) :
    let t := (State.setScsel (s.m7Scsel bg) s).runPlots
      ((positions.filter fun a => keep (sample a)).map
        fun a => s.positionCall bg left right d oil (sample a) a)
    s.endedOk t ∧ ∀ a ∈ positions, left.toNat ≤ a.2 → a.2 < right.toNat →
      s.showsSample t bg d (sample a) (a.1 * s.ctx.ppl.toNat) a.2 := by
  intro t
  have hp := prepared_setScsel s (s.m7Scsel bg)
  have hapart : (positions.map fun a => s.positionCall bg left right d oil (sample a) a).Pairwise
      fun p q => ∀ x ∈ p.depthAddrs s.ctx.rsel.addr, x ∉ q.depthAddrs s.ctx.rsel.addr := by
    rw [List.pairwise_map]
    refine hnodup.imp_of_mem fun {a b} ha hb hne x hx hx' => ?_
    obtain ⟨e, he, rfl⟩ := of_mem_depthAddrs_callAt hlow hx
    obtain ⟨e', he', heq⟩ := of_mem_depthAddrs_callAt hlow hx'
    obtain ⟨hline, hcol⟩ := pixel_unique (base := 0) hfit (hcols a ha) (hcols b hb) he he'
      (by simpa only [Nat.zero_add] using Int.ofNat_inj.mp heq)
    exact hne (Prod.ext hline hcol)
  obtain ⟨hended, hshown⟩ := runPlots_lowRes hp hlow
    (List.forall_mem_map.mpr fun a ha => reachable_callAt hlow (hrange a ha) _ _ _ _ _) hapart
  have ht : t = _ := runPlots_filter
    (fun a _ hdrop => positionCall_flag_of_not_opaque
      (Bool.eq_false_iff.mpr (mt (hkeep _) (Bool.eq_false_iff.mp hdrop))) a) hended.1
  rw [ht]
  refine ⟨hended, fun a ha hleft hright => showsSample_of_pixelDrawn ?_⟩
  have hpixel := (shown_callAt _ _ _ _ _ _ _ _ _).mp (hshown _ (List.mem_map_of_mem ha))
  rw [decide_eq_true (And.intro hleft hright), Bool.true_and, decide_eq_true_eq] at hpixel
  exact hp.pixelDrawn hpixel

/-- Where the PLOT commands of the samples that are not skipped run to their end, the pixel loop of their
plots does the same. -/
theorem runPlots_of_positionInstrs {u : State} (hlines : ∀ a ∈ positions, a.1 ≤ s.ctx.endy.toNat)
    (hcols : ∀ a ∈ positions, a.2 < 2 ^ 31) (hoil : oil < 2 ^ 32)
    (hfit : s.ctx.endy.toNat * s.ctx.ppl.toNat < 2 ^ 32)
    (h : runAll (positions.map fun a => s.positionInstr bg left right d oil (sample a) a)
      (State.setScsel (s.m7Scsel bg) s) = some u) :
    (State.setScsel (s.m7Scsel bg) s).runPlots
        (positions.map fun a => s.positionCall bg left right d oil (sample a) a)
      = u.done (.word 0) := by
  refine runPlots_of_plotCommands (fun a ha x => ?_) h
  have hbase : a.1 * s.ctx.ppl.toNat < 2 ^ 32 :=
    (Nat.mul_le_mul_right _ (hlines a ha)).trans_lt hfit
  exact exec_sampleInstr hbase hoil (hcols a ha) s bg d _ _ x

/-- Where the plots of the samples that are not skipped complete, those of the pixels that are not 0 do the
same. -/
theorem runPlots_opaque {u : State}
    (h : (u.runPlots ((positions.filter fun a => (sample a).isSome).map
      fun a => s.positionCall bg left right d oil (sample a) a)).response = some (.ok (.word 0))) :
    u.runPlots ((positions.filter fun a => opaqueSample bg (sample a)).map
        fun a => s.positionCall bg left right d oil (sample a) a)
      = u.runPlots ((positions.filter fun a => (sample a).isSome).map
        fun a => s.positionCall bg left right d oil (sample a) a) := by
  have hfilter : (positions.filter fun a => opaqueSample bg (sample a))
      = (positions.filter fun a => (sample a).isSome).filter fun a => opaqueSample bg (sample a) := by
    rw [List.filter_filter]
    refine List.filter_congr fun a _ => ?_
    cases hopaque : opaqueSample bg (sample a) with
    | false => rfl
    | true => rw [isSome_of_opaqueSample hopaque]; rfl
  rw [hfilter]
  exact runPlots_filter (fun a _ hdrop => positionCall_flag_of_not_opaque hdrop a) h

end Positions

/-! ## The positions of a row command (rule R238) -/

/-- The lines `STARTY..ENDY` and the columns `[left, right)`. -/
def State.rowPositions (s : State) (left right : Half) : List (Nat × Nat) :=
  between s.ctx.starty.toNat (s.ctx.endy.toNat + 1) ×ˢ between left.toNat right.toNat

theorem mem_rowPositions {s : State} {left right : Half} {a : Nat × Nat} :
    a ∈ s.rowPositions left right ↔ (s.ctx.starty.toNat ≤ a.1 ∧ a.1 ≤ s.ctx.endy.toNat)
      ∧ left.toNat ≤ a.2 ∧ a.2 < right.toNat := by
  unfold State.rowPositions
  rw [List.mem_product, mem_between, mem_between, Nat.lt_succ_iff]

/-- Lines top to bottom and their columns without the skipped ones, as one list of positions. -/
theorem flatMap_filterMap_eq_product {β : Type} (sample : Nat × Nat → Option Byte)
    (f : Nat × Nat → Byte → β) (lines cols : List Nat) :
    (lines.flatMap fun line => cols.filterMap fun x => (sample (line, x)).map (f (line, x)))
      = ((lines ×ˢ cols).filter fun a => (sample a).isSome).map
          fun a => f a ((sample a).getD 0) := by
  have hline : ∀ line, (cols.filterMap fun x => (sample (line, x)).map (f (line, x)))
      = ((cols.map (Prod.mk line)).filter fun a => (sample a).isSome).map
          fun a => f a ((sample a).getD 0) := by
    intro line
    induction cols with
    | nil => rfl
    | cons x cols ih => cases h : sample (line, x) <;> simp [h, ih]
  simp only [hline, SProd.sprod, List.product, List.filter_flatMap, List.map_flatMap]

theorem flatMap_range_lineCount {β : Type} (s : State) (f : Nat → List β) :
    ((List.range s.lineCount).flatMap fun k => f (s.ctx.starty.toNat + k))
      = (between s.ctx.starty.toNat (s.ctx.endy.toNat + 1)).flatMap f := by
  rw [between_eq_Ico, List.Ico, List.range'_eq_map_range, List.flatMap_map]
  rfl

theorem m7Plot_eq (s : State) (bg : Bg) (d : Byte) (oil line x : Nat) :
    s.m7Plot bg d oil line x
      = (s.rowSample (line, x)).map (s.sampleCall bg d (line * s.ctx.ppl.toNat) oil x true) := by
  unfold State.m7Plot State.sampleCall callAt
  simp only [m7Sample_eq_rowSample, Bool.true_and, Int.natCast_mul]

/-- The line position of a row command. -/
def State.rowOil (s : State) : Nat := s.ctx.starty.toNat * s.ctx.ppl.toNat % s.ctx.rppl.toNat

section Rows

variable (s : State) (bg : Bg) (left right : Half) (d : Byte)

/-- No position of a row is masked. -/
theorem rowPositions_shown {left right : Half} {keep : Nat × Nat → Bool} {a : Nat × Nat}
    (ha : a ∈ (s.rowPositions left right).filter keep) :
    decide (left.toNat ≤ a.2 ∧ a.2 < right.toNat) = true :=
  decide_eq_true (mem_rowPositions.mp (List.mem_of_mem_filter ha)).2

theorem m7RowPlots_eq :
    State.m7RowPlots bg left right d s
      = ((s.rowPositions left right).filter fun a => (s.rowSample a).isSome).map
          fun a => s.positionCall bg left right d s.rowOil (s.rowSample a) a := by
  have hplots : State.m7RowPlots bg left right d s
      = (List.range s.lineCount).flatMap fun k => (columns left right).filterMap
          fun x => s.m7Plot bg d s.rowOil (s.ctx.starty.toNat + k) x := rfl
  rw [hplots, flatMap_range_lineCount s fun line => (columns left right).filterMap
    fun x => s.m7Plot bg d s.rowOil line x]
  simp only [m7Plot_eq, columns_eq_between]
  refine (flatMap_filterMap_eq_product s.rowSample
    (fun a => s.sampleCall bg d (a.1 * s.ctx.ppl.toNat) s.rowOil a.2 true) _ _).trans
    (List.map_congr_left fun a ha => ?_)
  rw [State.positionCall, rowPositions_shown s ha]

theorem rowInstrs_eq :
    s.rowInstrs bg left right d
      = ((s.rowPositions left right).filter fun a => (s.rowSample a).isSome).map
          fun a => s.positionInstr bg left right d s.rowOil (s.rowSample a) a := by
  refine (flatMap_filterMap_eq_product s.rowSample
    (fun a => s.sampleInstr bg d (a.1 * s.ctx.ppl.toNat) s.rowOil a.2 true) _ _).trans
    (List.map_congr_left fun a ha => ?_)
  rw [State.positionInstr, rowPositions_shown s ha]

theorem m7Row_of_linesInTable (hlines : s.linesInTable) :
    State.m7Row bg left right d s
      = (State.setScsel (s.m7Scsel bg) s).runPlots (State.m7RowPlots bg left right d s) :=
  if_pos ((linesOk_iff s).mpr hlines)

variable {s}

theorem m7Row_lowRes (hlow : s.lowRes) (hlines : s.linesInTable)
    (hfit : s.pixelWidth * (right.toNat - left.toNat) ≤ s.ctx.ppl.toNat)
    (hrange : ∀ line, s.ctx.starty.toNat ≤ line → line ≤ s.ctx.endy.toNat → ∀ x, left.toNat ≤ x →
      x < right.toNat → s.pixelInRange (line * s.ctx.ppl.toNat) x) :
    let t := State.m7Row bg left right d s
    s.endedOk t ∧ ∀ line, s.ctx.starty.toNat ≤ line → line ≤ s.ctx.endy.toNat → ∀ x, left.toNat ≤ x →
      x < right.toNat → s.showsSample t bg d (s.rowSample (line, x)) (line * s.ctx.ppl.toNat) x := by
  intro t
  rw [show t = _ from m7Row_of_linesInTable s bg left right d hlines, m7RowPlots_eq]
  have hnodup : (s.rowPositions left right).Nodup := (between_nodup _ _).product (between_nodup _ _)
  obtain ⟨hended, hshown⟩ := runPlots_positions (d := d) (oil := s.rowOil) (sample := s.rowSample) hlow
    hnodup (fun a ha => (mem_rowPositions.mp ha).2) hfit
    (fun a ha => by
      obtain ⟨⟨hstart, hend⟩, hleft, hright⟩ := mem_rowPositions.mp ha
      exact hrange a.1 hstart hend a.2 hleft hright)
    (keep := Option.isSome) (fun _ => isSome_of_opaqueSample)
  exact ⟨hended, fun line hstart hend x hleft hright =>
    hshown (line, x) (mem_rowPositions.mpr ⟨⟨hstart, hend⟩, hleft, hright⟩) hleft hright⟩

theorem m7Row_of_runAll {u : State} (hlines : s.linesInTable) (hrppl : 1 ≤ s.ctx.rppl.toNat)
    (hfit : s.ctx.endy.toNat * s.ctx.ppl.toNat < 2 ^ 32)
    (h : runAll (s.rowInstrs bg left right d) (State.setScsel (s.m7Scsel bg) s) = some u) :
    State.m7Row bg left right d s = u.done (.word 0) := by
  rw [rowInstrs_eq] at h
  rw [m7Row_of_linesInTable s bg left right d hlines, m7RowPlots_eq]
  have hmem : ∀ {a keep}, a ∈ (s.rowPositions left right).filter keep →
      a.1 ≤ s.ctx.endy.toNat ∧ a.2 < right.toNat := fun ha => by
    obtain ⟨⟨_, hend⟩, _, hright⟩ := mem_rowPositions.mp (List.mem_of_mem_filter ha)
    exact ⟨hend, hright⟩
  exact runPlots_of_positionInstrs (fun a ha => (hmem ha).1)
    (fun a ha => (hmem ha).2.trans (right.isLt.trans (by decide)))
    ((Nat.mod_lt _ hrppl).trans s.ctx.rppl.isLt) hfit h

end Rows

/-- Settles O38: the plots are those of the samples that are not skipped, each with cells of its own under the
low-resolution modes, and one PLOT command after another under every mode. -/
theorem mode7RowDraws : Obligations.Mode7RowDraws := by
  refine ⟨fun s left right d hlow hlines hfit hrange =>
      ⟨⟨_, rfl, m7Row_lowRes .bg1 left right d hlow hlines hfit hrange⟩,
        ⟨_, rfl, m7Row_lowRes .bg2 left right d hlow hlines hfit hrange⟩⟩,
    fun i bg s u left right d hi hlines hrppl hfit hrun => ?_⟩
  rw [← m7Scsel_eq] at hrun
  have hrow := m7Row_of_runAll bg left right d hlines hrppl hfit hrun
  obtain ⟨rfl, rfl⟩ | ⟨rfl, rfl⟩ := hi <;> exact congrArg Host.Outcome.next hrow

end Sys2Proof.Machine
end

section
/-! SUPPORT, O39 and O40. The positions of a Mode-7 mosaic command (rules R240 to R243): blocks, their lines and
their columns. The model's blocks are the statement's; every position of the rectangle is in one block, whose corner
gives its sample. -/

namespace Sys2Proof.Machine

/-! ## Blocks (rule R240) -/

theorem between_pairwise (a b : Nat) : (between a b).Pairwise (· < ·) := by
  rw [between_eq_Ico]
  exact List.Ico.pairwise_lt a b

theorem range_map_pairwise {f : Nat → Nat} (hf : StrictMono f) (n : Nat) :
    ((List.range n).map f).Pairwise (· < ·) :=
  List.pairwise_map.mpr (List.pairwise_lt_range.imp fun h => hf h)

/-- The tops of the blocks that reach `STARTY..ENDY`. -/
def State.blockTops (s : State) : List Nat :=
  (between s.firstTop (s.ctx.endy.toNat + 1)).filter fun y =>
    decide ((y - s.firstTop) % s.ctx.vmosaic.toNat = 0)

/-- The left columns of the blocks that reach `[left, right)`. -/
def State.blockColumns (s : State) (left right : Half) : List Nat :=
  (between (s.blockLeft left) (s.blockRight right)).filter fun x =>
    decide (x % s.ctx.hmosaic.toNat = 0)

/-- The lines of `STARTY..ENDY` in the block with top line `top`. -/
def State.blockLines (s : State) (top : Nat) : List Nat :=
  (between top (top + s.ctx.vmosaic.toNat)).filter fun y =>
    decide (s.ctx.starty.toNat ≤ y ∧ y ≤ s.ctx.endy.toNat)

/-- The positions of the block with top-left corner `c`: lines top to bottom, columns right to left (rule
R243). -/
def State.blockPositions (s : State) (c : Nat × Nat) : List (Nat × Nat) :=
  s.blockLines c.1 ×ˢ (between c.2 (c.2 + s.ctx.hmosaic.toNat)).reverse

/-- The positions of a mosaic command: blocks top to bottom, left to right. -/
def State.mosaicPositions (s : State) (left right : Half) : List (Nat × Nat) :=
  (s.blockTops ×ˢ s.blockColumns left right).flatMap s.blockPositions

/-- The top-left corner of the block of a position. -/
def State.corner (s : State) (a : Nat × Nat) : Nat × Nat :=
  (s.blockTop a.1, a.2 - a.2 % s.ctx.hmosaic.toNat)

/-- The sample of a position is that of its block's corner (rule R241). -/
def State.mosaicSample (s : State) (a : Nat × Nat) : Option Byte := s.rowSample (s.corner a)

theorem mem_blockTops {s : State} {y : Nat} :
    y ∈ s.blockTops ↔ (s.firstTop ≤ y ∧ y ≤ s.ctx.endy.toNat)
      ∧ (y - s.firstTop) % s.ctx.vmosaic.toNat = 0 := by
  unfold State.blockTops
  rw [List.mem_filter, mem_between, decide_eq_true_iff, Nat.lt_succ_iff]

theorem mem_blockColumns {s : State} {left right : Half} {x : Nat} :
    x ∈ s.blockColumns left right ↔ (s.blockLeft left ≤ x ∧ x < s.blockRight right)
      ∧ x % s.ctx.hmosaic.toNat = 0 := by
  unfold State.blockColumns
  rw [List.mem_filter, mem_between, decide_eq_true_iff]

theorem mem_blockLines {s : State} {top y : Nat} :
    y ∈ s.blockLines top ↔ (top ≤ y ∧ y < top + s.ctx.vmosaic.toNat)
      ∧ s.ctx.starty.toNat ≤ y ∧ y ≤ s.ctx.endy.toNat := by
  unfold State.blockLines
  rw [List.mem_filter, mem_between, decide_eq_true_iff]

theorem mem_blockPositions {s : State} {c a : Nat × Nat} :
    a ∈ s.blockPositions c ↔ a.1 ∈ s.blockLines c.1
      ∧ c.2 ≤ a.2 ∧ a.2 < c.2 + s.ctx.hmosaic.toNat := by
  unfold State.blockPositions
  rw [List.mem_product, List.mem_reverse, mem_between]

theorem blockTops_pairwise (s : State) : s.blockTops.Pairwise (· < ·) :=
  (between_pairwise _ _).filter _

theorem blockColumns_pairwise (s : State) (left right : Half) :
    (s.blockColumns left right).Pairwise (· < ·) :=
  (between_pairwise _ _).filter _

theorem blockLines_pairwise (s : State) (top : Nat) : (s.blockLines top).Pairwise (· < ·) :=
  (between_pairwise _ _).filter _

theorem sub_mod_self_mod (n v : Nat) : (n - n % v) % v = 0 :=
  Nat.sub_mod_eq_zero_of_mod_eq (Nat.mod_mod n v).symm

theorem add_mul_sub_mod (a v q : Nat) : (a + v * q - a) % v = 0 := by
  rw [Nat.add_sub_cancel_left, Nat.mul_mod_right]

/-- The multiples of `v` at or below `y` and within `v` of it: only one. -/
theorem sub_mod_eq_of_multiple {v x y : Nat} (hx : x % v = 0) (hle : x ≤ y) (hlt : y < x + v) :
    y - y % v = x := by
  obtain ⟨q, rfl⟩ := Nat.dvd_of_mod_eq_zero hx
  obtain ⟨e, rfl⟩ := Nat.exists_eq_add_of_le hle
  rw [Nat.mul_add_mod, Nat.mod_eq_of_lt (by omega), Nat.add_sub_cancel]

theorem blockTop_eq (s : State) {line : Nat} (h : s.firstTop ≤ line) :
    s.blockTop line = line - (line - s.firstTop) % s.ctx.vmosaic.toNat := by
  have hdiv := Nat.div_add_mod (line - s.firstTop) s.ctx.vmosaic.toNat
  unfold State.blockTop
  omega

/-- A position of a block has the block's corner. -/
theorem corner_of_mem {s : State} {left right : Half} {c a : Nat × Nat}
    (hc : c ∈ s.blockTops ×ˢ s.blockColumns left right) (ha : a ∈ s.blockPositions c) :
    s.corner a = c := by
  obtain ⟨htop, hcol⟩ := List.mem_product.mp hc
  obtain ⟨⟨hfirst, _⟩, hrow⟩ := mem_blockTops.mp htop
  obtain ⟨hline, hleft, hright⟩ := mem_blockPositions.mp ha
  obtain ⟨⟨habove, hbelow⟩, _⟩ := mem_blockLines.mp hline
  have hy := sub_mod_eq_of_multiple (y := a.1 - s.firstTop) hrow (by omega) (by omega)
  have hx := sub_mod_eq_of_multiple (mem_blockColumns.mp hcol).2 hleft hright
  refine Prod.ext ?_ hx
  have htop := blockTop_eq s (hfirst.trans habove)
  have hmod := Nat.mod_le (a.1 - s.firstTop) s.ctx.vmosaic.toNat
  show s.blockTop a.1 = c.1
  omega

theorem blockLeft_mod (s : State) (left : Half) : s.blockLeft left % s.ctx.hmosaic.toNat = 0 :=
  sub_mod_self_mod _ _

theorem blockRight_mod (s : State) (right : Half) : s.blockRight right % s.ctx.hmosaic.toNat = 0 :=
  sub_mod_self_mod _ _

theorem blockLeft_le (s : State) {left : Half} {x : Nat} (h : left.toNat ≤ x) :
    s.blockLeft left ≤ x - x % s.ctx.hmosaic.toNat := by
  unfold State.blockLeft
  rw [← Nat.div_mul_self_eq_mod_sub_self, ← Nat.div_mul_self_eq_mod_sub_self]
  exact Nat.mul_le_mul_right _ (Nat.div_le_div_right h)

theorem le_blockRight {s : State} (hh : 1 ≤ s.ctx.hmosaic.toNat) (right : Half) :
    right.toNat ≤ s.blockRight right := by
  have hmod := Nat.mod_lt (right.toNat + s.ctx.hmosaic.toNat - 1) hh
  unfold State.blockRight
  omega

/-- A whole block column fits before `MRight`. -/
theorem blockColumn_add_le {s : State} {left right : Half} {x : Nat}
    (hx : x ∈ s.blockColumns left right) : x + s.ctx.hmosaic.toNat ≤ s.blockRight right := by
  obtain ⟨⟨_, hlt⟩, hmod⟩ := mem_blockColumns.mp hx
  exact Nat.le_of_lt_add_of_dvd (Nat.add_lt_add_right hlt _)
    (Nat.dvd_add (Nat.dvd_of_mod_eq_zero hmod) (Nat.dvd_refl _))
    (Nat.dvd_of_mod_eq_zero (blockRight_mod s right))

theorem mosaicPositions_nodup (s : State) (left right : Half) : (s.mosaicPositions left right).Nodup := by
  have hblocks : (s.blockTops ×ˢ s.blockColumns left right).Nodup :=
    (blockTops_pairwise s).nodup.product (blockColumns_pairwise s left right).nodup
  refine List.nodup_flatMap.mpr ⟨fun c _ => ?_, hblocks.imp_of_mem fun {c c'} hc hc' hne => ?_⟩
  · exact (blockLines_pairwise s c.1).nodup.product (List.nodup_reverse.mpr (between_nodup _ _))
  · exact fun a ha ha' => hne ((corner_of_mem hc ha).symm.trans (corner_of_mem hc' ha'))

/-- The positions of a mosaic command lie on its lines and in the columns of its blocks. -/
theorem of_mem_mosaicPositions {s : State} {left right : Half} {a : Nat × Nat}
    (ha : a ∈ s.mosaicPositions left right) :
    (s.ctx.starty.toNat ≤ a.1 ∧ a.1 ≤ s.ctx.endy.toNat)
      ∧ s.blockLeft left ≤ a.2 ∧ a.2 < s.blockRight right := by
  obtain ⟨c, hc, ha⟩ := List.mem_flatMap.mp ha
  have hcol := (List.mem_product.mp hc).2
  obtain ⟨⟨hfirst, _⟩, _⟩ := mem_blockColumns.mp hcol
  obtain ⟨hline, hleft, hright⟩ := mem_blockPositions.mp ha
  exact ⟨(mem_blockLines.mp hline).2, hfirst.trans hleft,
    hright.trans_le (blockColumn_add_le hcol)⟩

/-- Every pixel of the rectangle is in the block of its corner. -/
theorem mem_mosaicPositions {s : State} {left right : Half} (hh : 1 ≤ s.ctx.hmosaic.toNat)
    (hv : 1 ≤ s.ctx.vmosaic.toNat) {line x : Nat} (hstart : s.ctx.starty.toNat ≤ line)
    (hend : line ≤ s.ctx.endy.toNat) (hleft : left.toNat ≤ x) (hright : x < right.toNat) :
    (line, x) ∈ s.mosaicPositions left right := by
  have hfirst : s.firstTop ≤ line := (Nat.sub_le _ _).trans hstart
  have htop := blockTop_eq s hfirst
  have hrow := Nat.mod_lt (line - s.firstTop) hv
  have hcol := Nat.mod_lt x hh
  have hrows : s.blockTop line ≤ line ∧ line < s.blockTop line + s.ctx.vmosaic.toNat := by omega
  have hcols : x - x % s.ctx.hmosaic.toNat ≤ x
      ∧ x < x - x % s.ctx.hmosaic.toNat + s.ctx.hmosaic.toNat := by omega
  refine List.mem_flatMap.mpr ⟨s.corner (line, x), List.mem_product.mpr ⟨mem_blockTops.mpr ⟨⟨?_, ?_⟩, ?_⟩,
    mem_blockColumns.mpr ⟨⟨?_, ?_⟩, ?_⟩⟩, ?_⟩
  · exact Nat.le_add_right _ _
  · exact hrows.1.trans hend
  · exact add_mul_sub_mod _ _ _
  · exact blockLeft_le s hleft
  · exact hcols.1.trans_lt (hright.trans_le (le_blockRight hh right))
  · exact sub_mod_self_mod _ _
  · exact mem_blockPositions.mpr ⟨mem_blockLines.mpr ⟨hrows, hstart, hend⟩, hcols⟩

/-! ## The model's blocks (rule R243) -/

theorem lt_mosaicBlocks_iff {s : State} (hv : 1 ≤ s.ctx.vmosaic.toNat) (j : Nat) :
    j < s.mosaicBlocks ↔ s.mosaicLine0 + s.ctx.vmosaic.toNat * j ≤ s.ctx.endy.toNat := by
  unfold State.mosaicBlocks
  rw [← Nat.succ_le_iff, Nat.le_div_iff_mul_le hv, Nat.succ_mul, Nat.mul_comm]
  omega

theorem blockTops_eq {s : State} (hv : 1 ≤ s.ctx.vmosaic.toNat) :
    s.blockTops
      = (List.range s.mosaicBlocks).map fun j => s.mosaicLine0 + s.ctx.vmosaic.toNat * j := by
  have hmono : StrictMono fun j => s.mosaicLine0 + s.ctx.vmosaic.toNat * j := fun j j' h =>
    Nat.add_lt_add_left (Nat.mul_lt_mul_of_pos_left h hv) _
  refine (blockTops_pairwise s).eq_of_mem_iff (range_map_pairwise hmono _) fun y => ?_
  rw [mem_blockTops, List.mem_map]
  simp only [List.mem_range, lt_mosaicBlocks_iff hv]
  constructor
  · rintro ⟨⟨hfirst, hend⟩, hmod⟩
    obtain ⟨q, hq⟩ := Nat.dvd_of_mod_eq_zero hmod
    have hy : s.mosaicLine0 + s.ctx.vmosaic.toNat * q = y := by
      rw [← hq]
      exact Nat.add_sub_cancel' hfirst
    exact ⟨q, hy ▸ hend, hy⟩
  · rintro ⟨j, hend, rfl⟩
    exact ⟨⟨Nat.le_add_right _ _, hend⟩, add_mul_sub_mod _ _ _⟩

theorem blockColumns_eq {s : State} (hh : 1 ≤ s.ctx.hmosaic.toNat) (left right : Half) :
    s.blockColumns left right = mosaicColumns left.toNat right.toNat s.ctx.hmosaic.toNat := by
  have hmono : StrictMono fun i => mosaicLeft left.toNat s.ctx.hmosaic.toNat + s.ctx.hmosaic.toNat * i :=
    fun j j' h => Nat.add_lt_add_left (Nat.mul_lt_mul_of_pos_left h hh) _
  refine (blockColumns_pairwise s left right).eq_of_mem_iff (range_map_pairwise hmono _) fun x => ?_
  have hleft := Nat.dvd_of_mod_eq_zero (blockLeft_mod s left)
  constructor
  · intro hx
    have hfits := blockColumn_add_le hx
    obtain ⟨⟨hle, hlt⟩, hmod⟩ := mem_blockColumns.mp hx
    obtain ⟨q, hq⟩ := (Nat.dvd_sub_iff_left hle hleft).mpr (Nat.dvd_of_mod_eq_zero hmod)
    refine List.mem_map.mpr ⟨q, List.mem_range.mpr ?_, ?_⟩
    · refine (Nat.le_div_iff_mul_le hh).mpr ?_
      rw [Nat.succ_mul, Nat.mul_comm, ← hq]
      show x - s.blockLeft left + _ ≤ s.blockRight right - s.blockLeft left
      omega
    · rw [← hq]
      exact Nat.add_sub_cancel' hle
  · intro hx
    have hcell := mosaicColumn_cell hx hh
    obtain ⟨q, _, rfl⟩ := List.mem_map.mp hx
    exact mem_blockColumns.mpr ⟨hcell,
      Nat.mod_eq_zero_of_dvd (Nat.dvd_add hleft (Nat.dvd_mul_right _ q))⟩

theorem mem_mosaicRows {s : State} {j top r : Nat} :
    r ∈ s.mosaicRows j top ↔ (if j = 0 then s.ctx.mosaicstart.toNat else 0) ≤ r
      ∧ r < s.ctx.vmosaic.toNat ∧ top + r ≤ s.ctx.endy.toNat := by
  unfold State.mosaicRows
  simp only [List.mem_map, List.mem_range]
  constructor
  · rintro ⟨i, hi, rfl⟩
    omega
  · rintro ⟨hfrom, hheight, hto⟩
    exact ⟨r - if j = 0 then s.ctx.mosaicstart.toNat else 0, by omega, by omega⟩

/-- The first block's rows begin at `STARTY`; a later block lies below it. -/
theorem blockLines_eq {s : State} (hphase : s.ctx.mosaicstart.toNat < s.ctx.vmosaic.toNat)
    (hstart : s.ctx.mosaicstart.toNat ≤ s.ctx.starty.toNat) (j : Nat) :
    let top := s.mosaicLine0 + s.ctx.vmosaic.toNat * j
    s.blockLines top = (s.mosaicRows j top).map (top + ·) := by
  intro top
  have hrows : ((s.mosaicRows j top).map (top + ·)).Pairwise (· < ·) := by
    unfold State.mosaicRows
    rw [List.map_map]
    exact range_map_pairwise (fun i i' h => Nat.add_lt_add_left (Nat.add_lt_add_left h _) _) _
  refine (blockLines_pairwise s top).eq_of_mem_iff hrows fun y => ?_
  rw [mem_blockLines, List.mem_map]
  constructor
  · rintro ⟨⟨habove, hbelow⟩, hfrom, hto⟩
    refine ⟨y - top, mem_mosaicRows.mpr ⟨?_, by omega, by omega⟩, Nat.add_sub_cancel' habove⟩
    split
    · next hj =>
      have htop : top = s.ctx.starty.toNat - s.ctx.mosaicstart.toNat := by simp [top, hj, State.mosaicLine0]
      omega
    · exact Nat.zero_le _
  · rintro ⟨r, hr, rfl⟩
    exact ⟨⟨Nat.le_add_right _ _, Nat.add_lt_add_left (mem_mosaicRows.mp hr).2.1 _⟩,
      mosaicRow_line hphase hstart hr⟩

/-! ## The plots and the PLOT commands of the blocks -/

theorem product_flatMap {α β γ : Type} (f : α × β → List γ) (l : List α) (m : List β) :
    (l ×ˢ m).flatMap f = l.flatMap fun a => m.flatMap fun b => f (a, b) := by
  simp [SProd.sprod, List.product, List.flatMap_assoc, List.flatMap_map]

/-- Of a block all positions are kept or none, and each has the corner's sample. -/
theorem block_filter_map {β : Type} {s : State} {left right : Half} {c : Nat × Nat}
    (hc : c ∈ s.blockTops ×ˢ s.blockColumns left right) (keep : Option Byte → Bool)
    (f : Option Byte → Nat × Nat → β) :
    ((s.blockPositions c).filter fun a => keep (s.mosaicSample a)).map (fun a => f (s.mosaicSample a) a)
      = if keep (s.rowSample c) then (s.blockPositions c).map (f (s.rowSample c)) else [] := by
  have hsample : ∀ a ∈ s.blockPositions c, s.mosaicSample a = s.rowSample c := fun a ha =>
    congrArg s.rowSample (corner_of_mem hc ha)
  rw [List.filter_congr fun a ha => congrArg keep (hsample a ha)]
  cases keep (s.rowSample c) with
  | false => simp
  | true =>
    rw [List.filter_true]
    exact List.map_congr_left fun a ha => congrArg (f · a) (hsample a ha)

/-- A mosaic command's plots, block by block. -/
theorem mosaic_filter_map {β : Type} (s : State) (left right : Half) (keep : Option Byte → Bool)
    (f : Option Byte → Nat × Nat → β) :
    ((s.mosaicPositions left right).filter fun a => keep (s.mosaicSample a)).map
        (fun a => f (s.mosaicSample a) a)
      = s.blockTops.flatMap fun top => (s.blockColumns left right).flatMap fun x =>
          if keep (s.rowSample (top, x)) then
            (s.blockPositions (top, x)).map (f (s.rowSample (top, x))) else [] := by
  unfold State.mosaicPositions
  rw [List.filter_flatMap, List.map_flatMap, List.flatMap_congr fun c hc => block_filter_map hc keep f,
    product_flatMap]

/-- The line position of a mosaic command. -/
def State.mosaicOil (s : State) : Nat := s.firstTop * s.ctx.ppl.toNat % s.ctx.rppl.toNat

section Mosaic

variable {s : State} (bg : Bg) (left right : Half) (d : Byte)

variable (s) in
theorem mosaicInstrs_eq :
    s.mosaicInstrs bg left right d
      = ((s.mosaicPositions left right).filter fun a => (s.mosaicSample a).isSome).map
          fun a => s.positionInstr bg left right d s.mosaicOil (s.mosaicSample a) a := by
  rw [mosaic_filter_map s left right Option.isSome (s.positionInstr bg left right d s.mosaicOil)]
  refine List.flatMap_congr fun top _ => List.flatMap_congr fun x _ => ?_
  have hsample : s.mode7Byte (s.mode7X top x) (s.mode7Y top x) = s.rowSample (top, x) := rfl
  rw [hsample]
  cases s.rowSample (top, x) with
  | none => rfl
  | some b => exact flatMap_map_eq_product _ _ _

/-- The cells of a block, as the positions of its rows. -/
theorem mosaicCells_eq {b : Byte} (hb : m7Pix bg b ≠ 0) (oil top x : Nat) (rows : List Nat) :
    s.mosaicCells left right oil top x rows (m7Pix bg b) (s.m7Z bg b d)
      = (rows.map (top + ·) ×ˢ (between x (x + s.ctx.hmosaic.toNat)).reverse).map
          (s.positionCall bg left right d oil (some b)) := by
  have hcols : between x (x + s.ctx.hmosaic.toNat) = (List.range s.ctx.hmosaic.toNat).map (x + ·) := by
    rw [between_eq_Ico, List.Ico, List.range'_eq_map_range, Nat.add_sub_cancel_left]
  refine Eq.trans ?_ (flatMap_map_eq_product
    (fun line n => s.positionCall bg left right d oil (some b) (line, n)) _ _)
  rw [hcols, ← List.map_reverse, List.flatMap_map]
  refine List.flatMap_congr fun r _ => ?_
  rw [List.map_map]
  refine List.map_congr_left fun i _ => ?_
  simp only [Function.comp_apply, State.positionCall, State.sampleCall, callAt, Option.getD_some,
    decide_eq_true hb, Bool.and_true, Int.natCast_mul]

theorem mosaicBlock_eq (hphase : s.ctx.mosaicstart.toNat < s.ctx.vmosaic.toNat)
    (hstart : s.ctx.mosaicstart.toNat ≤ s.ctx.starty.toNat) (j x : Nat) :
    let top := s.mosaicLine0 + s.ctx.vmosaic.toNat * j
    s.mosaicBlock bg left right d s.mosaicOil j top x
      = if opaqueSample bg (s.rowSample (top, x)) then
          (s.blockPositions (top, x)).map
            (s.positionCall bg left right d s.mosaicOil (s.rowSample (top, x))) else [] := by
  intro top
  unfold State.mosaicBlock
  simp only [m7Sample_eq_rowSample]
  cases s.rowSample (top, x) with
  | none => rw [opaqueSample_none]; rfl
  | some b =>
    by_cases hb : m7Pix bg b = 0
    · rw [show opaqueSample bg (some b) = false from decide_eq_false (not_not_intro hb)]
      exact if_pos hb
    · rw [if_pos (show opaqueSample bg (some b) = true from decide_eq_true hb), State.blockPositions,
        blockLines_eq hphase hstart]
      exact (if_neg hb).trans (mosaicCells_eq bg left right d hb _ _ _ _)

theorem m7MosaicPlots_eq (hh : 1 ≤ s.ctx.hmosaic.toNat)
    (hphase : s.ctx.mosaicstart.toNat < s.ctx.vmosaic.toNat)
    (hstart : s.ctx.mosaicstart.toNat ≤ s.ctx.starty.toNat) :
    State.m7MosaicPlots bg left right d s
      = ((s.mosaicPositions left right).filter fun a => opaqueSample bg (s.mosaicSample a)).map
          fun a => s.positionCall bg left right d s.mosaicOil (s.mosaicSample a) a := by
  rw [mosaic_filter_map s left right (opaqueSample bg) (s.positionCall bg left right d s.mosaicOil),
    blockTops_eq (Nat.one_le_of_lt hphase), blockColumns_eq hh, List.flatMap_map]
  exact List.flatMap_congr fun j _ => List.flatMap_congr fun x _ =>
    mosaicBlock_eq bg left right d hphase hstart j x

theorem m7MosaicRow_of_blocksInTable (hblocks : s.blocksInTable)
    (hphase : s.ctx.mosaicstart.toNat < s.ctx.vmosaic.toNat)
    (hstart : s.ctx.mosaicstart.toNat ≤ s.ctx.starty.toNat) :
    State.m7MosaicRow bg left right d s
      = (State.setScsel (s.m7Scsel bg) s).runPlots (State.m7MosaicPlots bg left right d s) := by
  unfold State.m7MosaicRow
  rw [if_neg (Nat.not_le.mpr hphase), if_neg (Nat.not_lt.mpr hstart),
    if_pos ((mosaicLinesOk_iff_blocksInTable s).mpr hblocks)]
  rfl

theorem m7MosaicRow_lowRes (hlow : s.lowRes) (hblocks : s.blocksInTable)
    (hh : 1 ≤ s.ctx.hmosaic.toNat) (hphase : s.ctx.mosaicstart.toNat < s.ctx.vmosaic.toNat)
    (hstart : s.ctx.mosaicstart.toNat ≤ s.ctx.starty.toNat)
    (hfit : s.pixelWidth * (s.blockRight right - s.blockLeft left) ≤ s.ctx.ppl.toNat)
    (hrange : ∀ line, s.ctx.starty.toNat ≤ line → line ≤ s.ctx.endy.toNat → ∀ x,
      s.blockLeft left ≤ x → x < s.blockRight right → s.pixelInRange (line * s.ctx.ppl.toNat) x) :
    let t := State.m7MosaicRow bg left right d s
    s.endedOk t ∧ ∀ line, s.ctx.starty.toNat ≤ line → line ≤ s.ctx.endy.toNat → ∀ x, left.toNat ≤ x →
      x < right.toNat →
        s.showsSample t bg d (s.mosaicSample (line, x)) (line * s.ctx.ppl.toNat) x := by
  intro t
  rw [show t = _ from m7MosaicRow_of_blocksInTable bg left right d hblocks hphase hstart,
    m7MosaicPlots_eq bg left right d hh hphase hstart]
  obtain ⟨hended, hshown⟩ := runPlots_positions (d := d) (oil := s.mosaicOil) (sample := s.mosaicSample)
    hlow (mosaicPositions_nodup s left right) (fun a ha => (of_mem_mosaicPositions ha).2) hfit
    (fun a ha => by
      obtain ⟨⟨hfrom, hto⟩, hleft, hright⟩ := of_mem_mosaicPositions ha
      exact hrange a.1 hfrom hto a.2 hleft hright)
    (keep := opaqueSample bg) (fun _ => id)
  exact ⟨hended, fun line hfrom hto x hleft hright => hshown (line, x)
    (mem_mosaicPositions hh (Nat.one_le_of_lt hphase) hfrom hto hleft hright) hleft hright⟩

theorem blockRight_lt (s : State) (right : Half) : s.blockRight right < 2 ^ 31 := by
  have hright := right.isLt
  have hh := s.ctx.hmosaic.isLt
  unfold State.blockRight
  omega

theorem m7MosaicRow_of_runAll {u : State} (hblocks : s.blocksInTable) (hh : 1 ≤ s.ctx.hmosaic.toNat)
    (hphase : s.ctx.mosaicstart.toNat < s.ctx.vmosaic.toNat)
    (hstart : s.ctx.mosaicstart.toNat ≤ s.ctx.starty.toNat) (hrppl : 1 ≤ s.ctx.rppl.toNat)
    (hfit : s.ctx.endy.toNat * s.ctx.ppl.toNat < 2 ^ 32)
    (h : runAll (s.mosaicInstrs bg left right d) (State.setScsel (s.m7Scsel bg) s) = some u) :
    State.m7MosaicRow bg left right d s = u.done (.word 0) := by
  rw [mosaicInstrs_eq] at h
  have hmem : ∀ {a keep}, a ∈ (s.mosaicPositions left right).filter keep →
      a.1 ≤ s.ctx.endy.toNat ∧ a.2 < s.blockRight right := fun ha => by
    obtain ⟨⟨_, hto⟩, _, hright⟩ := of_mem_mosaicPositions (List.mem_of_mem_filter ha)
    exact ⟨hto, hright⟩
  have hrun := runPlots_of_positionInstrs (oil := s.mosaicOil) (fun a ha => (hmem ha).1)
    (fun a ha => (hmem ha).2.trans (blockRight_lt s right))
    ((Nat.mod_lt _ hrppl).trans s.ctx.rppl.isLt) hfit h
  rw [m7MosaicRow_of_blocksInTable bg left right d hblocks hphase hstart,
    m7MosaicPlots_eq bg left right d hh hphase hstart, runPlots_opaque (by rw [hrun]; rfl), hrun]

end Mosaic

/-- Settles O39: the blocks cover the rectangle, each position once, and the plots are those of the samples of
their corners; a transparent one is plotted by the PLOT commands alone, which changes nothing. -/
theorem mode7MosaicDraws : Obligations.Mode7MosaicDraws := by
  refine ⟨fun s left right d hlow hblocks hh hphase hstart hfit hrange =>
      ⟨⟨_, rfl, m7MosaicRow_lowRes .bg1 left right d hlow hblocks hh hphase hstart hfit hrange⟩,
        ⟨_, rfl, m7MosaicRow_lowRes .bg2 left right d hlow hblocks hh hphase hstart hfit hrange⟩⟩,
    fun i bg s u left right d hi hblocks hh hphase hstart hrppl hfit hrun => ?_⟩
  rw [← m7Scsel_eq] at hrun
  have hrow := m7MosaicRow_of_runAll bg left right d hblocks hh hphase hstart hrppl hfit hrun
  obtain ⟨rfl, rfl⟩ | ⟨rfl, rfl⟩ := hi <;> exact congrArg Host.Outcome.next hrow

/-! ## Blocks of one pixel (rule R241) -/

section OneByOne

variable {s : State} (hh : s.ctx.hmosaic = 1) (hv : s.ctx.vmosaic = 1) (hm : s.ctx.mosaicstart = 0)

include hm in
theorem firstTop_of_no_phase : s.firstTop = s.ctx.starty.toNat := by
  unfold State.firstTop
  rw [hm]
  rfl

include hh in
theorem blockColumns_one (left right : Half) :
    s.blockColumns left right = between left.toNat right.toNat := by
  have hone : s.ctx.hmosaic.toNat = 1 := congrArg BitVec.toNat hh
  unfold State.blockColumns State.blockLeft State.blockRight
  simp [hone, Nat.mod_one]

include hv hm in
theorem blockTops_one : s.blockTops = between s.ctx.starty.toNat (s.ctx.endy.toNat + 1) := by
  have hone : s.ctx.vmosaic.toNat = 1 := congrArg BitVec.toNat hv
  unfold State.blockTops
  simp [hone, Nat.mod_one, firstTop_of_no_phase hm]

include hh hv in
theorem blockPositions_one {left right : Half} {a : Nat × Nat} (ha : a ∈ s.rowPositions left right) :
    s.blockPositions a = [a] := by
  have hcols : s.ctx.hmosaic.toNat = 1 := congrArg BitVec.toNat hh
  have hrows : s.ctx.vmosaic.toNat = 1 := congrArg BitVec.toNat hv
  obtain ⟨hline, _⟩ := mem_rowPositions.mp ha
  unfold State.blockPositions State.blockLines
  rw [hcols, hrows, between_eq_Ico, between_eq_Ico, List.Ico.succ_singleton, List.Ico.succ_singleton,
    List.filter_singleton, decide_eq_true hline]
  rfl

include hh hv hm

/-- The positions are those of a row, and each is the corner of its block. -/
theorem mosaicPositions_one (left right : Half) :
    s.mosaicPositions left right = s.rowPositions left right := by
  unfold State.mosaicPositions
  rw [blockTops_one hv hm, blockColumns_one hh]
  exact (List.flatMap_congr fun a ha => blockPositions_one hh hv ha).trans (List.flatMap_singleton' _)

theorem mosaicSample_one {left right : Half} {a : Nat × Nat} (ha : a ∈ s.rowPositions left right) :
    s.mosaicSample a = s.rowSample a := by
  have hcorner : a ∈ s.blockTops ×ˢ s.blockColumns left right := by
    rw [blockTops_one hv hm, blockColumns_one hh]
    exact ha
  have hself : a ∈ s.blockPositions a := by
    rw [blockPositions_one hh hv ha]
    exact List.mem_singleton_self a
  exact congrArg s.rowSample (corner_of_mem hcorner hself)

/-- The plots are those of the row whose pixel is not 0. -/
theorem m7MosaicPlots_one (bg : Bg) (left right : Half) (d : Byte) :
    State.m7MosaicPlots bg left right d s
      = ((s.rowPositions left right).filter fun a => opaqueSample bg (s.rowSample a)).map
          fun a => s.positionCall bg left right d s.rowOil (s.rowSample a) a := by
  have hoil : s.mosaicOil = s.rowOil := by
    unfold State.mosaicOil
    rw [firstTop_of_no_phase hm]
    rfl
  rw [m7MosaicPlots_eq bg left right d (by rw [hh]; decide) (by rw [hm, hv]; decide)
    (by rw [hm]; exact Nat.zero_le _), mosaicPositions_one hh hv hm, hoil]
  have hsample : ∀ {a}, a ∈ s.rowPositions left right → s.mosaicSample a = s.rowSample a :=
    mosaicSample_one hh hv hm
  rw [List.filter_congr fun a ha => congrArg (opaqueSample bg) (hsample ha)]
  refine List.map_congr_left fun a ha => ?_
  rw [hsample (List.mem_of_mem_filter ha)]

theorem m7MosaicRow_one {bg : Bg} {left right : Half} {d : Byte}
    (h : (State.m7Row bg left right d s).response = some (.ok (.word 0))) :
    State.m7MosaicRow bg left right d s = State.m7Row bg left right d s := by
  obtain ⟨_, hfault⟩ | ⟨hlines, _⟩ := CaptureLaws.m7Row_cases bg left right d s
  · rw [hfault] at h
    cases h
  · have hlines := (linesOk_iff s).mp hlines
    have hblocks : s.blocksInTable := ⟨hlines, by
      unfold State.linesInTable at hlines
      rw [firstTop_of_no_phase hm]
      omega⟩
    rw [m7Row_of_linesInTable s bg left right d hlines, m7RowPlots_eq] at h ⊢
    rw [m7MosaicRow_of_blocksInTable bg left right d hblocks (by rw [hm, hv]; decide)
      (by rw [hm]; exact Nat.zero_le _), m7MosaicPlots_one hh hv hm, runPlots_opaque h]

end OneByOne

/-- Settles O40: blocks of one pixel are the positions of the row in its order, without the transparent ones,
whose plots change nothing where the row ends without a fault. -/
theorem mosaicOfOneIsRow : Obligations.MosaicOfOneIsRow := by
  intro s t left right d hh hv hm hok
  have hrow : ∀ bg, State.m7Row bg left right d s = t → State.m7MosaicRow bg left right d s = t := by
    rintro bg rfl
    exact m7MosaicRow_one hh hv hm hok
  exact ⟨fun h => congrArg Host.Outcome.next (hrow .bg1 (Host.Outcome.next.inj h)),
    fun h => congrArg Host.Outcome.next (hrow .bg2 (Host.Outcome.next.inj h))⟩

end Sys2Proof.Machine
end

section
/-! SUPPORT and O10 to O15. The system commands and the dispatch (rules R40, R250 to R255): the packets that
carry an immediate, the registers as words, and what keeps the selected renderer. -/

namespace Sys2Proof.Machine

open EncodingLaws

/-! ## Packets with an immediate (rules R110 to R115) -/

/-- An opcode word plus an immediate is a header. -/
theorem opcodeWord_add_immediate {opc : BitVec 8} {n : Nat} (hn : n < 256) :
    header opc 0 + BitVec.ofNat 32 n = header opc (BitVec.ofNat 8 n) := by
  have hopc := opc.isLt
  apply BitVec.eq_of_toNat_eq
  rw [BitVec.toNat_add, header_toNat, header_toNat, BitVec.toNat_ofNat, BitVec.toNat_ofNat]
  show (opc.toNat * 16777216 + 0 + n % 2 ^ 32) % 2 ^ 32 = _
  omega

/-- A command is decoded from its packet under its header, however that is written. -/
theorem decode_encode_of_header {i : Instr} {w0 : Word} (hwf : i.wf = true)
    (hw : w0 = (encode i).w0) : decode { encode i with w0 := w0 } = .ok i := by
  rw [hw]; exact decodeOfEncode i hwf

section Immediate

variable {p : Packet} {opc : BitVec 8} {n : Nat}

/-- A packet of an opcode word plus an immediate is decoded by that opcode. -/
theorem decode_of_immediate (hn : n < 256) (hw : p.w0 = header opc 0 + BitVec.ofNat 32 n) :
    decode p = decodeOpc opc.toNat p :=
  decode_of_header (hw.trans (opcodeWord_add_immediate hn))

theorem imm_toNat_of_immediate (hn : n < 256) (hw : p.w0 = header opc 0 + BitVec.ofNat 32 n) :
    p.imm.toNat = n := by
  rw [imm_of_header (hw.trans (opcodeWord_add_immediate hn)), BitVec.toNat_ofNat, Nat.mod_eq_of_lt hn]

/-- A number above 0x21 names no register (rule R115). -/
theorem ctxRegOf_eq_none (h : 0x21 < n) : ctxRegOf n = none := List.getElem?_eq_none h

theorem decode_ctxwr_noRegister (h : 0x21 < n) (hn : n < 256)
    (hw : p.w0 = 0x02000000 + BitVec.ofNat 32 n) : decode p = .error .illegalOperand := by
  have hdecode : decode p = decodeCtxwr p := decode_of_immediate (opc := 0x02) hn hw
  rw [hdecode, decodeCtxwr, imm_toNat_of_immediate (opc := 0x02) hn hw, ctxRegOf_eq_none h]

theorem decode_ctxrd_noRegister (h : 0x21 < n) (hn : n < 256)
    (hw : p.w0 = 0x03000000 + BitVec.ofNat 32 n) : decode p = .error .illegalOperand := by
  have hdecode : decode p = decodeCtxrd p := decode_of_immediate (opc := 0x03) hn hw
  rw [hdecode, decodeCtxrd, imm_toNat_of_immediate (opc := 0x03) hn hw, ctxRegOf_eq_none h]

theorem addrMode_num_le (a : AddrMode) : a.num ≤ 4 := by cases a <;> decide

/-- The numbers that are no math mode or no addressing mode (rule R115). -/
theorem decode_select_noMode (hn : n < 128) (h : 8 < n % 16 ∨ 4 < n / 16)
    (hw : p.w0 = 0x05000000 + BitVec.ofNat 32 n) : decode p = .error .illegalOperand := by
  have h256 : n < 256 := hn.trans (by decide)
  have hdecode : decode p = decodeSelect p := decode_of_immediate (opc := 0x05) h256 hw
  rw [hdecode, decodeSelect, imm_toNat_of_immediate (opc := 0x05) h256 hw, if_pos hn]
  split
  · next m a hm ha =>
    have hmath := num_of_mathModeOf hm ▸ mathMode_num_le m
    have haddr := num_of_addrModeOf ha ▸ addrMode_num_le a
    omega
  · rfl

theorem decode_select_illegal (h128 : 128 ≤ n) (hn : n < 256)
    (hw : p.w0 = 0x05000000 + BitVec.ofNat 32 n) : decode p = .error .illegalOpcode := by
  have hdecode : decode p = decodeSelect p := decode_of_immediate (opc := 0x05) hn hw
  rw [hdecode, decodeSelect, imm_toNat_of_immediate (opc := 0x05) hn hw, if_neg h128.not_gt]

end Immediate

/-! ## SYS.NOP (rule R251) -/

theorem opc_eq_zero {p : Packet} (h : p.w0.toNat < 2 ^ 24) : p.opc.toNat = 0 := by
  rw [Packet.opc, BitVec.extractLsb'_toNat, Nat.shiftRight_eq_div_pow, Nat.div_eq_of_lt h]

/-- Under opcode 0 only the header 0 is legal. -/
theorem decode_nop_illegal {p : Packet} (h : p.w0.toNat < 2 ^ 24) (hne : p.w0 ≠ 0) :
    decode p = .error .illegalOpcode := by
  obtain hrefused | ⟨hw, hdecode⟩ := decode_cases p
  · exact hrefused
  · rw [opc_eq_zero h] at hw hdecode
    rw [hdecode]
    exact if_neg fun himm => hne (hw.trans (congrArg (header 0) himm))

/-- Under the header 0 an operand word has to be 0. -/
theorem decode_nop_operand {p : Packet} (hw : p.w0 = 0)
    (hne : p ≠ ⟨0, 0, 0, 0, 0, 0, 0, 0⟩) : decode p = .error .illegalOperand := by
  have hheader : p.w0 = header 0x00 0 := hw
  rw [decode_of_header hheader]
  show decodeZ p .sysNop = _
  cases hdecode : decodeZ p .sysNop with
  | ok i => exact absurd ((decodeZ_eq_ok hheader).mp hdecode).1 hne
  | error e =>
    cases e with
    | illegalOperand => rfl
    | illegalOpcode => exact absurd hdecode (decodeZ_legal_iff.mpr (imm_of_header hheader))

/-- Settles O10: opcode 0 has one packet, and the command is its response. -/
theorem sysNopChangesNothing : Obligations.SysNopChangesNothing :=
  ⟨fun _ => rfl, decodeOfEncode .sysNop rfl, fun _ => decode_nop_illegal, fun _ => decode_nop_operand⟩

/-! ## Resets (rules R252, R255, R303) -/

theorem softReset_afterReset (s : State) : s.softReset.afterReset :=
  ⟨readReg_reset, fun _ _ _ => rfl, MemoryLaws.read_bcapReset, rfl, rfl, rfl⟩

/-- A halted block that has only a packet to take takes nothing. -/
theorem step_of_halted_packet {s : State} {p : Packet} (hhalt : s.ctx.status.halt = true)
    (hmoves : s.moves = [.packet p]) : step s = .next s := by
  have hnext : s.nextMove = none := by
    simp [State.nextMove, hmoves, firstEnabled, hhalt, HostMove.isPacket]
  unfold step stepOnce
  rw [hnext]

/-- Settles O11: the reset values, and the memories the update leaves out. -/
theorem softReset : Obligations.SoftReset :=
  ⟨decodeOfEncode .sysRst rfl,
    fun s => ⟨_, rfl, softReset_afterReset s, ⟨rfl, rfl, rfl, rfl, rfl, rfl, rfl⟩, rfl, rfl, rfl, rfl,
      rfl, rfl⟩,
    fun _ => step_of_halted_packet⟩

/-- Settles O14: the flags are the memory of zeros. -/
theorem frameStart : Obligations.FrameStart :=
  ⟨decodeOfEncode .sysFramestart rfl, fun _ => ⟨_, rfl, fun _ _ _ => rfl, rfl⟩⟩

/-! ## Packed registers as words (rule R40) -/

theorem Status.word_toNat (t : Status) :
    t.word.toNat = t.halt.toNat + 2 * t.capreq.toNat + 256 * t.faultCode.toNat := by
  have hhalt := t.halt.toNat_lt
  have hcapreq := t.capreq.toNat_lt
  rw [Status.word, bit_eq_toNat, bit_eq_toNat]
  exact Nat.mod_eq_of_lt (by omega)

theorem Rsel.word_toNat (r : Rsel) : r.word.toNat = r.math.num + 16 * r.addr.num := by
  have hmath := mathMode_num_le r.math
  have haddr := addrMode_num_le r.addr
  exact Nat.mod_eq_of_lt (by omega)

theorem Fbd.word_toNat (f : Fbd) : f.word.toNat = f.color.toNat + 65536 * f.en.toNat := by
  have hen := f.en.toNat_lt
  rw [Fbd.word, bit_eq_toNat]
  exact Nat.mod_eq_of_lt (by omega)

theorem PalKind.num_le (k : PalKind) : k.num ≤ 2 := by cases k <;> decide

theorem Scsel.word_toNat (c : Scsel) :
    c.word.toNat
      = c.kind.num + 4 * c.black.toNat + 8 * c.base.toNat + 2048 * c.map.toNat := by
  have hkind := c.kind.num_le
  have hblack := c.black.toNat_lt
  rw [Scsel.word, bit_eq_toNat]
  exact Nat.mod_eq_of_lt (by omega)

theorem Bpp.num_le (b : Bpp) : b.num ≤ 2 := by cases b <;> decide

theorem Tcsel.word_toNat (t : Tcsel) :
    t.word.toNat = t.valid.toNat + 2 * t.bank.num + 8 * t.flip.toNat + 16 * t.tn.toNat := by
  have hvalid := t.valid.toNat_lt
  have hbank := t.bank.num_le
  have hflip := t.flip.toNat_lt
  rw [Tcsel.word, bit_eq_toNat, bit_eq_toNat]
  exact Nat.mod_eq_of_lt (by omega)

/-! ## SYS.CTXWR (rules R40, R253) -/

theorem regAccepts_iff (r : CtxReg) (v : Word) : regAccepts r v = true ↔ ctxLegal r v.toNat := by
  cases r
  case status | rsel | shotid | ntiles | npals | nrefs | scsel | tcsel =>
    exact iff_of_false Bool.false_ne_true id
  case origin | frame | decodecnt => exact iff_of_true rfl trivial
  case hmosaic | vmosaic | ppl | rppl => exact decide_eq_true_iff
  -- A field of n bits, or BPP: the model writes v < k + 1 where the table has v ≤ k.
  all_goals exact decide_eq_true_iff.trans Nat.lt_succ_iff

theorem setWidth_of_lt {n : Nat} {v : Word} (h : v.toNat < 2 ^ n) : (v.setWidth n).setWidth 32 = v :=
  setWidth_of_fits (decide_eq_true h)

theorem eq_zero_or_one {v : Word} (h : v.toNat ≤ 1) : v = 0 ∨ v = 1 := by bv_omega

theorem eq_zero_or_one_or_two {v : Word} (h : v.toNat ≤ 2) : v = 0 ∨ v = 1 ∨ v = 2 := by bv_omega

/-- `FBD` written with 17 bits reads as those bits: `EN` is bit 16 and `COLOR` the others. -/
theorem fbdWord_of_le {v : Word} (h : v.toNat ≤ 0x1FFFF) :
    Fbd.word ⟨decide (65536 ≤ v.toNat), v.setWidth 16⟩ = v := by
  apply BitVec.eq_of_toNat_eq
  rw [Fbd.word_toNat, BitVec.toNat_setWidth]
  show v.toNat % 2 ^ 16 + 65536 * (decide (65536 ≤ v.toNat)).toNat = v.toNat
  by_cases hen : 65536 ≤ v.toNat
  · rw [decide_eq_true hen, Bool.toNat_true]; omega
  · rw [decide_eq_false hen, Bool.toNat_false]; omega

theorem readReg_writeReg_same (c : Ctx) {r : CtxReg} {v : Word} (h : ctxLegal r v.toNat) :
    (c.writeReg r v).readReg r = v := by
  cases r
  case status | rsel | shotid | ntiles | npals | nrefs | scsel | tcsel => exact h.elim
  case origin | ppl | rppl | frame | decodecnt => rfl
  case target | clip | direct | iline | capen => obtain rfl | rfl := eq_zero_or_one h <;> rfl
  case bpp => obtain rfl | rfl | rfl := eq_zero_or_one_or_two h <;> rfl
  case fbd => exact fbdWord_of_le h
  -- The value fits the register's field.
  all_goals exact setWidth_of_lt (by simp only [ctxLegal] at h; omega)

/-- A write changes what its own register reads, and no other: each pair of registers by computation. -/
theorem readReg_writeReg (c : Ctx) (r : CtxReg) (v : Word) (r' : CtxReg) :
    (c.writeReg r v).readReg r' = if r' = r then (c.writeReg r v).readReg r' else c.readReg r' := by
  cases r <;> cases r' <;> rfl

/-- Settles O12: the check accepts the legal column, and a value is written to its register alone. -/
theorem contextWrite : Obligations.ContextWrite := by
  refine ⟨fun s r v hlegal => ?_, fun s r v hlegal => ?_, fun r v => ?_, fun n v h hn => ?_⟩
  · refine ⟨_, congrArg Host.Outcome.next (if_pos ((regAccepts_iff r v).mpr hlegal)),
      readReg_writeReg_same s.ctx hlegal, fun r' hne => ?_, rfl⟩
    exact (readReg_writeReg s.ctx r v r').trans (if_neg hne)
  · exact congrArg Host.Outcome.next (if_neg (mt (regAccepts_iff r v).mp hlegal))
  · exact decode_encode_of_header (i := .sysCtxwr r v) rfl
      (opcodeWord_add_immediate (opc := 0x02) (ctxReg_num_lt r))
  · exact decode_ctxwr_noRegister h hn rfl

/-! ## SYS.CTXRD (rules R40, R41, R254) -/

/-- A block that is not halted has the capture request alone in `STATUS` (rule R41). -/
theorem statusWord_of_running {s : State} (hhalt : s.ctx.status.halt = false)
    (hok : s.statusConsistent) : s.ctx.status.word = if s.ctx.status.capreq then 2 else 0 := by
  have hcode : s.ctx.status.faultCode = 0 := by simpa [State.statusConsistent, hhalt] using hok
  rw [Status.word, hhalt, hcode]
  cases s.ctx.status.capreq <;> rfl

/-- Settles O13: the response is the register's word, and every packed word has its fields apart. -/
theorem contextRead : Obligations.ContextRead := by
  refine ⟨fun _ _ => rfl, fun c => ⟨c.status.word_toNat, c.rsel.word_toNat, c.fbd.word_toNat,
    c.scsel.word_toNat, c.tcsel.word_toNat⟩, fun s rest hmoves hhalt hok => ?_, fun r => ?_,
    fun n h hn => decode_ctxrd_noRegister h hn rfl⟩
  · have hdecode := decodeOfEncode (.sysCtxrd .status) rfl
    refine ⟨_, stepRunsDecoded s _ rest _ hmoves hhalt hdecode, ?_⟩
    exact congrArg (fun w => some (Response.ok (.word w))) (statusWord_of_running hhalt hok)
  · exact decode_encode_of_header (i := .sysCtxrd r) rfl
      (opcodeWord_add_immediate (opc := 0x03) (ctxReg_num_lt r))

/-! ## RD.SELECT (rule R250) -/

theorem writeReg_rsel (c : Ctx) (r : CtxReg) (v : Word) : (c.writeReg r v).rsel = c.rsel := by
  cases r <;> rfl

/-- The two commands that write `RSEL`. -/
theorem Performs.rsel {i : Instr} {s u : State} (hdo : Performs i s u) (hrst : i ≠ .sysRst)
    (hselect : ∀ m a, i ≠ .rdSelect m a) : u.ctx.rsel = s.ctx.rsel := by
  cases hdo with
  | nothing => rfl
  | reset => exact absurd rfl hrst
  | register => exact writeReg_rsel _ _ _
  | frame => rfl
  | select m a => exact absurd rfl (hselect m a)
  | resolve tile => exact (prepared_resolve s tile).rsel
  | palette => rfl
  | draw _ hready hdrawn => rw [hdrawn.ctx]; exact hready.prepared.rsel
  | session => rfl
  | acknowledge => unfold State.acknowledge; split <;> rfl

/-- Settles O15: a response keeps RSEL, and of what comes before it only two commands write it. -/
theorem rendererSelection : Obligations.RendererSelection := by
  refine ⟨fun _ _ _ => rfl, fun i s t hexec hrst hselect => ?_, fun m a => ?_,
    fun n hn h => decode_select_noMode hn h rfl, fun p n h128 hn => decode_select_illegal h128 hn⟩
  · obtain ⟨u, hdo, ⟨v, rfl⟩ | ⟨c, rfl⟩⟩ := exec_endsIn hexec
    · exact hdo.rsel hrst hselect
    · exact hdo.rsel hrst hselect
  · have hm := mathMode_num_le m
    have ha := addrMode_num_le a
    rw [Nat.mul_comm]
    exact decode_encode_of_header (i := .rdSelect m a) rfl
      (opcodeWord_add_immediate (opc := 0x05) (by omega))

end Sys2Proof.Machine
end

section
/-! SUPPORT. What a committed capture does to the three stores (rules R273 to R281): the record it finds or
makes in each, and by how much the usage and the frequencies grow. -/

namespace Sys2Proof.Machine

/-! ## Lists with keys -/

/-- In a list of distinct images the image tells the place. -/
theorem index_eq_of_image_eq {α β : Type} {f : α → β} {l : List α} {i j : Nat} {x y : α}
    (hdistinct : (l.map f).Nodup) (hi : l[i]? = some x) (hj : l[j]? = some y) (h : f x = f y) : i = j := by
  obtain ⟨hlt, _⟩ := List.getElem?_eq_some_iff.mp hi
  refine (List.getElem?_inj (by rwa [List.length_map]) hdistinct).mp ?_
  rw [List.getElem?_map, List.getElem?_map, hi, hj, Option.map_some, Option.map_some, h]

/-- Replacing a member changes a sum by the difference of the two images. -/
theorem sum_map_set {α : Type} {f : α → Word} {l : List α} {i : Nat} {x y : α} {d : Word}
    (hx : l[i]? = some x) (h : f y = f x + d) : ((l.set i y).map f).sum = (l.map f).sum + d := by
  obtain ⟨hi, rfl⟩ := List.getElem?_eq_some_iff.mp hx
  rw [List.map_set, List.sum_set', dif_pos (by rwa [List.length_map]), List.getElem_map, h]
  ring

/-! ## The commit -/

/-- The state a capture from `s` commits to. -/
def State.committed (s : State) (tile : Half) (shape : Shape) (offset : Word) : State :=
  s.captureCommit (State.capturePlan tile s) shape offset

theorem captured_eq (s : State) (tile : Half) (shape : Shape) (offset : Word) :
    s.captured tile shape offset = (s.drawnFrom tile).committed tile shape offset := rfl

theorem captureCommit_counts (s : State) (p : CapturePlan) (shape : Shape) (offset : Word) :
    (s.captureCommit p shape offset).ctx.ntiles
        = (if p.tileAt.isNone then s.ctx.ntiles + 1 else s.ctx.ntiles)
      ∧ (s.captureCommit p shape offset).ctx.npals
        = if p.palAt.isNone then s.ctx.npals + 1 else s.ctx.npals := by
  unfold State.captureCommit
  split <;> exact ⟨rfl, rfl⟩

/-- The record of a tile the catalog does not hold, before its first use is counted (rule R275). -/
def State.newTile (s : State) : TileRecord where
  id := s.ctx.ntiles
  pixels := s.tileKey
  palsize := s.palSize
  usage := []
  lastSeenFrame := s.ctx.frame
  sightings := 1
  mileRef := s.cfg.milestones.map fun _ => none
  orientSeen := ⟨false, false, false, false⟩
  orientRef := ⟨none, none, none, none⟩

/-- The record of a palette the catalog does not hold (rule R274). -/
def State.newPal (s : State) : PalRecord := ⟨s.ctx.npals, s.palColors, s.palSize, 1⟩

section Commit

variable (s : State) (tile : Half) (shape : Shape) (offset : Word)

/-- A capture counts in the one record of the tile's key, or appends one (rule R275). -/
theorem committed_tiles_cases :
    (∃ j r, (State.capturePlan tile s).tileAt = some j ∧ s.tiles[j]? = some r ∧ r.pixels = s.tileKey
        ∧ s.captureBase (State.capturePlan tile s) = r
        ∧ (s.committed tile shape offset).tiles
          = s.tiles.set j (s.captureTile (State.capturePlan tile s))
        ∧ (s.committed tile shape offset).ctx.ntiles = s.ctx.ntiles)
      ∨ ((State.capturePlan tile s).tileAt = none ∧ (∀ r ∈ s.tiles, r.pixels ≠ s.tileKey)
        ∧ s.captureBase (State.capturePlan tile s) = s.newTile
        ∧ (s.committed tile shape offset).tiles
          = s.tiles ++ [s.captureTile (State.capturePlan tile s)]
        ∧ (s.committed tile shape offset).ctx.ntiles = s.ctx.ntiles + 1) := by
  unfold State.committed
  rw [CaptureLaws.captureCommit_tiles, (captureCommit_counts s _ shape offset).1]
  cases hat : (State.capturePlan tile s).tileAt with
  | some j =>
    obtain ⟨r, hj, hkey⟩ := CaptureLaws.capturePlan_tileAt tile s hat
    exact .inl ⟨j, r, rfl, hj, hkey, by simp [State.captureBase, State.tileFound, hat, hj], rfl, rfl⟩
  | none =>
    have habsent := tileKey_new (t := tile) (s := s) (by rw [hat]; rfl)
    exact .inr ⟨rfl, fun r hr hkey => habsent ⟨r, hr, hkey⟩,
      by simp [State.captureBase, State.tileFound, hat, State.newTile], rfl, rfl⟩

/-- A capture counts in the one record of the palette's key, or appends one (rule R274). -/
theorem committed_pals_cases :
    (∃ j r, (State.capturePlan tile s).palAt = some j ∧ s.pals[j]? = some r
        ∧ r.colors = s.palColors ∧ s.capturePalId (State.capturePlan tile s) = r.id
        ∧ (s.committed tile shape offset).pals
          = s.pals.set j { r with frequency := r.frequency + 1 }
        ∧ (s.committed tile shape offset).ctx.npals = s.ctx.npals)
      ∨ ((State.capturePlan tile s).palAt = none ∧ (∀ r ∈ s.pals, r.colors ≠ s.palColors)
        ∧ s.capturePalId (State.capturePlan tile s) = s.ctx.npals
        ∧ (s.committed tile shape offset).pals = s.pals ++ [s.newPal]
        ∧ (s.committed tile shape offset).ctx.npals = s.ctx.npals + 1) := by
  unfold State.committed
  rw [CaptureLaws.captureCommit_pals, (captureCommit_counts s _ shape offset).2]
  cases hat : (State.capturePlan tile s).palAt with
  | some j =>
    obtain ⟨r, hj, hkey⟩ := CaptureLaws.capturePlan_palAt tile s hat
    refine .inl ⟨j, r, rfl, hj, palKey_injective hkey, by simp [State.capturePalId, hat, hj], ?_, rfl⟩
    simp [State.capturePals, hat, List.modify_eq_set_getElem?, hj]
  | none =>
    have habsent := palColors_new (t := tile) (s := s) (by rw [hat]; rfl)
    exact .inr ⟨rfl, fun r hr hcolors => habsent ⟨r, hr, hcolors⟩, by simp [State.capturePalId, hat],
      by simp [State.capturePals, hat, State.newPal], rfl⟩

/-- A capture appends the reference its plan needs, and none otherwise (rule R279). -/
theorem committed_refs_cases :
    ((State.capturePlan tile s).needsRef = true
        ∧ (s.committed tile shape offset).refs
          = s.refs ++ [s.captureRef (State.capturePlan tile s) shape offset]
        ∧ (s.committed tile shape offset).ctx.nrefs = s.ctx.nrefs + 1)
      ∨ ((State.capturePlan tile s).needsRef = false
        ∧ (s.committed tile shape offset).refs = s.refs
        ∧ (s.committed tile shape offset).ctx.nrefs = s.ctx.nrefs) := by
  unfold State.committed
  rw [CaptureLaws.captureCommit_refs, captureCommit_nrefs]
  cases (State.capturePlan tile s).needsRef
  · exact .inr ⟨rfl, rfl, rfl⟩
  · exact .inl ⟨rfl, rfl, rfl⟩

/-- A capture counts once in the usage of the tiles (rule R275). -/
theorem committed_usageSum :
    ((s.committed tile shape offset).tiles.map TileRecord.usageSum).sum
      = (s.tiles.map TileRecord.usageSum).sum + 1 := by
  have husage := CaptureLaws.captureTile_usageSum s (State.capturePlan tile s)
  obtain ⟨j, r, _, hj, _, hbase, htiles, _⟩ | ⟨_, _, hbase, htiles, _⟩ :=
    committed_tiles_cases s tile shape offset
  · rw [htiles, sum_map_set hj (hbase ▸ husage)]
  · have hnew : s.newTile.usageSum = 0 := rfl
    rw [htiles, List.map_append, List.sum_append, List.map_singleton, List.sum_singleton, husage,
      hbase, hnew, zero_add]

/-- A capture counts once in the frequencies of the palettes (rule R274). -/
theorem committed_frequencySum :
    (s.committed tile shape offset).frequencySum = s.frequencySum + 1 := by
  unfold State.frequencySum
  obtain ⟨j, r, _, hj, _, _, hpals, _⟩ | ⟨_, _, _, hpals, _⟩ :=
    committed_pals_cases s tile shape offset
  · rw [hpals]
    exact sum_map_set hj rfl
  · rw [hpals, List.map_append, List.sum_append, List.map_singleton, List.sum_singleton]
    rfl

/-- The record of the tile drawn is in the store. -/
theorem captureTile_mem_committed :
    s.captureTile (State.capturePlan tile s) ∈ (s.committed tile shape offset).tiles := by
  obtain ⟨j, r, _, hj, _, _, htiles, _⟩ | ⟨_, _, _, htiles, _⟩ :=
    committed_tiles_cases s tile shape offset
  · rw [htiles]
    exact List.mem_set (List.getElem?_eq_some_iff.mp hj).1 _
  · simp [htiles]

/-- Every other record of a tile was there before. -/
theorem of_mem_committed_tiles {r : TileRecord} (h : r ∈ (s.committed tile shape offset).tiles) :
    r ∈ s.tiles ∨ r = s.captureTile (State.capturePlan tile s) := by
  obtain ⟨j, _, _, _, _, _, htiles, _⟩ | ⟨_, _, _, htiles, _⟩ :=
    committed_tiles_cases s tile shape offset
  · exact List.mem_or_eq_of_mem_set (htiles ▸ h)
  · simpa [htiles] using h

/-- The palette used has a record. -/
theorem exists_committed_pal :
    ∃ p ∈ (s.committed tile shape offset).pals, p.id = s.capturePalId (State.capturePlan tile s) := by
  obtain ⟨j, r, _, hj, _, hid, hpals, _⟩ | ⟨_, _, hid, hpals, _⟩ :=
    committed_pals_cases s tile shape offset
  · rw [hpals]
    exact ⟨_, List.mem_set (List.getElem?_eq_some_iff.mp hj).1 _, hid.symm⟩
  · rw [hpals]
    exact ⟨s.newPal, by simp, hid.symm⟩

/-- A reference that the plan needs has a record, under the next id. -/
theorem committed_refExists (h : (State.capturePlan tile s).needsRef = true) :
    (s.committed tile shape offset).refExists (some s.ctx.nrefs) := by
  obtain ⟨_, hrefs, _⟩ | ⟨hno, _⟩ := committed_refs_cases s tile shape offset
  · rintro _ ⟨⟩
    exact ⟨s.captureRef (State.capturePlan tile s) shape offset, by simp [hrefs], rfl⟩
  · cases h.symm.trans hno

end Commit

end Sys2Proof.Machine
end

section
/-! SUPPORT and O56. The invariants of the catalog (rule R282), record by record: a capture keeps those of the
records it leaves and meets them in the records it writes, and nothing else but a reset changes the catalog. -/

namespace Sys2Proof.Machine

/-! ## The invariants record by record -/

/-- What the catalog `s` asks of a tile record: its names exist, its orientations match its references, and
it has the right shape (rules R60, R282c, R282d). -/
structure TileRecord.Sound (s : State) (r : TileRecord) : Prop where
  usage : ∀ u ∈ r.usage, ∃ p ∈ s.pals, p.id.toNat = u.1
  mileRef : ∀ x ∈ r.mileRef, s.refExists x
  orientRef : ∀ o, s.refExists (r.orientRef.get o)
  orientSeen : ∀ o, r.orientSeen.get o = (r.orientRef.get o).isSome
  pixels : r.pixels.length = 64
  milestones : r.mileRef.length = s.cfg.milestones.length
  usageRises : r.usageRises

/-- What it asks of a reference record: the tile and the palette it names exist (rule R282c). -/
def RefRecord.Sound (s : State) (r : RefRecord) : Prop :=
  (∃ t ∈ s.tiles, t.id = r.tileId) ∧ ∃ p ∈ s.pals, p.id = r.palId

/-- What it asks of a palette record: its colours are as many as its size says (rule R61). -/
def PalRecord.Sound (p : PalRecord) : Prop :=
  p.colors.length = p.size ∧ (p.size = 4 ∨ p.size = 16 ∨ p.size = 256)

theorem catalogConsistent_iff (s : State) :
    s.catalogConsistent ↔ s.idsOk ∧ s.keysDistinct ∧ (∀ r ∈ s.tiles, r.Sound s)
      ∧ (∀ p ∈ s.pals, p.Sound) ∧ (∀ r ∈ s.refs, r.Sound s) ∧ s.countsBalance := by
  constructor
  · rintro ⟨hids, hkeys, ⟨hrefs, hnames⟩, horient, ⟨hshape, hpals⟩, hcounts⟩
    refine ⟨hids, hkeys, fun r hr => ?_, hpals, hrefs, hcounts⟩
    obtain ⟨husage, hmile, href⟩ := hnames r hr
    obtain ⟨hpixels, hlength, hrises⟩ := hshape r hr
    exact ⟨husage, hmile, href, horient r hr, hpixels, hlength, hrises⟩
  · rintro ⟨hids, hkeys, htiles, hpals, hrefs, hcounts⟩
    exact ⟨hids, hkeys,
      ⟨hrefs, fun r hr => ⟨(htiles r hr).usage, (htiles r hr).mileRef, (htiles r hr).orientRef⟩⟩,
      fun r hr => (htiles r hr).orientSeen,
      ⟨fun r hr => ⟨(htiles r hr).pixels, (htiles r hr).milestones, (htiles r hr).usageRises⟩, hpals⟩,
      hcounts⟩

/-! ## Growth keeps names (rules R63, R282) -/

theorem exists_of_map_prefix {α β : Type} {f : α → β} {l l' : List α} {x : α}
    (h : l.map f <+: l'.map f) (hx : x ∈ l) : ∃ y ∈ l', f y = f x :=
  List.mem_map.mp (h.subset (List.mem_map_of_mem hx))

theorem CatalogGrows.exists_tile {s t : State} (h : CatalogGrows s t) {r : TileRecord}
    (hr : r ∈ s.tiles) : ∃ r' ∈ t.tiles, r'.id = r.id := by
  obtain ⟨r', hr', heq⟩ := exists_of_map_prefix h.1 hr
  exact ⟨r', hr', congrArg Prod.fst heq⟩

theorem CatalogGrows.exists_pal {s t : State} (h : CatalogGrows s t) {p : PalRecord}
    (hp : p ∈ s.pals) : ∃ p' ∈ t.pals, p'.id = p.id := by
  obtain ⟨p', hp', heq⟩ := exists_of_map_prefix h.2.1 hp
  exact ⟨p', hp', congrArg Prod.fst heq⟩

theorem CatalogGrows.refExists {s t : State} (h : CatalogGrows s t) {x : Option Word}
    (hx : s.refExists x) : t.refExists x := by
  intro id hid
  obtain ⟨r, hr, heq⟩ := hx id hid
  exact ⟨r, h.2.2.subset hr, heq⟩

theorem TileRecord.Sound.grow {s t : State} {r : TileRecord} (hr : r.Sound s) (h : CatalogGrows s t)
    (hcfg : t.cfg = s.cfg) : r.Sound t where
  usage u hu := by
    obtain ⟨p, hp, hid⟩ := hr.usage u hu
    obtain ⟨p', hp', hid'⟩ := h.exists_pal hp
    exact ⟨p', hp', hid' ▸ hid⟩
  mileRef x hx := h.refExists (hr.mileRef x hx)
  orientRef o := h.refExists (hr.orientRef o)
  orientSeen := hr.orientSeen
  pixels := hr.pixels
  milestones := hcfg ▸ hr.milestones
  usageRises := hr.usageRises

theorem RefRecord.Sound.grow {s t : State} {r : RefRecord} (hr : r.Sound s) (h : CatalogGrows s t) :
    r.Sound t := by
  obtain ⟨⟨tile, htile, htileId⟩, ⟨p, hp, hpalId⟩⟩ := hr
  obtain ⟨tile', htile', heq⟩ := h.exists_tile htile
  obtain ⟨p', hp', heq'⟩ := h.exists_pal hp
  exact ⟨⟨tile', htile', heq.trans htileId⟩, ⟨p', hp', heq'.trans hpalId⟩⟩

/-! ## Ids in order (rule R282a) -/

/-- The count is the size of the store, and the records are numbered by their places. -/
def IdsInOrder {α : Type} (idOf : α → Word) (n : Word) (l : List α) : Prop :=
  n = BitVec.ofNat 32 l.length ∧ ∀ i r, l[i]? = some r → idOf r = BitVec.ofNat 32 i

theorem idsOk_iff (s : State) :
    s.idsOk ↔ IdsInOrder TileRecord.id s.ctx.ntiles s.tiles ∧ IdsInOrder PalRecord.id s.ctx.npals s.pals
      ∧ IdsInOrder RefRecord.id s.ctx.nrefs s.refs := Iff.rfl

theorem IdsInOrder.append {α : Type} {idOf : α → Word} {n : Word} {l : List α} {x : α}
    (h : IdsInOrder idOf n l) (hx : idOf x = n) : IdsInOrder idOf (n + 1) (l ++ [x]) := by
  obtain ⟨hn, hids⟩ := h
  refine ⟨by rw [hn, List.length_append, BitVec.ofNat_add]; rfl, fun i r hr => ?_⟩
  rw [List.getElem?_append] at hr
  split at hr
  · exact hids i r hr
  · next hge =>
    obtain ⟨hlt, rfl⟩ := List.getElem?_eq_some_iff.mp hr
    have hi : i = l.length := by simp at hlt; omega
    simpa [hi] using hx.trans hn

theorem IdsInOrder.set {α : Type} {idOf : α → Word} {n : Word} {l : List α} {j : Nat} {x y : α}
    (h : IdsInOrder idOf n l) (hx : l[j]? = some x) (hy : idOf y = idOf x) :
    IdsInOrder idOf n (l.set j y) := by
  obtain ⟨hn, hids⟩ := h
  refine ⟨by rwa [List.length_set], fun i r hr => ?_⟩
  rw [List.getElem?_set] at hr
  split at hr
  · next hji =>
    subst hji
    split at hr
    · cases hr; exact hy.trans (hids j x hx)
    · cases hr
  · exact hids i r hr

/-! ## A capture -/

theorem tileKey_length (s : State) : s.tileKey.length = 64 := by simp [State.tileKey]

theorem newPal_sound (s : State) : s.newPal.Sound := by
  refine ⟨by simp [State.newPal, State.palColors], ?_⟩
  show s.palSize = 4 ∨ s.palSize = 16 ∨ s.palSize = 256
  unfold State.palSize
  split
  · exact .inr (.inr rfl)
  · cases s.ctx.tcsel.bank <;> decide

theorem newTile_sound (s : State) : s.newTile.Sound s where
  usage := nofun
  mileRef x hx := by
    obtain ⟨_, _, rfl⟩ := List.mem_map.mp hx
    exact nofun
  orientRef o := by cases o <;> exact nofun
  orientSeen o := by cases o <;> rfl
  pixels := tileKey_length s
  milestones := List.length_map _
  usageRises := .nil

section Capture

variable {s : State} (tile : Half) (shape : Shape) (offset : Word)

theorem committed_catalogGrows : CatalogGrows s (s.committed tile shape offset) :=
  captureCommit_catalogGrows s tile shape offset

/-- The record a capture starts from is as the catalog asks: found, it was; new, it names nothing. -/
theorem captureBase_sound (h : ∀ r ∈ s.tiles, r.Sound s) :
    (s.captureBase (State.capturePlan tile s)).Sound s := by
  obtain ⟨j, r, _, hj, _, hbase, _⟩ | ⟨_, _, hbase, _⟩ := committed_tiles_cases s tile .tile 0
  · exact hbase ▸ h r (List.mem_of_getElem? hj)
  · exact hbase ▸ newTile_sound s

/-- The record of the tile drawn names besides the palette used, which has a record, and the reference of the
plan, which has one where it is named. -/
theorem captureTile_sound (h : ∀ r ∈ s.tiles, r.Sound s) :
    (s.captureTile (State.capturePlan tile s)).Sound (s.committed tile shape offset) := by
  have hbase : (s.captureBase (State.capturePlan tile s)).Sound (s.committed tile shape offset) :=
    (captureBase_sound tile h).grow (committed_catalogGrows tile shape offset) (by simp [State.committed])
  have href := committed_refExists s tile shape offset
  obtain ⟨p, hp, hid⟩ := exists_committed_pal s tile shape offset
  refine ⟨fun u hu => ?_, ?_, ?_, ?_, hbase.pixels, ?_, CaptureLaws.bumpUsage_rises _ hbase.usageRises⟩
  · obtain hu | ⟨v, hv, hvu⟩ := CaptureLaws.mem_bumpUsage hu
    · exact ⟨p, hp, by rw [hid, hu]⟩
    · exact hvu ▸ hbase.usage v hv
  · cases hmile : (State.capturePlan tile s).mile with
    | none => rw [captureTile_of_no_milestone hmile]; exact hbase.mileRef
    | some i =>
      rw [captureTile_of_milestone hmile]
      intro x hx
      obtain hx | rfl := List.mem_or_eq_of_mem_set hx
      · exact hbase.mileRef x hx
      · exact href (by simp [CapturePlan.needsRef, hmile])
  · cases horient : (State.capturePlan tile s).orient with
    | none => rw [(captureTile_of_no_orient horient).2]; exact hbase.orientRef
    | some o =>
      rw [(captureTile_of_orient horient).2]
      intro o'
      by_cases heq : o' = o
      · rw [heq, PerOrient.get_set_same]
        exact href (by simp [CapturePlan.needsRef, horient])
      · rw [PerOrient.get_set_other _ _ heq]
        exact hbase.orientRef o'
  · cases horient : (State.capturePlan tile s).orient with
    | none =>
      obtain ⟨hseen, hrefs⟩ := captureTile_of_no_orient (s := s) horient
      rw [hseen, hrefs]
      exact hbase.orientSeen
    | some o =>
      obtain ⟨hseen, hrefs⟩ := captureTile_of_orient (s := s) horient
      rw [hseen, hrefs]
      intro o'
      by_cases heq : o' = o
      · rw [heq, PerOrient.get_set_same, PerOrient.get_set_same]; rfl
      · rw [PerOrient.get_set_other _ _ heq, PerOrient.get_set_other _ _ heq]
        exact hbase.orientSeen o'
  · refine Eq.trans ?_ hbase.milestones
    cases hmile : (State.capturePlan tile s).mile with
    | none => rw [captureTile_of_no_milestone hmile]
    | some i => rw [captureTile_of_milestone hmile, List.length_set]

theorem captureRef_sound :
    (s.captureRef (State.capturePlan tile s) shape offset).Sound (s.committed tile shape offset) :=
  ⟨⟨_, captureTile_mem_committed s tile shape offset, rfl⟩, exists_committed_pal s tile shape offset⟩

theorem committed_idsOk (h : s.idsOk) : (s.committed tile shape offset).idsOk := by
  obtain ⟨htileIds, hpalIds, hrefIds⟩ := (idsOk_iff s).mp h
  refine (idsOk_iff _).mpr ⟨?_, ?_, ?_⟩
  · have hid := (CaptureLaws.captureTile_identity s (State.capturePlan tile s)).1
    obtain ⟨j, r, _, hj, _, hbase, htiles, hn⟩ | ⟨_, _, hbase, htiles, hn⟩ :=
      committed_tiles_cases s tile shape offset
    · rw [htiles, hn]; exact htileIds.set hj (by rw [hid, hbase])
    · rw [htiles, hn]; exact htileIds.append (by rw [hid, hbase]; rfl)
  · obtain ⟨j, r, _, hj, _, _, hpals, hn⟩ | ⟨_, _, _, hpals, hn⟩ :=
      committed_pals_cases s tile shape offset
    · rw [hpals, hn]; exact hpalIds.set hj rfl
    · rw [hpals, hn]; exact hpalIds.append rfl
  · obtain ⟨_, hrefs, hn⟩ | ⟨_, hrefs, hn⟩ := committed_refs_cases s tile shape offset
    · rw [hrefs, hn]; exact hrefIds.append rfl
    · rw [hrefs, hn]; exact hrefIds

/-- A record is appended only where no record has its key. -/
theorem committed_keysDistinct (h : s.keysDistinct) : (s.committed tile shape offset).keysDistinct := by
  constructor
  · have hpixels := (CaptureLaws.captureTile_identity s (State.capturePlan tile s)).2.1
    obtain ⟨j, r, _, hj, _, hbase, htiles, _⟩ | ⟨_, habsent, hbase, htiles, _⟩ :=
      committed_tiles_cases s tile shape offset
    · rw [htiles, map_set_of_image_eq _ hj (by rw [hpixels, hbase])]
      exact h.1
    · rw [htiles, List.map_append]
      refine h.1.append (List.nodup_singleton _) ?_
      rw [List.map_singleton, hpixels, hbase, List.disjoint_singleton]
      rintro hmem
      obtain ⟨r, hr, heq⟩ := List.mem_map.mp hmem
      exact habsent r hr heq
  · obtain ⟨j, r, _, hj, _, _, hpals, _⟩ | ⟨_, habsent, _, hpals, _⟩ :=
      committed_pals_cases s tile shape offset
    · rw [hpals, map_set_of_image_eq (y := { r with frequency := r.frequency + 1 }) _ hj rfl]
      exact h.2
    · rw [hpals, List.map_append]
      refine h.2.append (List.nodup_singleton _) ?_
      rw [List.map_singleton, List.disjoint_singleton]
      rintro hmem
      obtain ⟨p, hp, heq⟩ := List.mem_map.mp hmem
      exact habsent p hp (palKey_injective heq)

theorem committed_pals_sound (h : ∀ p ∈ s.pals, p.Sound) :
    ∀ p ∈ (s.committed tile shape offset).pals, p.Sound := by
  intro p hp
  obtain ⟨j, r, _, hj, _, _, hpals, _⟩ | ⟨_, _, _, hpals, _⟩ :=
    committed_pals_cases s tile shape offset
  · obtain hp | rfl := List.mem_or_eq_of_mem_set (hpals ▸ hp)
    · exact h p hp
    · exact h r (List.mem_of_getElem? hj)
  · rw [hpals, List.mem_append, List.mem_singleton] at hp
    obtain hp | rfl := hp
    · exact h p hp
    · exact newPal_sound s

theorem committed_refs_sound (h : ∀ r ∈ s.refs, r.Sound s) :
    ∀ r ∈ (s.committed tile shape offset).refs, r.Sound (s.committed tile shape offset) := by
  intro r hr
  have hold : r ∈ s.refs → r.Sound (s.committed tile shape offset) :=
    fun hr => (h r hr).grow (committed_catalogGrows tile shape offset)
  obtain ⟨_, hrefs, _⟩ | ⟨_, hrefs, _⟩ := committed_refs_cases s tile shape offset
  · rw [hrefs, List.mem_append, List.mem_singleton] at hr
    obtain hr | rfl := hr
    · exact hold hr
    · exact captureRef_sound tile shape offset
  · exact hold (hrefs ▸ hr)

theorem committed_tiles_sound (h : ∀ r ∈ s.tiles, r.Sound s) :
    ∀ r ∈ (s.committed tile shape offset).tiles, r.Sound (s.committed tile shape offset) := by
  intro r hr
  obtain hr | rfl := of_mem_committed_tiles s tile shape offset hr
  · exact (h r hr).grow (committed_catalogGrows tile shape offset) (by simp [State.committed])
  · exact captureTile_sound tile shape offset h

/-- Every observed draw counts once in the usage and once in the frequencies (rule R282e). -/
theorem committed_countsBalance (h : s.countsBalance) :
    (s.committed tile shape offset).countsBalance := by
  have hfrequency := committed_frequencySum s tile shape offset
  unfold State.frequencySum at hfrequency
  unfold State.countsBalance at h ⊢
  rw [hfrequency, committed_usageSum, h]

theorem committed_catalogConsistent (h : s.catalogConsistent) :
    (s.committed tile shape offset).catalogConsistent := by
  obtain ⟨hids, hkeys, htiles, hpals, hrefs, hcounts⟩ := (catalogConsistent_iff s).mp h
  exact (catalogConsistent_iff _).mpr ⟨committed_idsOk tile shape offset hids,
    committed_keysDistinct tile shape offset hkeys, committed_tiles_sound tile shape offset htiles,
    committed_pals_sound tile shape offset hpals, committed_refs_sound tile shape offset hrefs,
    committed_countsBalance tile shape offset hcounts⟩

end Capture

/-! ## Every step -/

theorem resolve_catalogConsistent {s : State} (tile : Half) (h : s.catalogConsistent) :
    (State.resolve tile s).catalogConsistent := by
  by_cases hfresh : s.slotFlag s.ctx.bpp (s.hflip tile) (s.tileNumber tile) = 0
  · rw [resolve_of_fresh hfresh]; exact h
  · rw [resolve_of_decoded hfresh]; exact h

theorem Readied.catalogConsistent {s u : State} (hready : Readied s u) (h : s.catalogConsistent) :
    u.catalogConsistent := by
  induction hready with
  | refl => exact h
  | setScsel c _ ih => exact ih
  | resolve tile _ ih => exact resolve_catalogConsistent tile ih
  | capture tile shape offset _ ih => exact committed_catalogConsistent tile shape offset ih

theorem Performs.catalogConsistent {i : Instr} {s u : State} (hdo : Performs i s u)
    (h : s.catalogConsistent) : u.catalogConsistent := by
  cases hdo with
  | nothing => exact h
  | reset => exact catalogConsistent_of_empty rfl rfl rfl rfl rfl rfl
  | @register r => cases r <;> exact h
  | frame => exact h
  | select => exact h
  | resolve tile => exact resolve_catalogConsistent tile h
  | palette => exact h
  | draw _ hready hdrawn => rw [hdrawn.rest]; exact hready.catalogConsistent h
  | session => exact catalogConsistent_of_empty rfl rfl rfl rfl rfl rfl
  | acknowledge => unfold State.acknowledge; split <;> exact h

theorem stepKeeps_catalogConsistent : StepKeeps State.catalogConsistent where
  moves _ _ h := h
  hostWrite _ sp _ _ _ h := by cases sp <;> exact h
  hostRead _ _ _ h := h
  hardReset _ _ := catalogConsistent_of_empty rfl rfl rfl rfl rfl rfl
  performs := Performs.catalogConsistent
  done _ _ h := h
  raise _ _ h := h

/-- Settles O56: a reset empties the catalog, and of the rest only a capture changes it. -/
theorem catalogStaysConsistent : Obligations.CatalogStaysConsistent :=
  fun _ _ hcatalog hstep => stepKeeps_catalogConsistent.step hstep hcatalog

end Sys2Proof.Machine
end

section
/-! SUPPORT, O46 and O47. The session commands of the catalog (rules R284, R285): each is its update and the
answer 0. -/

namespace Sys2Proof.Machine

theorem exec_csReset (s : State) : exec .csReset s = .next (State.done (.word 0) s.sessionReset) := rfl

theorem exec_csAck (s : State) : exec .csAck s = .next (State.done (.word 0) s.acknowledge) := rfl

/-- Settles O46: the session reset is the update the statement writes out. -/
theorem sessionReset : Obligations.SessionReset := ⟨rfl, exec_csReset⟩

theorem acknowledge_pending {s : State} (h : s.ctx.status.capreq = true) :
    s.acknowledge = { s with ctx := { s.ctx with
      status := { s.ctx.status with capreq := false }
      shotid := s.ctx.shotid + 1 } } := if_pos h

theorem acknowledge_idle {s : State} (h : s.ctx.status.capreq = false) : s.acknowledge = s :=
  if_neg (by rw [h]; decide)

/-- Settles O47: what an acknowledgement does is decided by the pending request. -/
theorem captureAcknowledge : Obligations.CaptureAcknowledge := by
  refine ⟨rfl, fun s h => ?_, fun s h => ?_⟩
  · rw [exec_csAck, acknowledge_pending h]; rfl
  · rw [exec_csAck, acknowledge_idle h]; rfl

end Sys2Proof.Machine
end

section
/-! SUPPORT and O43. The two ways an observed draw goes on once its rows exist and its tile is not blank
(rules R211, R273, R281): it faults before its capture, or commits it and draws. -/

namespace Sys2Proof.Machine

section Observed

variable {s : State} {tile : Half} {shape : Shape} (offset : Word) (plots : State → List PlotCall)
  (hcapture : s.ctx.capen = true) (hobserved : observed shape = true)
  (hopaque : (State.resolve tile s).selectedFlag ≠ 2)
include hcapture hobserved hopaque

theorem tileCommand_full
    (hfull : (s.drawnFrom tile).captureFull (State.capturePlan tile (s.drawnFrom tile)) = true) :
    State.tileCommand tile shape offset plots s = (s.drawnFrom tile).raise .csFull := by
  obtain ⟨hblank, _⟩ | ⟨_, _, _, _, h⟩ | ⟨u, _, ⟨_, hoff | hoff⟩ | ⟨_, _, hcommit⟩, _⟩ :=
    tileCommand_cases tile shape offset plots s
  · exact absurd hblank hopaque
  · exact h
  · cases hcapture.symm.trans hoff
  · cases hobserved.symm.trans hoff
  · cases hfull.symm.trans (captureObserve_eq_some hcommit).1

theorem tileCommand_captured
    (hroom : (s.drawnFrom tile).captureFull (State.capturePlan tile (s.drawnFrom tile)) = false) :
    State.tileCommand tile shape offset plots s
      = (s.captured tile shape offset).runPlots (plots (s.captured tile shape offset)) := by
  obtain ⟨hblank, _⟩ | ⟨_, _, _, hnone, _⟩ | ⟨u, _, ⟨_, hoff | hoff⟩ | ⟨_, _, hcommit⟩, h⟩ :=
    tileCommand_cases tile shape offset plots s
  · exact absurd hblank hopaque
  · cases hroom.symm.trans (captureObserve_eq_none hnone)
  · cases hcapture.symm.trans hoff
  · cases hobserved.symm.trans hoff
  · obtain rfl : u = s.captured tile shape offset := (captureObserve_eq_some hcommit).2
    exact h

end Observed

/-! ## What an observed draw selects, and what it leaves of the catalog -/

section DrawnFrom

variable (s : State) (tile : Half)

@[simp] theorem drawnFrom_cfg : (s.drawnFrom tile).cfg = s.cfg := by rw [drawnFrom_rest]
@[simp] theorem drawnFrom_tiles : (s.drawnFrom tile).tiles = s.tiles := by rw [drawnFrom_rest]
@[simp] theorem drawnFrom_pals : (s.drawnFrom tile).pals = s.pals := by rw [drawnFrom_rest]
@[simp] theorem drawnFrom_ntiles : (s.drawnFrom tile).ctx.ntiles = s.ctx.ntiles := by rw [drawnFrom_rest]
@[simp] theorem drawnFrom_npals : (s.drawnFrom tile).ctx.npals = s.ctx.npals := by rw [drawnFrom_rest]
@[simp] theorem drawnFrom_nrefs : (s.drawnFrom tile).ctx.nrefs = s.ctx.nrefs := by rw [drawnFrom_rest]
@[simp] theorem drawnFrom_frame : (s.drawnFrom tile).ctx.frame = s.ctx.frame := by rw [drawnFrom_rest]

@[simp] theorem drawnFrom_palColors : (s.drawnFrom tile).palColors = s.drawnPalette tile :=
  selectPalette_palColors s tile

@[simp] theorem drawnFrom_palSize : (s.drawnFrom tile).palSize = s.drawnPalSize := by
  simpa [State.palColors, State.drawnPalette] using congrArg List.length (drawnFrom_palColors s tile)

theorem drawnFrom_tileKey : (s.drawnFrom tile).tileKey = (State.resolve tile s).tileKey := by
  unfold State.drawnFrom
  generalize State.resolve tile s = r
  rfl

theorem drawnFrom_selectedFlag :
    (s.drawnFrom tile).selectedFlag = (State.resolve tile s).selectedFlag := by
  unfold State.drawnFrom
  generalize State.resolve tile s = r
  rfl

end DrawnFrom

/-! ## A full store (rules R273, R281) -/

theorem captureFull_iff (s : State) (p : CapturePlan) :
    s.captureFull p = true
      ↔ (p.palAt = none ∧ ∃ c, s.cfg.capPals = some c ∧ c ≤ s.ctx.npals.toNat)
        ∨ (p.tileAt = none ∧ ∃ c, s.cfg.capTiles = some c ∧ c ≤ s.ctx.ntiles.toNat)
        ∨ p.needsRef = true ∧ ∃ c, s.cfg.capRefs = some c ∧ c ≤ s.ctx.nrefs.toNat := by
  unfold State.captureFull
  simp only [Bool.or_eq_true, Bool.and_eq_true, atCap_eq_true_iff, Option.isNone_iff_eq_none, or_assoc]

theorem capturePlan_tileAt_eq_none_iff (tile : Half) (s : State) :
    (State.capturePlan tile s).tileAt = none ↔ ∀ r ∈ s.tiles, r.pixels ≠ s.tileKey := by
  show s.tiles.findIdx? (fun r => r.pixels == s.tileKey) = none ↔ _
  simp [List.findIdx?_eq_none_iff]

theorem capturePlan_palAt_eq_none_iff (tile : Half) (s : State) :
    (State.capturePlan tile s).palAt = none ↔ ∀ p ∈ s.pals, palKey p.colors ≠ palKey s.palColors := by
  show s.pals.findIdx? (fun r => palKey r.colors == palKey s.palColors) = none ↔ _
  simp [List.findIdx?_eq_none_iff]

theorem exec_observedDraw_of_rows {i : Instr} {s : State} {tile : Half} {offset : Word} {shape : Shape}
    (hrows : (∃ (sl : BitVec 6) (lc : BitVec 4), i = .trTile tile offset sl lc
          ∧ ∀ k < lc.toNat, s.rowDrawn tile sl k)
      ∨ ∃ (sp : BitVec 3) (w : BitVec 4) (sl : BitVec 6) (lc : BitVec 4),
          i = .trClip tile offset sp w sl lc ∧ ∀ k < lc.toNat, s.rowDrawn tile sl k)
    (hdraw : observedDraw i tile offset shape) :
    observed shape = true
      ∧ ∃ plots, exec i s = .next (State.tileCommand tile shape offset plots s) := by
  obtain ⟨sl, lc, rfl, hrows⟩ | ⟨sp, w, sl, lc, rfl, hrows⟩ := hrows
  · obtain ⟨_, _, _, rfl⟩ | ⟨_, _, _, _, hother, _⟩ := hdraw
    · exact ⟨rfl, _, congrArg _ (if_pos ((rowsOk_iff s tile sl _).mpr hrows))⟩
    · cases hother
  · obtain ⟨_, _, hother, _⟩ | ⟨_, _, _, _, _, rfl⟩ := hdraw
    · cases hother
    · exact ⟨rfl, _, congrArg _ (if_pos ((rowsOk_iff s tile sl _).mpr hrows))⟩

/-- Settles O43: each of the three stores, full and short of a record, stops the capture before any change. -/
theorem fullCatalogFaults : Obligations.FullCatalogFaults := by
  intro i s tile offset shape hrows hdraw hcapture u hopaque hneed
  have hfull : (s.drawnFrom tile).captureFull (State.capturePlan tile (s.drawnFrom tile)) = true := by
    rw [captureFull_iff, capturePlan_tileAt_eq_none_iff, capturePlan_palAt_eq_none_iff,
      needsRef_drawnFrom_iff, ← drawnFrom_tileKey]
    simp only [drawnFrom_cfg, drawnFrom_tiles, drawnFrom_pals, drawnFrom_ntiles, drawnFrom_npals,
      drawnFrom_nrefs]
    obtain ⟨c, hc, hle, hnew⟩ | ⟨c, hc, hle, hnew⟩ | ⟨c, hc, hle, hnew⟩ := hneed
    · exact .inr (.inl ⟨hnew, c, hc, hle⟩)
    · exact .inl ⟨hnew, c, hc, hle⟩
    · exact .inr (.inr ⟨hnew, c, hc, hle⟩)
  obtain ⟨hobserved, plots, hexec⟩ := exec_observedDraw_of_rows hrows hdraw
  rw [hexec, tileCommand_full offset plots hcapture hobserved hopaque hfull, raise_eq_faultState]
  rfl

end Sys2Proof.Machine
end

section
/-! SUPPORT and O49. What a completed observed draw counts (rules R271 to R276): the palette record and the tile
record that its capture finds or makes. -/

namespace Sys2Proof.Machine

/-- Where keys are distinct, a record of a key is the record of that key. -/
theorem recordOf_eq_some {s : State} (hdistinct : s.keysDistinct) {j : Nat} {r : TileRecord}
    (hj : s.tiles[j]? = some r) : s.recordOf r.pixels = some r := by
  have hr := List.mem_of_getElem? hj
  cases hfound : s.recordOf r.pixels with
  | none => exact absurd (BEq.rfl : (r.pixels == r.pixels) = true) (List.find?_eq_none.mp hfound r hr)
  | some q =>
    have hkey : q.pixels = r.pixels := by simpa using List.find?_some hfound
    rw [List.inj_on_of_nodup_map hdistinct.1 (List.mem_of_find?_eq_some hfound) hr hkey]

theorem countAfter_seen {s : State} {r : TileRecord} (h : r.lastSeenFrame = s.ctx.frame) :
    s.countAfter (some r) = r.sightings := if_pos h

theorem countAfter_unseen {s : State} {r : TileRecord} (h : r.lastSeenFrame ≠ s.ctx.frame) :
    s.countAfter (some r) = r.sightings + 1 := if_neg h

theorem not_reachesMilestone_seen {s : State} {r : TileRecord} (h : r.lastSeenFrame = s.ctx.frame) :
    ¬ s.reachesMilestone (some r) := fun hreach => hreach.1 r rfl h

/-- The record of a capture counts the use in its usage, is seen in this frame, and takes the count that the
plan establishes (rules R275, R276). -/
theorem captureTile_counts (tile : Half) (s : State) :
    (s.captureTile (State.capturePlan tile s)).usage
        = bumpUsage (s.captureBase (State.capturePlan tile s)).usage
            (s.capturePalId (State.capturePlan tile s)).toNat
      ∧ (s.captureTile (State.capturePlan tile s)).lastSeenFrame = s.ctx.frame
      ∧ (s.captureTile (State.capturePlan tile s)).sightings
        = s.countAfter (s.recordOf s.tileKey) := by
  refine ⟨rfl, rfl, ?_⟩
  rw [← capturePlan_tileFound tile s, ← sightingsAfter_eq]
  rfl

/-! ## The palette record -/

section Records

variable {s : State} {tile : Half} (shape : Shape) (offset : Word)

theorem captured_pals_found (hdistinct : s.keysDistinct) {j : Nat} {p : PalRecord}
    (hj : s.pals[j]? = some p) (hcolors : p.colors = s.drawnPalette tile) :
    s.drawnPalId tile = p.id ∧ (s.captured tile shape offset).ctx.npals = s.ctx.npals
      ∧ (s.captured tile shape offset).pals = s.pals.set j { p with frequency := p.frequency + 1 } := by
  have hcases := committed_pals_cases (s.drawnFrom tile) tile shape offset
  simp only [drawnFrom_pals, drawnFrom_palColors, drawnFrom_npals, drawnFrom_capturePalId] at hcases
  obtain ⟨k, q, _, hk, hq, hid, hpals, hn⟩ | ⟨_, habsent, _⟩ := hcases
  · obtain rfl : k = j :=
      index_eq_of_image_eq hdistinct.2 hk hj (congrArg palKey (hq.trans hcolors.symm))
    obtain rfl : q = p := Option.some.inj (hk.symm.trans hj)
    exact ⟨hid, hn, hpals⟩
  · exact absurd hcolors (habsent p (List.mem_of_getElem? hj))

theorem captured_pals_new (hnew : ∀ p ∈ s.pals, p.colors ≠ s.drawnPalette tile) :
    s.drawnPalId tile = s.ctx.npals ∧ (s.captured tile shape offset).ctx.npals = s.ctx.npals + 1
      ∧ (s.captured tile shape offset).pals
        = s.pals ++ [⟨s.ctx.npals, s.drawnPalette tile, s.drawnPalSize, 1⟩] := by
  have hcases := committed_pals_cases (s.drawnFrom tile) tile shape offset
  simp only [drawnFrom_pals, drawnFrom_palColors, drawnFrom_npals, drawnFrom_capturePalId, State.newPal,
    drawnFrom_palSize] at hcases
  obtain ⟨_, q, _, hk, hq, _⟩ | ⟨_, _, hid, hpals, hn⟩ := hcases
  · exact absurd hq (hnew q (List.mem_of_getElem? hk))
  · exact ⟨hid, hn, hpals⟩

/-! ## The tile record -/

/-- The record a completed draw of `tile` leaves for its tile. -/
def State.drawnRecord (s : State) (tile : Half) : TileRecord :=
  (s.drawnFrom tile).captureTile (State.capturePlan tile (s.drawnFrom tile))

theorem drawnFrom_recordOf (s : State) (tile : Half) :
    (s.drawnFrom tile).recordOf (s.drawnFrom tile).tileKey
      = s.recordOf (State.resolve tile s).tileKey := by
  rw [drawnFrom_tileKey]
  unfold State.recordOf
  rw [drawnFrom_tiles]

theorem drawnRecord_seen (s : State) (tile : Half) :
    (s.drawnRecord tile).lastSeenFrame = s.ctx.frame
      ∧ (s.drawnRecord tile).sightings
        = s.countAfter (s.recordOf (State.resolve tile s).tileKey) := by
  obtain ⟨_, hframe, hcount⟩ := captureTile_counts tile (s.drawnFrom tile)
  rw [drawnFrom_recordOf] at hcount
  refine ⟨hframe.trans (drawnFrom_frame s tile), hcount.trans ?_⟩
  unfold State.countAfter
  rw [drawnFrom_frame]

/-- A record found keeps its identity and counts the use. -/
theorem drawnRecord_found {r : TileRecord} (h : s.recordOf (State.resolve tile s).tileKey = some r) :
    (s.drawnRecord tile).id = r.id ∧ (s.drawnRecord tile).pixels = r.pixels
      ∧ (s.drawnRecord tile).palsize = r.palsize
      ∧ (s.drawnRecord tile).usage = bumpUsage r.usage (s.drawnPalId tile).toNat := by
  have hbase := captureBase_of_found (t := tile) ((drawnFrom_recordOf s tile).trans h)
  obtain ⟨husage, _⟩ := captureTile_counts tile (s.drawnFrom tile)
  obtain ⟨hid, hpixels, hsize⟩ :=
    CaptureLaws.captureTile_identity (s.drawnFrom tile) (State.capturePlan tile (s.drawnFrom tile))
  rw [hbase] at husage hid hpixels hsize
  exact ⟨hid, hpixels, hsize, by rw [← drawnFrom_capturePalId]; exact husage⟩

theorem captured_tiles_found (hdistinct : s.keysDistinct) {j : Nat} {r : TileRecord}
    (hj : s.tiles[j]? = some r) (hkey : r.pixels = (State.resolve tile s).tileKey) :
    (s.captured tile shape offset).tiles = s.tiles.set j (s.drawnRecord tile)
      ∧ (s.captured tile shape offset).ctx.ntiles = s.ctx.ntiles := by
  have hcases := committed_tiles_cases (s.drawnFrom tile) tile shape offset
  simp only [drawnFrom_tiles, drawnFrom_ntiles, drawnFrom_tileKey] at hcases
  obtain ⟨k, q, _, hk, hq, _, htiles, hn⟩ | ⟨_, habsent, _⟩ := hcases
  · obtain rfl : k = j := index_eq_of_image_eq hdistinct.1 hk hj (hq.trans hkey.symm)
    exact ⟨htiles, hn⟩
  · exact absurd hkey (habsent r (List.mem_of_getElem? hj))

/-- A tile without a record gets one under the next id, with its key, its palette size and the one use. -/
theorem captured_tiles_new (hnew : ∀ r ∈ s.tiles, r.pixels ≠ (State.resolve tile s).tileKey) :
    (s.captured tile shape offset).tiles = s.tiles ++ [s.drawnRecord tile]
      ∧ (s.captured tile shape offset).ctx.ntiles = s.ctx.ntiles + 1
      ∧ (s.drawnRecord tile).id = s.ctx.ntiles
      ∧ (s.drawnRecord tile).pixels = (State.resolve tile s).tileKey
      ∧ (s.drawnRecord tile).palsize = s.drawnPalSize
      ∧ (s.drawnRecord tile).usage = [((s.drawnPalId tile).toNat, 1)] := by
  have hcases := committed_tiles_cases (s.drawnFrom tile) tile shape offset
  simp only [drawnFrom_tiles, drawnFrom_ntiles, drawnFrom_tileKey] at hcases
  obtain ⟨_, q, _, hk, hq, _⟩ | ⟨_, _, hbase, htiles, hn⟩ := hcases
  · exact absurd hq (hnew q (List.mem_of_getElem? hk))
  · obtain ⟨husage, _⟩ := captureTile_counts tile (s.drawnFrom tile)
    obtain ⟨hid, hpixels, hsize⟩ :=
      CaptureLaws.captureTile_identity (s.drawnFrom tile) (State.capturePlan tile (s.drawnFrom tile))
    rw [hbase] at husage hid hpixels hsize
    rw [drawnFrom_capturePalId] at husage
    exact ⟨htiles, hn, hid.trans (drawnFrom_ntiles s tile), hpixels, hsize.trans (drawnFrom_palSize s tile),
      husage⟩

end Records

theorem recordOf_eq_none {s : State} {key : List Byte} (h : ∀ r ∈ s.tiles, r.pixels ≠ key) :
    s.recordOf key = none := List.find?_eq_none.mpr fun r hr => by simpa using h r hr

/-- Settles O49: the draw ends in the commit of its capture, which counts in the one palette record and in the
one tile record of its keys, or appends them. -/
theorem observedDrawCounts : Obligations.ObservedDrawCounts := by
  intro i s t tile offset shape hdraw hcapture hdistinct hrises hexec hresponse u palId hopaque
  obtain ⟨htiles, hpals, _, hctx⟩ := observedDraw_captured hdraw hcapture hexec hresponse hopaque
  obtain ⟨hframe, hcount⟩ := drawnRecord_seen s tile
  rw [htiles, hpals, hctx]
  refine ⟨?_, fun j p hj hcolors => captured_pals_found shape offset hdistinct hj hcolors,
    fun hnew => captured_pals_new shape offset hnew, fun j r hj hkey => ?_, fun hnew => ?_⟩
  · have hfrequency := committed_frequencySum (s.drawnFrom tile) tile shape offset
    unfold State.frequencySum at hfrequency ⊢
    rw [hpals, captured_eq, hfrequency, drawnFrom_pals]
  · have hold : s.recordOf u.tileKey = some r := hkey ▸ recordOf_eq_some hdistinct hj
    have hsorted := hrises r (List.mem_of_getElem? hj)
    obtain ⟨hset, hn⟩ := captured_tiles_found shape offset hdistinct hj hkey
    obtain ⟨hid, hpixels, hsize, husage⟩ := drawnRecord_found hold
    obtain ⟨_, hmile, _⟩ := captureTile_drawnFrom s tile
    rw [hold] at hcount hmile
    refine ⟨s.drawnRecord tile, hset, hid, hpixels, hsize, hframe, ?_, ?_, fun q => ?_, fun hseen => ?_,
      fun hunseen => hcount.trans (countAfter_unseen hunseen), hn⟩
    · unfold TileRecord.usageSum
      rw [husage, CaptureLaws.bumpUsage_sum]
    · unfold TileRecord.usageRises
      rw [husage]
      exact CaptureLaws.bumpUsage_rises _ hsorted
    · unfold TileRecord.usageOf
      rw [husage]
      exact CaptureLaws.bumpUsage_count _ q hsorted
    · exact ⟨hcount.trans (countAfter_seen hseen), hmile (not_reachesMilestone_seen hseen)⟩
  · obtain ⟨happend, hn, hid, hpixels, hsize, husage⟩ := captured_tiles_new shape offset hnew
    rw [recordOf_eq_none hnew] at hcount
    exact ⟨s.drawnRecord tile, happend, hid, hpixels, hsize, husage, hframe, hcount, hn⟩

end Sys2Proof.Machine
end

section
/-! SUPPORT and O51. The same draw again in one frame (rules R197, R276 to R278): the slot, the palette and both
records are there, so that only the two counts move. -/

namespace Sys2Proof.Machine

/-- Nothing is left to decode, to select or to record for a draw of `tile`: its slot is decoded and not blank,
the latches name slot and palette, and the catalog holds the palette, and the tile as seen in this frame and in
this orientation. -/
structure State.Drawn (s : State) (tile : Half) : Prop where
  decoded : s.slotFlag s.ctx.bpp (s.hflip tile) (s.tileNumber tile) ≠ 0
  tcsel : s.ctx.tcsel = s.resolved tile
  scsel : s.ctx.scsel = s.selected tile
  notBlank : s.selectedFlag ≠ 2
  pal : ∃ p ∈ s.pals, palKey p.colors = palKey s.palColors
  tile : ∃ r, s.recordOf s.tileKey = some r ∧ r.lastSeenFrame = s.ctx.frame
    ∧ r.orientSeen.get (s.orientation tile) = true

/-! ## A completed draw leaves it so -/

/-- A write of a member that passes the test keeps the first place that does. -/
theorem find?_set_first {α : Type} {p : α → Bool} {l : List α} {j : Nat} {x : α}
    (hj : l.findIdx? p = some j) (hx : p x = true) : (l.set j x).find? p = some x := by
  obtain ⟨hlt, _, hfirst⟩ := List.findIdx?_eq_some_iff_getElem.mp hj
  rw [List.find?_eq_some_iff_getElem]
  refine ⟨hx, j, by rwa [List.length_set], List.getElem_set_self _, fun i hi => ?_⟩
  rw [List.getElem_set_ne (by omega)]
  simpa using hfirst i hi

theorem committed_recordOf (s : State) (tile : Half) (shape : Shape) (offset : Word) :
    (s.committed tile shape offset).recordOf s.tileKey
      = some (s.captureTile (State.capturePlan tile s)) := by
  obtain ⟨_, hpixels, _⟩ := CaptureLaws.captureTile_identity s (State.capturePlan tile s)
  unfold State.recordOf
  obtain ⟨j, r, hat, _, hkey, hbase, htiles, _⟩ | ⟨_, habsent, hbase, htiles, _⟩ :=
    committed_tiles_cases s tile shape offset
  · rw [htiles, find?_set_first hat (by rw [hpixels, hbase, hkey]; exact BEq.rfl)]
  · have hnone : s.tiles.find? (fun r => r.pixels == s.tileKey) = none := recordOf_eq_none habsent
    rw [htiles, List.find?_append, hnone, Option.none_or, List.find?_singleton, if_pos]
    rw [hpixels, hbase]
    exact BEq.rfl

/-- The record of a capture has seen the orientation of the draw (rule R278). -/
theorem captureTile_orientation (tile : Half) (s : State) :
    (s.captureTile (State.capturePlan tile s)).orientSeen.get (s.orientation tile) = true := by
  obtain ⟨_, _, hfirst, hlater, _⟩ := captureTile_referencesStored tile s
  by_cases h : s.firstOfOrientation tile (s.recordOf s.tileKey)
  · exact (hfirst h).1
  · have hseen := (hlater h).1
    unfold State.firstOfOrientation at h
    push Not at h
    obtain ⟨r, hr, hne⟩ := h
    rw [hr] at hseen
    exact hseen.trans (Bool.not_eq_false _ ▸ hne)

theorem selectPalette_scsel (s : State) (tile : Half) :
    (State.selectPalette tile s).ctx.scsel = (State.selectPalette tile s).selected tile := rfl

/-- Selecting slot and palette does what `Drawn` says of the tile cache and the latches. -/
theorem drawnFrom_latched (s : State) (tile : Half) :
    (s.drawnFrom tile).slotFlag (s.drawnFrom tile).ctx.bpp ((s.drawnFrom tile).hflip tile)
        ((s.drawnFrom tile).tileNumber tile) ≠ 0
      ∧ (s.drawnFrom tile).ctx.tcsel = (s.drawnFrom tile).resolved tile
      ∧ (s.drawnFrom tile).ctx.scsel = (s.drawnFrom tile).selected tile := by
  have hresolved : (s.drawnFrom tile).resolved tile = s.resolved tile := by rw [drawnFrom_rest]; rfl
  have hlatch : (s.drawnFrom tile).ctx.tcsel = s.resolved tile := State.resolve_ctx_tcsel s tile
  refine ⟨?_, hlatch.trans hresolved.symm, selectPalette_scsel _ tile⟩
  have hbpp : (s.drawnFrom tile).ctx.bpp = s.ctx.bpp := congrArg Tcsel.bank hresolved
  have hflip : (s.drawnFrom tile).hflip tile = s.hflip tile := congrArg Tcsel.flip hresolved
  have hnumber : (s.drawnFrom tile).tileNumber tile = s.tileNumber tile := congrArg Tcsel.tn hresolved
  rw [hbpp, hflip, hnumber]
  exact resolve_slotFlag_self s tile

/-- Nor does a commit touch them, or what else `Drawn` reads outside the catalog. -/
theorem committed_rest (s : State) (tile : Half) (shape : Shape) (offset : Word) :
    let c := s.committed tile shape offset
    c.slotFlag c.ctx.bpp (c.hflip tile) (c.tileNumber tile)
        = s.slotFlag s.ctx.bpp (s.hflip tile) (s.tileNumber tile)
      ∧ c.ctx.tcsel = s.ctx.tcsel ∧ c.resolved tile = s.resolved tile
      ∧ c.ctx.scsel = s.ctx.scsel ∧ c.selected tile = s.selected tile
      ∧ c.selectedFlag = s.selectedFlag ∧ c.palColors = s.palColors ∧ c.tileKey = s.tileKey
      ∧ c.ctx.frame = s.ctx.frame ∧ c.orientation tile = s.orientation tile := by
  unfold State.committed
  rw [CaptureLaws.captureCommit_rest]
  exact ⟨rfl, rfl, rfl, rfl, rfl, rfl, rfl, rfl, rfl, rfl⟩

/-- With slot and palette selected, the records of a commit are all a next draw needs. -/
theorem committed_drawn {s : State} {tile : Half} (shape : Shape) (offset : Word)
    (hdecoded : s.slotFlag s.ctx.bpp (s.hflip tile) (s.tileNumber tile) ≠ 0)
    (htcsel : s.ctx.tcsel = s.resolved tile) (hscsel : s.ctx.scsel = s.selected tile)
    (hopaque : s.selectedFlag ≠ 2) : (s.committed tile shape offset).Drawn tile := by
  obtain ⟨hslot, htcsel', hresolved, hscsel', hselected, hflag, hcolors, hkey, hframe, horient⟩ :=
    committed_rest s tile shape offset
  refine ⟨hslot ▸ hdecoded, by rw [htcsel', hresolved, htcsel], by rw [hscsel', hselected, hscsel],
    hflag ▸ hopaque, ?_, s.captureTile (State.capturePlan tile s), ?_⟩
  · rw [hcolors]
    obtain ⟨j, p, _, hj, hcolors, _, hpals, _⟩ | ⟨_, _, _, hpals, _⟩ :=
      committed_pals_cases s tile shape offset
    · rw [hpals]
      exact ⟨_, List.mem_set (List.getElem?_eq_some_iff.mp hj).1 _, congrArg palKey hcolors⟩
    · rw [hpals]
      exact ⟨s.newPal, by simp, rfl⟩
  · rw [hkey, hframe, horient]
    exact ⟨committed_recordOf s tile shape offset, rfl, captureTile_orientation tile s⟩

theorem captured_drawn {s : State} {tile : Half} (shape : Shape) (offset : Word)
    (hopaque : (State.resolve tile s).selectedFlag ≠ 2) :
    (s.captured tile shape offset).Drawn tile := by
  obtain ⟨hdecoded, htcsel, hscsel⟩ := drawnFrom_latched s tile
  rw [← drawnFrom_selectedFlag] at hopaque
  exact committed_drawn shape offset hdecoded htcsel hscsel hopaque

/-- Drawing on the screens changes none of it. -/
theorem State.Drawn.draws {s t : State} {tile : Half} {A B : Nat → Prop} (h : s.Drawn tile)
    (hdrawn : Draws A B s t) : t.Drawn tile := by
  rw [hdrawn.rest]
  exact ⟨h.decoded, h.tcsel, h.scsel, h.notBlank, h.pal, h.tile⟩

theorem State.Drawn.done {s : State} {tile : Half} (h : s.Drawn tile) (v : RespValue) :
    (State.done v s).Drawn tile :=
  ⟨h.decoded, h.tcsel, h.scsel, h.notBlank, h.pal, h.tile⟩

/-! ## What the next draw does -/

/-- From `s` to `u` nothing is decoded and no record or reference is made, and usage and frequency count one
more use. -/
structure OnlyCounts (s u : State) : Prop where
  decodecnt : u.ctx.decodecnt = s.ctx.decodecnt
  refs : u.refs = s.refs
  nrefs : u.ctx.nrefs = s.ctx.nrefs
  ntiles : u.ctx.ntiles = s.ctx.ntiles
  npals : u.ctx.npals = s.ctx.npals
  sightings : u.tiles.map TileRecord.sightings = s.tiles.map TileRecord.sightings
  pixels : u.tiles.map TileRecord.pixels = s.tiles.map TileRecord.pixels
  usage : (u.tiles.map TileRecord.usageSum).sum = (s.tiles.map TileRecord.usageSum).sum + 1
  frequency : u.frequencySum = s.frequencySum + 1

namespace State.Drawn

variable {s : State} {tile : Half} (h : s.Drawn tile)
include h

theorem drawnFrom : s.drawnFrom tile = s := by
  have hresolve : State.resolve tile s = s := by
    rw [resolve_of_decoded h.decoded, ← h.tcsel]
  unfold State.drawnFrom State.selectPalette State.setScsel
  rw [hresolve, ← h.scsel]

theorem captured (shape : Shape) (offset : Word) :
    s.captured tile shape offset = s.committed tile shape offset := by
  rw [captured_eq, h.drawnFrom]

theorem resolve_notBlank : (State.resolve tile s).selectedFlag ≠ 2 := by
  rw [← drawnFrom_selectedFlag, h.drawnFrom]
  exact h.notBlank

/-- The tile is seen in this frame and in this orientation: there is no milestone and no first orientation. -/
theorem needsRef : (State.capturePlan tile s).needsRef = false := by
  obtain ⟨r, hr, hframe, horient⟩ := h.tile
  rw [← Bool.not_eq_true, needsRef_capturePlan_iff, hr]
  rintro (hreach | hfirst)
  · exact not_reachesMilestone_seen hframe hreach
  · exact absurd (horient.symm.trans (hfirst r rfl)) (by decide)

theorem palAt : (State.capturePlan tile s).palAt ≠ none := by
  obtain ⟨p, hp, hkey⟩ := h.pal
  exact fun hnone => (capturePlan_palAt_eq_none_iff tile s).mp hnone p hp hkey

theorem tileAt : (State.capturePlan tile s).tileAt ≠ none := by
  obtain ⟨r, hr, _⟩ := h.tile
  intro hnone
  rw [recordOf_eq_none ((capturePlan_tileAt_eq_none_iff tile s).mp hnone)] at hr
  cases hr

/-- With no record to make no store is full. -/
theorem captureFull : s.captureFull (State.capturePlan tile s) = false := by
  rw [← Bool.not_eq_true, captureFull_iff]
  rintro (⟨hpal, _⟩ | ⟨htile, _⟩ | ⟨href, _⟩)
  · exact h.palAt hpal
  · exact h.tileAt htile
  · exact absurd (href.symm.trans h.needsRef) (by decide)

theorem onlyCounts (shape : Shape) (offset : Word) :
    OnlyCounts s (s.committed tile shape offset) := by
  obtain ⟨_, _, _, _, _, _, _, hnpals⟩ :=
    (committed_pals_cases s tile shape offset).resolve_right fun hnew => h.palAt hnew.1
  obtain ⟨j, r, _, hj, _, hbase, htiles, hntiles⟩ :=
    (committed_tiles_cases s tile shape offset).resolve_right fun hnew => h.tileAt hnew.1
  obtain ⟨_, hrefs, hnrefs⟩ :=
    (committed_refs_cases s tile shape offset).resolve_left fun hneeds =>
      absurd (hneeds.1.symm.trans h.needsRef) (by decide)
  obtain ⟨q, hq, hframe, _⟩ := h.tile
  obtain rfl : q = r := (captureBase_of_found hq).symm.trans hbase
  obtain ⟨_, _, hcount⟩ := captureTile_counts tile s
  rw [hq, countAfter_seen hframe] at hcount
  obtain ⟨_, hpixels, _⟩ := CaptureLaws.captureTile_identity s (State.capturePlan tile s)
  exact {
    decodecnt := by simp [State.committed]
    refs := hrefs
    nrefs := hnrefs
    ntiles := hntiles
    npals := hnpals
    sightings := by rw [htiles, map_set_of_image_eq _ hj hcount]
    pixels := by rw [htiles, map_set_of_image_eq _ hj (by rw [hpixels, hbase])]
    usage := committed_usageSum s tile shape offset
    frequency := committed_frequencySum s tile shape offset }

end State.Drawn

/-! ## The statement -/

/-- The row check of an observed draw reads the parameters, `RSEL` and `ILINE` alone. -/
theorem exec_observedDraw_rows {i : Instr} {tile : Half} {offset : Word} {shape : Shape}
    (hdraw : observedDraw i tile offset shape) :
    observed shape = true ∧ ∃ (rows : State → Bool) (plots : State → List PlotCall),
      (∀ s, exec i s
        = .next (if rows s then State.tileCommand tile shape offset plots s else s.raise .tileRange))
      ∧ ∀ s t : State, t.cfg = s.cfg → t.ctx.rsel = s.ctx.rsel → t.ctx.iline = s.ctx.iline →
          rows t = rows s := by
  have hrows : ∀ (sl : BitVec 6) (n : Nat) (s t : State), t.cfg = s.cfg → t.ctx.rsel = s.ctx.rsel →
      t.ctx.iline = s.ctx.iline → t.rowsOk tile sl n = s.rowsOk tile sl n := by
    intro sl n s t hcfg hrsel hiline
    unfold State.rowsOk State.srcOfs State.vflip State.bpStart State.srcPitch
    rw [hcfg, hrsel, hiline]
  obtain ⟨sl, lc, rfl, rfl⟩ | ⟨sp, w, sl, lc, rfl, rfl⟩ := hdraw
  · exact ⟨rfl, _, _, fun _ => rfl, hrows sl _⟩
  · exact ⟨rfl, _, _, fun _ => rfl, hrows sl _⟩

theorem prepared_captured (s : State) (tile : Half) (shape : Shape) (offset : Word) :
    Prepared s (s.captured tile shape offset) :=
  (prepared_selected s tile).trans (prepared_captureCommit _ _ shape offset)

/-- A pixel loop moves no count. -/
theorem OnlyCounts.runPlots {s c : State} (h : OnlyCounts s c) (ps : List PlotCall) :
    OnlyCounts s (c.runPlots ps) := by
  obtain ⟨w, ⟨_, _, hdrawn⟩, hrun | hrun⟩ := runPlots_rest ps c <;> rw [hrun, hdrawn.rest] <;>
    exact ⟨h.decodecnt, h.refs, h.nrefs, h.ntiles, h.npals, h.sightings, h.pixels, h.usage, h.frequency⟩

/-- An observed draw that ends without a fault has drawn from the state of its capture, and the same command
goes on as a tile command again. -/
theorem observedDraw_completed {i : Instr} {s t : State} {tile : Half} {offset : Word} {shape : Shape}
    (hdraw : observedDraw i tile offset shape) (hcapture : s.ctx.capen = true)
    (hexec : exec i s = .next t) (hresponse : t.response = some (.ok (.word 0)))
    (hopaque : (State.resolve tile s).selectedFlag ≠ 2) :
    observed shape = true ∧ t.ctx.capen = true
      ∧ (∃ A B w, Draws A B (s.captured tile shape offset) w ∧ t = State.done (.word 0) w)
      ∧ ∃ plots, exec i t = .next (State.tileCommand tile shape offset plots t) := by
  obtain ⟨hobserved, rows, plots, hi, hsame⟩ := exec_observedDraw_rows hdraw
  obtain rfl := Host.Outcome.next.inj ((hi s).symm.trans hexec)
  cases hrows : rows s with
  | false => rw [hrows] at hresponse; cases hresponse
  | true =>
    rw [hrows] at hresponse
    rw [if_pos rfl] at hresponse ⊢
    cases hfull : (s.drawnFrom tile).captureFull (State.capturePlan tile (s.drawnFrom tile)) with
    | true =>
      rw [tileCommand_full offset plots hcapture hobserved hopaque hfull] at hresponse
      cases hresponse
    | false =>
      rw [tileCommand_captured offset plots hcapture hobserved hopaque hfull] at hresponse ⊢
      obtain ⟨w, ⟨A, B, hdrawn⟩, hrun | hrun⟩ := runPlots_rest (plots (s.captured tile shape offset))
        (s.captured tile shape offset)
      · have hprepared := prepared_captured s tile shape offset
        have hctx := hdrawn.ctx
        have hagain : rows (State.done (.word 0) w) = true :=
          (hsame s (State.done (.word 0) w) (hdrawn.cfg.trans hprepared.cfg)
            ((congrArg Ctx.rsel hctx).trans hprepared.rsel)
            ((congrArg Ctx.iline hctx).trans (by rw [hprepared]))).trans hrows
        rw [hrun]
        exact ⟨hobserved, (congrArg Ctx.capen hctx).trans (by rw [hprepared]; exact hcapture),
          ⟨A, B, w, hdrawn, rfl⟩, plots, by rw [hi, hagain, if_pos rfl]⟩
      · rw [hrun] at hresponse; cases hresponse

/-- Settles O51: the first draw leaves the second one only its two counts. -/
theorem secondDrawInFrame : Obligations.SecondDrawInFrame := by
  intro i s t u tile offset shape hdraw hcapture hexec hresponse hexec' hopaque
  obtain ⟨hobserved, hcapture', ⟨A, B, w, hdrawn, hw⟩, plots, hagain⟩ :=
    observedDraw_completed hdraw hcapture hexec hresponse hopaque
  have ht : t.Drawn tile := hw ▸ ((captured_drawn shape offset hopaque).draws hdrawn).done _
  have hroom : (t.drawnFrom tile).captureFull (State.capturePlan tile (t.drawnFrom tile)) = false := by
    rw [ht.drawnFrom]; exact ht.captureFull
  have hu : OnlyCounts t u := by
    rw [tileCommand_captured offset plots hcapture' hobserved ht.resolve_notBlank hroom,
      ht.captured] at hagain
    rw [← Host.Outcome.next.inj (hagain.symm.trans hexec')]
    exact (ht.onlyCounts shape offset).runPlots _
  exact ⟨hu.decodecnt, hu.refs, hu.nrefs, hu.ntiles, hu.npals, hu.sightings, hu.pixels, hu.usage,
    hu.frequency⟩

end Sys2Proof.Machine
end

section
/-! SUPPORT and O7. The halted block (rule R303): its packets wait, and the first move of another kind is taken
past them. -/

namespace Sys2Proof.Machine

theorem firstEnabled_packets {ms : List HostMove} (h : ∀ m ∈ ms, m.isPacket = true) :
    firstEnabled true ms = none := by
  induction ms with
  | nil => rfl
  | cons m ms ih =>
    obtain ⟨hm, hms⟩ := List.forall_mem_cons.mp h
    simp [firstEnabled, hm, ih hms]

theorem firstEnabled_past_packets {pre rest : List HostMove} {m : HostMove}
    (hpre : ∀ p ∈ pre, p.isPacket = true) (hm : m.isPacket = false) :
    firstEnabled true (pre ++ m :: rest) = some (m, pre ++ rest) := by
  induction pre with
  | nil => simp [firstEnabled, hm]
  | cons p pre ih =>
    obtain ⟨hp, hpre⟩ := List.forall_mem_cons.mp hpre
    simp [firstEnabled, hp, ih hpre]

section Halted

variable {s : State} (hhalt : s.ctx.status.halt = true)
include hhalt

theorem step_halted_packets (hmoves : ∀ m ∈ s.moves, m.isPacket = true) : step s = .next s := by
  have hnext : s.nextMove = none := by rw [State.nextMove, hhalt, firstEnabled_packets hmoves]
  unfold step stepOnce
  rw [hnext]

theorem step_halted_access {pre rest : List HostMove} {m : HostMove}
    (hpre : ∀ p ∈ pre, p.isPacket = true) (hm : m.isPacket = false)
    (hmoves : s.moves = pre ++ m :: rest) : step s = runMove m { s with moves := pre ++ rest } := by
  have hnext : s.nextMove = some (m, pre ++ rest) := by
    rw [State.nextMove, hhalt, hmoves, firstEnabled_past_packets hpre hm]
  unfold step stepOnce
  rw [hnext]

/-- Everything a halted block can do: it has packets alone and does nothing, or it takes the first move that is
no packet. -/
theorem step_halted_cases :
    step s = .next s
      ∨ ∃ pre m rest, s.moves = pre ++ m :: rest ∧ m.isPacket = false
        ∧ step s = runMove m { s with moves := pre ++ rest } := by
  cases hfind : s.moves.find? fun m => !m.isPacket with
  | none => exact .inl (step_halted_packets hhalt (by simpa using hfind))
  | some m =>
    obtain ⟨hm, pre, rest, hmoves, hpre⟩ := List.find?_eq_some_iff_append.mp hfind
    have hm : m.isPacket = false := by simpa using hm
    exact .inr ⟨pre, m, rest, hmoves, hm, step_halted_access hhalt (by simpa using hpre) hm hmoves⟩

end Halted

/-- No register, response or record changes, and no slot of the tile cache. -/
def State.sameBlock (s t : State) : Prop :=
  t.ctx = s.ctx ∧ t.response = s.response ∧ t.tiles = s.tiles ∧ t.pals = s.pals ∧ t.refs = s.refs
    ∧ t.tcbuf = s.tcbuf ∧ t.tcflag = s.tcflag

theorem hardReset_ends_halt (s : State) :
    s.hardReset.ctx.status.halt = false ∧ s.hardReset.afterReset :=
  ⟨rfl, poweredOn_afterReset _ _ _⟩

/-- An access through the memory port changes nothing of the block; the other move that is no packet is the
hardware reset. -/
theorem runMove_access {m : HostMove} {s t : State} (hm : m.isPacket = false)
    (h : runMove m s = .next t) :
    t.moves = s.moves ∧ (s.sameBlock t ∨ (t.ctx.status.halt = false ∧ t.afterReset)) := by
  cases m with
  | packet p => cases hm
  | write sp k v =>
    rw [runMove] at h
    split at h
    · cases h
      exact ⟨State.hostWrite_moves .., .inl ⟨State.hostWrite_ctx .., State.hostWrite_response ..,
        State.hostWrite_tiles .., State.hostWrite_pals .., State.hostWrite_refs ..,
        State.hostWrite_tcbuf .., State.hostWrite_tcflag ..⟩⟩
    · cases h
  | read sp k =>
    rw [runMove] at h
    split at h
    · cases h
      exact ⟨rfl, .inl ⟨rfl, rfl, rfl, rfl, rfl, rfl, rfl⟩⟩
    · cases h
  | hardReset =>
    cases h
    exact ⟨rfl, .inr (hardReset_ends_halt s)⟩

/-- Settles O7: a halted block takes the first move that is no packet, and only the hardware reset among these
is more than an access to a memory. -/
theorem haltedBlock : Obligations.HaltedBlock := by
  intro s hhalt
  refine ⟨step_halted_packets hhalt, fun t ht => ?_, fun pre sp k rest hpre hmoves hk => ?_,
    fun pre rest hpre hmoves => ⟨_, step_halted_access hhalt hpre rfl hmoves, hardReset_ends_halt _⟩⟩
  · obtain hidle | ⟨pre, m, rest, hmoves, hm, htaken⟩ := step_halted_cases hhalt
    · cases hidle.symm.trans ht
      exact ⟨rfl, .inl ⟨rfl, rfl, rfl, rfl, rfl, rfl, rfl⟩⟩
    · obtain ⟨hrest, hblock⟩ := runMove_access hm (htaken.symm.trans ht)
      refine ⟨?_, hblock⟩
      rw [hrest, hmoves]
      simp [hm]
  · exact (step_halted_access hhalt hpre rfl hmoves).trans (if_pos hk)

end Sys2Proof.Machine
end

section
/-! SUPPORT and O42. The checks of the TR commands that come before any change (rules R305, R307): what raises
each, in its order. -/

namespace Sys2Proof.Machine

section Mode7

variable {s : State} (bg : Bg) (left right : Half) (d : Byte)

theorem m7Row_of_not_linesInTable (hlines : ¬ s.linesInTable) :
    State.m7Row bg left right d s = s.raise .lineRange :=
  if_neg (mt (linesOk_iff s).mp hlines)

theorem m7MosaicRow_of_phase (hphase : s.ctx.vmosaic.toNat ≤ s.ctx.mosaicstart.toNat) :
    State.m7MosaicRow bg left right d s = s.raise .illegalOperand :=
  if_pos hphase

theorem m7MosaicRow_of_lines (hphase : s.ctx.mosaicstart.toNat < s.ctx.vmosaic.toNat)
    (hlines : s.ctx.starty.toNat < s.ctx.mosaicstart.toNat ∨ ¬ s.blocksInTable) :
    State.m7MosaicRow bg left right d s = s.raise .lineRange := by
  obtain ⟨hflat, _⟩ | ⟨_, _, h⟩ | ⟨_, hstart, hok, _⟩ := CaptureLaws.m7MosaicRow_cases bg left right d s
  · exact absurd hphase (Nat.not_lt.mpr hflat)
  · exact h
  · exact absurd hlines (not_or.mpr ⟨Nat.not_lt.mpr hstart,
      not_not_intro ((mosaicLinesOk_iff_blocksInTable s).mp hok)⟩)

/-- Both mosaic commands run the one meaning, each under its own parameterisation (rules R241, R242). -/
theorem exec_mosaic {i : Instr} (hi : i = .trM7mbg1 left right d ∨ i = .trM7mbg2 left right d) :
    ∃ bg, exec i s = .next (State.m7MosaicRow bg left right d s) := by
  obtain rfl | rfl := hi
  · exact ⟨.bg1, rfl⟩
  · exact ⟨.bg2, rfl⟩

end Mode7

/-- A line without a source row fails the row check of a tile command. -/
theorem raise_of_not_rowDrawn {s t : State} {tile : Half} {sl : BitVec 6} {lines k : Nat} (hk : k < lines)
    (hrow : ¬ s.rowDrawn tile sl k) :
    (if s.rowsOk tile sl lines then t else s.raise .tileRange) = faultState .tileRange s :=
  if_neg fun hrows => hrow ((rowsOk_iff s tile sl lines).mp hrows k hk)

/-- Settles O42: each check fails before anything is written, and a fault raised then is the state before plus
`STATUS` and the response. -/
theorem preciseRangeFaults : Obligations.PreciseRangeFaults := by
  refine ⟨fun s tile offset sl lc k hk hrow => ?_, fun s tile offset sl sp w lc hrow => ?_,
    fun s left right d hlines => ?_, fun i s left right d hi => ?_⟩
  · exact ⟨congrArg _ (raise_of_not_rowDrawn hk hrow),
      fun _ _ => congrArg _ (raise_of_not_rowDrawn hk hrow)⟩
  · exact congrArg _ (if_neg (mt (rowOk_srcOfs s tile sl 0).mp hrow))
  · exact ⟨congrArg _ (m7Row_of_not_linesInTable .bg1 left right d hlines),
      congrArg _ (m7Row_of_not_linesInTable .bg2 left right d hlines)⟩
  · obtain ⟨bg, hexec⟩ := exec_mosaic (s := s) left right d hi
    rw [hexec]
    exact ⟨fun hphase => congrArg _ (m7MosaicRow_of_phase bg left right d hphase),
      fun hphase hlines => congrArg _ (m7MosaicRow_of_lines bg left right d hphase hlines)⟩

end Sys2Proof.Machine
end

section
/-! SUPPORT and O60. With `CAPEN` = 0 a drawing command neither reads nor writes the catalog (rules R272, R314):
each operation commutes with an exchange of catalog and response, and the command that ends then sets the
response. -/

namespace Sys2Proof.Machine

/-! ## What `F_BUF_RANGE` leaves behind -/

theorem freeTZ_borrow (i : Nat) (s c : State) :
    State.freeTZ i (s.borrow c) = (State.freeTZ i s).borrow c :=
  congrArg (fun t : State => { t with freeCount := s.freeCount + 1 }) (writeTZ_borrow i _ s c)

theorem freeScreen_borrow (is : List Nat) (s c : State) :
    State.freeScreen is (s.borrow c) = (State.freeScreen is s).borrow c := by
  induction is generalizing s with
  | nil => rfl
  | cons i is ih => rw [State.freeScreen, freeTS_borrow, ih]; rfl

theorem freeDepth_borrow (is : List Nat) (s c : State) :
    State.freeDepth is (s.borrow c) = (State.freeDepth is s).borrow c := by
  induction is generalizing s with
  | nil => rfl
  | cons i is ih => rw [State.freeDepth, freeTZ_borrow, ih]; rfl

theorem storeDepths_borrow (v : AddrMode) (p : PlotCall) (s c : State) :
    (s.borrow c).storeDepths v p = (s.storeDepths v p).borrow c :=
  List.foldl_hom (State.borrow · c) fun t i => writeTZ_borrow i p.z2 t c

theorem writers_borrow (v : AddrMode) (ps : List PlotCall) (s c : State) :
    writers v ps (s.borrow c) = writers v ps s := by
  induction ps generalizing s with
  | nil => rfl
  | cons p ps ih =>
    have hwrites : (s.borrow c).couldWrite v p = s.couldWrite v p := rfl
    rw [writers, writers, hwrites, storeDepths_borrow, ih, ih]

theorem scramble_borrow (v : AddrMode) (ps : List PlotCall) (s c : State) :
    (s.borrow c).scramble v ps = (s.scramble v ps).borrow c := by
  have hscreen : ∀ ws, screenFootprint v ws (s.borrow c) = screenFootprint v ws s := fun _ => rfl
  have hdepth : ∀ ws, depthFootprint v ws (s.borrow c) = depthFootprint v ws s := fun _ => rfl
  simp only [State.scramble]
  rw [writers_borrow, hscreen, hdepth, freeScreen_borrow, freeDepth_borrow]

/-! ## Plots and pixel loops -/

theorem plotCommand_borrow (v : AddrMode) (p : PlotCall) (s c : State) :
    (s.borrow c).plotCommand v p = (s.plotCommand v p).withCatalogOf c := by
  unfold State.plotCommand
  rw [plotVariant_borrow]
  cases plotVariant v p s with
  | ended t => rfl
  | outAtBase => rfl
  | outAtCombined => exact congrArg (State.raise .bufRange) (scramble_borrow v [p] s c)

theorem plotAll_borrow (ps : List PlotCall) (s c : State) :
    plotAll ps (s.borrow c) = (plotAll ps s).map (State.borrow · c) := by
  induction ps generalizing s with
  | nil => rfl
  | cons p ps ih =>
    have hplot : plot p (s.borrow c) = (plot p s).map (·.borrow c) := plotVariant_borrow _ p s c
    rw [plotAll, plotAll, hplot]
    cases plot p s with
    | ended t => exact ih t
    | outAtBase => rfl
    | outAtCombined => rfl

theorem runPlots_borrow (ps : List PlotCall) (s c : State) :
    (s.borrow c).runPlots ps = (s.runPlots ps).withCatalogOf c := by
  unfold State.runPlots
  rw [plotAll_borrow]
  cases plotAll ps s with
  | some t => rfl
  | none => exact congrArg (State.raise .bufRange) (scramble_borrow _ ps s c)

/-! ## The TR commands -/

theorem ite_withCatalogOf {ok : Prop} [Decidable ok] {t t' u u' c : State} (ht : t' = t.withCatalogOf c)
    (hu : u' = u.withCatalogOf c) :
    (if ok then t' else u') = (if ok then t else u).withCatalogOf c := by
  rw [ht, hu, apply_ite (State.withCatalogOf · c)]

theorem selectPalette_borrow (tile : Half) (s c : State) :
    State.selectPalette tile (s.borrow c) = (State.selectPalette tile s).borrow c := rfl

theorem resolve_borrow (tile : Half) (s c : State) :
    State.resolve tile (s.borrow c) = (State.resolve tile s).borrow c := by
  by_cases h : s.slotFlag s.ctx.bpp (s.hflip tile) (s.tileNumber tile) = 0
  · have hborrowed : State.resolve tile (s.borrow c) = _ := resolve_of_fresh h
    rw [hborrowed, resolve_of_fresh h]
    rfl
  · have hborrowed : State.resolve tile (s.borrow c) = _ := resolve_of_decoded h
    rw [hborrowed, resolve_of_decoded h]
    rfl

theorem tilePlots_borrow (tile : Half) (offset : Word) (sl : BitVec 6) (lines : Nat) (cols : List Nat)
    (s c : State) :
    State.tilePlots tile offset sl lines cols (s.borrow c) = State.tilePlots tile offset sl lines cols s :=
  rfl

theorem mospixPlots_borrow (tile : Half) (offset : Word) (sl : BitVec 6) (sp : BitVec 3) (w lines : Nat)
    (s c : State) :
    State.mospixPlots tile offset sl sp w lines (s.borrow c)
      = State.mospixPlots tile offset sl sp w lines s := rfl

/-- A tile command whose plots do not depend on the catalog. -/
theorem tileCommand_borrow (tile : Half) (shape : Shape) (offset : Word)
    {plots : State → List PlotCall} (hplots : ∀ u c, plots (State.borrow u c) = plots u) {s : State}
    (hcapen : s.ctx.capen = false) (c : State) :
    State.tileCommand tile shape offset plots (s.borrow c)
      = (State.tileCommand tile shape offset plots s).withCatalogOf c := by
  have hflag : (State.resolve tile (s.borrow c)).selectedFlag = (State.resolve tile s).selectedFlag := by
    rw [resolve_borrow]
    rfl
  by_cases hblank : (State.resolve tile s).selectedFlag = 2
  · rw [tileCommand_blank shape offset plots (hflag.trans hblank),
      tileCommand_blank shape offset plots hblank, resolve_borrow]
    rfl
  · have hcapen' : (s.borrow c).ctx.capen = false := hcapen
    rw [tileCommand_captureOff shape offset plots (hflag ▸ hblank) hcapen',
      tileCommand_captureOff shape offset plots hblank hcapen, resolve_borrow, selectPalette_borrow,
      hplots, runPlots_borrow]

/-- The tile commands are this, each with its own row check. -/
theorem checkedTile_borrow (rows : Bool) (tile : Half) (shape : Shape) (offset : Word)
    {plots : State → List PlotCall} (hplots : ∀ u c, plots (State.borrow u c) = plots u) {s : State}
    (hcapen : s.ctx.capen = false) (c : State) :
    (if rows then State.tileCommand tile shape offset plots (s.borrow c)
        else State.raise .tileRange (s.borrow c))
      = (if rows then State.tileCommand tile shape offset plots s
          else State.raise .tileRange s).withCatalogOf c :=
  ite_withCatalogOf (tileCommand_borrow tile shape offset hplots hcapen c) rfl

theorem m7Row_borrow (bg : Bg) (left right : Half) (d : Byte) (s c : State) :
    State.m7Row bg left right d (s.borrow c) = (State.m7Row bg left right d s).withCatalogOf c :=
  ite_withCatalogOf (runPlots_borrow _ (State.setScsel (s.m7Scsel bg) s) c) rfl

theorem m7MosaicRow_borrow (bg : Bg) (left right : Half) (d : Byte) (s c : State) :
    State.m7MosaicRow bg left right d (s.borrow c)
      = (State.m7MosaicRow bg left right d s).withCatalogOf c :=
  ite_withCatalogOf rfl <| ite_withCatalogOf rfl <|
    ite_withCatalogOf (runPlots_borrow _ (State.setScsel (s.m7Scsel bg) s) c) rfl

/-! ## The statement -/

/-- A drawing command under `CAPEN` = 0 does the same with any catalog and any response put in the state. -/
theorem exec_borrow {i : Instr} {s t : State} (hdraws : draws i = true) (hcapen : s.ctx.capen = false)
    (h : exec i s = .next t) (c : State) : exec i (s.borrow c) = .next (t.withCatalogOf c) := by
  cases i
  case plotN1x1 | plotN2x1 | plotInt | plotHires | plotHiresint =>
    cases h; exact congrArg _ (plotCommand_borrow _ _ s c)
  case trTile tile offset sl lc =>
    cases h
    exact congrArg _ (checkedTile_borrow (s.rowsOk tile sl lc.toNat) tile .tile offset
      (tilePlots_borrow tile offset sl lc.toNat (List.range 8)) hcapen c)
  case trClip tile offset sp w sl lc =>
    cases h
    exact congrArg _ (checkedTile_borrow (s.rowsOk tile sl lc.toNat) tile .clip offset
      (tilePlots_borrow tile offset sl lc.toNat (clipColumns sp w)) hcapen c)
  case trMospix tile offset sl sp w lc =>
    cases h
    exact congrArg _ (checkedTile_borrow (rowOk (s.srcOfs tile sl 0)) tile .mospix offset
      (mospixPlots_borrow tile offset sl sp w.toNat lc.toNat) hcapen c)
  case trBackdrop => cases h; exact congrArg _ (runPlots_borrow _ (State.setScsel s.backdropScsel s) c)
  case trM7bg1 | trM7bg2 => cases h; exact congrArg _ (m7Row_borrow _ _ _ _ s c)
  case trM7mbg1 | trM7mbg2 => cases h; exact congrArg _ (m7MosaicRow_borrow _ _ _ _ s c)
  all_goals cases hdraws

/-- Settles O60: a state with another catalog has another catalog and its own response. -/
theorem captureOffDrawsAlike : Obligations.CaptureOffDrawsAlike :=
  fun _ s c _ hdraws hcapen hexec =>
    exec_borrow hdraws hcapen hexec { c with response := s.response }

end Sys2Proof.Machine
end
